-- ==== Sys2Proof/Word.lean ====
section
/-! DEFINITION. The words of the WB-7310 (spec 0.5, 0.6): a byte, a unit of 16 bytes, a 256-bit key, and the widths of
sector numbers and unit addresses. Byte 0 of a unit or key is its least significant byte (R1). -/

namespace Sys2Proof

/-- One byte. -/
abbrev Byte := BitVec 8

/-- A unit: 16 bytes, byte 0 (bus lane 0) least significant (spec 0.6, R1). -/
abbrev Block := BitVec 128

/-- A data key or tweak key: 32 bytes, byte 0 least significant (R1). -/
abbrev Key := BitVec 256

/-- A sector number, 40 bits (spec 0.6). -/
abbrev Sector := BitVec 40

/-- A unit address on the media side, 28 bits (spec 0.6). -/
abbrev UnitAddr := BitVec 28

/-- One bit for each of the 16 byte lanes of a beat. -/
abbrev Lanes := BitVec 16

/-- A set of movers, bit m for mover m (R177). -/
abbrev MoverSet := BitVec 8

/-- A key slot's generation, 0..255 (R54). -/
abbrev Generation := BitVec 8

/-- A context number, 0..31: also the tag of its downstream requests (R71). -/
abbrev CtxNo := Fin 32

/-- A key slot's index, 0..31 (R52). -/
abbrev SlotNo := Fin 32

/-- A range's index, 0..15 (R34). -/
abbrev RangeNo := Fin 16

/-- A window's index, 0..7 (R18). -/
abbrev WindowNo := Fin 8

end Sys2Proof
end

