-- ==== Sys2Proof/Syntax.lean ====
section
/-! DEFINITION. The commands of the WB-7310: one constructor of `Instr` for each row of spec/opcode_table.json, in the
table's order, with what the event carries. Each command is one action of the part (spec 95_what_each_step_holds.md). -/

namespace Sys2Proof

/-- The six tests of the self-test, in the order they run (R159). -/
inductive KnownAnswerTest
  | expansion | doubler | outbound | inbound | checker | monitor
deriving DecidableEq, Repr

/-- A request header as the mover drives it: twelve bytes (byte 0 least significant) and one parity bit a byte (R98, R99). -/
structure Header where
  bytes  : BitVec 96
  parity : BitVec 12
deriving DecidableEq, Repr

/-- A data beat: one unit, one parity bit for each lane, one byte-enable line for each lane (R98). -/
structure Beat where
  data    : Block
  parity  : Lanes
  enables : Lanes
deriving DecidableEq, Repr

/-- A unit returned by the media: its index within the request, its bytes and their parity bits (R104, R114). -/
structure ReturnedUnit where
  index  : Fin 256
  data   : Block
  parity : Lanes
deriving DecidableEq, Repr

/-- The five kinds of request on the media segment; an answer names the kind it answers (R104). -/
inductive MediaRequest
  | fetch | store | holdFetch | releaseStore | cancel
deriving DecidableEq, Repr

/-- The commands. A command period carries the bits shifted in on KDI, the first one first; a read period the number of its
clocks (R173). -/
inductive Instr
  | powerOnReset (clearAsserted : Bool)
  | selfTestEnd (failed : Option KnownAnswerTest)
  | segmentClear
  | segmentClearDeasserted
  | requestHeader (h : Header)
  | storeBeat (b : Beat)
  | beatDropped
  | returnPathDelivery
  | sectorTweak (n : CtxNo)
  | catchUp (n : CtxNo)
  | outboundVerify (disturbance : Block)
  | inboundDecipher
  | fetchIssue
  | pieceIssue
  | cancelIssue
  | accept (n : CtxNo) (kind : MediaRequest)
  | fetchUnit (n : CtxNo) (u : ReturnedUnit)
  | holdFetchUnit (n : CtxNo) (u : ReturnedUnit)
  | fetchDone (n : CtxNo)
  | pieceDone (n : CtxNo)
  | holdFetchDone (n : CtxNo)
  | releaseStoreDone (n : CtxNo)
  | mediaError (n : CtxNo) (kind : MediaRequest)
  | cancelAnswer (n : CtxNo) (isError : Bool)
  | unroutableArrival
  | answerTimerExpiry (n : CtxNo)
  | cancelTimeout (n : CtxNo)
  | expansionStart
  | expansionCompletion
  | erasureCompletion (k : SlotNo)
  | tableMonitorVisit
  | idleExpiry (r : RangeNo)
  | presenceLapse
  | dwellEnd
  | commandPeriod (first rest : List Bool)
  | preparationEnd
  | readPeriod (clocks : Nat)
  | status
  | readFault
  | readAbort
  | loadKey (slot : Byte) (dataKey tweakKey : Key)
  | scrubKey (slot : Byte)
  | flushSchedules
  | setRange (index : Byte) (first : Sector) (count : BitVec 48) (binding lockOnAbsence : Byte) (idleInterval : BitVec 24)
  | openRange (index mode : Byte)
  | lockRange (index : Byte)
  | setWindow (index treatment : Byte) (first last : BitVec 32) (direction : Byte) (movers relocation : MoverSet)
  | setLimit (limit : BitVec 48)
  | freeze
  | go
  | recover
  | armPresence (interval : BitVec 16)
  | renew
  | setAlert (enables : BitVec 16)
  | clearEvents (events : BitVec 16)
  | clearFault
  | clearTallies
deriving DecidableEq, Repr

end Sys2Proof
end

