-- ==== Sys2Proof/Decode.lean ====
section
/-! DEFINITION. The decoder the host asks for. The rows of spec/opcode_table.json give no command any bits ("fields" is
empty in every row), so no word spells a command (log entry 27). The decoders the spec does give, of the request header
(R99) and of the key link's frames (R172, R176, R177), stand in Machine/Operands.lean. -/

namespace Sys2Proof

/-- The command that a word of `nbits` bits spells by the table's bits: none, since the table gives none. -/
def decodeTableWord (_nbits _w : Nat) : Option Instr := none

end Sys2Proof
end

