-- ==== Sys2Proof/Config.lean ====
section
/-! DEFINITION. What the part fixes and the spec does not state: constants without a body, so that no proof can lean on a
value of them (log entries 2, 4, 10 and 19). -/

namespace Sys2Proof.Config

/-- The check word of a window record, as a function of its stored fields written as numbers (R18, R168). The spec says
the function is fixed in the part and gives none of its values. -/
opaque windowCheck : List Nat → BitVec 16

/-- The check word of a range record, as a function of its stored fields written as numbers (R34, R168). -/
opaque rangeCheck : List Nat → BitVec 16

/-- The check word of a key-slot record, as a function of its stored fields written as numbers (R52, R168). -/
opaque slotCheck : List Nat → BitVec 16

/-- Which of two timers reached by one tick acts first (R147: either may). Applied to `State.choices`. -/
opaque tickOrder : Nat → Bool

/-- The byte STATUS gives for a slot whose stored state is none of the four (R64 names such a state, R177 has no code
for it). -/
opaque undefinedSlotCode : SlotNo → Byte

/-- The bytes of a request header or an end mark on the media segment, as a function of its fields written as numbers (R104
names the fields and lays out no bytes). -/
opaque mediaBytes : List Nat → List Byte

/-- The bytes of the answer to a header on the controller segment, as a function of its code written as numbers (R74, R103). -/
opaque answerBytes : List Nat → List Byte

/-- The bytes of a completion on the controller segment, as a function of its fields written as numbers (R103). -/
opaque completionBytes : List Nat → List Byte

end Sys2Proof.Config
end

