-- ==== Sys2Proof/Machine/State.lean ====
section
/-! DEFINITION. The state of the part: every record, register, queue, counter and pin the spec names, block by block, and
the state after power-on reset. INVENTORY.md lists each with its rule and reset value. -/

namespace Sys2Proof.Machine

/-! ## Containment unit (chapter 10) -/

/-- The device state (R158). -/
inductive DeviceState
  | selfTest | config | service | contained
deriving DecidableEq, Repr

/-- Device state, dwell timer (`none` is ENDED, `some n` is RUNNING with n coarse ticks left, R164) and the table
monitor's cursor (R167). -/
structure Containment where
  device : DeviceState
  dwell  : Option Nat
  cursor : Fin 56
deriving DecidableEq, Repr

/-- The kinds of fault (R170). -/
inductive FaultKind
  | engine | selfTestFail | tableCheck | parityUp | parityDown | mediaTimeout | cancelTimeout
deriving DecidableEq, Repr

/-- The three monitored tables (R168). -/
inductive Table
  | window | range | key
deriving DecidableEq, Repr

/-- Context number, mover and tag of a fault record (R170). -/
structure FaultContext where
  number : CtxNo
  mover  : Fin 8
  tag    : Fin 16
deriving DecidableEq, Repr

/-- A table and the index of an entry in it (R168, R170). -/
structure TableEntry where
  table : Table
  index : Nat
deriving DecidableEq, Repr

/-- A record of the fault log: kind, device state before any change the fault causes, and the optional fields (R170). -/
structure FaultRecord where
  kind   : FaultKind
  device : DeviceState
  ctx    : Option FaultContext
  sector : Option Sector
  entry  : Option TableEntry
  test   : Option KnownAnswerTest
deriving DecidableEq, Repr

/-- The fault log: the count, 0..255, and the first record (R170). -/
structure FaultLog where
  count : Nat
  first : Option FaultRecord
deriving DecidableEq, Repr

/-! ## Window decoder (chapter 2) -/

/-- A window's treatment (R18). -/
inductive Treatment
  | empty | cipher | clear | block | faulted
deriving DecidableEq, Repr

/-- A window's direction (R18). -/
inductive Direction
  | fetchOnly | storeOnly | both
deriving DecidableEq, Repr

/-- A window record (R18). -/
structure Window where
  treatment  : Treatment
  first      : UnitAddr
  last       : UnitAddr
  direction  : Direction
  movers     : MoverSet
  relocation : MoverSet
  check      : BitVec 16
deriving DecidableEq, Repr

/-- The window table, the freeze flag and the sector limit (R18, R29, R31). -/
structure Decoder where
  windows : Vector Window 8
  frozen  : Bool
  limit   : Nat
deriving DecidableEq, Repr

/-! ## Range table (chapter 3) -/

/-- A range's state (R34). -/
inductive RangeState
  | locked | openRW | openRO | faulted
deriving DecidableEq, Repr

/-- First sector and sector count; a count of 0 leaves the range undefined (R34). -/
structure Span where
  first : Sector
  count : Nat
deriving DecidableEq, Repr

/-- A range record (R34). `span` is absent for range 0; `idleRemaining` is present only while the idle timer runs. -/
structure Range where
  span          : Option Span
  binding       : Option SlotNo
  state         : RangeState
  lockOnAbsence : Bool
  idleInterval  : Nat
  idleRemaining : Option Nat
  check         : BitVec 16
deriving DecidableEq, Repr

/-! ## Key table (chapter 4) -/

/-- The data key and the tweak key of a slot (R52). -/
structure KeyPair where
  dataKey  : Key
  tweakKey : Key
deriving DecidableEq, Repr

/-- What started a scrub (R52). -/
inductive ScrubCause
  | command | check
deriving DecidableEq, Repr

/-- A slot's state with the fields it makes present: keys in LOADED and SCRUBBING, the cause in SCRUBBING (R52).
`undefined` is a stored state that is none of the four (R64). -/
inductive SlotBody
  | empty
  | loaded (keys : KeyPair)
  | scrubbing (keys : KeyPair) (cause : ScrubCause)
  | faulted
  | undefined (keys : KeyPair)
deriving DecidableEq, Repr

/-- A key-slot record (R52). -/
structure Slot where
  body       : SlotBody
  generation : Generation
  check      : BitVec 16
deriving DecidableEq, Repr

/-! ## Context table (chapter 5) -/

/-- The transfer direction of a transaction (R71). -/
inductive Kind
  | fetch | store
deriving DecidableEq, Repr

/-- The treatment of a context (R71). -/
inductive Passage
  | cipher | raw | clear
deriving DecidableEq, Repr

/-- The reply codes (spec 0.7, R87). -/
inductive Reply
  | ok | retry | denied | bound | noTag | locked | fault | revoked | parity | timeout | media
deriving DecidableEq, Repr

/-- The states of a context (R71). -/
inductive CtxState
  | waitKey | stream | hold | close | cancel | stranded
deriving DecidableEq, Repr

/-- The progress of a context's CANCEL (R71). -/
inductive CancelProgress
  | none | sent | answered
deriving DecidableEq, Repr

/-- What a CIPHER context captures at admission (R39, R71). -/
structure Capture where
  range      : RangeNo
  slot       : SlotNo
  generation : Generation
  sector     : Sector
  offset     : Byte
deriving DecidableEq, Repr

/-- Whether a fetch's FETCH has been issued, and whether the media has ended it with DONE or ERROR (R105, R108). -/
inductive FetchProgress
  | notIssued | issued | ended
deriving DecidableEq, Repr

/-- What a context's answer timer times (R110). The RELEASE-STORE's DONE (R140) is timed as `done`. -/
inductive TimerPhase
  | accept | unit | done | cancelAnswer
deriving DecidableEq, Repr

/-- A running answer timer: the phase and the counted ticks left of 128 (R110). `unitWaits` notes that a returned unit of the
context has come in this phase and waits on the media segment for the inbound engine (R106). -/
structure AnswerTimer where
  phase     : TimerPhase
  remaining : Nat
  unitWaits : Bool := false
deriving DecidableEq, Repr

/-- The tweak an engine keeps for a context: none yet, the sector tweak with its catch-up running, or the tweak of the
context's next unit (R4, R7, R8). -/
inductive TweakState
  | absent
  | catchingUp (t0 : Block)
  | kept (t : Block)
deriving DecidableEq, Repr

/-- A context record (R71), with what the media port (`fetchProgress`, `cancelIssued`, `expected`, `timer`) and the
engines (`tweak`) hold for the context. -/
structure Context where
  number        : CtxNo
  kind          : Kind
  mover         : Fin 8
  tag           : Fin 16
  passage       : Passage
  window        : WindowNo
  capture       : Option Capture
  addr          : UnitAddr
  length        : Nat
  passed        : Nat
  pieces        : Nat
  doneSeen      : Bool
  cancel        : CancelProgress
  completionSent : Bool
  code          : Reply
  state         : CtxState
  fetchProgress : FetchProgress
  cancelIssued  : Bool
  expected      : Nat
  timer         : Option AnswerTimer
  tweak         : TweakState
deriving DecidableEq, Repr

/-- The CIPHER fields of an abort-record entry (R96). -/
structure AbortCapture where
  sector : Sector
  offset : Byte
  range  : RangeNo
deriving DecidableEq, Repr

/-- An entry of the abort record (R96). -/
structure AbortEntry where
  kind    : Kind
  mover   : Fin 8
  tag     : Fin 16
  addr    : UnitAddr
  length  : Nat
  passed  : Nat
  passage : Passage
  window  : WindowNo
  state   : CtxState
  capture : Option AbortCapture
deriving DecidableEq, Repr

/-! ## Schedule cache and key expander (chapter 7) -/

/-- An expanded key pair: the rounds of R2, each a list of round keys in the order the engine applies them. -/
structure Schedule where
  dataForward  : List Block
  dataInverse  : List Block
  tweakForward : List Block
deriving DecidableEq, Repr

/-- A valid schedule-cache entry (R119). An entry that is not valid is an absent one: it has no slot, generation or
schedule, pin count 0 and flush mark no. -/
structure Entry where
  slot       : SlotNo
  generation : Generation
  schedule   : Schedule
  pins       : Nat
  flush      : Bool
deriving DecidableEq, Repr

/-- The two ways of a set (R119). -/
inductive Way
  | way0 | way1
deriving DecidableEq, Repr

/-- A set of the cache: its two ways and its recency mark (R119). -/
structure CacheSet where
  way0   : Option Entry
  way1   : Option Entry
  recent : Way
deriving DecidableEq, Repr

/-- A request of the expansion queue (R123). -/
structure Request where
  slot       : SlotNo
  generation : Generation
  attached   : List CtxNo
deriving DecidableEq, Repr

/-- The expansion in progress (R126), with the key pair it read at its start (R125). -/
structure Expansion where
  slot       : SlotNo
  generation : Generation
  set        : Fin 4
  way        : Way
  attached   : List CtxNo
  void       : Bool
  keys       : KeyPair
deriving DecidableEq, Repr

/-- The expansion queue, oldest first, and the expansion in progress (R123, R126). -/
structure Expander where
  queue   : List Request
  current : Option Expansion
deriving DecidableEq, Repr

/-! ## The ports (chapter 6) -/

/-- The controller port's intake (R100): `beats` counts the beats taken, `dropping` the beats left and the context, if
any, whose completion the last of them hands. -/
inductive Intake
  | header
  | waiting (n : CtxNo)
  | beats (n : CtxNo) (taken : Nat)
  | dropping (left : Nat) (owner : Option CtxNo)
  | clearing
deriving DecidableEq, Repr

/-- An item of the return path (R103). -/
inductive ReturnItem
  | data (mover : Fin 8) (tag : Fin 16) (unit : Block)
  | withheld (count : Nat) (mover : Fin 8) (tag : Fin 16)
  | completion (mover : Fin 8) (tag : Fin 16) (code : Reply)
deriving DecidableEq, Repr

/-- The unit in the media port's store slot (R101). A hold's merged unit waits there too (R140). -/
structure SlotUnit where
  ctx     : CtxNo
  index   : Nat
  data    : Block
  enables : Lanes
deriving DecidableEq, Repr

/-- The media segment's request path (R105): free, held by an open piece whose ACCEPT has or has not been seen, or held
by a RELEASE-STORE until its unit is driven. -/
inductive RequestPath
  | free
  | piece (n : CtxNo) (accepted : Bool)
  | release (n : CtxNo)
deriving DecidableEq, Repr

/-- The media port's store slot, request path and clear line (R101, R105, R117). -/
structure MediaPort where
  slot        : Option SlotUnit
  path        : RequestPath
  clearDriven : Bool
deriving DecidableEq, Repr

/-- A unit on the outbound path: a beat, or the merged plaintext of a hold (R12, R139). -/
structure OutboundJob where
  ctx     : CtxNo
  index   : Nat
  data    : Block
  enables : Lanes
  merged  : Bool
deriving DecidableEq, Repr

/-- A unit in the inbound engine: of a fetch, or a hold's fetched unit (R14, R15). -/
structure InboundJob where
  ctx     : CtxNo
  data    : Block
  forHold : Bool
deriving DecidableEq, Repr

/-- The unit in process on each engine's path (R12, R14, R17). -/
structure Engines where
  outbound : Option OutboundJob
  inbound  : Option InboundJob
deriving DecidableEq, Repr

/-! ## Merge unit (chapter 8) -/

/-- The phases of a hold (R135). -/
inductive HoldPhase
  | fetch | merge | release
deriving DecidableEq, Repr

/-- The hold (R135). -/
structure Hold where
  ctx           : CtxNo
  index         : Nat
  addr          : UnitAddr
  bytes         : Block
  enables       : Lanes
  phase         : HoldPhase
  fetchAnswered : Bool
  merged        : Option Block
deriving DecidableEq, Repr

/-! ## Timebase (chapter 9) -/

/-- The presence timer (R152). -/
inductive Presence
  | idle
  | armed (interval remaining : Nat)
  | lapsed
deriving DecidableEq, Repr

/-- Presence timer, idle-locked set (bit i for range i, R151) and the fine ticks until the next coarse tick (R146). -/
structure Timebase where
  presence    : Presence
  idleLocked  : BitVec 16
  coarsePhase : Nat
deriving DecidableEq, Repr

/-- The model's own record of two things since the last fine tick. What has closed the media port to an awaited answer (R110,
log entry 25): the return path was full, the inbound engine held a unit, a hold of one of these contexts existed, the tweak
of one of these contexts was not yet kept. And which timers a row of the table has already given the tick to come (R146, R147,
log entry 5): the answer timers of these contexts, the idle timer of range i by bit i, the presence timer, the dwell timer; and
whether a row has made the monitor's visit of that tick (R167). -/
structure Marks where
  returnFull     : Bool
  inboundBusy    : Bool
  holders        : List CtxNo
  readied        : List CtxNo
  tickedAnswer   : List CtxNo
  tickedIdle     : BitVec 16
  tickedPresence : Bool
  tickedDwell    : Bool
  visited        : Bool
deriving DecidableEq, Repr

/-! ## K-port and event unit (chapter 11) -/

/-- The response buffer (R174). -/
inductive ResponseBuffer
  | empty
  | pending (frame : List Byte)
  | ready (frame : List Byte)
deriving DecidableEq, Repr

/-- Pending events, alert enables (bit e for the event numbered e, R180) and the pin ALERT_N, driven low (R181). -/
structure EventUnit where
  pending  : BitVec 10
  enables  : BitVec 10
  alertLow : Bool
deriving DecidableEq, Repr

/-- The three tallies, 0..255 (R116, R183). -/
structure Tallies where
  parity     : Nat
  timeout    : Nat
  rawIgnored : Nat
deriving DecidableEq, Repr

/-! ## What the last action drove -/

/-- The answer on the header answer lines (R74, R103). -/
inductive HeaderAnswer
  | admitted
  | refuse (code : Reply)
deriving DecidableEq, Repr

/-- What the return path delivers to a mover in one action: a beat of a fetch, or a completion (R103). -/
inductive Delivery
  | beat (mover : Fin 8) (tag : Fin 16) (b : Beat)
  | completion (mover : Fin 8) (tag : Fin 16) (code : Reply)
deriving DecidableEq, Repr

/-- What the part drives on the media segment's request path (R104): the five request headers, a store unit, an end mark. -/
inductive MediaDrive
  | fetch (n : CtxNo) (addr : UnitAddr) (length : Nat)
  | store (n : CtxNo) (addr : UnitAddr)
  | holdFetch (n : CtxNo) (addr : UnitAddr)
  | releaseStore (n : CtxNo) (addr : UnitAddr)
  | cancel (n : CtxNo)
  | unit (n : CtxNo) (b : Beat)
  | endMark (n : CtxNo)
deriving DecidableEq, Repr

/-- An item as the part drives it on the staging bus: its bytes, and one parity bit for each of them (R98). -/
structure Driven (α : Type) where
  item   : α
  bytes  : List Byte
  parity : List Bool
deriving DecidableEq, Repr

/-- What the last action drove on the part's outputs. `taken` is the handshake: whether the item was taken, or the event
took place (log entry 3). `kdo` holds one entry for each clock of a select period, the first one first; at a clock with `none`
the part does not drive KDO (R173, R175). -/
structure Outputs where
  taken        : Bool
  headerAnswer : Option (Driven HeaderAnswer)
  delivered    : Option (Driven Delivery)
  media        : List (Driven MediaDrive)
  kdo          : List (Option Bool)
deriving DecidableEq, Repr

/-- An action that has driven nothing yet. -/
def Outputs.quiet : Outputs := { taken := true, headerAnswer := none, delivered := none, media := [], kdo := [] }

/-! ## The whole state -/

/-- The state of the part, and the queue of commands that wait for it. -/
structure State where
  contain    : Containment
  faults     : FaultLog
  decoder    : Decoder
  ranges     : Vector Range 16
  slots      : Vector Slot 32
  contexts   : List Context
  abort      : List AbortEntry
  cache      : Vector CacheSet 4
  expander   : Expander
  intake     : Intake
  returnPath : List ReturnItem
  media      : MediaPort
  engines    : Engines
  hold       : Option Hold
  time       : Timebase
  marks      : Marks
  link       : ResponseBuffer
  events     : EventUnit
  tallies    : Tallies
  out        : Outputs
  choices    : Nat
  pending    : List Instr
deriving DecidableEq, Repr

/-! ## Reasons to stop -/

/-- The model has no fault that stops it: the spec's faults are records of the fault log, and the part goes on (R170). -/
inductive Fault
deriving DecidableEq, Repr

/-- Why a command is refused. -/
inductive Refusal
  /-- Raised by `exec` for a command that has no meaning in the model. No arm raises it. Safe. -/
  | notModelled (mnemonic : String)
deriving DecidableEq, Repr

/-! ## Check words (R18, R34, R52, R168) -/

/-- Codes of the payload fields (R177). -/
def Treatment.code : Treatment → Nat
  | .empty => 0 | .cipher => 1 | .clear => 2 | .block => 3 | .faulted => 4

/-- Codes of the payload fields (R177). -/
def Direction.code : Direction → Nat
  | .fetchOnly => 0 | .storeOnly => 1 | .both => 2

/-- Codes of the payload fields (R177). -/
def RangeState.code : RangeState → Nat
  | .locked => 0 | .openRW => 1 | .openRO => 2 | .faulted => 3

/-- The fields of a window record that its check word covers (R18), written as numbers. -/
def Window.fields (i : WindowNo) (w : Window) : List Nat :=
  [i.val, w.treatment.code, w.first.toNat, w.last.toNat, w.direction.code, w.movers.toNat, w.relocation.toNat]

/-- The fields of a range record that its check word covers (R34), written as numbers. -/
def Range.fields (i : RangeNo) (r : Range) : List Nat :=
  [i.val] ++
  (match r.span with
    | none => [0]
    | some sp => [1, sp.first.toNat, sp.count]) ++
  (match r.binding with
    | none => [0]
    | some k => [1, k.val]) ++
  [r.state.code, if r.lockOnAbsence then 1 else 0, r.idleInterval]

/-- The fields of a key-slot record that its check word covers (R52), written as numbers. -/
def Slot.fields (k : SlotNo) (s : Slot) : List Nat :=
  [k.val, s.generation.toNat] ++
  (match s.body with
    | .empty => [0]
    | .loaded p => [1, p.dataKey.toNat, p.tweakKey.toNat]
    | .scrubbing p c => [2, p.dataKey.toNat, p.tweakKey.toNat, if c = .command then 0 else 1]
    | .faulted => [3]
    | .undefined p => [4, p.dataKey.toNat, p.tweakKey.toNat])

/-- A window record with its check word computed over its fields (R18). -/
def Window.sealed (i : WindowNo) (w : Window) : Window := { w with check := Config.windowCheck (w.fields i) }

/-- A range record with its check word computed over its fields, as a write leaves it (R35). -/
def Range.sealed (i : RangeNo) (r : Range) : Range := { r with check := Config.rangeCheck (r.fields i) }

/-- A key-slot record with its check word computed over its fields (R55). -/
def Slot.sealed (k : SlotNo) (s : Slot) : Slot := { s with check := Config.slotCheck (s.fields k) }

/-! ## Reset -/

/-- The power-on fields of window i (R19). -/
def Window.preset (i : WindowNo) : Window :=
  if i = 0 then
    { treatment := .clear, first := 0x0000000, last := 0x000FFFF, direction := .fetchOnly, movers := 0xFF,
      relocation := 0x00, check := 0 }
  else
    { treatment := .empty, first := 0x0000000, last := 0x0000000, direction := .both, movers := 0x00,
      relocation := 0x00, check := 0 }

/-- The power-on fields of range i (R36). -/
def Range.preset (i : RangeNo) : Range :=
  { span := if i = 0 then none else some { first := 0, count := 0 }
    binding := none, state := .locked, lockOnAbsence := true, idleInterval := 0, idleRemaining := none, check := 0 }

/-- The power-on fields of every key slot (R56). -/
def Slot.preset : Slot := { body := .empty, generation := 0, check := 0 }

/-- The state after power-on reset with C_SEGCLR deasserted (R19, R36, R56, R72, R96, R118, R120, R135, R151, R152,
R158, R164, R167, R171, R174, R180, R181, R183). `coarsePhase`, `marks`, `out` and `choices` have no value in the spec
(log entries 4, 5, 22, 25). -/
def State.reset : State where
  contain := { device := .selfTest, dwell := none, cursor := 0 }
  faults := { count := 0, first := none }
  decoder := { windows := Vector.ofFn fun i => (Window.preset i).sealed i, frozen := false, limit := 0 }
  ranges := Vector.ofFn fun i => (Range.preset i).sealed i
  slots := Vector.ofFn fun k => Slot.preset.sealed k
  contexts := []
  abort := []
  cache := Vector.ofFn fun _ => { way0 := none, way1 := none, recent := .way1 }
  expander := { queue := [], current := none }
  intake := .header
  returnPath := []
  media := { slot := none, path := .free, clearDriven := false }
  engines := { outbound := none, inbound := none }
  hold := none
  time := { presence := .idle, idleLocked := 0, coarsePhase := 10000 }
  marks :=
    { returnFull := false, inboundBusy := false, holders := [], readied := [], tickedAnswer := [], tickedIdle := 0,
      tickedPresence := false, tickedDwell := false, visited := false }
  link := .empty
  events := { pending := 0, enables := 0, alertLow := false }
  tallies := { parity := 0, timeout := 0, rawIgnored := 0 }
  out := Outputs.quiet
  choices := 0
  pending := []

end Sys2Proof.Machine
end

