-- ==== Sys2Proof/Machine/Operands.lean ====
section
/-! DEFINITION. The two encodings the spec gives: the request header (R99) and the key link's frames (R172, R176, R177),
each with a writer beside the reader. -/

namespace Sys2Proof.Machine

/-! ## The request header (R98, R99) -/

/-- What the controller port reads from a header (R99). The sector tag and the first unit offset are meaningful only where
`tagPresent` is set. -/
structure HeaderFields where
  kind       : Kind
  raw        : Bool
  tagPresent : Bool
  mover      : Fin 8
  tag        : Fin 16
  addr       : UnitAddr
  length     : Nat
  offset     : Byte
  sector     : Sector
deriving DecidableEq, Repr

/-- The odd-parity bits of a header's twelve bytes (R98). -/
def headerParity (b : BitVec 96) : BitVec 12 :=
  (List.range 12).foldl
    (fun acc i =>
      if (List.range 8).foldl (fun p j => p ^^ b.getLsbD (8 * i + j)) true then acc ||| (1#12 <<< i) else acc) 0

/-- Whether the parity of all twelve bytes matches (admission check 2, R99). -/
def headerParityGood (h : Header) : Bool := h.parity == headerParity h.bytes

/-- Reads a header by the layout of R99: bit 0 kind, bit 1 raw, bit 2 tag present, bits 3..5 mover, bits 8..11 mover tag,
bits 12..39 unit address, bits 40..47 length minus one, bits 48..55 offset, bits 56..95 sector number. -/
def readHeader (h : Header) : HeaderFields where
  kind := if h.bytes.getLsbD 0 then .store else .fetch
  raw := h.bytes.getLsbD 1
  tagPresent := h.bytes.getLsbD 2
  mover := (h.bytes.extractLsb' 3 3).toFin
  tag := (h.bytes.extractLsb' 8 4).toFin
  addr := h.bytes.extractLsb' 12 28
  length := (h.bytes.extractLsb' 40 8).toNat + 1
  offset := h.bytes.extractLsb' 48 8
  sector := h.bytes.extractLsb' 56 40

/-- Writes a header by the layout of R99, its two unread bits 0, with good parity. -/
def HeaderFields.header (f : HeaderFields) : Header :=
  let bytes : BitVec 96 :=
    (if f.kind = .store then 1#96 else 0#96) |||
    (if f.raw then 1#96 <<< 1 else 0#96) |||
    (if f.tagPresent then 1#96 <<< 2 else 0#96) |||
    (BitVec.ofNat 96 f.mover.val <<< 3) |||
    (BitVec.ofNat 96 f.tag.val <<< 8) |||
    (f.addr.setWidth 96 <<< 12) |||
    (BitVec.ofNat 96 (f.length - 1) <<< 40) |||
    (f.offset.setWidth 96 <<< 48) |||
    (f.sector.setWidth 96 <<< 56)
  { bytes := bytes, parity := headerParity bytes }

/-! ## Bytes of a payload (R172: least significant byte first) -/

/-- The `n` bytes of a value, least significant first. -/
def leBytes (n v : Nat) : List Byte := (List.range n).map fun i => BitVec.ofNat 8 (v >>> (8 * i))

/-- The value of bytes given least significant first. -/
def ofLeBytes : List Byte → Nat
  | [] => 0
  | b :: bs => b.toNat + 256 * ofLeBytes bs

/-- The value of the `len` bytes of a payload from position `off`. -/
def field (payload : List Byte) (off len : Nat) : Nat := ofLeBytes ((payload.drop off).take len)

/-! ## Bits on KDI and KDO (R173: most significant bit first) -/

/-- The eight bits of a byte in the order they are shifted. -/
def byteBits (b : Byte) : List Bool := (List.range 8).map fun i => b.getLsbD (7 - i)

/-- The bits of a run of bytes in the order they are shifted. -/
def toBits (bytes : List Byte) : List Bool := bytes.flatMap byteBits

/-- The byte shifted in as a run of bits, the first one most significant. -/
def bitsByte (bits : List Bool) : Byte := bits.foldl (fun b x => b <<< 1 ||| (if x then 1 else 0)) 0

/-- The first `n` whole bytes of a run of bits, eight clocks to the byte. -/
def wholeBytes : Nat → List Bool → List Byte
  | 0, _ => []
  | n + 1, bits => bitsByte (bits.take 8) :: wholeBytes n (bits.drop 8)

/-! ## The frame check (R172) -/

/-- One step of the check register. -/
def crcStep (r : BitVec 16) : BitVec 16 := if r.msb then (r <<< 1) ^^^ 0x1021 else r <<< 1

/-- The check register after one more byte. -/
def crcByte (r : BitVec 16) (b : Byte) : BitVec 16 :=
  (List.range 8).foldl (fun r _ => crcStep r) (r ^^^ (b.setWidth 16 <<< 8))

/-- The frame check of a run of bytes. -/
def crc16 (bytes : List Byte) : BitVec 16 := bytes.foldl crcByte 0xFFFF

/-- A run of bytes with its check behind it, most significant byte first. -/
def withCheck (bytes : List Byte) : List Byte :=
  bytes ++ [(crc16 bytes).extractLsb' 8 8, (crc16 bytes).extractLsb' 0 8]

/-! ## Answers (R172) -/

/-- The reasons of a refusal (R172). -/
inductive Reason
  | check | length | busy | unknown | state | badIndex | badValue | occupied | keysEqual | rangeOpen | overlap | noKey
  | frozen | dwell | armed | notArmed
deriving DecidableEq, Repr

/-- The code of a reason (R172). -/
def Reason.code : Reason → Byte
  | .check => 0x01 | .length => 0x02 | .busy => 0x03 | .unknown => 0x04 | .state => 0x05 | .badIndex => 0x06
  | .badValue => 0x07 | .occupied => 0x08 | .keysEqual => 0x09 | .rangeOpen => 0x0A | .overlap => 0x0B | .noKey => 0x0C
  | .frozen => 0x0D | .dwell => 0x0E | .armed => 0x0F | .notArmed => 0x10

/-- The answer to a command (R172). -/
inductive Answer
  | done (payload : List Byte)
  | accepted
  | refused (r : Reason)
deriving DecidableEq, Repr

/-- The response frame of an answer: status, reason, payload length, payload, check (R172). -/
def Answer.frame : Answer → List Byte
  | .done payload => withCheck ([0x00, 0x00, BitVec.ofNat 8 payload.length] ++ payload)
  | .accepted => withCheck [0x01, 0x00, 0x00]
  | .refused r => withCheck [0x02, r.code, 0x00]

/-! ## Command frames (R176, R177) -/

/-- The commands of the key link with their payload fields at the widths of R177. -/
inductive LinkCommand
  | status | readFault | readAbort
  | loadKey (slot : Byte) (dataKey tweakKey : Key)
  | scrubKey (slot : Byte)
  | flushSchedules
  | setRange (index : Byte) (first : Sector) (count : BitVec 48) (binding lockOnAbsence : Byte) (idleInterval : BitVec 24)
  | openRange (index mode : Byte)
  | lockRange (index : Byte)
  | setWindow (index treatment : Byte) (first last : BitVec 32) (direction : Byte) (movers relocation : MoverSet)
  | setLimit (limit : BitVec 48)
  | freeze | go | recover
  | armPresence (interval : BitVec 16)
  | renew
  | setAlert (enables : BitVec 16)
  | clearEvents (events : BitVec 16)
  | clearFault | clearTallies
deriving DecidableEq, Repr

/-- A command's code (R177). -/
def LinkCommand.code : LinkCommand → Byte
  | .status => 0x01 | .readFault => 0x02 | .readAbort => 0x03
  | .loadKey _ _ _ => 0x10 | .scrubKey _ => 0x11 | .flushSchedules => 0x12
  | .setRange _ _ _ _ _ _ => 0x20 | .openRange _ _ => 0x21 | .lockRange _ => 0x22
  | .setWindow _ _ _ _ _ _ _ => 0x30 | .setLimit _ => 0x31 | .freeze => 0x32
  | .go => 0x40 | .recover => 0x41
  | .armPresence _ => 0x50 | .renew => 0x51
  | .setAlert _ => 0x60 | .clearEvents _ => 0x61 | .clearFault => 0x62 | .clearTallies => 0x63

/-- A command's payload, its fields in the order of R177. -/
def LinkCommand.payload : LinkCommand → List Byte
  | .loadKey k d t => [k] ++ leBytes 32 d.toNat ++ leBytes 32 t.toNat
  | .scrubKey k => [k]
  | .setRange i f c b l t => [i] ++ leBytes 5 f.toNat ++ leBytes 6 c.toNat ++ [b, l] ++ leBytes 3 t.toNat
  | .openRange i m => [i, m]
  | .lockRange i => [i]
  | .setWindow i t f l d m r => [i, t] ++ leBytes 4 f.toNat ++ leBytes 4 l.toNat ++ [d, m, r]
  | .setLimit n => leBytes 6 n.toNat
  | .armPresence n => leBytes 2 n.toNat
  | .setAlert e => leBytes 2 e.toNat
  | .clearEvents e => leBytes 2 e.toNat
  | _ => []

/-- The frame of a command: code, payload length, payload, check (R172). -/
def LinkCommand.frame (c : LinkCommand) : List Byte :=
  withCheck ([c.code, BitVec.ofNat 8 c.payload.length] ++ c.payload)

/-- The payload length the table of R177 gives a code, if the code is in the table. -/
def lengthOfCode (code : Byte) : Option Nat :=
  match code.toNat with
  | 0x01 => some 0 | 0x02 => some 0 | 0x03 => some 0
  | 0x10 => some 65 | 0x11 => some 1 | 0x12 => some 0
  | 0x20 => some 17 | 0x21 => some 2 | 0x22 => some 1
  | 0x30 => some 13 | 0x31 => some 6 | 0x32 => some 0
  | 0x40 => some 0 | 0x41 => some 0
  | 0x50 => some 2 | 0x51 => some 0
  | 0x60 => some 2 | 0x61 => some 2 | 0x62 => some 0 | 0x63 => some 0
  | _ => none

/-- Reads a payload of the code's length (R177). -/
def readPayload (code : Byte) (p : List Byte) : Option LinkCommand :=
  let byte (i : Nat) : Byte := BitVec.ofNat 8 (field p i 1)
  match code.toNat with
  | 0x01 => some .status
  | 0x02 => some .readFault
  | 0x03 => some .readAbort
  | 0x10 => some (.loadKey (byte 0) (BitVec.ofNat 256 (field p 1 32)) (BitVec.ofNat 256 (field p 33 32)))
  | 0x11 => some (.scrubKey (byte 0))
  | 0x12 => some .flushSchedules
  | 0x20 => some (.setRange (byte 0) (BitVec.ofNat 40 (field p 1 5)) (BitVec.ofNat 48 (field p 6 6)) (byte 12) (byte 13)
      (BitVec.ofNat 24 (field p 14 3)))
  | 0x21 => some (.openRange (byte 0) (byte 1))
  | 0x22 => some (.lockRange (byte 0))
  | 0x30 => some (.setWindow (byte 0) (byte 1) (BitVec.ofNat 32 (field p 2 4)) (BitVec.ofNat 32 (field p 6 4)) (byte 10)
      (byte 11) (byte 12))
  | 0x31 => some (.setLimit (BitVec.ofNat 48 (field p 0 6)))
  | 0x32 => some .freeze
  | 0x40 => some .go
  | 0x41 => some .recover
  | 0x50 => some (.armPresence (BitVec.ofNat 16 (field p 0 2)))
  | 0x51 => some .renew
  | 0x60 => some (.setAlert (BitVec.ofNat 16 (field p 0 2)))
  | 0x61 => some (.clearEvents (BitVec.ofNat 16 (field p 0 2)))
  | 0x62 => some .clearFault
  | 0x63 => some .clearTallies
  | _ => none

/-- What judging a frame gives by steps 1 to 4 of R176. -/
inductive Verdict
  | refuse (r : Reason)
  | command (c : LinkCommand)
deriving DecidableEq, Repr

/-- Judges a frame by steps 1 to 4 of R176, in their order. `extraClocks` counts the clocks of a final part-byte (R173). -/
def judgeFrame (bytes : List Byte) (extraClocks : Nat) : Verdict :=
  if bytes.length < 4 ∨ bytes.length ≠ (bytes.getD 1 0).toNat + 4 ∨ extraClocks ≠ 0 then .refuse .check
  else if withCheck (bytes.take (bytes.length - 2)) ≠ bytes then .refuse .check
  else
    match lengthOfCode (bytes.getD 0 0) with
    | none => .refuse .unknown
    | some n =>
      if (bytes.getD 1 0).toNat ≠ n then .refuse .length
      else
        match readPayload (bytes.getD 0 0) ((bytes.drop 2).take n) with
        | some c => .command c
        | none => .refuse .unknown

end Sys2Proof.Machine
end

