-- ==== Sys2Proof/Machine/Cipher.lean ====
section
/-! DEFINITION. The sector cipher (chapter 1): the block permutation P, the schedule expanded from a key pair, the tweak
of a unit position, and the two directions of the unit transform. R1 names P as the block cipher of the Advanced
Encryption Standard with a 256-bit key and says how bytes of units and keys are bytes of the standard; the standard's own
rounds are taken from outside the spec (PRESUMED, log entry 1). -/

namespace Sys2Proof.Machine

/-! ## Bytes of a unit -/

/-- Byte i of a unit (R1: byte 0 least significant). -/
def byteAt (b : Block) (i : Nat) : Byte := b.extractLsb' (8 * i) 8

/-- The unit whose byte i is `f i`. -/
def ofBytes (f : Nat → Byte) : Block :=
  (List.range 16).foldl (fun acc i => acc ||| ((f i).setWidth 128 <<< (8 * i))) 0

/-! ## The block permutation P (R1) -/

/-- The standard's substitution table: byte v of this number is the image of v. -/
def sboxTable : Nat :=
  0x16bb54b00f2d99416842e6bf0d89a18cdf2855cee9871e9b948ed9691198f8e19e1dc186b95735610ef6034866b53e708a8bbd4b1f74dde8c6b4a61c2e2578ba08ae7a65eaf4566ca94ed58d6d37c8e779e4959162acd3c25c2406490a3a32e0db0b5ede14b8ee4688902a22dc4f816073195d643d7ea7c41744975fec130ccdd2f3ff1021dab6bcf5389d928f40a351a89f3c507f02f94585334d43fbaaefd0cf584c4a39becb6a5bb1fc20ed00d153842fe329b3d63b52a05a6e1b1a2c830975b227ebe28012079a059618c323c7041531d871f1e5a534ccf73f362693fdb7c072a49cafa2d4adf04759fa7dc982ca76abd7fe2b670130c56f6bf27b777c63

/-- The inverse of `sboxTable`, laid out in the same way. -/
def invSboxTable : Nat :=
  0x7d0c2155631469e126d677ba7e042b17619953833cbbebc8b0f52aae4d3be0a0ef9cc9939f7ae52d0d4ab519a97f51605fec8027591012b131c7078833a8dd1ff45acd78fec0db9a2079d2c64b3e56fc1bbe18aa0e62b76f89c5291d711af1476edf751ce837f9e28535ade72274ac9673e6b4f0cecff297eadc674f4111913a6b8a130103bdafc1020f3fca8f1e2cd00645b3b80558e4f70ad3bc8c00abd890849d8da75746155edab9edfd5048706c92b6655dcc5ca4d41698688664f6f87225d18b6d49a25b76b224d92866a12e084ec3fa420b954cee3d23c2a632947b54cbe9dec444438e3487ff2f9b8239e37cfbd7f3819ea340bf38a53630d56a0952

/-- The standard's byte substitution. -/
def sbox (v : Byte) : Byte := BitVec.ofNat 8 (sboxTable >>> (8 * v.toNat))

/-- The inverse byte substitution. -/
def invSbox (v : Byte) : Byte := BitVec.ofNat 8 (invSboxTable >>> (8 * v.toNat))

/-- Multiplication by x in the standard's field of 256 elements. -/
def xtime (v : Byte) : Byte := (v <<< 1) ^^^ (if v.msb then 0x1B else 0x00)

/-- Multiplication by x + 1 in the standard's field. -/
def times3 (v : Byte) : Byte := xtime v ^^^ v

/-- Multiplication by 9 in the standard's field. -/
def times9 (v : Byte) : Byte := xtime (xtime (xtime v)) ^^^ v

/-- Multiplication by 11 in the standard's field. -/
def times11 (v : Byte) : Byte := xtime (xtime (xtime v)) ^^^ xtime v ^^^ v

/-- Multiplication by 13 in the standard's field. -/
def times13 (v : Byte) : Byte := xtime (xtime (xtime v)) ^^^ xtime (xtime v) ^^^ v

/-- Multiplication by 14 in the standard's field. -/
def times14 (v : Byte) : Byte := xtime (xtime (xtime v)) ^^^ xtime (xtime v) ^^^ xtime v

/-- The standard's substitution of every byte. -/
def subBytes (b : Block) : Block := ofBytes fun i => sbox (byteAt b i)

/-- The inverse substitution of every byte. -/
def invSubBytes (b : Block) : Block := ofBytes fun i => invSbox (byteAt b i)

/-- The standard's row shift: byte r + 4c comes from byte r + 4((c + r) mod 4), which is byte 5i mod 16. -/
def shiftRows (b : Block) : Block := ofBytes fun i => byteAt b (5 * i % 16)

/-- The inverse row shift. -/
def invShiftRows (b : Block) : Block := ofBytes fun i => byteAt b (13 * i % 16)

/-- Byte d places below byte i in its column of four, wrapping within the column. -/
def columnByte (b : Block) (i d : Nat) : Byte := byteAt b (i / 4 * 4 + (i + d) % 4)

/-- The standard's column mix. -/
def mixColumns (b : Block) : Block :=
  ofBytes fun i => xtime (columnByte b i 0) ^^^ times3 (columnByte b i 1) ^^^ columnByte b i 2 ^^^ columnByte b i 3

/-- The inverse column mix. -/
def invMixColumns (b : Block) : Block :=
  ofBytes fun i =>
    times14 (columnByte b i 0) ^^^ times11 (columnByte b i 1) ^^^ times13 (columnByte b i 2) ^^^ times9 (columnByte b i 3)

/-- The rounds after the first key: the last has no column mix. -/
def forwardRounds : List Block → Block → Block
  | [], x => x
  | [k], x => shiftRows (subBytes x) ^^^ k
  | k :: k' :: ks, x => forwardRounds (k' :: ks) (mixColumns (shiftRows (subBytes x)) ^^^ k)

/-- Encipherment under a list of round keys, first key first. -/
def permute (rounds : List Block) (x : Block) : Block :=
  match rounds with
  | [] => x
  | k :: ks => forwardRounds ks (x ^^^ k)

/-- The inverse rounds after the last round's key has been taken off: the final one has no column mix. -/
def inverseRounds : List Block → Block → Block
  | [], x => x
  | [k], x => x ^^^ k
  | k :: k' :: ks, x => inverseRounds (k' :: ks) (invSubBytes (invShiftRows (invMixColumns (x ^^^ k))))

/-- Decipherment under a list of round keys in the inverse order, last round's key first. -/
def permuteInv (rounds : List Block) (y : Block) : Block :=
  match rounds with
  | [] => y
  | [k] => y ^^^ k
  | k :: k' :: ks => inverseRounds (k' :: ks) (invSubBytes (invShiftRows (y ^^^ k)))

/-! ## Key expansion (R1, R2) -/

/-- Word i (four bytes, byte 0 least significant) of a 256-bit value. -/
def wordAt (k : Key) (i : Nat) : BitVec 32 := k.extractLsb' (32 * i) 32

/-- The standard's substitution of the four bytes of a word. -/
def subWord (w : BitVec 32) : BitVec 32 :=
  sbox (w.extractLsb' 24 8) ++ sbox (w.extractLsb' 16 8) ++ sbox (w.extractLsb' 8 8) ++ sbox (w.extractLsb' 0 8)

/-- The next eight words of the standard's 256-bit key expansion. -/
def nextEight (k : Key) (rcon : Byte) : Key :=
  let w0 := wordAt k 0 ^^^ subWord ((wordAt k 7).rotateRight 8) ^^^ rcon.setWidth 32
  let w1 := wordAt k 1 ^^^ w0
  let w2 := wordAt k 2 ^^^ w1
  let w3 := wordAt k 3 ^^^ w2
  let w4 := wordAt k 4 ^^^ subWord w3
  let w5 := wordAt k 5 ^^^ w4
  let w6 := wordAt k 6 ^^^ w5
  let w7 := wordAt k 7 ^^^ w6
  w7 ++ w6 ++ w5 ++ w4 ++ w3 ++ w2 ++ w1 ++ w0

/-- `n` groups of eight words of the expansion, from the group k on. -/
def keyGroups : Nat → Key → Byte → List Key
  | 0, _, _ => []
  | n + 1, k, rcon => k :: keyGroups n (nextEight k rcon) (xtime rcon)

/-- The fifteen round keys of a 256-bit key. -/
def roundKeys (k : Key) : List Block :=
  ((keyGroups 8 k 0x01).flatMap fun g => [g.extractLsb' 0 128, g.extractLsb' 128 128]).take 15

/-- P(k, x) (R1). -/
def blockPermutation (k : Key) (x : Block) : Block := permute (roundKeys k) x

/-- P⁻¹(k, y) (R1). -/
def blockPermutationInv (k : Key) (y : Block) : Block := permuteInv (roundKeys k).reverse y

/-- The schedule of a key pair: forward and inverse data-key rounds, forward tweak-key rounds (R2). -/
def KeyPair.schedule (p : KeyPair) : Schedule :=
  { dataForward := roundKeys p.dataKey
    dataInverse := (roundKeys p.dataKey).reverse
    tweakForward := roundKeys p.tweakKey }

/-! ## Tweaks (R3 to R7) -/

/-- The tweak input of a sector number: bytes 0 to 4 hold it, least significant first, the rest are 0 (R3). -/
def tweakInput (s : Sector) : Block := s.setWidth 128

/-- The sector tweak T₀ under a schedule (R4). -/
def Schedule.sectorTweak (sch : Schedule) (s : Sector) : Block := permute sch.tweakForward (tweakInput s)

/-- Doubling: shift left by one and, if bit 127 was 1, exclusive-or 0x87 into byte 0 (R5). -/
def double (v : Block) : Block := (v <<< 1) ^^^ (if v.msb then 0x87 else 0)

/-- `n` doublings: T_n from T₀ (R6). -/
def doubled : Nat → Block → Block
  | 0, t => t
  | n + 1, t => double (doubled n t)

/-! ## The unit transform (R9, R10) -/

/-- C = P(data key, X ⊕ T) ⊕ T (R9). -/
def Schedule.encipher (sch : Schedule) (t x : Block) : Block := permute sch.dataForward (x ^^^ t) ^^^ t

/-- X = P⁻¹(data key, C ⊕ T) ⊕ T (R10). -/
def Schedule.decipher (sch : Schedule) (t c : Block) : Block := permuteInv sch.dataInverse (c ^^^ t) ^^^ t

end Sys2Proof.Machine
end

