-- ==== Sys2Proof/Machine/Flags.lean ====
section
/-! DEFINITION. The event set, the alert enables and ALERT_N (R180, R181), the fault log (R170), the three tallies (R116,
R183), and the outputs of an action. -/

namespace Sys2Proof.Machine

/-! ## Outcomes of an action -/

/-- The state at the start of an action: nothing driven yet. -/
def State.start (s : State) : State := { s with out := Outputs.quiet }

/-- The event does not take place, or the item is not taken: the state stands and the handshake says so (log entry 3). -/
def State.untaken (s : State) : State := { s with out := { Outputs.quiet with taken := false } }

/-! ## Events and ALERT (R180, R181) -/

/-- The ten events in the order of R180. -/
inductive Event
  | selfTestDone | rangeLocked | absence | scrubbed | tableFault
  | contained | timeoutSeen | paritySeen | rawIgnored | aborted
deriving DecidableEq, Repr

/-- An event's number (R180). -/
def Event.number : Event → Nat
  | .selfTestDone => 0 | .rangeLocked => 1 | .absence => 2 | .scrubbed => 3 | .tableFault => 4
  | .contained => 5 | .timeoutSeen => 6 | .paritySeen => 7 | .rawIgnored => 8 | .aborted => 9

/-- The set holding one event. -/
def Event.bit (e : Event) : BitVec 10 := 1#10 <<< e.number

/-- Whether an event is both pending and enabled: then ALERT_N is driven low (R181). -/
def alertLevel (pending enables : BitVec 10) : Bool := pending &&& enables != 0

/-- The event unit with the given pending flags and enables, its pin following in the same action (R181). -/
def EventUnit.follow (pending enables : BitVec 10) : EventUnit :=
  { pending := pending, enables := enables, alertLow := alertLevel pending enables }

/-- Raises an event: its flag is set, once (R180). -/
def State.raise (e : Event) (s : State) : State :=
  { s with events := .follow (s.events.pending ||| e.bit) s.events.enables }

/-- Clears the flags of the events named (R182). -/
def State.clearFlags (events : BitVec 10) (s : State) : State :=
  { s with events := .follow (s.events.pending &&& ~~~events) s.events.enables }

/-- Writes the whole enable set (R181). -/
def State.setEnables (enables : BitVec 10) (s : State) : State :=
  { s with events := .follow s.events.pending enables }

/-! ## Counts (spec 0.6: they run 0..255 and saturate) -/

/-- One more, saturating at 255. -/
def countUp (n : Nat) : Nat := if n < 255 then n + 1 else 255

/-- Counts the parity tally and raises PARITY-SEEN (R75, R113, R114, R115, R116). -/
def State.countParity (s : State) : State :=
  State.raise .paritySeen { s with tallies := { s.tallies with parity := countUp s.tallies.parity } }

/-- Counts the timeout tally and raises TIMEOUT-SEEN (R111, R116). -/
def State.countTimeout (s : State) : State :=
  State.raise .timeoutSeen { s with tallies := { s.tallies with timeout := countUp s.tallies.timeout } }

/-- Counts the raw-ignored tally and raises RAW-IGNORED (R27, R183). -/
def State.countRawIgnored (s : State) : State :=
  State.raise .rawIgnored { s with tallies := { s.tallies with rawIgnored := countUp s.tallies.rawIgnored } }

/-! ## The fault log (R170) -/

/-- The log after one more fault: the count rises, and the record is stored where none is held. -/
def FaultLog.add (r : FaultRecord) (l : FaultLog) : FaultLog :=
  { count := countUp l.count, first := some (l.first.getD r) }

/-- Context number, mover and tag of a context, for a fault record (R170). -/
def Context.faultContext (c : Context) : FaultContext := { number := c.number, mover := c.mover, tag := c.tag }

/-- The record of a fault of the given kind in the device state of the moment, with the optional fields given: a context
gives its number, mover and tag, and its sector number if it is CIPHER (R170). -/
def faultRecord (kind : FaultKind) (device : DeviceState) (ctx : Option Context) (entry : Option TableEntry)
    (test : Option KnownAnswerTest) : FaultRecord where
  kind := kind
  device := device
  ctx := ctx.map Context.faultContext
  sector := ctx.bind fun c => c.capture.map fun cap => cap.sector
  entry := entry
  test := test

/-- Logs a fault (R170). -/
def State.logFault (kind : FaultKind) (ctx : Option Context) (entry : Option TableEntry) (test : Option KnownAnswerTest)
    (s : State) : State :=
  { s with faults := s.faults.add (faultRecord kind s.contain.device ctx entry test) }

end Sys2Proof.Machine
end

