-- ==== Sys2Proof/Machine/Ops.lean ====
section
/-! DEFINITION. The named operations the meanings share: the context table, writes of table records, the schedule cache and
its pins, the expansion queue, the return path, entry to CANCEL, completion, scrubbing, containment. -/

namespace Sys2Proof.Machine

/-! ## Parity (R98) -/

/-- The odd-parity bit of a byte. -/
def oddParity (b : Byte) : Bool := (List.range 8).foldl (fun acc i => acc ^^ b.getLsbD i) true

/-- An item driven with its bytes: odd parity is generated over each byte as it leaves (R98). -/
def Driven.of {α : Type} (item : α) (bytes : List Byte) : Driven α :=
  { item := item, bytes := bytes, parity := bytes.map oddParity }

/-- The parity bits of a unit, bit i for lane i. -/
def lanesParity (b : Block) : Lanes :=
  (List.range 16).foldl (fun acc i => if oddParity (byteAt b i) then acc ||| (1#16 <<< i) else acc) 0

/-- A beat the part drives: parity generated over the bytes as they leave (R98). -/
def drivenBeat (data : Block) (enables : Lanes) : Beat := { data := data, parity := lanesParity data, enables := enables }

/-- All 16 lanes. -/
def allLanes : Lanes := 0xFFFF

/-- The withheld pattern: every byte 0x3C (R89). -/
def withheldPattern : Block := 0x3C3C3C3C3C3C3C3C3C3C3C3C3C3C3C3C

/-- The sixteen bytes of a beat. -/
def Beat.bytes (b : Beat) : List Byte := (List.range 16).map (byteAt b.data)

/-- A reply code's place in the list of spec 0.7. -/
def Reply.number : Reply → Nat
  | .ok => 0 | .retry => 1 | .denied => 2 | .bound => 3 | .noTag => 4 | .locked => 5 | .fault => 6 | .revoked => 7
  | .parity => 8 | .timeout => 9 | .media => 10

/-- The answer to a header as the part drives it: the bytes are a free value (log entry 19), each with its parity (R74, R98). -/
def HeaderAnswer.driven (a : HeaderAnswer) : Driven HeaderAnswer :=
  .of a (Config.answerBytes (match a with
    | .admitted => [0]
    | .refuse code => [1, code.number]))

/-- A delivery as the return path drives it: the sixteen bytes of a beat, or the bytes of a completion, a free value (log entry
19), each with its parity (R98, R103). -/
def Delivery.driven (d : Delivery) : Driven Delivery :=
  .of d (match d with
    | .beat _ _ b => Beat.bytes b
    | .completion m t code => Config.completionBytes [m.val, t.val, code.number])

/-- An item of the request path as the part drives it: the sixteen bytes of a store unit, or the bytes of a request header or an
end mark, a free value (log entry 19), each with its parity (R98, R104). -/
def MediaDrive.driven (d : MediaDrive) : Driven MediaDrive :=
  .of d (match d with
    | .fetch n a l => Config.mediaBytes [0, n.val, a.toNat, l]
    | .store n a => Config.mediaBytes [1, n.val, a.toNat]
    | .holdFetch n a => Config.mediaBytes [2, n.val, a.toNat]
    | .releaseStore n a => Config.mediaBytes [3, n.val, a.toNat]
    | .cancel n => Config.mediaBytes [4, n.val]
    | .unit _ b => Beat.bytes b
    | .endMark n => Config.mediaBytes [5, n.val])

/-- Drives an item on the media segment's request path (R104). -/
def State.drive (d : MediaDrive) (s : State) : State := { s with out := { s.out with media := s.out.media ++ [d.driven] } }

/-! ## The context table (R72, R73) -/

/-- The record with a context number. -/
def State.ctx? (n : CtxNo) (s : State) : Option Context := s.contexts.find? fun c => c.number == n

/-- Changes the record with a context number, in its place. -/
def State.modCtx (n : CtxNo) (f : Context → Context) (s : State) : State :=
  { s with contexts := s.contexts.map fun c => if c.number = n then f c else c }

/-- Takes the record with a context number out of the list; the contexts behind it move up (R72). -/
def State.dropCtx (n : CtxNo) (s : State) : State :=
  { s with contexts := s.contexts.filter fun c => c.number ≠ n }

/-- The lowest context number not in use (R73). -/
def State.lowestFree (s : State) : Option CtxNo :=
  (List.finRange 32).find? fun n => !s.contexts.any fun c => c.number == n

/-- In WAITKEY, STREAM, HOLD or CLOSE (R53, R90). -/
def Context.live (c : Context) : Bool :=
  match c.state with
  | .waitKey | .stream | .hold | .close => true
  | .cancel | .stranded => false

/-- In STREAM or HOLD: the states in which a CIPHER context holds a pin (R122). -/
def Context.streaming (c : Context) : Bool :=
  match c.state with
  | .stream | .hold => true
  | _ => false

/-- A holder of the slot (R53). -/
def Context.holds (k : SlotNo) (c : Context) : Bool :=
  c.live && (match c.capture with
    | some cap => cap.slot == k
    | none => false)

/-- A store that takes its remaining beats only to drop them: in STREAM with a non-OK code (R86). -/
def Context.draining (c : Context) : Bool := c.kind == .store && c.state == .stream && c.code != .ok

/-- The first non-OK code sticks (R87). -/
def Reply.orElse (old new : Reply) : Reply := if old = .ok then new else old

/-! ## Answer timers (R110) -/

/-- A phase of 128 fine ticks. -/
def timerStart (p : TimerPhase) : Option AnswerTimer := some { phase := p, remaining := 128 }

/-- Starts a phase of a context's answer timer. -/
def State.startTimer (n : CtxNo) (p : TimerPhase) (s : State) : State :=
  s.modCtx n fun c => { c with timer := timerStart p }

/-- Stops a context's answer timer. -/
def State.stopTimer (n : CtxNo) (s : State) : State := s.modCtx n fun c => { c with timer := none }

/-- Whether a context's timer runs in a phase. -/
def Context.timing (p : TimerPhase) (c : Context) : Bool :=
  match c.timer with
  | some t => t.phase == p
  | none => false

/-- The timer with the note whether a returned unit waits for the inbound engine (R106). -/
def Context.withUnitWaiting (waits : Bool) (c : Context) : Context :=
  { c with timer := c.timer.map fun t => { t with unitWaits := waits } }

/-- Whether a returned unit of the context has come in the phase its timer runs in and waits for the inbound engine (R106). -/
def Context.unitWaiting (c : Context) : Bool := c.timer.any fun t => t.unitWaits

/-- A returned unit is not taken, and waits on the media segment for the inbound engine (R106). -/
def State.unitWaits (n : CtxNo) (s : State) : State := s.untaken.modCtx n (Context.withUnitWaiting true)

/-- A returned unit past its fetch's length is dropped: none waits any more (R82, R106, R110). -/
def State.unitDropped (n : CtxNo) (s : State) : State := s.start.modCtx n (Context.withUnitWaiting false)

/-! ## Writes of table records (R18, R35, R55) -/

/-- Writes a window record with a fresh check word. -/
def State.writeWindow (i : WindowNo) (w : Window) (s : State) : State :=
  { s with decoder := { s.decoder with windows := s.decoder.windows.set i (w.sealed i) } }

/-- Writes a range record with a fresh check word. -/
def State.writeRange (i : RangeNo) (r : Range) (s : State) : State :=
  { s with ranges := s.ranges.set i (r.sealed i) }

/-- Writes a key-slot record with a fresh check word. -/
def State.writeSlot (k : SlotNo) (r : Slot) (s : State) : State :=
  { s with slots := s.slots.set k (r.sealed k) }

/-- In OPEN-RW or OPEN-RO (R34). -/
def Range.isOpen (r : Range) : Bool :=
  match r.state with
  | .openRW | .openRO => true
  | .locked | .faulted => false

/-- Whether the monitor's visit to a range marks it FAULTED: its check word is not that of its fields (R46, R168). -/
def Range.disturbed (i : RangeNo) (r : Range) : Bool := r.check != Config.rangeCheck (r.fields i)

/-- The idle timer as it is started or restarted: the full interval, or none for an interval of 0 (R148). -/
def Range.idleStart (r : Range) : Option Nat := if r.idleInterval = 0 then none else some r.idleInterval

/-- The record of an open range locked, its idle timer stopped and its check word fresh; a range that is not open stays
as it is (R43, R44, R45). -/
def Range.lock (i : RangeNo) (r : Range) : Range :=
  if r.isOpen then ({ r with state := .locked, idleRemaining := none } : Range).sealed i else r

/-- Locks every open range that satisfies a condition, in one action (R44, R45). -/
def State.lockRanges (p : Range → Bool) (s : State) : State :=
  { s with ranges := Vector.ofFn fun i => if p s.ranges[i] then s.ranges[i].lock i else s.ranges[i] }

/-- LOADED (R52). -/
def Slot.isLoaded (k : Slot) : Bool :=
  match k.body with
  | .loaded _ => true
  | _ => false

/-! ## The schedule cache (R119 to R122) -/

/-- The set of a slot at a generation: (k + 3 × g) mod 4 (R119). -/
def setOf (k : SlotNo) (g : Generation) : Fin 4 := Fin.ofNat 4 (k.val + 3 * g.toNat)

/-- An entry of a set. -/
def CacheSet.entry (c : CacheSet) : Way → Option Entry
  | .way0 => c.way0
  | .way1 => c.way1

/-- A set with one way written. -/
def CacheSet.put (w : Way) (e : Option Entry) (c : CacheSet) : CacheSet :=
  match w with
  | .way0 => { c with way0 := e }
  | .way1 => { c with way1 := e }

/-- Whether a way holds a valid entry of the pair. -/
def entryMatches (k : SlotNo) (g : Generation) (e : Option Entry) : Bool :=
  match e with
  | some e => e.slot == k && e.generation == g
  | none => false

/-- The way of a set that holds a valid entry of the pair (R121). -/
def CacheSet.find (k : SlotNo) (g : Generation) (c : CacheSet) : Option Way :=
  if entryMatches k g c.way0 then some .way0
  else if entryMatches k g c.way1 then some .way1
  else none

/-- Writes a set. -/
def State.putSet (i : Fin 4) (c : CacheSet) (s : State) : State := { s with cache := s.cache.set i c }

/-- The valid entry of a pair, looked up in the pair's set (R121). -/
def State.entryOf (k : SlotNo) (g : Generation) (s : State) : Option Entry :=
  match s.cache[setOf k g].find k g with
  | some w => s.cache[setOf k g].entry w
  | none => none

/-- A hit pins the entry found and makes it the most recently used of its set (R121). -/
def CacheSet.pin (w : Way) (c : CacheSet) : CacheSet :=
  { c.put w ((c.entry w).map fun e => { e with pins := e.pins + 1 }) with recent := w }

/-- An entry with one pin fewer; on a flush mark it is invalidated when the last pin goes (R122). -/
def Entry.unpin (e : Entry) : Option Entry :=
  if e.pins ≤ 1 && e.flush then none else some { e with pins := e.pins - 1 }

/-- Releases one pin of a pair's entry (R122). -/
def State.unpin (k : SlotNo) (g : Generation) (s : State) : State :=
  let c := s.cache[setOf k g]
  match c.find k g with
  | some w => s.putSet (setOf k g) (c.put w ((c.entry w).bind Entry.unpin))
  | none => s

/-- Releases the pin a context holds, if it holds one (R122). -/
def State.releasePin (c : Context) (s : State) : State :=
  if c.streaming then
    match c.capture with
    | some cap => s.unpin cap.slot cap.generation
    | none => s
  else s

/-- A way with no pins: not valid, or valid with pin count 0 (R124). -/
def unpinned (e : Option Entry) : Bool :=
  match e with
  | some e => e.pins == 0
  | none => true

/-- The victim way of a set (R125). -/
def CacheSet.victim (c : CacheSet) : Option Way :=
  match c.way0, c.way1 with
  | none, _ => some .way0
  | some _, none => some .way1
  | some e0, some e1 =>
    if e0.pins == 0 && e1.pins == 0 then (match c.recent with | .way0 => some .way1 | .way1 => some .way0)
    else if e0.pins == 0 then some .way0
    else if e1.pins == 0 then some .way1
    else none

/-- Invalidates every entry that satisfies a condition. -/
def CacheSet.discard (p : Entry → Bool) (c : CacheSet) : CacheSet :=
  { c with way0 := c.way0.filter fun e => !p e, way1 := c.way1.filter fun e => !p e }

/-- Invalidates every entry of the cache that satisfies a condition. -/
def State.discardEntries (p : Entry → Bool) (s : State) : State :=
  { s with cache := Vector.ofFn fun i => s.cache[i].discard p }

/-! ## The expansion queue (R123 to R125) -/

/-- A queued request is eligible when its pair's set has an unpinned way (R124). -/
def State.eligible (r : Request) (s : State) : Bool := (s.cache[setOf r.slot r.generation].victim).isSome

/-- Starts the expansion of a request: the victim way is invalidated and becomes the target, the keys are read, and the request
leaves the queue from its position (R124, R125). R125 takes the request's slot to be LOADED at the request's generation, as a
holder's slot is. Where a disturbance has made its stored state anything else (R64), or its stored generation another, the spec
does not say what the expander does: in the model nothing starts for a slot that is not LOADED, and the request keeps its place,
before younger eligible ones; for a LOADED slot at another generation the expansion starts all the same, for the request's pair
with the keys the slot holds, and its completion discards the result if the generation still differs (R127) (DESIGN CHOICE, log
entry 30). -/
def State.startExpansion (r : Request) (s : State) : State :=
  let i := setOf r.slot r.generation
  match s.cache[i].victim, s.slots[r.slot].body with
  | some w, .loaded keys =>
    { s.putSet i (s.cache[i].put w none) with
      expander :=
        { queue := s.expander.queue.erase r
          current := some
            { slot := r.slot, generation := r.generation, set := i, way := w, attached := r.attached, void := false,
              keys := keys } } }
  | _, _ => s

/-- The oldest eligible request (R124). -/
def State.oldestEligible (s : State) : Option Request := s.expander.queue.find? fun r => s.eligible r

/-- The expander, when idle, takes the oldest eligible request in the action that makes both true (R124). -/
def State.takeEligible (s : State) : State :=
  match s.expander.current with
  | some _ => s
  | none =>
    match s.oldestEligible with
    | some r => s.startExpansion r
    | none => s

/-- Marks the expansion in progress void where a condition holds of it (R126). -/
def Expander.voidWhere (p : Expansion → Bool) (x : Expander) : Expander :=
  { x with current := x.current.map fun e => if p e then { e with void := true } else e }

/-- The expander after a scrub of a slot: its requests removed, an expansion of the slot void (R60, R128). -/
def Expander.afterScrub (k : SlotNo) (x : Expander) : Expander :=
  ({ x with queue := x.queue.filter fun r => r.slot ≠ k } : Expander).voidWhere fun e => e.slot == k

/-- The expander after entry to CONTAINED: the queue emptied, an expansion void (R131). -/
def Expander.afterContainment (x : Expander) : Expander :=
  ({ x with queue := [] } : Expander).voidWhere fun _ => true

/-- A request without one of its contexts; a request that loses its last context goes (R123). -/
def Request.detach (n : CtxNo) (r : Request) : Option Request :=
  if n ∈ r.attached then
    if (r.attached.filter fun m => m ≠ n) = [] then none else some { r with attached := r.attached.filter fun m => m ≠ n }
  else some r

/-- Detaches a context from the queue and the expansion. -/
def Expander.detach (n : CtxNo) (x : Expander) : Expander :=
  { queue := x.queue.filterMap (Request.detach n)
    current := x.current.map fun e => { e with attached := e.attached.filter fun m => m ≠ n } }

/-! ## The return path (R103) -/

/-- Whether an item is one data unit. -/
def ReturnItem.isData : ReturnItem → Bool
  | .data _ _ _ => true
  | _ => false

/-- The data units counted against 16: those queued, and a CIPHER fetch unit the inbound engine still holds (R103). -/
def State.dataUnits (s : State) : Nat :=
  s.returnPath.countP ReturnItem.isData +
  (match s.engines.inbound with
    | some j => if j.forHold then 0 else 1
    | none => 0)

/-- When 16 data units are counted the media port takes no return of any kind (R103). -/
def State.returnFull (s : State) : Bool := 16 ≤ s.dataUnits

/-- Joins the tail of the return path. -/
def State.hand (item : ReturnItem) (s : State) : State := { s with returnPath := s.returnPath ++ [item] }

/-- Notes a full return path for the tick in progress (R110, log entry 25). -/
def State.markFull (s : State) : State :=
  { s with marks := { s.marks with returnFull := s.marks.returnFull || s.returnFull } }

/-- Hands a context's completion, once: the item joins the return path and the completion is SENT (R88). -/
def State.handCompletion (n : CtxNo) (s : State) : State :=
  match s.ctx? n with
  | some c =>
    if c.completionSent then s
    else (s.hand (.completion c.mover c.tag c.code)).modCtx n fun c => { c with completionSent := true }
  | none => s

/-- Frees a context: its pin, if it has one, is released and its number goes out of use (R73). -/
def State.free (n : CtxNo) (s : State) : State :=
  match s.ctx? n with
  | some c => (s.releasePin c).dropCtx n
  | none => s

/-- Completes and frees a context in one action (R82, R85). -/
def State.complete (n : CtxNo) (s : State) : State := (s.handCompletion n).free n

/-- Frees a context in CANCEL whose completion is SENT and whose cancel is NONE or ANSWERED (R92). -/
def State.freeIfDone (n : CtxNo) (s : State) : State :=
  match s.ctx? n with
  | some c => if c.state = .cancel ∧ c.completionSent = true ∧ c.cancel ≠ .sent then s.free n else s
  | none => s

/-! ## Entry to CANCEL (R90, R91) -/

/-- The context that holds the request path. -/
def RequestPath.owner : RequestPath → Option CtxNo
  | .free => none
  | .piece n _ => some n
  | .release n => some n

/-- Whether a hold request of the context is not yet answered: the HOLD-FETCH until its DONE, then the RELEASE-STORE from
its issue (R90, R143). -/
def State.holdOutstanding (n : CtxNo) (s : State) : Bool :=
  match s.hold with
  | some h => h.ctx == n && (h.phase == .release || !h.fetchAnswered)
  | none => false

/-- Outstanding downstream work (R90). -/
def State.outstanding (c : Context) (s : State) : Bool :=
  decide (0 < c.pieces) || c.fetchProgress == .issued || s.holdOutstanding c.number

/-- The beats of a store that are still on the controller segment (R91, R100). -/
def State.beatsLeft (c : Context) (s : State) : Nat :=
  match s.intake with
  | .waiting n => if n = c.number then c.length else 0
  | .beats n taken => if n = c.number then c.length - taken else 0
  | _ => 0

/-- Empties the store slot of a context's unit and releases the request path it holds: the open piece is abandoned with no
end mark (R107). -/
def MediaPort.abandon (n : CtxNo) (m : MediaPort) : MediaPort :=
  { m with
    slot := m.slot.filter fun u => u.ctx ≠ n
    path := if m.path.owner = some n then .free else m.path }

/-- Discards a context's unit on the outbound path (R12). -/
def Engines.discardOutbound (n : CtxNo) (e : Engines) : Engines :=
  { e with outbound := e.outbound.filter fun j => j.ctx ≠ n }

/-- Discards a context's units in process in either engine (R17). -/
def Engines.discardUnits (n : CtxNo) (e : Engines) : Engines :=
  { outbound := e.outbound.filter fun j => j.ctx ≠ n
    inbound := e.inbound.filter fun j => j.ctx ≠ n }

/-- What leaving STREAM and HOLD for good takes from a context: units in process, the unit in the store slot, an open
piece, the hold, its place in the expansion queue (R17, R60, R90, R107, R143). -/
def State.discardWork (n : CtxNo) (s : State) : State :=
  { s with
    engines := s.engines.discardUnits n
    media := s.media.abandon n
    hold := s.hold.filter fun h => h.ctx ≠ n
    expander := s.expander.detach n }

/-- A timer that times the answer of a CANCEL already issued runs on; any other stops (R110). -/
def keepCancelTimer (t : Option AnswerTimer) : Option AnswerTimer := t.filter fun t => t.phase == .cancelAnswer

/-- A context's record as it enters CANCEL with the given code and cancel (R87, R90). -/
def Context.cancelled (code : Reply) (sends : Bool) (c : Context) : Context :=
  { c with
    state := .cancel
    code := c.code.orElse code
    cancel := if c.cancel = .none ∧ sends = true then .sent else c.cancel
    timer := keepCancelTimer c.timer
    tweak := .absent }

/-- Finishes a cancelled context's duty to its mover: a fetch hands its remaining units withheld and its completion; a
store with no beats left hands its completion; a store with beats left takes and drops them first (R91). `left` is the
number of beats left. -/
def State.finishDuty (c : Context) (left : Nat) (s : State) : State :=
  match c.kind with
  | .fetch =>
    let s := if c.passed < c.length then s.hand (.withheld (c.length - c.passed) c.mover c.tag) else s
    (s.handCompletion c.number).freeIfDone c.number
  | .store =>
    if left = 0 then (s.handCompletion c.number).freeIfDone c.number
    else { s with intake := .dropping left (some c.number) }

/-- Entry of a context to CANCEL from WAITKEY, STREAM, HOLD or CLOSE (R90, R91, R92). `answered` says that the hold request
in progress has just been answered and is no longer outstanding; `timed` that the context's timed request is outstanding
whatever the record says (R111). -/
def State.enterCancel (n : CtxNo) (code : Reply) (answered timed : Bool) (s : State) : State :=
  match s.ctx? n with
  | some c =>
    if c.live then
      let sends := timed || (if answered then decide (0 < c.pieces) || c.fetchProgress == .issued else s.outstanding c)
      let left := s.beatsLeft c
      (((s.releasePin c).discardWork n).modCtx n (Context.cancelled code sends)).finishDuty c left
    else s
  | none => s

/-- Revokes every context that satisfies a condition, oldest first (R61, R103). -/
def State.revoke (p : Context → Bool) (code : Reply) (s : State) : State :=
  (s.contexts.filter p).foldl (fun s c => s.enterCancel c.number code false false) s

/-! ## A store's course (R83 to R85, R107) -/

/-- Entry to CLOSE, from STREAM or from HOLD: the pin is released, the kept tweak dropped, and the store completes at once if
no piece is outstanding (R17, R83, R84, R85). -/
def State.enterClose (n : CtxNo) (s : State) : State :=
  match s.ctx? n with
  | some c =>
    if c.streaming then
      let s := (s.releasePin c).modCtx n fun c => { c with state := .close, tweak := .absent }
      if c.pieces = 0 then s.complete n else s
    else s
  | none => s

/-- Drives a unit of the open piece downstream; the store's last unit ends the piece with its end mark, releases the path
and takes the context to CLOSE (R107). -/
def State.driveUnit (u : SlotUnit) (s : State) : State :=
  match s.ctx? u.ctx with
  | some c =>
    let s := (s.drive (.unit u.ctx (drivenBeat u.data u.enables))).modCtx u.ctx fun c => { c with passed := c.passed + 1 }
    if u.index + 1 = c.length then
      let s := s.drive (.endMark u.ctx)
      State.enterClose u.ctx { s with media := { s.media with path := .free } }
    else s
  | none => s

/-- A unit is handed to the media port: while its context's piece is open and accepted it is driven at once; otherwise it
waits in the store slot (R107). -/
def State.enterSlot (u : SlotUnit) (s : State) : State :=
  if s.media.path = .piece u.ctx true then s.driveUnit u
  else { s with media := { s.media with slot := some u } }

/-! ## Scrubs and containment (R60, R162) -/

/-- A scrub of a slot: SCRUBBING with its cause, bound ranges locked, holders revoked, queued requests for the slot removed,
an expansion of the slot void; the erasure begins (R60, R65). -/
def State.scrub (k : SlotNo) (keys : KeyPair) (cause : ScrubCause) (s : State) : State :=
  let s := s.writeSlot k { s.slots[k] with body := .scrubbing keys cause }
  let s := s.lockRanges fun r => r.binding == some k
  let s := s.revoke (Context.holds k) (match cause with | .command => .revoked | .check => .fault)
  { s with expander := s.expander.afterScrub k }

/-- Entry to CONTAINED: every CIPHER context revoked with FAULT, the queue emptied, an expansion void, the dwell started
from 50, CONTAINED raised (R162). The cause's fault has been logged before. -/
def State.enterContained (s : State) : State :=
  let s := { s with contain := { s.contain with device := .contained, dwell := some 50 } }
  let s := s.revoke (fun c => c.live && c.passage == .cipher) .fault
  State.raise .contained { s with expander := s.expander.afterContainment }

/-! ## Arrivals from the media segment (R94, R105, R117) -/

/-- What the media port does with an arrival that names a context, before looking at what it answers. -/
inductive Arrival
  | waits
  | dropped
  | takenBy (c : Context)
deriving DecidableEq, Repr

/-- While the controller clear is asserted every arrival is dropped (R117). Otherwise none is taken while the return path is
full (R103) or a hold of another context exists (R105, R137); an arrival for a number not in use is dropped (R94). R94 and R137
meet in an arrival for a number not in use while a hold exists: in the model it waits until the hold ends and is dropped then
(DEDUCED, log entry 32). -/
def State.arrival (n : CtxNo) (s : State) : Arrival :=
  if s.intake = .clearing then .dropped
  else if s.returnFull then .waits
  else if (match s.hold with | some h => h.ctx != n | none => false) then .waits
  else match s.ctx? n with
    | some c => .takenBy c
    | none => .dropped

/-- An arrival other than the answer to a CANCEL: also dropped for a context in CANCEL or STRANDED (R94). -/
def State.liveArrival (n : CtxNo) (s : State) : Arrival :=
  match s.arrival n with
  | .takenBy c => if c.live then .takenBy c else .dropped
  | a => a

/-- The schedule of the entry a CIPHER context has pinned and the kept tweak of its next unit, while the device is in SERVICE
(R16, R122). -/
def State.engineView (c : Context) (s : State) : Option (Schedule × Block) :=
  match c.capture, c.tweak, s.contain.device with
  | some cap, .kept t, .service =>
    if c.streaming then (s.entryOf cap.slot cap.generation).map fun e => (e.schedule, t) else none
  | _, _, _ => none

end Sys2Proof.Machine
end

