-- ==== Sys2Proof/Machine/Admission.lean ====
section
/-! DEFINITION. Admission of a request (R74 to R80): the window decoder's checks (R20 to R29), the range table's (R37 to
R39), the schedule-cache lookup (R121, R123), and what an answer to a header does. -/

namespace Sys2Proof.Machine

/-! ## The window decoder (R18, R20, R21, R24) -/

/-- A treatment under which a window covers addresses (R18). -/
def Treatment.covers : Treatment → Bool
  | .cipher | .clear | .block => true
  | .empty | .faulted => false

/-- Whether a window covers a unit address (R18). -/
def Window.covers (a : UnitAddr) (w : Window) : Bool :=
  w.treatment.covers && decide (w.first.toNat ≤ a.toNat) && decide (a.toNat ≤ w.last.toNat)

/-- The window of a unit address: the lowest-numbered one that covers it (R20). -/
def State.windowOf (a : UnitAddr) (s : State) : Option WindowNo :=
  (List.finRange 8).find? fun i => s.decoder.windows[i].covers a

/-- A set of movers holds a mover (R177: bit m for mover m). -/
def hasMover (m : Fin 8) (set : MoverSet) : Bool := set.getLsbD m.val

/-- Whether a direction admits a kind (R21). -/
def Direction.admits : Direction → Kind → Bool
  | .both, _ => true
  | .fetchOnly, .fetch => true
  | .storeOnly, .store => true
  | _, _ => false

/-! ## The range table (R34, R37) -/

/-- Whether a record's span covers a sector number (R34). -/
def Range.covers (n : Sector) (r : Range) : Bool :=
  match r.span with
  | some sp => decide (sp.count ≠ 0) && decide (sp.first.toNat ≤ n.toNat) && decide (n.toNat < sp.first.toNat + sp.count)
  | none => false

/-- The range of a sector number: the lowest-numbered defined range among 1..15 that covers it, or range 0 (R37). -/
def State.rangeOf (n : Sector) (s : State) : RangeNo :=
  ((List.finRange 16).find? fun (i : RangeNo) => i != 0 && s.ranges[i].covers n).getD 0

/-! ## The twelve checks (R74) -/

/-- What the checks settle. `degraded` says that check 7 degraded the request from raw (R27). -/
inductive Ruling
  | refuse (code : Reply) (degraded : Bool)
  | admitted (passage : Passage) (window : WindowNo) (capture : Option Capture) (degraded : Bool)
deriving DecidableEq, Repr

/-- Check 12: a binding to a slot LOADED with a generation in 1..255 is captured (R39). -/
def State.captureRuling (f : HeaderFields) (w : WindowNo) (i : RangeNo) (degraded : Bool) (s : State) : Ruling :=
  match s.ranges[i].binding with
  | some k =>
    if s.slots[k].isLoaded ∧ s.slots[k].generation ≠ 0 then
      .admitted .cipher w
        (some { range := i, slot := k, generation := s.slots[k].generation, sector := f.sector, offset := f.offset }) degraded
    else .refuse .fault degraded
  | none => .refuse .fault degraded

/-- Checks 8 to 12 of a request settled CIPHER (R38, R39, R76). -/
def State.cipherRuling (f : HeaderFields) (w : WindowNo) (degraded : Bool) (s : State) : Ruling :=
  if s.contain.device ≠ .service then .refuse .fault degraded
  else if f.tagPresent = false then .refuse .noTag degraded
  else if s.decoder.limit ≤ f.sector.toNat ∨ 256 < f.offset.toNat + f.length then .refuse .bound degraded
  else
    match s.ranges[s.rangeOf f.sector].state, f.kind with
    | .faulted, _ => .refuse .fault degraded
    | .locked, _ => .refuse .locked degraded
    | .openRO, .store => .refuse .locked degraded
    | .openRO, .fetch => s.captureRuling f w (s.rangeOf f.sector) degraded
    | .openRW, _ => s.captureRuling f w (s.rangeOf f.sector) degraded

/-- Checks 4 to 7, and 8 to 12 where check 7 settles CIPHER (R20, R21, R24 to R28). -/
def State.windowRuling (f : HeaderFields) (s : State) : Ruling :=
  match s.windowOf f.addr with
  | none => .refuse .denied false
  | some i =>
    let w := s.decoder.windows[i]
    if w.treatment = .block then .refuse .denied false
    else if hasMover f.mover w.movers = false ∨ w.direction.admits f.kind = false then .refuse .denied false
    else if w.last.toNat < f.addr.toNat + f.length - 1 then .refuse .bound false
    else if w.treatment = .clear then .admitted .clear i none false
    else if f.raw then
      if hasMover f.mover w.relocation then .admitted .raw i none false else s.cipherRuling f i true
    else s.cipherRuling f i false

/-- Whether a context that has not sent its completion claims the (mover, tag) pair (R72). -/
def Context.claims (m : Fin 8) (t : Fin 16) (c : Context) : Bool := c.mover == m && c.tag == t && !c.completionSent

/-- The twelve checks in their order (R74, R75). -/
def State.ruling (h : Header) (s : State) : Ruling :=
  if s.contain.device = .selfTest then .refuse .retry false
  else if headerParityGood h = false then .refuse .parity false
  else if 32 ≤ s.contexts.length ∨ s.lowestFree = none ∨ s.contexts.any (Context.claims (readHeader h).mover (readHeader h).tag) then
    .refuse .retry false
  else s.windowRuling (readHeader h)

/-! ## Answers to a header (R77, R79, R80) -/

/-- Gives the answer on the header answer lines. -/
def State.answerHeader (a : HeaderAnswer) (s : State) : State := { s with out := { s.out with headerAnswer := some a.driven } }

/-- A refusal: the code is the answer; a fetch, unless refused PARITY, also gets a completion with no data; a store's beats
are taken and dropped; a header refused PARITY counts the parity tally (R75, R77). -/
def State.refuseRequest (f : HeaderFields) (code : Reply) (s : State) : State :=
  let s := s.answerHeader (.refuse code)
  let s := if code = .parity then s.countParity else s
  match f.kind with
  | .fetch => if code = .parity then s else s.hand (.completion f.mover f.tag code)
  | .store => { s with intake := .dropping f.length none }

/-- The record of an admitted request (R79). -/
def newContext (n : CtxNo) (f : HeaderFields) (p : Passage) (w : WindowNo) (cap : Option Capture) (st : CtxState) : Context where
  number := n
  kind := f.kind
  mover := f.mover
  tag := f.tag
  passage := p
  window := w
  capture := cap
  addr := f.addr
  length := f.length
  passed := 0
  pieces := 0
  doneSeen := false
  cancel := .none
  completionSent := false
  code := .ok
  state := st
  fetchProgress := .notIssued
  cancelIssued := false
  expected := 0
  timer := none
  tweak := .absent

/-- A CIPHER admission restarts the range's idle timer from the full interval, if it has one (R39, R148). -/
def State.restartIdle (i : RangeNo) (s : State) : State :=
  if s.ranges[i].idleInterval = 0 then s
  else { s with ranges := s.ranges.set i { s.ranges[i] with idleRemaining := some s.ranges[i].idleInterval } }

/-- Attaches a context that has missed to the expansion of its pair, to the request queued for it, or to a new request at
the tail (R123). A void expansion takes no new context (R126). -/
def Expander.attach (n : CtxNo) (k : SlotNo) (g : Generation) (x : Expander) : Expander :=
  let queueUp : Expander :=
    if x.queue.any fun r => r.slot == k && r.generation == g then
      { x with queue := x.queue.map fun r =>
          if r.slot = k ∧ r.generation = g then { r with attached := r.attached ++ [n] } else r }
    else { x with queue := x.queue ++ [{ slot := k, generation := g, attached := [n] }] }
  match x.current with
  | some e =>
    if e.slot = k ∧ e.generation = g ∧ e.void = false then { x with current := some { e with attached := e.attached ++ [n] } }
    else queueUp
  | none => queueUp

/-- The intake after a header admitted into a state (R100). -/
def intakeAfter (k : Kind) (n : CtxNo) (st : CtxState) : Intake :=
  match k, st with
  | .fetch, _ => .header
  | .store, .waitKey => .waiting n
  | .store, _ => .beats n 0

/-- Creates the context of an admitted request at the tail of the list (R79). -/
def State.addContext (c : Context) (s : State) : State :=
  { s with contexts := s.contexts ++ [c], intake := intakeAfter c.kind c.number c.state }

/-- Creation of a RAW or CLEAR context, in STREAM (R79). -/
def State.admitPlain (n : CtxNo) (f : HeaderFields) (p : Passage) (w : WindowNo) (s : State) : State :=
  s.addContext (newContext n f p w none .stream)

/-- Creation of a CIPHER context: the range's idle timer is restarted; a hit pins the entry and the context enters STREAM; a
miss leaves it in WAITKEY, attached (R39, R80, R121, R123). -/
def State.admitCipher (n : CtxNo) (f : HeaderFields) (w : WindowNo) (cap : Capture) (s : State) : State :=
  let s := s.restartIdle cap.range
  let i := setOf cap.slot cap.generation
  match s.cache[i].find cap.slot cap.generation with
  | some way => (s.putSet i (s.cache[i].pin way)).addContext (newContext n f .cipher w (some cap) .stream)
  | none =>
    { s with expander := s.expander.attach n cap.slot cap.generation }.addContext
      (newContext n f .cipher w (some cap) .waitKey)

/-- Admits a request: ADMIT is answered and the context created under the lowest number not in use (R79). -/
def State.admitRequest (f : HeaderFields) (p : Passage) (w : WindowNo) (cap : Option Capture) (s : State) : State :=
  match s.lowestFree, cap with
  | some n, some cap => ((s.answerHeader .admitted).admitCipher n f w cap).takeEligible
  | some n, none => (s.answerHeader .admitted).admitPlain n f p w
  | none, _ => s

/-- Counts a degrade at check 7, whatever the later checks decide (R27). -/
def State.noteDegrade (degraded : Bool) (s : State) : State := if degraded then s.countRawIgnored else s

/-- REQUEST_HEADER: the intake in HEADER takes the header and answers it by the twelve checks; in any other state the header
stays on the segment untaken (R74, R100, R102). -/
def execRequestHeader (h : Header) (s : State) : Host.Outcome State Fault Refusal :=
  if s.intake = .header then
    match s.ruling h with
    | .refuse code degraded => .next ((s.start.noteDegrade degraded).refuseRequest (readHeader h) code)
    | .admitted p w cap degraded => .next ((s.start.noteDegrade degraded).admitRequest (readHeader h) p w cap)
  else .next s.untaken

end Sys2Proof.Machine
end

