-- ==== Sys2Proof/Machine/ControllerPort.lean ====
section
/-! DEFINITION. The controller port's intake of store beats (R83, R86, R100, R101, R113), the beginning of a hold (R134, R136)
and the return path's delivery (R103). -/

namespace Sys2Proof.Machine

/-! ## Beats of a store (R100, R101) -/

/-- The intake after one more beat of a store: the last one returns it to HEADER (R100). -/
def State.advanceIntake (c : Context) (taken : Nat) (s : State) : State :=
  { s with intake := if c.length ≤ taken + 1 then .header else .beats c.number (taken + 1) }

/-- Whether the store's path can accept the next beat: no hold exists, the store slot is empty, and for CIPHER the outbound path
is free and the catch-up has ended (R7, R101, log entry 15). R135, R139 and section 7.9 say that no beat is taken during a hold;
R100 returns the intake to HEADER after a partial beat that is its store's last, so that another store may be admitted before the
hold ends. In the model its beats wait on the segment until then (DEDUCED, log entry 29). -/
def State.canTakeBeat (c : Context) (s : State) : Bool :=
  s.hold.isNone && s.media.slot.isNone &&
  (match c.passage, c.tweak with
    | .cipher, .kept _ => s.engines.outbound.isNone
    | .cipher, _ => false
    | _, _ => true)

/-- Whether some enabled lane's parity does not match (R113). -/
def beatParityBad (b : Beat) : Bool := (b.parity ^^^ lanesParity b.data) &&& b.enables != 0

/-- Between 1 and 15 of the 16 lanes enabled (R134). -/
def beatPartial (b : Beat) : Bool := b.enables != 0 && b.enables != allLanes

/-- The record of a store at an upstream parity failure: code PARITY, and its cancel SENT if it has outstanding work (R113). -/
def Context.parityFailed (sends : Bool) (c : Context) : Context :=
  { c with
    code := c.code.orElse .parity
    cancel := if c.cancel = .none ∧ sends = true then .sent else c.cancel
    timer := keepCancelTimer c.timer }

/-- An upstream parity failure on a beat: the beat is dropped, an open piece abandoned, the CANCEL made ready where work is
outstanding, the tally counted and PARITY-UP logged; the store drains, and enters CANCEL if this was its last beat (R86, R113). -/
def State.upstreamParity (c : Context) (taken : Nat) (s : State) : State :=
  let s := { s with media := s.media.abandon c.number }
  let s := (s.modCtx c.number (Context.parityFailed (s.outstanding c))).countParity
  let s := s.logFault .parityUp (some c) none none
  if c.length ≤ taken + 1 then s.enterCancel c.number .parity false false else s

/-- Ends a context's open piece with its end mark and releases the path (R107). -/
def State.endPiece (n : CtxNo) (s : State) : State :=
  if s.media.path.owner = some n then
    { s.drive (.endMark n) with media := { s.media with path := .free } }
  else s

/-- The hold begins: the open piece is ended, the context enters HOLD, the media segment is reserved, the HOLD-FETCH is
issued and its ACCEPT timed (R136). -/
def State.beginHold (c : Context) (index : Nat) (b : Beat) (s : State) : State :=
  let s := s.endPiece c.number
  let addr := c.addr + BitVec.ofNat 28 index
  let s := s.modCtx c.number fun c => { c with state := .hold, timer := timerStart .accept }
  let h : Hold :=
    { ctx := c.number, index := index, addr := addr, bytes := b.data, enables := b.enables, phase := .fetch,
      fetchAnswered := false, merged := none }
  { s.drive (.holdFetch c.number addr) with
    hold := some h
    marks := { s.marks with holders := c.number :: s.marks.holders } }

/-- A unit is presented to the outbound path (R12). -/
def State.loadOutbound (j : OutboundJob) (s : State) : State := { s with engines := { s.engines with outbound := some j } }

/-- A beat that its path can accept (R83, R101, R113, R134). -/
def State.takeBeat (c : Context) (taken : Nat) (b : Beat) (s : State) : State :=
  let s := s.advanceIntake c taken
  if beatParityBad b then s.upstreamParity c taken
  else
    match c.passage with
    | .cipher =>
      if beatPartial b then s.beginHold c taken b
      else
        s.loadOutbound { ctx := c.number, index := taken, data := b.data, enables := b.enables, merged := false }
    | _ => s.enterSlot { ctx := c.number, index := taken, data := b.data, enables := b.enables }

/-- A beat taken and dropped in DROPPING: the last one returns the intake to HEADER and hands the completion of the context,
if the beats are a context's (R91, R92, R100). -/
def State.dropBeat (left : Nat) (owner : Option CtxNo) (s : State) : State :=
  if left ≤ 1 then
    let s := { s with intake := .header }
    match owner with
    | some n => (s.handCompletion n).freeIfDone n
    | none => s
  else { s with intake := .dropping (left - 1) owner }

/-- A beat of a draining store, taken and dropped: at the last one the store enters CANCEL (R86). -/
def State.drainBeat (c : Context) (taken : Nat) (s : State) : State :=
  let s := s.advanceIntake c taken
  if c.length ≤ taken + 1 then s.enterCancel c.number c.code false false else s

/-- STORE_BEAT: the intake in BEATS takes the next beat when the store's path can accept it; a beat that meets a draining
store or DROPPING is taken and dropped; otherwise it stays on the segment (R83, R100, R101). -/
def execStoreBeat (b : Beat) (s : State) : Host.Outcome State Fault Refusal :=
  match s.intake with
  | .beats n taken =>
    match s.ctx? n with
    | some c =>
      if c.draining then .next (s.start.drainBeat c taken).takeEligible
      else if c.state = .stream ∧ s.canTakeBeat c then .next (s.start.takeBeat c taken b).takeEligible
      else .next s.untaken
    | none => .next s.untaken
  | .dropping left owner => .next (s.start.dropBeat left owner)
  | _ => .next s.untaken

/-- BEAT_DROPPED: a beat of a refused, cancelled, stranded or draining store is taken and dropped (R77, R86, R91, R92, R100). -/
def execBeatDropped (s : State) : Host.Outcome State Fault Refusal :=
  match s.intake with
  | .dropping left owner => .next (s.start.dropBeat left owner)
  | .beats n taken =>
    match s.ctx? n with
    | some c => if c.draining then .next (s.start.drainBeat c taken).takeEligible else .next s.untaken
    | none => .next s.untaken
  | _ => .next s.untaken

/-! ## The return path's delivery (R103) -/

/-- What the head item delivers in one action, and what is left of it. -/
def ReturnItem.deliver : ReturnItem → Delivery × List ReturnItem
  | .data m t u => (.beat m t (drivenBeat u allLanes), [])
  | .withheld n m t =>
    (.beat m t (drivenBeat withheldPattern allLanes), if n ≤ 1 then [] else [.withheld (n - 1) m t])
  | .completion m t code => (.completion m t code, [])

/-- RETURN_PATH_DELIVERY: the head item delivers one beat, or a completion, to its mover (R103). -/
def execReturnPathDelivery (s : State) : Host.Outcome State Fault Refusal :=
  match s.returnPath with
  | [] => .next s.untaken
  | item :: rest =>
    .next
      { s.start with
        returnPath := item.deliver.2 ++ rest
        out := { Outputs.quiet with delivered := some item.deliver.1.driven } }

end Sys2Proof.Machine
end

