-- ==== Sys2Proof/Machine/KeyLink.lean ====
section
/-! DEFINITION. The key link's response buffer, command periods and read periods (R172 to R176). -/

namespace Sys2Proof.Machine

/-- Drives KDO clock by clock (R173, R175). -/
def State.driveKdo (bits : List (Option Bool)) (s : State) : State := { s with out := { s.out with kdo := bits } }

/-- A response enters the buffer, which is PENDING until its preparation ends (R174). -/
def State.respond (a : Answer) (s : State) : State := { s with link := .pending a.frame }

/-- The end of a command period with a command at step 5 of R176: in SELF-TEST every command but STATUS is refused STATE;
otherwise its owner carries it out and gives the response. -/
def State.judged (isStatus : Bool) (owner : State → State × Answer) (s : State) : State :=
  if s.contain.device = .selfTest ∧ isStatus = false then s.respond (.refused .state)
  else (owner s).1.respond (owner s).2

/-- The end of a command period: into an EMPTY buffer the frame is judged; a buffer that still holds a response has it
replaced by REFUSED BUSY and the frame is discarded unjudged (R174). KDO carries ones at every clock (R173). -/
def State.commandEnds (clocks : Nat) (judge : State → State) (s : State) : State :=
  let s := s.start.driveKdo (List.replicate clocks (some true))
  match s.link with
  | .empty => judge s
  | .pending _ => { s with link := .pending (Answer.refused .busy).frame }
  | .ready _ => { s with link := .ready (Answer.refused .busy).frame }

/-- A command row: a command period whose frame carries the command, well formed (log entry 9). -/
def linkRow (c : LinkCommand) (owner : State → State × Answer) (s : State) : Host.Outcome State Fault Refusal :=
  .next (s.commandEnds (8 * c.frame.length) (State.judged (c == .status) owner))

/-- PREPARATION_END: the response held becomes READY (R174). -/
def execPreparationEnd (s : State) : Host.Outcome State Fault Refusal :=
  match s.link with
  | .pending frame => .next { s.start with link := .ready frame }
  | _ => .next s.untaken

/-- What KDO carries at the clocks of a read period: nothing is driven in the first byte, then come the bits of a run of bytes,
then ones (R173, R175, log entry 21). -/
def readBits (clocks : Nat) (bytes : List Byte) : List (Option Bool) :=
  List.replicate 8 none ++ ((toBits bytes ++ List.replicate clocks true).take (clocks - 8)).map some

/-- A read period of at least eight clocks: the part drives the response of a READY buffer, or a marker. A READY buffer becomes
EMPTY once the last bit of the response's check has been shifted out (R174, R175). -/
def State.readEnds (clocks : Nat) (s : State) : State :=
  match s.link with
  | .empty => s.driveKdo (readBits clocks [0x5B])
  | .pending _ => s.driveKdo (readBits clocks [0x5A])
  | .ready frame =>
    let s := s.driveKdo (readBits clocks frame)
    if 8 * frame.length ≤ clocks - 8 then { s with link := .empty } else s

/-- READ_PERIOD: a select period whose first byte on KDI is 0xFF; one of fewer than eight clocks is ignored, with nothing
kept of KDO (R173, R175, log entry 21). -/
def execReadPeriod (clocks : Nat) (s : State) : Host.Outcome State Fault Refusal :=
  if clocks < 8 then .next s.untaken else .next (s.start.readEnds clocks)

end Sys2Proof.Machine
end

