-- ==== Sys2Proof/Machine/DeviceCommands.lean ====
section
/-! DEFINITION. The commands of the containment unit, the timebase and the event unit: GO (R161), RECOVER (R165), ARM-PRESENCE
(R153), RENEW (R154), SET-ALERT (R181), CLEAR-EVENTS (R182), CLEAR-FAULT (R171), CLEAR-TALLIES (R183). -/

namespace Sys2Proof.Machine

/-- GO moves the device from CONFIG to SERVICE, and is refused STATE elsewhere (R161). -/
def State.ownGo (s : State) : State × Answer :=
  if s.contain.device = .config then ({ s with contain := { s.contain with device := .service } }, .done [])
  else (s, .refused .state)

/-! ## RECOVER (R165) -/

/-- A range after RECOVER: LOCKED, its timer stopped; a FAULTED range among 1..15 is undefined; the check word is fresh (R47). -/
def Range.recovered (i : RangeNo) (r : Range) : Range :=
  Range.sealed i
    { r with
      span := if r.state = .faulted ∧ i ≠ 0 then some { first := 0, count := 0 } else r.span
      state := .locked
      idleRemaining := none }

/-- A slot after RECOVER: EMPTY, its generation kept, its check word fresh (R69). -/
def Slot.recovered (k : SlotNo) (r : Slot) : Slot := Slot.sealed k { r with body := .empty }

/-- In SCRUBBING with cause COMMAND (R69). -/
def Slot.scrubbingByCommand (r : Slot) : Bool :=
  match r.body with
  | .scrubbing _ .command => true
  | _ => false

/-- What RECOVER does across the part: an expansion void, the cache invalidated, every slot EMPTY with SCRUBBED raised for one
whose scrub by command it ends, every range LOCKED, presence IDLE, dwell ENDED, device SELF-TEST (R47, R69, R132, R157, R165). -/
def State.recoverAll (s : State) : State :=
  let t : State :=
    { s with
      expander := s.expander.voidWhere fun _ => true
      cache := Vector.ofFn fun i => s.cache[i].discard fun _ => true
      slots := Vector.ofFn fun k => s.slots[k].recovered k
      ranges := Vector.ofFn fun i => s.ranges[i].recovered i
      time := { s.time with presence := .idle }
      contain := { s.contain with dwell := none, device := .selfTest } }
  if (List.finRange 32).any fun (k : SlotNo) => s.slots[k].scrubbingByCommand then State.raise .scrubbed t else t

/-- RECOVER: STATE outside CONTAINED, DWELL while the dwell runs, otherwise carried out and ACCEPTED (R165). -/
def State.ownRecover (s : State) : State × Answer :=
  if s.contain.device ≠ .contained then (s, .refused .state)
  else if s.contain.dwell.isSome then (s, .refused .dwell)
  else (s.recoverAll, .accepted)

/-! ## Presence (R153, R154) -/

/-- An interval clamped into 10..6,000 (R153). -/
def clampInterval (n : Nat) : Nat := max 10 (min n 6000)

/-- ARM-PRESENCE arms an IDLE or LAPSED timer with the clamped interval, which the answer reports; an ARMED one is refused
ARMED and counts on (R153). -/
def State.ownArmPresence (interval : BitVec 16) (s : State) : State × Answer :=
  if s.contain.device = .selfTest then (s, .refused .state)
  else
    match s.time.presence with
    | .armed _ _ => (s, .refused .armed)
    | _ =>
      let n := clampInterval interval.toNat
      ({ s with time := { s.time with presence := .armed n n } }, .done (leBytes 2 n))

/-- RENEW restarts an ARMED timer from its interval; otherwise it is refused NOT-ARMED (R154). -/
def State.ownRenew (s : State) : State × Answer :=
  if s.contain.device = .selfTest then (s, .refused .state)
  else
    match s.time.presence with
    | .armed n _ => ({ s with time := { s.time with presence := .armed n n } }, .done [])
    | _ => (s, .refused .notArmed)

/-! ## Events, faults, tallies (R171, R181, R182, R183) -/

/-- SET-ALERT writes the whole enable set; bits 10 to 15 must be 0 (R181). -/
def State.ownSetAlert (enables : BitVec 16) (s : State) : State × Answer :=
  if s.contain.device = .selfTest then (s, .refused .state)
  else if 1024 ≤ enables.toNat then (s, .refused .badValue)
  else (s.setEnables (enables.setWidth 10), .done [])

/-- CLEAR-EVENTS clears the flags named; naming RANGE-LOCKED also empties the idle-locked set; bits 10 to 15 must be 0 (R151,
R182). -/
def State.ownClearEvents (events : BitVec 16) (s : State) : State × Answer :=
  if s.contain.device = .selfTest then (s, .refused .state)
  else if 1024 ≤ events.toNat then (s, .refused .badValue)
  else
    let t := s.clearFlags (events.setWidth 10)
    (if events.getLsbD Event.rangeLocked.number then { t with time := { t.time with idleLocked := 0 } } else t, .done [])

/-- CLEAR-FAULT empties the first record and sets the count to 0 (R171). -/
def State.ownClearFault (s : State) : State × Answer :=
  if s.contain.device = .selfTest then (s, .refused .state)
  else ({ s with faults := { count := 0, first := none } }, .done [])

/-- CLEAR-TALLIES sets the three tallies to 0 (R116, R183). -/
def State.ownClearTallies (s : State) : State × Answer :=
  if s.contain.device = .selfTest then (s, .refused .state)
  else ({ s with tallies := { parity := 0, timeout := 0, rawIgnored := 0 } }, .done [])

/-- GO (R161). -/
def execGo (s : State) : Host.Outcome State Fault Refusal := linkRow .go State.ownGo s

/-- RECOVER (R165). -/
def execRecover (s : State) : Host.Outcome State Fault Refusal := linkRow .recover State.ownRecover s

/-- ARM_PRESENCE (R153). -/
def execArmPresence (interval : BitVec 16) (s : State) : Host.Outcome State Fault Refusal :=
  linkRow (.armPresence interval) (State.ownArmPresence interval) s

/-- RENEW (R154). -/
def execRenew (s : State) : Host.Outcome State Fault Refusal := linkRow .renew State.ownRenew s

/-- SET_ALERT (R181). -/
def execSetAlert (enables : BitVec 16) (s : State) : Host.Outcome State Fault Refusal :=
  linkRow (.setAlert enables) (State.ownSetAlert enables) s

/-- CLEAR_EVENTS (R182). -/
def execClearEvents (events : BitVec 16) (s : State) : Host.Outcome State Fault Refusal :=
  linkRow (.clearEvents events) (State.ownClearEvents events) s

/-- CLEAR_FAULT (R171). -/
def execClearFault (s : State) : Host.Outcome State Fault Refusal := linkRow .clearFault State.ownClearFault s

/-- CLEAR_TALLIES (R183). -/
def execClearTallies (s : State) : Host.Outcome State Fault Refusal := linkRow .clearTallies State.ownClearTallies s

end Sys2Proof.Machine
end

