-- ==== Sys2Proof/Machine/Engines.lean ====
section
/-! DEFINITION. The cipher engines (chapter 1) and the merge (R139): sector tweak, catch-up, the outbound path with its verify
checker, the inbound engine. -/

namespace Sys2Proof.Machine

/-! ## Sector tweak and catch-up (R4, R7) -/

/-- Keeps a tweak for a context's first unit; from now on its units can be presented. -/
def State.keepTweak (n : CtxNo) (t : Block) (s : State) : State :=
  let s := s.modCtx n fun c => { c with tweak := .kept t }
  { s with marks := { s.marks with readied := n :: s.marks.readied } }

/-- SECTOR_TWEAK: T₀ under the pinned schedule's tweak-key rounds, once for each context, after it has a pinned schedule
(R4). With offset 0 the context starts from T₀; otherwise its catch-up runs (R7). -/
def execSectorTweak (n : CtxNo) (s : State) : Host.Outcome State Fault Refusal :=
  match s.ctx? n with
  | some c =>
    match c.capture, c.tweak, s.contain.device with
    | some cap, .absent, .service =>
      match s.entryOf cap.slot cap.generation with
      | some e =>
        if c.streaming then
          let t0 := e.schedule.sectorTweak cap.sector
          if cap.offset = 0 then .next (s.start.keepTweak n t0)
          else .next (s.start.modCtx n fun c => { c with tweak := .catchingUp t0 })
        else .next s.untaken
      | none => .next s.untaken
    | _, _, _ => .next s.untaken
  | none => .next s.untaken

/-- CATCH_UP: the catch-up of o doublings ends, giving T_o (R6, R7). -/
def execCatchUp (n : CtxNo) (s : State) : Host.Outcome State Fault Refusal :=
  match s.ctx? n with
  | some c =>
    match c.capture, c.tweak, s.contain.device with
    | some cap, .catchingUp t0, .service => .next (s.start.keepTweak n (doubled cap.offset.toNat t0))
    | _, _, _ => .next s.untaken
  | none => .next s.untaken

/-! ## The outbound path (R12, R13) -/

/-- The kept tweak advances by one doubling (R8). -/
def State.advanceTweak (n : CtxNo) (t : Block) (s : State) : State :=
  s.modCtx n fun c => { c with tweak := .kept (double t) }

/-- Whether a verified unit can be handed to the media port: its context's piece is open and accepted, or the store slot is
empty and no other store's piece holds the request path (R107, log entry 16). -/
def State.slotAccepts (n : CtxNo) (s : State) : Bool :=
  s.media.path == .piece n true ||
  (s.media.slot.isNone && (s.media.path.owner == none || s.media.path.owner == some n))

/-- The RELEASE-STORE is issued once the hold has its DONE and its merged unit: phase RELEASE, the unit in the store slot, the
header driven, its ACCEPT timed (R140). -/
def State.tryRelease (s : State) : State :=
  match s.hold with
  | some h =>
    match h.fetchAnswered, h.merged with
    | true, some m =>
      let s := (s.drive (.releaseStore h.ctx h.addr)).startTimer h.ctx .accept
      let u : SlotUnit := { ctx := h.ctx, index := h.index, data := m, enables := allLanes }
      { s with
        hold := some { h with phase := .release }
        media := { s.media with slot := some u, path := .release h.ctx } }
    | _, _ => s
  | none => s

/-- A hold's unit has passed the checker: it becomes the merged unit (R139, R140). -/
def State.mergedPassed (result : Block) (s : State) : State :=
  State.tryRelease { s with hold := s.hold.map fun h => { h with merged := some result } }

/-- The unit on the outbound path has gone. -/
def State.clearOutbound (s : State) : State := { s with engines := { s.engines with outbound := none } }

/-- OUTBOUND_VERIFY: the engine enciphers the unit (R9); `disturbance` is what a fault of the engine has exclusive-ored into
its result, 0 for a sound engine (log entry 7). The checker deciphers the result and compares (R13). On a pass the kept tweak
advances and the unit goes to the media port or becomes the hold's merged unit (R12, R139). On a mismatch the unit is
discarded, ENGINE is logged and the device enters CONTAINED (R13, R162). -/
def execOutboundVerify (disturbance : Block) (s : State) : Host.Outcome State Fault Refusal :=
  match s.engines.outbound with
  | some j =>
    match s.ctx? j.ctx with
    | some c =>
      match s.engineView c with
      | some (sch, t) =>
        let result := sch.encipher t j.data ^^^ disturbance
        if sch.decipher t result = j.data then
          if j.merged then .next ((s.start.clearOutbound.advanceTweak j.ctx t).mergedPassed result)
          else if s.slotAccepts j.ctx then
            .next ((s.start.clearOutbound.advanceTweak j.ctx t).enterSlot
              { ctx := j.ctx, index := j.index, data := result, enables := j.enables }).takeEligible
          else .next s.untaken
        else .next (s.start.clearOutbound.logFault .engine (some c) none none).enterContained
      | none => .next s.untaken
    | none => .next s.start.clearOutbound
  | none => .next s.untaken

/-! ## The inbound engine (R14, R15) -/

/-- The unit in the inbound engine has gone. -/
def State.clearInbound (s : State) : State := { s with engines := { s.engines with inbound := none } }

/-- A fetch unit is handed upstream with data from the media: units passed rises by one, and the fetch completes if it was
the last and DONE has been seen (R82). -/
def State.deliverUnit (c : Context) (x : Block) (s : State) : State :=
  let s := ((s.hand (.data c.mover c.tag x)).modCtx c.number fun c => { c with passed := c.passed + 1 }).markFull
  if c.passed + 1 = c.length ∧ c.doneSeen = true then s.complete c.number else s

/-- The merged plaintext: the mover's bytes on the enabled lanes, the deciphered bytes on the others (R139). -/
def Hold.merge (h : Hold) (x : Block) : Block :=
  ofBytes fun i => if h.enables.getLsbD i then byteAt h.bytes i else byteAt x i

/-- The merged plaintext is presented to the outbound path with all 16 lanes enabled (R139). -/
def State.presentMerged (h : Hold) (x : Block) (s : State) : State :=
  let j : OutboundJob := { ctx := h.ctx, index := h.index, data := h.merge x, enables := allLanes, merged := true }
  { s with engines := { s.engines with outbound := some j } }

/-- INBOUND_DECIPHER: the engine deciphers its unit (R10). A fetch unit is handed upstream if its context is still in STREAM,
and its kept tweak advances (R8, R14); a hold's unit goes to the merge unit (R15, R139). A unit whose context has left those
states is discarded (R14). -/
def execInboundDecipher (s : State) : Host.Outcome State Fault Refusal :=
  match s.engines.inbound with
  | some j =>
    match s.ctx? j.ctx with
    | some c =>
      if c.streaming then
        match s.engineView c with
        | some (sch, t) =>
          let x := sch.decipher t j.data
          if j.forHold then
            match s.hold with
            | some h => .next (s.start.clearInbound.presentMerged h x)
            | none => .next s.start.clearInbound
          else .next ((s.start.clearInbound.advanceTweak j.ctx t).deliverUnit c x).takeEligible
        | none => .next s.untaken
      else .next s.start.clearInbound
    | none => .next s.start.clearInbound
  | none => .next s.untaken

end Sys2Proof.Machine
end

