-- ==== Sys2Proof/Machine/Expand.lean ====
section
/-! DEFINITION. The key expander's steps (R124 to R127) and the end of an erasure (R63). -/

namespace Sys2Proof.Machine

/-- EXPANSION_START: the idle expander takes the oldest eligible request and starts its expansion (R124, R125). By R124 the
take is made in the action in which both conditions first hold, so in the states the part's own actions reach there is none
left for a later one (log entry 17). -/
def execExpansionStart (s : State) : Host.Outcome State Fault Refusal :=
  match s.expander.current, s.oldestEligible with
  | none, some r => if s.slots[r.slot].isLoaded then .next (s.start.startExpansion r) else .next s.untaken
  | _, _ => .next s.untaken

/-- An attached context enters STREAM (R81). -/
def Context.released (attached : List CtxNo) (c : Context) : Context :=
  if c.number ∈ attached ∧ c.state = .waitKey then { c with state := .stream } else c

/-- An attached store releases the intake from WAITING to BEATS (R100, R127). -/
def Intake.released (attached : List CtxNo) : Intake → Intake
  | .waiting n => if n ∈ attached then .beats n 0 else .waiting n
  | i => i

/-- The fill of an expansion's target way: the entry becomes valid, pinned once for each attached context, and is the most
recently used of its set; the attached contexts enter STREAM together (R127). -/
def State.fill (e : Expansion) (s : State) : State :=
  let entry : Entry :=
    { slot := e.slot, generation := e.generation, schedule := e.keys.schedule, pins := e.attached.length, flush := false }
  { s.putSet e.set { s.cache[e.set].put e.way (some entry) with recent := e.way } with
    contexts := s.contexts.map (Context.released e.attached)
    intake := s.intake.released e.attached }

/-- EXPANSION_COMPLETION: the expander becomes idle. Not void and with its slot LOADED at its generation, the expansion fills
its entry; otherwise the result is discarded. The expander then takes the oldest eligible request in the same action (R124,
R127). -/
def execExpansionCompletion (s : State) : Host.Outcome State Fault Refusal :=
  match s.expander.current with
  | some e =>
    let t := { s.start with expander := { s.expander with current := none } }
    if e.void = false ∧ s.slots[e.slot].isLoaded ∧ s.slots[e.slot].generation = e.generation then
      .next (t.fill e).takeEligible
    else .next t.takeEligible
  | none => .next s.untaken

/-- The end of a slot's erasure: EMPTY for cause COMMAND, FAULTED for cause CHECK; keys and cause absent, the generation kept;
the slot's schedule entries invalidated; SCRUBBED raised for cause COMMAND (R63). -/
def State.eraseSlot (k : SlotNo) (cause : ScrubCause) (s : State) : State :=
  let s := s.discardEntries fun e => e.slot == k
  match cause with
  | .command => State.raise .scrubbed (s.writeSlot k { s.slots[k] with body := .empty })
  | .check => s.writeSlot k { s.slots[k] with body := .faulted }

/-- ERASURE_COMPLETION: the erasure of a slot in SCRUBBING ends (R62, R63). A slot that a disturbance of its stored state has made
SCRUBBING is taken as one under erasure, though no scrub began one; a slot that a disturbance has taken out of SCRUBBING is taken
as one whose erasure ends without a completion, so that the row is untaken (DESIGN CHOICE, log entry 34). The slot's entries are
unpinned (R63), but for a slot made SCRUBBING by a disturbance: a pinned one goes too (log entry 34), and the expander takes a
request that this makes eligible in the same action (R124). -/
def execErasureCompletion (k : SlotNo) (s : State) : Host.Outcome State Fault Refusal :=
  match s.slots[k].body with
  | .scrubbing _ cause => .next (s.start.eraseSlot k cause).takeEligible
  | _ => .next s.untaken

end Sys2Proof.Machine
end

