-- ==== Sys2Proof/Machine/KeyCommands.lean ====
section
/-! DEFINITION. The commands of the key table and the schedule cache: LOAD-KEY (R57, R11, R54), SCRUB-KEY (R59, R60),
FLUSH-SCHEDULES (R129). -/

namespace Sys2Proof.Machine

/-- A slot index of a payload, if it is at most 31. -/
def slotIndex (b : Byte) : Option SlotNo := if h : b.toNat < 32 then some ⟨b.toNat, h⟩ else none

/-- The generation after one more load: 0 becomes 1, 255 becomes 1 (R54). -/
def nextGeneration (g : Generation) : Generation := if g = 255 then 1 else g + 1

/-- LOAD-KEY: refused in SELF-TEST and CONTAINED, for an index above 31, for a slot that is not EMPTY, and for two equal keys, in
that order; otherwise the slot becomes LOADED with its generation advanced, which the answer reports (R11, R54, R57). -/
def State.ownLoadKey (slot : Byte) (dataKey tweakKey : Key) (s : State) : State × Answer :=
  if s.contain.device = .selfTest ∨ s.contain.device = .contained then (s, .refused .state)
  else
    match slotIndex slot with
    | none => (s, .refused .badIndex)
    | some k =>
      if s.slots[k].body ≠ .empty then (s, .refused .occupied)
      else if dataKey = tweakKey then (s, .refused .keysEqual)
      else
        let g := nextGeneration s.slots[k].generation
        (s.writeSlot k { s.slots[k] with body := .loaded { dataKey := dataKey, tweakKey := tweakKey }, generation := g },
          .done [g])

/-- SCRUB-KEY: a LOADED slot is scrubbed with cause COMMAND; a SCRUBBING one keeps its scrub; an EMPTY one stays; a FAULTED one
becomes EMPTY (R59, R60). A stored state that is none of the four is scrubbed as a LOADED slot is (log entry 10). -/
def State.ownScrubKey (slot : Byte) (s : State) : State × Answer :=
  if s.contain.device = .selfTest then (s, .refused .state)
  else
    match slotIndex slot with
    | none => (s, .refused .badIndex)
    | some k =>
      match s.slots[k].body with
      | .loaded keys | .undefined keys => ((s.scrub k keys .command).takeEligible, .accepted)
      | .scrubbing _ _ => (s, .accepted)
      | .empty => (s, .done [])
      | .faulted => (s.writeSlot k { s.slots[k] with body := .empty }, .done [])

/-- A way after FLUSH-SCHEDULES: an unpinned entry is invalidated, a pinned one has its flush mark set (R129). -/
def flushWay (e : Option Entry) : Option Entry :=
  e.bind fun e => if e.pins = 0 then none else some { e with flush := true }

/-- FLUSH-SCHEDULES (R129). -/
def State.ownFlush (s : State) : State × Answer :=
  if s.contain.device = .selfTest then (s, .refused .state)
  else
    ({ s with cache := Vector.ofFn fun i =>
        { s.cache[i] with way0 := flushWay s.cache[i].way0, way1 := flushWay s.cache[i].way1 } }, .done [])

/-- LOAD_KEY (R57). -/
def execLoadKey (slot : Byte) (dataKey tweakKey : Key) (s : State) : Host.Outcome State Fault Refusal :=
  linkRow (.loadKey slot dataKey tweakKey) (State.ownLoadKey slot dataKey tweakKey) s

/-- SCRUB_KEY (R59). -/
def execScrubKey (slot : Byte) (s : State) : Host.Outcome State Fault Refusal :=
  linkRow (.scrubKey slot) (State.ownScrubKey slot) s

/-- FLUSH_SCHEDULES (R129). -/
def execFlushSchedules (s : State) : Host.Outcome State Fault Refusal := linkRow .flushSchedules State.ownFlush s

end Sys2Proof.Machine
end

