-- ==== Sys2Proof/Machine/RangeCommands.lean ====
section
/-! DEFINITION. The commands of the range table: SET-RANGE (R40, R41), OPEN-RANGE (R42), LOCK-RANGE (R43). -/

namespace Sys2Proof.Machine

/-- A range index of a payload, if it is at most 15. -/
def rangeIndex (b : Byte) : Option RangeNo := if h : b.toNat < 16 then some ⟨b.toNat, h⟩ else none

/-- A key binding of a payload: 0xFF is absent, 0..31 a slot, any other value names no slot (R40, R177). -/
def readBinding (b : Byte) : Option (Option SlotNo) :=
  if b = 0xFF then some none else if h : b.toNat < 32 then some (some ⟨b.toNat, h⟩) else none

/-- A flag byte of a payload: 0 no, 1 yes, any other value undefined (R176, R177). -/
def readFlag (b : Byte) : Option Bool := if b = 0 then some false else if b = 1 then some true else none

/-- The longest idle interval, to which a longer one is clamped (R40). -/
def idleMax : Nat := 1048575

/-- Whether a span shares a sector with another: both have sectors, and neither ends before the other begins (R40). -/
def Span.meets (a b : Span) : Bool :=
  decide (a.count ≠ 0) && decide (b.count ≠ 0) &&
  decide (a.first.toNat < b.first.toNat + b.count) && decide (b.first.toNat < a.first.toNat + a.count)

/-- Whether a new span for a range shares a sector with another defined range among 1..15 (R40). -/
def State.spanOverlaps (i : RangeNo) (sp : Span) (s : State) : Bool :=
  (List.finRange 16).any fun (j : RangeNo) =>
    j != i && j != 0 && (match s.ranges[j].span with | some o => sp.meets o | none => false)

/-- SET-RANGE, in the order of R40: STATE, BAD-INDEX, RANGE-OPEN, BAD-VALUE, OVERLAP; otherwise the record is rewritten and
LOCKED. For range 0 the span is neither checked nor stored; an idle interval is clamped. -/
def State.ownSetRange (index : Byte) (first : Sector) (count : BitVec 48) (binding lockOnAbsence : Byte)
    (idleInterval : BitVec 24) (s : State) : State × Answer :=
  if s.contain.device = .selfTest then (s, .refused .state)
  else
    match rangeIndex index with
    | none => (s, .refused .badIndex)
    | some i =>
      if s.ranges[i].isOpen then (s, .refused .rangeOpen)
      else if i ≠ 0 ∧ 2 ^ 40 < first.toNat + count.toNat then (s, .refused .badValue)
      else
        match readBinding binding, readFlag lockOnAbsence with
        | some k, some lock =>
          let sp : Span := { first := first, count := count.toNat }
          if i ≠ 0 ∧ s.spanOverlaps i sp then (s, .refused .overlap)
          else
            let r : Range :=
              { span := if i = 0 then s.ranges[i].span else some sp
                binding := k
                state := .locked
                lockOnAbsence := lock
                idleInterval := min idleInterval.toNat idleMax
                idleRemaining := none
                check := 0 }
            (s.writeRange i r, .done [])
        | _, _ => (s, .refused .badValue)

/-- An open mode of a payload: 0 RW, 1 RO (R177). -/
def readMode (b : Byte) : Option RangeState := if b = 0 then some .openRW else if b = 1 then some .openRO else none

/-- Whether a range's key binding names a LOADED slot (R42). -/
def State.bindingLoaded (i : RangeNo) (s : State) : Bool :=
  match s.ranges[i].binding with
  | some k => s.slots[k].isLoaded
  | none => false

/-- A range opened: the mode named, its idle timer started, its check word fresh (R35, R42, R148). A mismatch that stood in the
record is repaired, and the visit that follows finds a match (R35, R46, R168); R51, which has a marking follow an OPEN-RANGE, is
read of a mismatch that stands at that visit (DEDUCED, log entry 31). -/
def Range.opened (i : RangeNo) (mode : RangeState) (r : Range) : Range :=
  Range.sealed i { r with state := mode, idleRemaining := r.idleStart }

/-- OPEN-RANGE, in the order of R42: STATE in SELF-TEST or CONTAINED, BAD-INDEX, BAD-VALUE, STATE for a FAULTED range, NO-KEY;
otherwise the range is open in the mode named and its idle timer started or restarted. -/
def State.ownOpenRange (index mode : Byte) (s : State) : State × Answer :=
  if s.contain.device = .selfTest ∨ s.contain.device = .contained then (s, .refused .state)
  else
    match rangeIndex index with
    | none => (s, .refused .badIndex)
    | some i =>
      match readMode mode with
      | none => (s, .refused .badValue)
      | some st =>
        if s.ranges[i].state = .faulted then (s, .refused .state)
        else if s.bindingLoaded i = false then (s, .refused .noKey)
        else ({ s with ranges := s.ranges.set i (s.ranges[i].opened i st) }, .done [])

/-- LOCK-RANGE: an open range becomes LOCKED and its idle timer stops; a LOCKED or FAULTED range does not change (R43). -/
def State.ownLockRange (index : Byte) (s : State) : State × Answer :=
  if s.contain.device = .selfTest then (s, .refused .state)
  else
    match rangeIndex index with
    | none => (s, .refused .badIndex)
    | some i => ({ s with ranges := s.ranges.set i (s.ranges[i].lock i) }, .done [])

/-- SET_RANGE (R40). -/
def execSetRange (index : Byte) (first : Sector) (count : BitVec 48) (binding lockOnAbsence : Byte)
    (idleInterval : BitVec 24) (s : State) : Host.Outcome State Fault Refusal :=
  linkRow (.setRange index first count binding lockOnAbsence idleInterval)
    (State.ownSetRange index first count binding lockOnAbsence idleInterval) s

/-- OPEN_RANGE (R42). -/
def execOpenRange (index mode : Byte) (s : State) : Host.Outcome State Fault Refusal :=
  linkRow (.openRange index mode) (State.ownOpenRange index mode) s

/-- LOCK_RANGE (R43). -/
def execLockRange (index : Byte) (s : State) : Host.Outcome State Fault Refusal :=
  linkRow (.lockRange index) (State.ownLockRange index) s

end Sys2Proof.Machine
end

