-- ==== Sys2Proof/Machine/Reports.lean ====
section
/-! DEFINITION. The three reads of the key link: STATUS (R178), READ-FAULT and READ-ABORT (R179). -/

namespace Sys2Proof.Machine

/-! ## Codes (R177) -/

/-- Code of a device state. -/
def DeviceState.code : DeviceState → Byte
  | .selfTest => 0 | .config => 1 | .service => 2 | .contained => 3

/-- Code of a presence state. -/
def Presence.code : Presence → Byte
  | .idle => 0 | .armed _ _ => 1 | .lapsed => 2

/-- Code of a slot's state; a stored state that is none of the four has no code in R177 (log entry 10). -/
def slotCode (k : SlotNo) : SlotBody → Byte
  | .empty => 0 | .loaded _ => 1 | .scrubbing _ _ => 2 | .faulted => 3
  | .undefined _ => Config.undefinedSlotCode k

/-- Code of a kind. -/
def Kind.code : Kind → Byte
  | .fetch => 0 | .store => 1

/-- Code of a context's treatment. -/
def Passage.code : Passage → Byte
  | .cipher => 0 | .raw => 1 | .clear => 2

/-- Code of a context's state. -/
def CtxState.code : CtxState → Byte
  | .waitKey => 0 | .stream => 1 | .hold => 2 | .close => 3 | .cancel => 4 | .stranded => 5

/-- Code of a fault kind. -/
def FaultKind.code : FaultKind → Byte
  | .engine => 0 | .selfTestFail => 1 | .tableCheck => 2 | .parityUp => 3 | .parityDown => 4 | .mediaTimeout => 5
  | .cancelTimeout => 6

/-- Code of a table. -/
def Table.code : Table → Byte
  | .window => 0 | .range => 1 | .key => 2

/-- Code of a failed test. -/
def testCode : KnownAnswerTest → Byte
  | .expansion => 0 | .doubler => 1 | .outbound => 2 | .inbound => 3 | .checker => 4 | .monitor => 5

/-- One byte of a count. -/
def countByte (n : Nat) : Byte := BitVec.ofNat 8 n

/-- A flag as a byte. -/
def flagByte (b : Bool) : Byte := if b then 1 else 0

/-! ## The payloads -/

/-- The 104 bytes of STATUS (R178). -/
def State.statusPayload (s : State) : List Byte :=
  [s.contain.device.code, s.time.presence.code, flagByte s.decoder.frozen] ++
  leBytes 2 s.events.pending.toNat ++ leBytes 2 s.events.enables.toNat ++ leBytes 2 s.time.idleLocked.toNat ++
  [countByte s.tallies.parity, countByte s.tallies.timeout, countByte s.tallies.rawIgnored, countByte s.faults.count,
    countByte s.contexts.length, countByte (s.contexts.countP fun c => c.state == .stranded),
    flagByte s.contain.dwell.isSome] ++
  ((List.finRange 32).flatMap fun (k : SlotNo) => [slotCode k s.slots[k].body, s.slots[k].generation]) ++
  ((List.finRange 16).map fun (i : RangeNo) => countByte s.ranges[i].state.code) ++
  ((List.finRange 8).map fun (w : WindowNo) => countByte s.decoder.windows[w].treatment.code)

/-- The fifteen bytes of READ-FAULT after the count, for the first record or its absence (R179). -/
def faultBytes (r : Option FaultRecord) : List Byte :=
  match r with
  | none => List.replicate 15 0
  | some r =>
    [1, r.kind.code, r.device.code,
      (if r.ctx.isSome then 1 else 0) ||| (if r.sector.isSome then 2 else 0) ||| (if r.entry.isSome then 4 else 0) |||
        (if r.test.isSome then 8 else 0)] ++
    (match r.ctx with
      | some c => [countByte c.number.val, countByte c.mover.val, countByte c.tag.val]
      | none => [0, 0, 0]) ++
    leBytes 5 (r.sector.getD 0).toNat ++
    (match r.entry with
      | some e => [e.table.code, countByte e.index]
      | none => [0, 0]) ++
    [match r.test with | some t => testCode t | none => 0]

/-- The 16 bytes of READ-FAULT (R179). -/
def State.faultPayload (s : State) : List Byte := countByte s.faults.count :: faultBytes s.faults.first

/-- The 21 bytes of an abort-record entry (R179). -/
def AbortEntry.payload (e : AbortEntry) : List Byte :=
  [e.kind.code, countByte e.mover.val, countByte e.tag.val] ++ leBytes 4 e.addr.toNat ++ leBytes 2 e.length ++
  leBytes 2 e.passed ++ [e.passage.code, countByte e.window.val, e.state.code] ++
  (match e.capture with
    | some c => leBytes 5 c.sector.toNat ++ [c.offset, countByte c.range.val]
    | none => List.replicate 7 0)

/-- The 1, 22 or 43 bytes of READ-ABORT (R179). -/
def State.abortPayload (s : State) : List Byte := countByte s.abort.length :: s.abort.flatMap AbortEntry.payload

/-! ## The commands -/

/-- STATUS is answered DONE in every device state; it reads and clears nothing (R178). -/
def State.ownStatus (s : State) : State × Answer := (s, .done s.statusPayload)

/-- READ-FAULT returns the fault log outside SELF-TEST, unchanged (R171, R179). -/
def State.ownReadFault (s : State) : State × Answer :=
  if s.contain.device = .selfTest then (s, .refused .state) else (s, .done s.faultPayload)

/-- READ-ABORT returns the abort record outside SELF-TEST, unchanged (R179). -/
def State.ownReadAbort (s : State) : State × Answer :=
  if s.contain.device = .selfTest then (s, .refused .state) else (s, .done s.abortPayload)

/-- STATUS (R178). -/
def execStatus (s : State) : Host.Outcome State Fault Refusal := linkRow .status State.ownStatus s

/-- READ_FAULT (R179). -/
def execReadFault (s : State) : Host.Outcome State Fault Refusal := linkRow .readFault State.ownReadFault s

/-- READ_ABORT (R179). -/
def execReadAbort (s : State) : Host.Outcome State Fault Refusal := linkRow .readAbort State.ownReadAbort s

end Sys2Proof.Machine
end

