-- ==== Sys2Proof/Machine/WindowCommands.lean ====
section
/-! DEFINITION. The commands of the window decoder: SET-WINDOW (R22, R23), SET-LIMIT (R30), FREEZE (R31). -/

namespace Sys2Proof.Machine

/-- A window index of a payload, if it is at most 7. -/
def windowIndex (b : Byte) : Option WindowNo := if h : b.toNat < 8 then some ⟨b.toNat, h⟩ else none

/-- A treatment SET-WINDOW may write: EMPTY 0, CIPHER 1, CLEAR 2, BLOCK 3 (R18, R22, R177). -/
def readTreatment (b : Byte) : Option Treatment :=
  if b = 0 then some .empty else if b = 1 then some .cipher else if b = 2 then some .clear
  else if b = 3 then some .block else none

/-- A direction of a payload (R177). -/
def readDirection (b : Byte) : Option Direction :=
  if b = 0 then some .fetchOnly else if b = 1 then some .storeOnly else if b = 2 then some .both else none

/-- The record SET-WINDOW writes for treatment EMPTY (R22). R22 says of EMPTY that both rights are stored as the empty set, and of
relocation rights that they are stored as given under every treatment: the model stores the empty set (DEDUCED, log entry 36). -/
def Window.emptied : Window where
  treatment := .empty
  first := 0
  last := 0
  direction := .both
  movers := 0
  relocation := 0
  check := 0

/-- Whether two windows that cover addresses share a unit address (R22). -/
def Window.meets (a b : Window) : Bool :=
  a.treatment.covers && b.treatment.covers && decide (max a.first.toNat b.first.toNat ≤ min a.last.toNat b.last.toNat)

/-- Whether a new record for a window shares a unit address with another window that covers addresses (R22). -/
def State.windowOverlaps (i : WindowNo) (w : Window) (s : State) : Bool :=
  (List.finRange 8).any fun (j : WindowNo) => j != i && w.meets s.decoder.windows[j]

/-- The highest unit address (R22). -/
def unitAddrMax : Nat := 0xFFFFFFF

/-- SET-WINDOW, in the order of R22: STATE, FROZEN, BAD-INDEX, BAD-VALUE, OVERLAP; otherwise the record is rewritten. Treatment
EMPTY checks neither bounds nor direction. -/
def State.ownSetWindow (index treatment : Byte) (first last : BitVec 32) (direction : Byte) (movers relocation : MoverSet)
    (s : State) : State × Answer :=
  if s.contain.device = .selfTest then (s, .refused .state)
  else if s.decoder.frozen then (s, .refused .frozen)
  else
    match windowIndex index with
    | none => (s, .refused .badIndex)
    | some i =>
      match readTreatment treatment, readDirection direction with
      | none, _ => (s, .refused .badValue)
      | some .empty, _ => (s.writeWindow i Window.emptied, .done [])
      | some _, none => (s, .refused .badValue)
      | some t, some d =>
        if last.toNat < first.toNat ∨ unitAddrMax < first.toNat ∨ unitAddrMax < last.toNat then (s, .refused .badValue)
        else
          let w : Window :=
            { treatment := t, first := first.setWidth 28, last := last.setWidth 28, direction := d, movers := movers,
              relocation := relocation, check := 0 }
          if s.windowOverlaps i w then (s, .refused .overlap) else (s.writeWindow i w, .done [])

/-- SET-LIMIT, in the order of R30: STATE, FROZEN, BAD-VALUE; otherwise the limit becomes n. -/
def State.ownSetLimit (limit : BitVec 48) (s : State) : State × Answer :=
  if s.contain.device = .selfTest then (s, .refused .state)
  else if s.decoder.frozen then (s, .refused .frozen)
  else if limit.toNat = 0 ∨ 2 ^ 40 < limit.toNat then (s, .refused .badValue)
  else ({ s with decoder := { s.decoder with limit := limit.toNat } }, .done [])

/-- FREEZE sets the freeze flag, whether it was set or not (R31). -/
def State.ownFreeze (s : State) : State × Answer :=
  if s.contain.device = .selfTest then (s, .refused .state)
  else ({ s with decoder := { s.decoder with frozen := true } }, .done [])

/-- SET_WINDOW (R22). -/
def execSetWindow (index treatment : Byte) (first last : BitVec 32) (direction : Byte) (movers relocation : MoverSet)
    (s : State) : Host.Outcome State Fault Refusal :=
  linkRow (.setWindow index treatment first last direction movers relocation)
    (State.ownSetWindow index treatment first last direction movers relocation) s

/-- SET_LIMIT (R30). -/
def execSetLimit (limit : BitVec 48) (s : State) : Host.Outcome State Fault Refusal :=
  linkRow (.setLimit limit) (State.ownSetLimit limit) s

/-- FREEZE (R31). -/
def execFreeze (s : State) : Host.Outcome State Fault Refusal := linkRow .freeze State.ownFreeze s

end Sys2Proof.Machine
end

