-- ==== Sys2Proof/Machine/Frames.lean ====
section
/-! DEFINITION. A command period with its raw bits (R173, R174, R176): the frame is judged, and a frame that reaches a command
is handed to the command's owner. -/

namespace Sys2Proof.Machine

/-- The owner of a command (R177). -/
def LinkCommand.owner : LinkCommand → State → State × Answer
  | .status => State.ownStatus
  | .readFault => State.ownReadFault
  | .readAbort => State.ownReadAbort
  | .loadKey k d t => State.ownLoadKey k d t
  | .scrubKey k => State.ownScrubKey k
  | .flushSchedules => State.ownFlush
  | .setRange i f c b l t => State.ownSetRange i f c b l t
  | .openRange i m => State.ownOpenRange i m
  | .lockRange i => State.ownLockRange i
  | .setWindow i t f l d m r => State.ownSetWindow i t f l d m r
  | .setLimit n => State.ownSetLimit n
  | .freeze => State.ownFreeze
  | .go => State.ownGo
  | .recover => State.ownRecover
  | .armPresence n => State.ownArmPresence n
  | .renew => State.ownRenew
  | .setAlert e => State.ownSetAlert e
  | .clearEvents e => State.ownClearEvents e
  | .clearFault => State.ownClearFault
  | .clearTallies => State.ownClearTallies

/-- Judges a frame by R176: a refusal of steps 1 to 4 changes nothing but the buffer. -/
def State.judgeBytes (bytes : List Byte) (extraClocks : Nat) (s : State) : State :=
  match judgeFrame bytes extraClocks with
  | .refuse r => s.respond (.refused r)
  | .command c => s.judged (c == .status) c.owner

/-- COMMAND_PERIOD: a select period with the bits shifted in on KDI, those of its first byte and those that follow. Fewer than
eight are ignored, with nothing kept of KDO (DESIGN CHOICE, log entry 21), and a first byte of 0xFF makes it a read period (R173);
otherwise the whole bytes are the frame, which is judged, or discarded for BUSY (R174, R176). -/
def execCommandPeriod (first rest : List Bool) (s : State) : Host.Outcome State Fault Refusal :=
  let kdi := first ++ rest
  if kdi.length < 8 then .next s.untaken
  else if bitsByte (kdi.take 8) = 0xFF then .next (s.start.readEnds kdi.length)
  else .next (s.commandEnds kdi.length (State.judgeBytes (wholeBytes (kdi.length / 8) kdi) (kdi.length % 8)))

end Sys2Proof.Machine
end

