-- ==== Sys2Proof/Machine/Issue.lean ====
section
/-! DEFINITION. The issue arbiter (R105) and the requests it grants: a fetch's FETCH (R106), a piece's STORE header (R107), a
CANCEL (R112). A hold's requests are issued in the actions that make them ready (R136, R140). -/

namespace Sys2Proof.Machine

/-- The request a context has ready for the arbiter (R90, R105): a CANCEL that is SENT and not yet issued, a FETCH not yet
issued, or a piece to open for a unit in the store slot. -/
def State.readyRequest (c : Context) (s : State) : Option MediaRequest :=
  if c.cancel = .sent ∧ c.cancelIssued = false ∧ c.state ≠ .stranded then some .cancel
  else if c.state = .stream ∧ c.kind = .fetch ∧ c.fetchProgress = .notIssued then some .fetch
  else if c.state = .stream ∧ c.kind = .store ∧ c.code = .ok ∧
      (s.media.slot.any fun u => u.ctx == c.number) = true then some .store
  else none

/-- The oldest ready context and its request, while the request path is free and no hold reserves the segment (R105). -/
def State.granted (s : State) : Option (Context × MediaRequest) :=
  if s.media.path = .free ∧ s.hold = none ∧ s.intake ≠ .clearing then
    s.contexts.findSome? fun c => (s.readyRequest c).map fun r => (c, r)
  else none

/-- Issues a FETCH and times its ACCEPT (R106, R110). -/
def State.issueFetch (c : Context) (s : State) : State :=
  (s.drive (.fetch c.number c.addr c.length)).modCtx c.number fun c =>
    { c with fetchProgress := .issued, timer := timerStart .accept }

/-- Issues a piece's STORE header: pieces outstanding rise by one, its ACCEPT is timed, and the path stays with the context
(R107). -/
def State.issuePiece (c : Context) (u : SlotUnit) (s : State) : State :=
  let s := (s.drive (.store c.number (c.addr + BitVec.ofNat 28 u.index))).modCtx c.number fun c =>
    { c with pieces := c.pieces + 1, timer := timerStart .accept }
  { s with media := { s.media with path := .piece c.number false } }

/-- Issues a CANCEL and times its answer (R112). -/
def State.issueCancel (c : Context) (s : State) : State :=
  (s.drive (.cancel c.number)).modCtx c.number fun c => { c with cancelIssued := true, timer := timerStart .cancelAnswer }

/-- FETCH_ISSUE: the arbiter grants the oldest ready context, and its request is a FETCH (R105, R106). -/
def execFetchIssue (s : State) : Host.Outcome State Fault Refusal :=
  match s.granted with
  | some (c, .fetch) => .next (s.start.issueFetch c)
  | _ => .next s.untaken

/-- PIECE_ISSUE: the arbiter grants the oldest ready context, and its request is a piece to open (R105, R107). -/
def execPieceIssue (s : State) : Host.Outcome State Fault Refusal :=
  match s.granted, s.media.slot with
  | some (c, .store), some u => .next (s.start.issuePiece c u)
  | _, _ => .next s.untaken

/-- CANCEL_ISSUE: the arbiter grants the oldest ready context, and its request is a CANCEL (R105, R112). -/
def execCancelIssue (s : State) : Host.Outcome State Fault Refusal :=
  match s.granted with
  | some (c, .cancel) => .next (s.start.issueCancel c)
  | _ => .next s.untaken

end Sys2Proof.Machine
end

