-- ==== Sys2Proof/Machine/MediaPort.lean ====
section
/-! DEFINITION. What the media port does with the sequencers' answers (R82, R85, R94, R104 to R110, R112, R114, R115, R138,
R140, R141). -/

namespace Sys2Proof.Machine

/-- What becomes of an arrival other than the answer to a CANCEL: it waits on the media segment, it is dropped, or the port
handles it for its context (R94, R103, R105, R117). -/
def State.onArrival (n : CtxNo) (handle : Context → Host.Outcome State Fault Refusal) (s : State) :
    Host.Outcome State Fault Refusal :=
  match s.liveArrival n with
  | .waits => .next s.untaken
  | .dropped => .next s.start
  | .takenBy c => handle c

/-- The hold, when it is the context's and the context is in HOLD. An answer to a hold's request that finds none is dropped
(R109, R135). -/
def State.holdOf (c : Context) (s : State) : Option Hold :=
  if c.state = .hold then s.hold.filter fun h => h.ctx = c.number else none

/-! ## ACCEPT (R104, R107, R109, R138, R140) -/

/-- ACCEPT of a piece: the unit in the store slot is driven as its first unit, and the flow of its units is not timed (R107,
R110). -/
def State.acceptPiece (n : CtxNo) (s : State) : State :=
  let s := s.stopTimer n
  match s.media.slot with
  | some u => State.driveUnit u { s with media := { s.media with slot := none, path := .piece n true } }
  | none => { s with media := { s.media with path := .piece n true } }

/-- ACCEPT of a RELEASE-STORE: the merged unit is driven with all 16 byte enables, units passed rise by one, the slot and the
path are free again, and the DONE is timed (R140). -/
def State.acceptRelease (n : CtxNo) (s : State) : State :=
  match s.media.slot with
  | some u =>
    let s := (s.drive (.unit n (drivenBeat u.data u.enables))).modCtx n fun c =>
      { c with passed := c.passed + 1, timer := timerStart .done }
    { s with media := { s.media with slot := none, path := .free } }
  | none => s

/-- ACCEPT: taken by the request of its kind that awaits one, otherwise dropped (R104, R106, R107, R109, R138, R140). -/
def execAccept (n : CtxNo) (kind : MediaRequest) (s : State) : Host.Outcome State Fault Refusal :=
  s.onArrival n (fun c =>
    match kind with
    | .fetch =>
      if c.kind = .fetch ∧ c.fetchProgress = .issued ∧ c.timing .accept then .next (s.start.startTimer n .unit)
      else .next s.start
    | .store => if s.media.path = .piece n false then .next (s.start.acceptPiece n).takeEligible else .next s.start
    | .holdFetch =>
      match s.holdOf c with
      | some h => if h.phase = .fetch ∧ c.timing .accept then .next (s.start.startTimer n .unit) else .next s.start
      | none => .next s.start
    | .releaseStore =>
      if c.state = .hold ∧ s.media.path = .release n then .next (s.start.acceptRelease n) else .next s.start
    | .cancel => .next s.start)

/-! ## Returned units (R106, R114, R138) -/

/-- A unit goes into the inbound engine; the port is closed to units for it meanwhile (R106, R110). -/
def State.loadInbound (j : InboundJob) (s : State) : State :=
  { s with engines := { s.engines with inbound := some j }, marks := { s.marks with inboundBusy := true } }

/-- Whether every lane's parity of a returned unit matches (R114). -/
def returnedParityGood (u : ReturnedUnit) : Bool := u.parity == lanesParity u.data

/-- A downstream parity failure, or an index gap taken as one: tally, PARITY-SEEN and PARITY-DOWN, and the context enters
CANCEL with code PARITY (R114). -/
def State.downstreamParity (c : Context) (s : State) : State :=
  (s.countParity.logFault .parityDown (some c) none none).enterCancel c.number .parity false false

/-- Whether the inbound engine can be given a unit of the context: none for a context that needs no engine; otherwise the engine
holds no unit and the context's catch-up has ended (R7, R106, log entry 15). -/
def State.canDecipher (c : Context) (s : State) : Bool :=
  match c.passage, c.tweak with
  | .cipher, .kept _ => s.engines.inbound.isNone
  | .cipher, _ => false
  | _, _ => true

/-- A fetch's unit taken at the index expected: the expectation rises, the timer moves to the next unit or to the DONE, and
the unit goes to the inbound engine or straight to the return path (R106, R110). -/
def State.takeFetchUnit (c : Context) (u : ReturnedUnit) (s : State) : State :=
  let s := s.modCtx c.number fun c =>
    { c with expected := c.expected + 1, timer := timerStart (if c.expected + 1 < c.length then .unit else .done) }
  match c.passage with
  | .cipher => (s.loadInbound { ctx := c.number, data := u.data, forHold := false }).markFull
  | _ => s.deliverUnit c u.data

/-- FETCH_UNIT: a unit for an issued FETCH that has not ended is taken at the index expected with good parity; a unit past the
length is dropped; any other is a downstream parity failure (R82, R106, R114). A unit that the inbound engine cannot be given yet
waits on the segment, and is noted (R106). A unit for a context without such a FETCH is
dropped (log entry 13). -/
def execFetchUnit (n : CtxNo) (u : ReturnedUnit) (s : State) : Host.Outcome State Fault Refusal :=
  s.onArrival n (fun c =>
    if c.kind = .fetch ∧ c.fetchProgress = .issued then
      if s.canDecipher c = false then .next (s.unitWaits n)
      else if c.length ≤ c.expected then .next (s.unitDropped n)
      else if u.index.val = c.expected ∧ returnedParityGood u = true then .next (s.start.takeFetchUnit c u)
      else .next (s.start.downstreamParity c).takeEligible
    else .next s.start)

/-- HOLD_FETCH_UNIT: in phase FETCH a unit of index 0 with good parity is the hold's fetched unit and the hold enters MERGE; any
other unit is a downstream parity failure of the hold; outside phase FETCH a unit is dropped (R114, R138). A unit that meets a busy
engine waits on the segment, and is noted (R106). -/
def execHoldFetchUnit (n : CtxNo) (u : ReturnedUnit) (s : State) : Host.Outcome State Fault Refusal :=
  s.onArrival n (fun c =>
    match s.holdOf c with
    | some h =>
      if h.phase = .fetch then
        if s.engines.inbound.isSome then .next (s.unitWaits n)
        else if u.index = 0 ∧ returnedParityGood u = true then
          .next ({ s.start with hold := some { h with phase := .merge } }.startTimer n .done |>.loadInbound
            { ctx := n, data := u.data, forHold := true })
        else .next (s.start.downstreamParity c).takeEligible
      else .next s.start
    | none => .next s.start)

/-! ## DONE (R82, R85, R109, R138, R140) -/

/-- The DONE that ends a FETCH: DONE seen becomes yes and the FETCH has ended (R82). -/
def Context.withDone (c : Context) : Context := { c with doneSeen := true, fetchProgress := .ended, timer := none }

/-- FETCH_DONE: with fewer units returned than the length the fetch ends short with MEDIA; otherwise the fetch completes once
its last unit has been handed (R82). A DONE for a FETCH that is not issued, or has ended, is dropped (R109). -/
def execFetchDone (n : CtxNo) (s : State) : Host.Outcome State Fault Refusal :=
  s.onArrival n (fun c =>
    if c.kind = .fetch ∧ c.fetchProgress = .issued then
      let t := s.start.modCtx n Context.withDone
      if c.expected < c.length then .next (t.enterCancel n .media false false).takeEligible
      else if c.passed = c.length then .next (t.complete n).takeEligible
      else .next t
    else .next s.start)

/-- One piece fewer outstanding (R85). -/
def Context.pieceAnswered (c : Context) : Context := { c with pieces := c.pieces - 1 }

/-- Whether a DONE or ERROR naming STORE is taken: the context is a store with a piece outstanding, and no CANCEL is SENT or
answered (R109). -/
def Context.awaitsPiece (c : Context) : Bool := c.kind == .store && decide (0 < c.pieces) && c.cancel == .none

/-- PIECE_DONE: pieces outstanding fall by one; a store in CLOSE completes when they reach 0 (R85). -/
def execPieceDone (n : CtxNo) (s : State) : Host.Outcome State Fault Refusal :=
  s.onArrival n (fun c =>
    if c.awaitsPiece then
      let t := s.start.modCtx n Context.pieceAnswered
      if c.state = .close ∧ c.pieces = 1 then .next (t.complete n) else .next t
    else .next s.start)

/-- HOLD_FETCH_DONE: after the fetched unit it sets fetch answered, and the RELEASE-STORE is issued if the merged unit is
there; before any unit it fails the hold with MEDIA (R138, R140, R141). -/
def execHoldFetchDone (n : CtxNo) (s : State) : Host.Outcome State Fault Refusal :=
  s.onArrival n (fun c =>
    match s.holdOf c with
    | some h =>
      if h.fetchAnswered then .next s.start
      else if h.phase = .fetch then .next (s.start.enterCancel n .media true false).takeEligible
      else .next ({ s.start with hold := some { h with fetchAnswered := true } }.stopTimer n).tryRelease
    | none => .next s.start)

/-- A hold ends successfully: the reservation ends, and the context goes on to STREAM, or to CLOSE after its last beat (R84,
R140). With no pieces outstanding a store in CLOSE completes with OK and is freed at once (R84, R85, R140), so that a revocation
or containment taken after the DONE finds no context; R145 says that in both orders the completion carries the revocation's code,
which is read of a context that the revocation still finds (DEDUCED, log entry 35). -/
def State.endHold (h : Hold) (c : Context) (s : State) : State :=
  let s := { s with hold := none }.stopTimer h.ctx
  if c.length ≤ h.index + 1 then s.enterClose h.ctx else s.modCtx h.ctx fun c => { c with state := .stream }

/-- RELEASE_STORE_DONE: ends the hold successfully; before its ACCEPT it is taken as the ACCEPT followed by the DONE (R140). Such
a DONE drives and counts the unit, where a revocation or containment taken first leaves it undriven (R143); R145 says that units
passed are the same in both orders, which is read of a DONE after the ACCEPT (DEDUCED, log entry 35). -/
def execReleaseStoreDone (n : CtxNo) (s : State) : Host.Outcome State Fault Refusal :=
  s.onArrival n (fun c =>
    match s.holdOf c with
    | some h =>
      if h.phase = .release then
        let t := if s.media.path = .release n then s.start.acceptRelease n else s.start
        .next (t.endHold h c).takeEligible
      else .next s.start
    | none => .next s.start)

/-! ## ERROR and the answer to a CANCEL (R108, R109, R112, R141) -/

/-- The answer to a CANCEL: cancel becomes ANSWERED, and the context is freed once its completion is SENT (R92, R112). -/
def State.answerCancel (n : CtxNo) (s : State) : State :=
  (s.modCtx n fun c => { c with cancel := .answered, timer := none }).freeIfDone n

/-- What becomes of an answer naming CANCEL: taken for a context whose cancel is SENT, dropped otherwise and for a STRANDED
context (R94, R109, R112). -/
def State.cancelArrival (n : CtxNo) (s : State) : Host.Outcome State Fault Refusal :=
  match s.arrival n with
  | .waits => .next s.untaken
  | .dropped => .next s.start
  | .takenBy c =>
    if c.cancel = .sent ∧ c.state ≠ .stranded then .next (s.start.answerCancel n) else .next s.start

/-- ERROR naming a piece of a store in STREAM: the open piece is abandoned, units on the way are discarded, and the store
drains, or enters CANCEL if it has no beat left (R86, R107, R108, log entry 14). -/
def State.errorInStream (c : Context) (s : State) : State :=
  let s := s.modCtx c.number fun c => { c with code := c.code.orElse .media, timer := none }
  let s := { s with media := s.media.abandon c.number, engines := s.engines.discardOutbound c.number }
  if s.beatsLeft c = 0 then s.enterCancel c.number .media false false else s

/-- MEDIA_ERROR: ends the request it names, with code MEDIA (R108, R138, R140, R141). -/
def execMediaError (n : CtxNo) (kind : MediaRequest) (s : State) : Host.Outcome State Fault Refusal :=
  match kind with
  | .cancel => s.cancelArrival n
  | .fetch =>
    s.onArrival n (fun c =>
      if c.kind = .fetch ∧ c.fetchProgress = .issued then
        .next ((s.start.modCtx n fun c => { c with fetchProgress := .ended }).enterCancel n .media false false).takeEligible
      else .next s.start)
  | .store =>
    s.onArrival n (fun c =>
      if c.awaitsPiece then
        let t := s.start.modCtx n Context.pieceAnswered
        if c.state = .stream then .next (t.errorInStream c).takeEligible
        else .next (t.enterCancel n .media false false).takeEligible
      else .next s.start)
  | .holdFetch =>
    s.onArrival n (fun c =>
      match s.holdOf c with
      | some h =>
        if h.fetchAnswered then .next s.start else .next (s.start.enterCancel n .media true false).takeEligible
      | none => .next s.start)
  | .releaseStore =>
    s.onArrival n (fun c =>
      match s.holdOf c with
      | some h =>
        if h.phase = .release then .next (s.start.enterCancel n .media true false).takeEligible else .next s.start
      | none => .next s.start)

/-- CANCEL_ANSWER: DONE or ERROR naming CANCEL; either is taken in the same way (R112). -/
def execCancelAnswer (n : CtxNo) (_isError : Bool) (s : State) : Host.Outcome State Fault Refusal := s.cancelArrival n

/-- UNROUTABLE_ARRIVAL: an arrival with bad header parity is dropped, counts the parity tally, raises PARITY-SEEN and logs
PARITY-DOWN with no context (R115). While the controller clear is asserted it is dropped uncounted (R117); while the return
path is full the media port takes no return (R103). -/
def execUnroutableArrival (s : State) : Host.Outcome State Fault Refusal :=
  if s.intake = .clearing then .next s.start
  else if s.returnFull then .next s.untaken
  else .next (s.start.countParity.logFault .parityDown none none none)

end Sys2Proof.Machine
end

