-- ==== Sys2Proof/Machine/Monitor.lean ====
section
/-! DEFINITION. The table monitor (R167, R168) and what a mismatch does in the table that owns the entry (R32, R46, R64). -/

namespace Sys2Proof.Machine

/-- The report of a mismatch: TABLE-FAULT is raised and one fault of kind TABLE-CHECK logged, naming table and entry (R168). -/
def State.reportMismatch (t : Table) (index : Nat) (s : State) : State :=
  (State.raise .tableFault s).logFault .tableCheck none (some { table := t, index := index }) none

/-- A further cause met in CONTAINED: the dwell is started again from 50 and CONTAINED raised again (R163). -/
def State.restartDwell (s : State) : State :=
  State.raise .contained { s with contain := { s.contain with dwell := some 50 } }

/-- A window mismatch: the window becomes FAULTED, its other fields kept; under the freeze flag the device enters CONTAINED, or
restarts its dwell there (R32, R162, R163). -/
def State.windowMismatch (i : WindowNo) (s : State) : State :=
  let s := (s.reportMismatch .window i.val).writeWindow i { s.decoder.windows[i] with treatment := .faulted }
  if s.decoder.frozen then
    if s.contain.device = .contained then s.restartDwell else s.enterContained
  else s

/-- A range mismatch: the range becomes FAULTED and its idle timer stops; the device state does not change (R46). -/
def State.rangeMismatch (i : RangeNo) (s : State) : State :=
  (s.reportMismatch .range i.val).writeRange i { s.ranges[i] with state := .faulted, idleRemaining := none }

/-- A slot mismatch: a LOADED slot, or a stored state that is none of the four, is scrubbed with cause CHECK; an EMPTY or
FAULTED one becomes or stays FAULTED (R64, R65). -/
def State.slotMismatch (k : SlotNo) (s : State) : State :=
  let t := s.reportMismatch .key k.val
  match s.slots[k].body with
  | .loaded keys | .undefined keys => t.scrub k keys .check
  | .empty | .faulted => t.writeSlot k { s.slots[k] with body := .faulted }
  | .scrubbing _ _ => s

/-- Whether a visit to a slot finds a mismatch: a slot in SCRUBBING is passed by, a stored state that is none of the four is
taken as a mismatch (R62, R64, log entry 10). -/
def slotDisturbed (k : SlotNo) (r : Slot) : Bool :=
  match r.body with
  | .scrubbing _ _ => false
  | .undefined _ => true
  | _ => r.check != Config.slotCheck (r.fields k)

/-- One visit of the monitor to the entry a cursor position names: windows at 0..7, ranges at 8..23, slots at 24..55 (R167,
R168). -/
def State.visit (cursor : Fin 56) (s : State) : State :=
  if h : cursor.val < 8 then
    let i : WindowNo := ⟨cursor.val, h⟩
    if s.decoder.windows[i].check = Config.windowCheck (s.decoder.windows[i].fields i) then s else s.windowMismatch i
  else if h : cursor.val < 24 then
    let i : RangeNo := ⟨cursor.val - 8, by omega⟩
    if s.ranges[i].disturbed i then s.rangeMismatch i else s
  else
    let k : SlotNo := ⟨cursor.val - 24, by omega⟩
    if slotDisturbed k s.slots[k] then s.slotMismatch k else s

/-- The cursor's next position, from 55 back to 0 (R167). -/
def nextCursor (c : Fin 56) : Fin 56 := if h : c.val + 1 < 56 then ⟨c.val + 1, h⟩ else 0

/-- Whether the monitor has a visit to make at the fine tick to come: none in SELF-TEST, and one at a tick (R167). -/
def State.visitDue (s : State) : Bool := s.contain.device != .selfTest && !s.marks.visited

/-- The monitor's part of a fine tick: a visit to the entry of the cursor, which then advances, and the note that the tick has had
its visit (R167). A pin that the visit releases lets the expander take a request in the same action (R124). -/
def State.monitorTick (s : State) : State :=
  if s.visitDue then
    let t := s.visit s.contain.cursor
    State.takeEligible { t with
      contain := { t.contain with cursor := nextCursor s.contain.cursor }
      marks := { t.marks with visited := true } }
  else s

/-- TABLE_MONITOR_VISIT: the visit of the fine tick to come, taken ahead of the rest of it (R167, R168, log entry 5). -/
def execTableMonitorVisit (s : State) : Host.Outcome State Fault Refusal :=
  if s.visitDue then .next s.start.monitorTick else .next s.untaken

end Sys2Proof.Machine
end

