-- ==== Sys2Proof/Machine/Reset.lean ====
section
/-! DEFINITION. Power-on reset (R158, R118), the end of the self-test (R159, R160), SEGMENT CLEAR and its deassertion (R95,
R96, R117, R130, R144). -/

namespace Sys2Proof.Machine

/-- POWER_ON_RESET: every block takes its preset and the device enters SELF-TEST. Where C_SEGCLR is asserted as reset ends,
the intake is CLEARING and the media clear line is asserted (R118). The waiting commands are the outside's, and stay. -/
def execPowerOnReset (clearAsserted : Bool) (s : State) : Host.Outcome State Fault Refusal :=
  .next
    { State.reset with
      intake := if clearAsserted then .clearing else .header
      media := { slot := none, path := .free, clearDriven := clearAsserted }
      choices := s.choices
      pending := s.pending }

/-- The device after a self-test that passes (R160). -/
def State.passSelfTest (s : State) : State :=
  State.raise .selfTestDone { s with contain := { s.contain with device := .config } }

/-- The device after a self-test that fails (R160, R162). -/
def State.failSelfTest (test : KnownAnswerTest) (s : State) : State :=
  (s.logFault .selfTestFail none none (some test)).enterContained

/-- SELF_TEST_END: with no failed test the device enters CONFIG; with one, SELF-TEST-FAIL is logged and the device enters
CONTAINED (R160). Test 1 waits for an expansion in progress, so no end but a failure of test 1 itself comes while one runs
(R159). Outside SELF-TEST no self-test runs. -/
def execSelfTestEnd (failed : Option KnownAnswerTest) (s : State) : Host.Outcome State Fault Refusal :=
  if s.contain.device = .selfTest ∧ (s.expander.current = none ∨ failed = some .expansion) then
    match failed with
    | none => .next s.start.passSelfTest
    | some t => .next (s.start.failSelfTest t)
  else .next s.untaken

/-- The abort-record entry of an abandoned context (R96). -/
def Context.abortEntry (c : Context) : AbortEntry where
  kind := c.kind
  mover := c.mover
  tag := c.tag
  addr := c.addr
  length := c.length
  passed := c.passed
  passage := c.passage
  window := c.window
  state := c.state
  capture := c.capture.map fun cap => { sector := cap.sector, offset := cap.offset, range := cap.range }

/-- A set of the cache after SEGMENT CLEAR: flush-marked entries invalidated, every pin count 0 (R130). -/
def CacheSet.afterClear (c : CacheSet) : CacheSet :=
  { c with
    way0 := (c.way0.filter fun e => !e.flush).map fun e => { e with pins := 0 }
    way1 := (c.way1.filter fun e => !e.flush).map fun e => { e with pins := 0 } }

/-- What the clear does to every block (R95, R117, R130, R144). -/
def State.abandonAll (s : State) : State :=
  { s with
    contexts := []
    cache := Vector.ofFn fun i => s.cache[i].afterClear
    expander := { queue := [], current := s.expander.current.map fun e => { e with attached := [] } }
    engines := { outbound := none, inbound := none }
    hold := none
    intake := .clearing
    media := { slot := none, path := .free, clearDriven := true } }

/-- SEGMENT_CLEAR: the assertion of the controller clear. A clear that abandons a context replaces the abort record with
the two oldest and raises ABORTED; one that finds the list empty does neither (R96). A clear already asserted is not
asserted again before its deassertion (R117). -/
def execSegmentClear (s : State) : Host.Outcome State Fault Refusal :=
  if s.intake = .clearing then .next s.untaken
  else if s.contexts = [] then .next s.start.abandonAll
  else .next (State.raise .aborted { s.start.abandonAll with abort := (s.contexts.take 2).map Context.abortEntry })

/-- SEGMENT_CLEAR_DEASSERTED: the media clear is deasserted and the intake returns to HEADER in the same action (R117). -/
def execSegmentClearDeasserted (s : State) : Host.Outcome State Fault Refusal :=
  if s.intake = .clearing then
    .next { s.start with intake := .header, media := { s.media with clearDriven := false } }
  else .next s.untaken

end Sys2Proof.Machine
end

