-- ==== Sys2Proof/Machine/Timers.lean ====
section
/-! DEFINITION. The timers' ends (R92, R111, R142, R149, R155, R164) and the passing of ticks (R110, R146, R147, R148, R152).
A step on an empty queue passes one fine tick, and counts (log entry 4). A row that is a timer's end takes the last tick of that
one timer ahead of the rest of the tick to come, once in a tick, so that the sender can put an event between the two (R147, log
entry 5). -/

namespace Sys2Proof.Machine

/-! ## Answer timers (R92, R111, R112) -/

/-- The expiry of a context's answer timer outside the cancel phase: the timeout tally and TIMEOUT-SEEN, MEDIA-TIMEOUT logged
if the context was in HOLD, and entry to CANCEL with code TIMEOUT and a CANCEL to send (R111, R142). -/
def State.expireAnswer (c : Context) (s : State) : State :=
  let s := s.countTimeout
  let s := if c.state = .hold then s.logFault .mediaTimeout (some c) none none else s
  s.enterCancel c.number .timeout false true

/-- The expiry of the timer on an unanswered CANCEL: CANCEL-TIMEOUT is logged and the context is STRANDED. A store still
draining in STREAM leaves it here, with its pin released and its remaining beats dropped (R92, R93, R112). -/
def State.strand (c : Context) (s : State) : State :=
  let left := s.beatsLeft c
  let s := s.logFault .cancelTimeout (some c) none none
  let s := (s.releasePin c).discardWork c.number
  let s := s.modCtx c.number fun c => { c with state := .stranded, timer := none, tweak := .absent }
  if left = 0 then s else { s with intake := .dropping left (some c.number) }

/-- The end of a context's answer timer in the phase it runs in. -/
def State.answerTimeout (c : Context) (s : State) : State :=
  if c.timing .cancelAnswer then s.strand c else s.expireAnswer c

/-- Whether a fine tick is counted by a context's answer timer: the media port was open, throughout the tick, to take the
answer the phase awaits, and no unit of the context that has come waits for the inbound engine (R103, R105, R106, R110, log entry
25), and no row has given the timer this tick (log entry 5). -/
def State.countsTick (c : Context) (s : State) : Bool :=
  !s.marks.returnFull && !s.returnFull &&
  !s.marks.tickedAnswer.contains c.number &&
  s.marks.holders.all (fun n => n == c.number) &&
  (match s.hold with | some h => h.ctx == c.number | none => true) &&
  (if (c.timing .unit || c.unitWaiting) = true ∧ c.passage = .cipher then
    !s.marks.inboundBusy && s.engines.inbound.isNone && !(s.marks.readied.contains c.number) &&
    (match c.tweak with | .kept _ => true | _ => false)
  else true)

/-- Whether the tick to come is counted by a context's answer timer and is its 128th (R110). -/
def State.answerDue (c : Context) (s : State) : Bool :=
  s.countsTick c && c.timer.any fun t => decide (t.remaining ≤ 1)

/-- Notes that a context's answer timer has been given the tick to come (log entry 5). -/
def State.noteAnswer (n : CtxNo) (s : State) : State :=
  { s with marks := { s.marks with tickedAnswer := n :: s.marks.tickedAnswer } }

/-- ANSWER_TIMER_EXPIRY: the last tick of a timer that runs in a phase other than awaiting the cancel's answer: it expires (R110,
R111, R142). -/
def execAnswerTimerExpiry (n : CtxNo) (s : State) : Host.Outcome State Fault Refusal :=
  match s.ctx? n with
  | some c =>
    if s.answerDue c ∧ c.timing .cancelAnswer = false then .next ((s.start.noteAnswer n).expireAnswer c).takeEligible
    else .next s.untaken
  | none => .next s.untaken

/-- CANCEL_TIMEOUT: the last tick of the timer on an unanswered CANCEL: it expires (R92, R110, R112). -/
def execCancelTimeout (n : CtxNo) (s : State) : Host.Outcome State Fault Refusal :=
  match s.ctx? n with
  | some c =>
    if s.answerDue c ∧ c.timing .cancelAnswer then .next ((s.start.noteAnswer n).strand c).takeEligible
    else .next s.untaken
  | none => .next s.untaken

/-- Whether the fine tick to come is also a coarse tick (R146). -/
def State.coarseDue (s : State) : Bool := decide (s.time.coarsePhase ≤ 1)

/-! ## Idle timers (R148, R149) -/

/-- The expiry of a range's idle timer: LOCKED, the index in the idle-locked set, RANGE-LOCKED raised (R149, R151). -/
def State.expireIdle (i : RangeNo) (s : State) : State :=
  let s := s.writeRange i { s.ranges[i] with state := .locked, idleRemaining := none }
  State.raise .rangeLocked { s with time := { s.time with idleLocked := s.time.idleLocked ||| (1#16 <<< i.val) } }

/-- Whether a range's idle timer runs: the range is open, its interval is not 0, and the remaining count is present (R148). -/
def Range.idleRunning (r : Range) : Bool := r.isOpen && r.idleInterval != 0 && r.idleRemaining.isSome

/-- Whether a coarse tick acts on a range's idle timer: it runs, and no row has given it this tick (R148, log entry 5). -/
def State.idleCounts (i : RangeNo) (s : State) : Bool := s.ranges[i].idleRunning && !s.marks.tickedIdle.getLsbD i.val

/-- IDLE_EXPIRY: the coarse tick to come is the last of an open range's idle timer, which expires (R146, R149). With an interval
of 1 it is the last one too of a timer that an admission or an OPEN-RANGE taken first has just restarted, as R146 and R147 say; R50
and R150 say of that order that there is no expiry, which is read of the count it replaced (DEDUCED, log entry 33). -/
def execIdleExpiry (i : RangeNo) (s : State) : Host.Outcome State Fault Refusal :=
  if s.coarseDue ∧ s.idleCounts i ∧ s.ranges[i].idleRemaining.any (fun n => decide (n ≤ 1)) then
    .next (State.expireIdle i { s.start with
      marks := { s.marks with tickedIdle := s.marks.tickedIdle ||| (1#16 <<< i.val) } })
  else .next s.untaken

/-! ## The presence timer (R155) -/

/-- The lapse of the presence timer: LAPSED, open ranges with lock on absence locked, ABSENCE raised (R45, R155). -/
def State.lapsePresence (s : State) : State :=
  let s := s.lockRanges fun r => r.lockOnAbsence
  State.raise .absence { s with time := { s.time with presence := .lapsed } }

/-- PRESENCE_LAPSE: the coarse tick to come is the last of an ARMED presence timer, which expires (R146, R155). -/
def execPresenceLapse (s : State) : Host.Outcome State Fault Refusal :=
  match s.time.presence with
  | .armed _ remaining =>
    if s.coarseDue ∧ s.marks.tickedPresence = false ∧ remaining ≤ 1 then
      .next (State.lapsePresence { s.start with marks := { s.marks with tickedPresence := true } })
    else .next s.untaken
  | _ => .next s.untaken

/-! ## The dwell timer (R164) -/

/-- DWELL_END: the coarse tick to come is the last of a running dwell timer, which becomes ENDED (R146, R164). -/
def execDwellEnd (s : State) : Host.Outcome State Fault Refusal :=
  match s.contain.dwell with
  | some remaining =>
    if s.coarseDue ∧ s.marks.tickedDwell = false ∧ remaining ≤ 1 then
      .next { s.start with
        contain := { s.contain with dwell := none }, marks := { s.marks with tickedDwell := true } }
    else .next s.untaken
  | none => .next s.untaken

/-! ## The passing of ticks -/

/-- One counted tick of a context's answer timer: the count falls by one, and the 128th tick expires it (R110). A pin that the
expiry releases lets the expander take a request in the same action, before the next timer's (R111, R124). -/
def State.tickAnswer (n : CtxNo) (s : State) : State :=
  match s.ctx? n with
  | some c =>
    match c.timer with
    | some t =>
      if t.remaining ≤ 1 then (s.answerTimeout c).takeEligible
      else s.modCtx n fun c => { c with timer := some { t with remaining := t.remaining - 1 } }
    | none => s
  | none => s

/-- The answer timers' part of a fine tick, oldest context first, each judged by the state the tick meets (R110). -/
def State.answerTicks (s : State) : State :=
  ((s.contexts.filter fun c => s.countsTick c).map fun c => c.number).foldl (fun t n => t.tickAnswer n) s

/-- The marks as a new tick period begins: what closes the port now, and no timer ticked ahead (R110, log entries 5 and 25). -/
def State.freshMarks (s : State) : Marks where
  returnFull := s.returnFull
  inboundBusy := s.engines.inbound.isSome
  holders := match s.hold with | some h => [h.ctx] | none => []
  readied := []
  tickedAnswer := []
  tickedIdle := 0
  tickedPresence := false
  tickedDwell := false
  visited := false

/-- One coarse tick of a range's idle timer (R148). A timer restarted with an interval of 1 ends on it (log entry 33). -/
def State.tickIdle (i : RangeNo) (s : State) : State :=
  if s.idleCounts i then
    match s.ranges[i].idleRemaining with
    | some n =>
      if n ≤ 1 then s.expireIdle i
      else { s with ranges := s.ranges.set i { s.ranges[i] with idleRemaining := some (n - 1) } }
    | none => s
  else s

/-- One coarse tick of every idle timer (R147: timers of different ranges share no state). -/
def State.idleTicks (s : State) : State := (List.finRange 16).foldl (fun t i => t.tickIdle i) s

/-- One coarse tick of the presence timer (R152). -/
def State.presenceTick (s : State) : State :=
  match s.time.presence with
  | .armed interval remaining =>
    if s.marks.tickedPresence then s
    else if remaining ≤ 1 then s.lapsePresence
    else { s with time := { s.time with presence := .armed interval (remaining - 1) } }
  | _ => s

/-- One coarse tick of the dwell timer (R164). -/
def State.dwellTick (s : State) : State :=
  match s.contain.dwell with
  | some n =>
    if s.marks.tickedDwell then s
    else { s with contain := { s.contain with dwell := if n ≤ 1 then none else some (n - 1) } }
  | none => s

/-- A coarse tick: idle timers and presence timer in the order the free value gives (R147), and the dwell timer. -/
def State.coarseTick (s : State) : State :=
  let t := if Config.tickOrder s.choices then s.idleTicks.presenceTick else s.presenceTick.idleTicks
  { t.dwellTick with choices := t.choices + 1 }

/-- The coarse part of a fine tick: every 10,000th fine tick is a coarse tick (R146). -/
def State.coarsePart (s : State) : State :=
  if s.time.coarsePhase ≤ 1 then
    let t := s.coarseTick
    { t with time := { t.time with coarsePhase := 10000 } }
  else { s with time := { s.time with coarsePhase := s.time.coarsePhase - 1 } }

/-- One fine tick: the answer timers and the monitor in the order the free value gives (R147, R167), then, at every 10,000th,
the coarse tick; then the next tick period begins. -/
def State.fineTick (s : State) : State :=
  let s := s.start
  let t := if Config.tickOrder s.choices then s.answerTicks.monitorTick else s.monitorTick.answerTicks
  let t := State.coarsePart { t with choices := t.choices + 1 }
  { t with marks := t.freshMarks }

end Sys2Proof.Machine
end

