-- ==== Sys2Proof/Machine/Dispatch.lean ====
section
/-! DEFINITION. One arm for each command: the meaning it runs. -/

namespace Sys2Proof.Machine

/-- What a command does to everything but the queue of waiting commands. -/
def exec (i : Instr) (s : State) : Host.Outcome State Fault Refusal :=
  match i with
  | .powerOnReset clearAsserted => Sys2Proof.Machine.execPowerOnReset clearAsserted s
  | .selfTestEnd failed => Sys2Proof.Machine.execSelfTestEnd failed s
  | .segmentClear => Sys2Proof.Machine.execSegmentClear s
  | .segmentClearDeasserted => Sys2Proof.Machine.execSegmentClearDeasserted s
  | .requestHeader h => Sys2Proof.Machine.execRequestHeader h s
  | .storeBeat b => Sys2Proof.Machine.execStoreBeat b s
  | .beatDropped => Sys2Proof.Machine.execBeatDropped s
  | .returnPathDelivery => Sys2Proof.Machine.execReturnPathDelivery s
  | .sectorTweak n => Sys2Proof.Machine.execSectorTweak n s
  | .catchUp n => Sys2Proof.Machine.execCatchUp n s
  | .outboundVerify disturbance => Sys2Proof.Machine.execOutboundVerify disturbance s
  | .inboundDecipher => Sys2Proof.Machine.execInboundDecipher s
  | .fetchIssue => Sys2Proof.Machine.execFetchIssue s
  | .pieceIssue => Sys2Proof.Machine.execPieceIssue s
  | .cancelIssue => Sys2Proof.Machine.execCancelIssue s
  | .accept n kind => Sys2Proof.Machine.execAccept n kind s
  | .fetchUnit n u => Sys2Proof.Machine.execFetchUnit n u s
  | .holdFetchUnit n u => Sys2Proof.Machine.execHoldFetchUnit n u s
  | .fetchDone n => Sys2Proof.Machine.execFetchDone n s
  | .pieceDone n => Sys2Proof.Machine.execPieceDone n s
  | .holdFetchDone n => Sys2Proof.Machine.execHoldFetchDone n s
  | .releaseStoreDone n => Sys2Proof.Machine.execReleaseStoreDone n s
  | .mediaError n kind => Sys2Proof.Machine.execMediaError n kind s
  | .cancelAnswer n isError => Sys2Proof.Machine.execCancelAnswer n isError s
  | .unroutableArrival => Sys2Proof.Machine.execUnroutableArrival s
  | .answerTimerExpiry n => Sys2Proof.Machine.execAnswerTimerExpiry n s
  | .cancelTimeout n => Sys2Proof.Machine.execCancelTimeout n s
  | .expansionStart => Sys2Proof.Machine.execExpansionStart s
  | .expansionCompletion => Sys2Proof.Machine.execExpansionCompletion s
  | .erasureCompletion k => Sys2Proof.Machine.execErasureCompletion k s
  | .tableMonitorVisit => Sys2Proof.Machine.execTableMonitorVisit s
  | .idleExpiry r => Sys2Proof.Machine.execIdleExpiry r s
  | .presenceLapse => Sys2Proof.Machine.execPresenceLapse s
  | .dwellEnd => Sys2Proof.Machine.execDwellEnd s
  | .commandPeriod first rest => Sys2Proof.Machine.execCommandPeriod first rest s
  | .preparationEnd => Sys2Proof.Machine.execPreparationEnd s
  | .readPeriod clocks => Sys2Proof.Machine.execReadPeriod clocks s
  | .status => Sys2Proof.Machine.execStatus s
  | .readFault => Sys2Proof.Machine.execReadFault s
  | .readAbort => Sys2Proof.Machine.execReadAbort s
  | .loadKey slot dataKey tweakKey => Sys2Proof.Machine.execLoadKey slot dataKey tweakKey s
  | .scrubKey slot => Sys2Proof.Machine.execScrubKey slot s
  | .flushSchedules => Sys2Proof.Machine.execFlushSchedules s
  | .setRange index first count binding lockOnAbsence idleInterval => Sys2Proof.Machine.execSetRange index first count binding lockOnAbsence idleInterval s
  | .openRange index mode => Sys2Proof.Machine.execOpenRange index mode s
  | .lockRange index => Sys2Proof.Machine.execLockRange index s
  | .setWindow index treatment first last direction movers relocation => Sys2Proof.Machine.execSetWindow index treatment first last direction movers relocation s
  | .setLimit limit => Sys2Proof.Machine.execSetLimit limit s
  | .freeze => Sys2Proof.Machine.execFreeze s
  | .go => Sys2Proof.Machine.execGo s
  | .recover => Sys2Proof.Machine.execRecover s
  | .armPresence interval => Sys2Proof.Machine.execArmPresence interval s
  | .renew => Sys2Proof.Machine.execRenew s
  | .setAlert enables => Sys2Proof.Machine.execSetAlert enables s
  | .clearEvents events => Sys2Proof.Machine.execClearEvents events s
  | .clearFault => Sys2Proof.Machine.execClearFault s
  | .clearTallies => Sys2Proof.Machine.execClearTallies s

end Sys2Proof.Machine
end

