-- ==== Sys2Proof/Safety.lean ====
section
/-! DEFINITION. The laws of the device in the terms claims use: what the spec says of every state the part reaches, and what it
says a mover, a sequencer or the security controller may learn. -/

namespace Sys2Proof.Machine

/-! ## The laws of the tables -/

/-- Two windows that cover addresses share no unit address (R22). -/
def State.windowsApart (s : State) : Prop :=
  ∀ i j : WindowNo, ∀ a : UnitAddr,
    s.decoder.windows[i].covers a = true → s.decoder.windows[j].covers a = true → i = j

/-- Two defined ranges among 1..15 share no sector, and each ends at or below 2^40 (R34, R40). -/
def State.rangesApart (s : State) : Prop :=
  (∀ i j : RangeNo, ∀ n : Sector, i ≠ 0 → j ≠ 0 →
    s.ranges[i].covers n = true → s.ranges[j].covers n = true → i = j) ∧
  (∀ i : RangeNo, i ≠ 0 → ∀ sp, s.ranges[i].span = some sp → sp.first.toNat + sp.count ≤ 2 ^ 40)

/-- A range is open only while its bound key slot is LOADED (R44). -/
def State.openRangesKeyed (s : State) : Prop :=
  ∀ i : RangeNo, s.ranges[i].isOpen = true → ∃ k, s.ranges[i].binding = some k ∧ s.slots[k].isLoaded = true

/-- A LOADED slot holds two different keys and a generation in 1..255 (R11, R54). -/
def State.keysApart (s : State) : Prop :=
  ∀ k : SlotNo, ∀ p, s.slots[k].body = .loaded p → p.dataKey ≠ p.tweakKey ∧ s.slots[k].generation ≠ 0

/-- The laws the three tables keep. -/
def State.tableLaws (s : State) : Prop :=
  s.windowsApart ∧ s.rangesApart ∧ s.openRangesKeyed ∧ s.keysApart

/-- Every record's check word is that of its stored fields, a slot in SCRUBBING among them, and no slot's stored state is outside
the four (R18, R35, R55, R168). -/
def State.checksFresh (s : State) : Prop :=
  (∀ i : WindowNo, s.decoder.windows[i].check = Config.windowCheck (s.decoder.windows[i].fields i)) ∧
  (∀ i : RangeNo, s.ranges[i].check = Config.rangeCheck (s.ranges[i].fields i)) ∧
  (∀ k : SlotNo, s.slots[k].check = Config.slotCheck (s.slots[k].fields k) ∧ ∀ keys, s.slots[k].body ≠ .undefined keys)

/-- No visit of the monitor would find a mismatch; a slot in SCRUBBING is passed by, whatever its check word (R62, R168). -/
def State.undisturbed (s : State) : Prop :=
  (∀ i : WindowNo, s.decoder.windows[i].check = Config.windowCheck (s.decoder.windows[i].fields i)) ∧
  (∀ i : RangeNo, s.ranges[i].disturbed i = false) ∧
  (∀ k : SlotNo, slotDisturbed k s.slots[k] = false)

/-! ## The laws of timers, counts and the alert line -/

/-- The dwell timer runs only in CONTAINED, with 1 to 50 ticks left (R162, R164). -/
def State.dwellLaw (s : State) : Prop :=
  ∀ n, s.contain.dwell = some n → s.contain.device = .contained ∧ 1 ≤ n ∧ n ≤ 50

/-- An ARMED presence timer has an interval in 10..6,000 and no more than that left (R152). -/
def State.presenceLaw (s : State) : Prop :=
  ∀ n m, s.time.presence = .armed n m → 10 ≤ n ∧ n ≤ 6000 ∧ 1 ≤ m ∧ m ≤ n

/-- An idle count is present only while its range is open with an interval that is not 0, and lies within it (R34, R148). -/
def State.idleLaw (s : State) : Prop :=
  ∀ i : RangeNo, s.ranges[i].idleInterval ≤ idleMax ∧
    ∀ n, s.ranges[i].idleRemaining = some n → s.ranges[i].isOpen = true ∧ 1 ≤ n ∧ n ≤ s.ranges[i].idleInterval

/-- The tallies and the fault count stay within 0..255, and a record is held exactly while a fault is counted (R116, R170,
R171, R183). -/
def State.countLaw (s : State) : Prop :=
  s.tallies.parity ≤ 255 ∧ s.tallies.timeout ≤ 255 ∧ s.tallies.rawIgnored ≤ 255 ∧ s.faults.count ≤ 255 ∧
  (s.faults.first.isSome = true ↔ s.faults.count ≠ 0)

/-- ALERT_N is driven low exactly while some event is pending and enabled (R181). -/
def State.alertLaw (s : State) : Prop :=
  s.events.alertLow = true ↔
    ∃ e, e < 10 ∧ s.events.pending.getLsbD e = true ∧ s.events.enables.getLsbD e = true

/-- The laws of timers, counts and the alert line. -/
def State.timerLaws (s : State) : Prop :=
  s.dwellLaw ∧ s.presenceLaw ∧ s.idleLaw ∧ s.countLaw ∧ s.alertLaw

/-! ## The laws of the context table -/

/-- At most 32 contexts, no number twice, and no two contexts that have not sent their completion with one (mover, tag) pair
(R72). -/
def State.contextLaws (s : State) : Prop :=
  s.contexts.length ≤ 32 ∧
  (s.contexts.map fun c => c.number).Nodup ∧
  ((s.contexts.filter fun c => !c.completionSent).map fun c => (c.mover, c.tag)).Nodup

/-- A context's right to its key: the device is in SERVICE and its captured slot is LOADED at the captured generation (R14, R53).
-/
def State.entitled (c : Context) (s : State) : Prop :=
  s.contain.device = .service ∧
  ∃ cap, c.capture = some cap ∧ cap.generation ≠ 0 ∧ s.slots[cap.slot].isLoaded = true ∧
    s.slots[cap.slot].generation = cap.generation

/-- Every CIPHER context in WAITKEY, STREAM, HOLD or CLOSE is entitled to its key: it is withdrawn in the action that takes
its slot out of LOADED or the device out of SERVICE (R14, R53, R61, R97). -/
def State.keyCustody (s : State) : Prop :=
  s.contextLaws ∧ ∀ c ∈ s.contexts, c.passage = .cipher → c.live = true → s.entitled c

/-! ## The laws of the schedule cache -/

/-- The entry of one way of one set. -/
def State.way (i : Fin 4) (w : Way) (s : State) : Option Entry := s.cache[i].entry w

/-- A context that captured a slot at a generation. -/
def Context.hasPair (k : SlotNo) (g : Generation) (c : Context) : Bool :=
  c.capture.any fun cap => cap.slot == k && cap.generation == g

/-- No request stands that the expander should have taken: it is busy, or no queued request is eligible (R124). -/
def State.settled (s : State) : Prop := s.expander.current.isSome = true ∨ s.oldestEligible = none

/-- A context captures exactly if it is CIPHER (R39, R71). -/
def State.captureLaw (s : State) : Prop := ∀ c ∈ s.contexts, c.capture.isSome = true ↔ c.passage = .cipher

/-- An entry stands in the set of its pair, and no two entries of a set are of one pair (R119, R123). -/
def State.entriesPlaced (s : State) : Prop :=
  (∀ i w e, s.way i w = some e → i = setOf e.slot e.generation) ∧
  (∀ i e d, s.way i .way0 = some e → s.way i .way1 = some d → ¬ (e.slot = d.slot ∧ e.generation = d.generation))

/-- An entry holds the schedule of the keys its slot holds at its generation, and the slot of a pinned entry is LOADED (R2, R63,
R127). -/
def State.entriesKeyed (s : State) : Prop :=
  ∀ i w e, s.way i w = some e →
    s.slots[e.slot].generation = e.generation ∧
    (∃ keys, e.schedule = keys.schedule ∧
      (s.slots[e.slot].body = .loaded keys ∨ ∃ cause, s.slots[e.slot].body = .scrubbing keys cause)) ∧
    (e.pins ≠ 0 → s.slots[e.slot].isLoaded = true)

/-- An entry's pin count is the number of contexts of its pair in STREAM or HOLD, each of which has its entry; an entry with a
flush mark is pinned (R121, R122, R129). -/
def State.pinsCounted (s : State) : Prop :=
  (∀ i w e, s.way i w = some e →
    e.pins = s.contexts.countP (fun c => c.streaming && c.hasPair e.slot e.generation) ∧ (e.flush = true → e.pins ≠ 0)) ∧
  (∀ c ∈ s.contexts, ∀ cap, c.streaming = true → c.capture = some cap →
    (s.entryOf cap.slot cap.generation).isSome = true)

/-- The contexts attached to a request or an expansion: no number twice, each of a context in WAITKEY that captured the pair
(R123, R126). -/
def State.waitsFor (attached : List CtxNo) (k : SlotNo) (g : Generation) (s : State) : Prop :=
  attached.Nodup ∧ ∀ n ∈ attached, ∃ c, s.ctx? n = some c ∧ c.state = .waitKey ∧ c.hasPair k g = true

/-- No pair is queued twice; every queued request has a context attached, and its pair has no entry (R123). -/
def State.queueLaw (s : State) : Prop :=
  (s.expander.queue.map fun r => (r.slot, r.generation)).Nodup ∧
  ∀ r ∈ s.expander.queue, r.attached ≠ [] ∧ s.waitsFor r.attached r.slot r.generation ∧
    s.entryOf r.slot r.generation = none

/-- An expansion targets a way of its pair's set that is not valid. A void one has no context attached; one that is not void reads
the keys its LOADED slot holds, and its pair has neither an entry nor a queued request (R123, R125, R126). -/
def State.expansionLaw (s : State) : Prop :=
  ∀ x, s.expander.current = some x →
    x.set = setOf x.slot x.generation ∧ s.way x.set x.way = none ∧
    (x.void = true → x.attached = []) ∧
    (x.void = false →
      s.slots[x.slot].body = .loaded x.keys ∧ s.slots[x.slot].generation = x.generation ∧
      s.entryOf x.slot x.generation = none ∧
      (∀ r ∈ s.expander.queue, ¬ (r.slot = x.slot ∧ r.generation = x.generation)) ∧
      s.waitsFor x.attached x.slot x.generation)

/-- A context in WAITKEY has issued no FETCH, and is attached to the queued request or the expansion of its pair (R81, R123,
R126). -/
def State.waitersAttached (s : State) : Prop :=
  ∀ c ∈ s.contexts, c.state = .waitKey → c.fetchProgress = .notIssued ∧ ∃ cap, c.capture = some cap ∧
    ((∃ r ∈ s.expander.queue, r.slot = cap.slot ∧ r.generation = cap.generation ∧ c.number ∈ r.attached) ∨
    (∃ x, s.expander.current = some x ∧ x.void = false ∧ x.slot = cap.slot ∧ x.generation = cap.generation ∧
      c.number ∈ x.attached))

/-- The laws of the schedule cache, the expansion queue and the expander. -/
def State.cacheLaws (s : State) : Prop :=
  s.captureLaw ∧ s.entriesPlaced ∧ s.entriesKeyed ∧ s.pinsCounted ∧ s.queueLaw ∧ s.expansionLaw ∧ s.waitersAttached ∧
  s.settled

/-! ## What may be told of a key -/

/-- What is left of a slot when its keys and its check word are hidden. -/
def SlotBody.shadow : SlotBody → Nat × Option ScrubCause
  | .empty => (0, none)
  | .loaded _ => (1, none)
  | .scrubbing _ c => (2, some c)
  | .faulted => (3, none)
  | .undefined _ => (4, none)

/-- Two states that differ in nothing but key material: the keys and check words of the slots, and the schedules and keys the
cache and the expander hold (R70). -/
def State.sameButKeys (s t : State) : Prop :=
  (∀ k : SlotNo, s.slots[k].body.shadow = t.slots[k].body.shadow ∧ s.slots[k].generation = t.slots[k].generation) ∧
  t = { s with slots := t.slots, cache := t.cache, expander := t.expander }

/-! ## The terms of the statements -/

/-- A byte and its parity bit contain an odd number of ones together (R98). -/
def oddOnes (b : Byte) (p : Bool) : Prop := ((List.range 8).countP (fun k => b.getLsbD k) + p.toNat) % 2 = 1

/-- An item driven on the staging bus carries a parity bit for each of its bytes, and the parity is odd (R98). -/
def Driven.goodParity {α : Type} (d : Driven α) : Prop :=
  d.parity.length = d.bytes.length ∧ ∀ bp ∈ d.bytes.zip d.parity, oddOnes bp.1 bp.2

/-- The command period with these bits on KDI: those of its first byte, and those that follow (R173). -/
def periodOf (kdi : List Bool) : Instr := .commandPeriod (kdi.take 8) (kdi.drop 8)

/-- What a command period of so many clocks leaves behind when its frame is judged and answered: the response in the buffer,
PENDING, and KDO at ones throughout (R173, R174). -/
def State.replied (clocks : Nat) (a : Answer) (s : State) : State :=
  { s with link := .pending a.frame, out := { Outputs.quiet with kdo := List.replicate clocks (some true) } }

/-- What a command period of `n` whole bytes leaves behind. -/
def State.answered (n : Nat) (a : Answer) (s : State) : State := s.replied (8 * n) a

/-- The command row whose frame carries a command. -/
def LinkCommand.row : LinkCommand → Instr
  | .status => .status
  | .readFault => .readFault
  | .readAbort => .readAbort
  | .loadKey k d t => .loadKey k d t
  | .scrubKey k => .scrubKey k
  | .flushSchedules => .flushSchedules
  | .setRange i f c b l t => .setRange i f c b l t
  | .openRange i m => .openRange i m
  | .lockRange i => .lockRange i
  | .setWindow i t f l d m r => .setWindow i t f l d m r
  | .setLimit n => .setLimit n
  | .freeze => .freeze
  | .go => .go
  | .recover => .recover
  | .armPresence n => .armPresence n
  | .renew => .renew
  | .setAlert e => .setAlert e
  | .clearEvents e => .clearEvents e
  | .clearFault => .clearFault
  | .clearTallies => .clearTallies

/-- Every context but one, with its place in the list order, is as it was. -/
def State.othersKept (n : CtxNo) (s t : State) : Prop :=
  t.contexts.filter (fun c => c.number ≠ n) = s.contexts.filter fun c => c.number ≠ n

/-- Both ways of a set hold pinned entries, so that no request for the set is eligible (R124). -/
def State.fullyPinned (i : Fin 4) (s : State) : Prop := ∀ w, ∃ e, s.way i w = some e ∧ e.pins ≠ 0

/-- The victim way of a set by the table of R125. -/
def State.victimWay (i : Fin 4) (w : Way) (s : State) : Prop :=
  (s.way i .way0 = none ∧ w = .way0) ∨
  (s.way i .way0 ≠ none ∧ s.way i .way1 = none ∧ w = .way1) ∨
  (∃ e d v, v ≠ w ∧ s.way i w = some e ∧ s.way i v = some d ∧ e.pins = 0 ∧ (d.pins ≠ 0 ∨ s.cache[i].recent = v))

/-- The expansion of a request has started: the target way is invalidated, the rest of the cache stands, the queue is what is left
of it, and the expansion holds the keys it read (R124, R125). -/
def State.expansionStarted (r : Request) (w : Way) (keys : KeyPair) (rest : List Request) (s t : State) : Prop :=
  t.way (setOf r.slot r.generation) w = none ∧
  (∀ v, v ≠ w → t.way (setOf r.slot r.generation) v = s.way (setOf r.slot r.generation) v) ∧
  t.cache[setOf r.slot r.generation].recent = s.cache[setOf r.slot r.generation].recent ∧
  (∀ j : Fin 4, j ≠ setOf r.slot r.generation → t.cache[j] = s.cache[j]) ∧
  t.expander =
    { queue := rest
      current := some
        { slot := r.slot, generation := r.generation, set := setOf r.slot r.generation, way := w, attached := r.attached,
          void := false, keys := keys } }

/-- What becomes of cache and expander where the expander, if it is idle, takes the oldest request whose set has an unpinned way:
with none it takes nothing; with one its expansion starts, at whatever generation the slot is, or, if the slot is not LOADED,
nothing does (R124, R125, log entry 30). -/
def State.took (s t : State) : Prop :=
  ((s.expander.current ≠ none ∨ ∀ q ∈ s.expander.queue, s.fullyPinned (setOf q.slot q.generation)) →
    t.cache = s.cache ∧ t.expander = s.expander) ∧
  (∀ pre post r w, s.expander = { queue := pre ++ r :: post, current := none } →
    (∀ q ∈ pre, s.fullyPinned (setOf q.slot q.generation)) → s.victimWay (setOf r.slot r.generation) w →
    (∀ keys, s.slots[r.slot].body = .loaded keys → s.expansionStarted r w keys (pre ++ post) t) ∧
    (s.slots[r.slot].isLoaded = false → t.cache = s.cache ∧ t.expander = s.expander))

/-- What becomes of the cache where a context gives up its pin: the entry of its pair has one pin fewer, and goes with its last pin
if it is flush-marked; a context without a pin changes nothing (R122). -/
def State.pinReleased (c : Context) (s t : State) : Prop :=
  (∀ cap e, c.streaming = true → c.capture = some cap → s.entryOf cap.slot cap.generation = some e →
    ∃ w, s.way (setOf cap.slot cap.generation) w = some e ∧
      t.way (setOf cap.slot cap.generation) w =
        (if e.pins ≤ 1 ∧ e.flush = true then none else some { e with pins := e.pins - 1 }) ∧
      (∀ v, v ≠ w → t.way (setOf cap.slot cap.generation) v = s.way (setOf cap.slot cap.generation) v) ∧
      t.cache[setOf cap.slot cap.generation].recent = s.cache[setOf cap.slot cap.generation].recent ∧
      (∀ j : Fin 4, j ≠ setOf cap.slot cap.generation → t.cache[j] = s.cache[j])) ∧
  ((c.streaming = false ∨ c.capture = none ∨ ∃ cap, c.capture = some cap ∧ s.entryOf cap.slot cap.generation = none) →
    t.cache = s.cache)

/-- A context gives up its pin and the idle expander then takes the oldest eligible request: what becomes of the cache and the
expander (R122, R124). -/
def State.released (c : Context) (s t : State) : Prop :=
  ∃ u : State, s.pinReleased c u ∧ u = { s with cache := u.cache } ∧ u.took t

/-- A context is withdrawn from every block: its units in process, its unit in the store slot, its hold on the request path, its
hold, its pin and its place in the expansion queue go, what belongs to others stays, and the idle expander then takes the oldest
eligible request (R17, R90, R107, R122, R123, R143). -/
def State.withdrawn (c : Context) (s t : State) : Prop :=
  t.engines =
    { outbound := s.engines.outbound.filter fun j => j.ctx ≠ c.number
      inbound := s.engines.inbound.filter fun j => j.ctx ≠ c.number } ∧
  t.media =
    { s.media with
      slot := s.media.slot.filter fun u => u.ctx ≠ c.number
      path := if s.media.path.owner = some c.number then .free else s.media.path } ∧
  t.hold = (s.hold.filter fun h => h.ctx ≠ c.number) ∧
  ∃ u : State, s.pinReleased c u ∧ u.took t ∧
    u = { s with
      cache := u.cache
      expander :=
        { queue := s.expander.queue.filterMap fun r =>
            if c.number ∈ r.attached ∧ ∀ m ∈ r.attached, m = c.number then none
            else some { r with attached := r.attached.filter fun m => m ≠ c.number }
          current := s.expander.current.map fun x => { x with attached := x.attached.filter fun m => m ≠ c.number } } }

/-- A context that captured a slot. -/
def Context.captured (k : SlotNo) (c : Context) : Bool := c.capture.any fun cap => cap.slot == k

/-- What the scrub of a slot that held keys leaves: the slot SCRUBBING with its cause, its open ranges LOCKED, every holder
withdrawn with the code of the cause, contexts and ranges of other slots as they were, no queued request for the slot, and an
expansion of it void (R44, R60, R61, R65). -/
def State.scrubbed (k : SlotNo) (keys : KeyPair) (cause : ScrubCause) (s t : State) : Prop :=
  t.slots[k] = Slot.sealed k { s.slots[k] with body := .scrubbing keys cause } ∧
  (∀ j : SlotNo, j ≠ k → t.slots[j] = s.slots[j]) ∧
  (∀ i : RangeNo, t.ranges[i] =
    if s.ranges[i].binding = some k ∧ s.ranges[i].isOpen = true then
      Range.sealed i { s.ranges[i] with state := .locked, idleRemaining := none }
    else s.ranges[i]) ∧
  (∀ d ∈ t.contexts, d.holds k = false ∧
    ∀ c ∈ s.contexts, c.holds k = true → c.number = d.number →
      d.state = .cancel ∧
      d.code = (if c.code = .ok then (match cause with | .command => .revoked | .check => .fault) else c.code)) ∧
  t.contexts.filter (fun d => !d.captured k) = s.contexts.filter (fun c => !c.captured k) ∧
  s.returnPath <+: t.returnPath ∧
  (∀ r ∈ t.expander.queue, r.slot ≠ k) ∧
  (∀ x, t.expander.current = some x → x.slot = k → x.void = true)

/-- A record has the fields given and a check word computed over them: what a write of the record leaves (R18, R35, R55). -/
def State.windowIs (i : WindowNo) (w : Window) (s : State) : Prop := s.decoder.windows[i] = w.sealed i

/-- See `State.windowIs`. -/
def State.rangeIs (i : RangeNo) (r : Range) (s : State) : Prop := s.ranges[i] = r.sealed i

/-- See `State.windowIs`. -/
def State.slotIs (k : SlotNo) (r : Slot) (s : State) : Prop := s.slots[k] = r.sealed k

/-- The media port takes an arrival for a context now: the controller clear is not asserted, the return path is not full, and
no hold of another context exists (R103, R105, R117). -/
def State.portOpen (n : CtxNo) (s : State) : Prop :=
  s.intake ≠ .clearing ∧ s.returnFull = false ∧ ∀ h, s.hold = some h → h.ctx = n

/-- The event's flag is set: the set of pending flags with one event more. -/
def State.pendingWith (e : Event) (s : State) : BitVec 10 := s.events.pending ||| e.bit

/-- The lowest context number not in use (R73). -/
def State.isLowestFree (n : CtxNo) (s : State) : Prop :=
  s.ctx? n = none ∧ ∀ m : CtxNo, m < n → s.ctx? m ≠ none

/-- The twelve checks of R74 in their order, each as whether it fails and the code it then gives. -/
def State.admissionTable (h : Header) (s : State) : List (Bool × Reply) :=
  let f := readHeader h
  let w : Option Window := (s.windowOf f.addr).map fun i => s.decoder.windows[i]
  let r := s.ranges[s.rangeOf f.sector]
  let cipher := w.any fun w => w.treatment == .cipher && !(f.raw && hasMover f.mover w.relocation)
  let keyed := r.binding.any fun k => s.slots[k].isLoaded && s.slots[k].generation != 0
  [ (s.contain.device == .selfTest, .retry),
    (!headerParityGood h, .parity),
    (decide (32 ≤ s.contexts.length) || s.contexts.any (Context.claims f.mover f.tag), .retry),
    (w.all fun w => w.treatment == .block, .denied),
    (w.any fun w => !hasMover f.mover w.movers || !w.direction.admits f.kind, .denied),
    (w.any fun w => decide (w.last.toNat < f.addr.toNat + f.length - 1), .bound),
    (cipher && s.contain.device != .service, .fault),
    (cipher && !f.tagPresent, .noTag),
    (cipher && (decide (s.decoder.limit ≤ f.sector.toNat) || decide (256 < f.offset.toNat + f.length)), .bound),
    (cipher && r.state == .faulted, .fault),
    (cipher && (r.state == .locked || (r.state == .openRO && f.kind == .store)), .locked),
    (cipher && !keyed, .fault) ]

/-- The answer the table gives: the code of the first check that fails, or ADMIT (R74). -/
def tableAnswer (t : List (Bool × Reply)) : HeaderAnswer :=
  match t.find? fun p => p.1 with
  | some p => .refuse p.2
  | none => .admitted

/-- A request passes checks 1 to 6 in window i (R20, R21, R24, R75). -/
def State.passesWindow (h : Header) (i : WindowNo) (s : State) : Prop :=
  s.contain.device ≠ .selfTest ∧ headerParityGood h = true ∧ s.contexts.length < 32 ∧
  s.contexts.any (Context.claims (readHeader h).mover (readHeader h).tag) = false ∧
  s.windowOf (readHeader h).addr = some i ∧ s.decoder.windows[i].treatment ≠ .block ∧
  hasMover (readHeader h).mover s.decoder.windows[i].movers = true ∧
  s.decoder.windows[i].direction.admits (readHeader h).kind = true ∧
  (readHeader h).addr.toNat + (readHeader h).length - 1 ≤ s.decoder.windows[i].last.toNat

/-- A request settled CIPHER passes checks 8 to 12 and captures (R38, R39, R76). -/
def State.passesCipher (h : Header) (cap : Capture) (s : State) : Prop :=
  s.contain.device = .service ∧ (readHeader h).tagPresent = true ∧
  (readHeader h).sector.toNat < s.decoder.limit ∧ (readHeader h).offset.toNat + (readHeader h).length ≤ 256 ∧
  cap.range = s.rangeOf (readHeader h).sector ∧ cap.sector = (readHeader h).sector ∧ cap.offset = (readHeader h).offset ∧
  (s.ranges[cap.range].state = .openRW ∨ (s.ranges[cap.range].state = .openRO ∧ (readHeader h).kind = .fetch)) ∧
  s.ranges[cap.range].binding = some cap.slot ∧ s.slots[cap.slot].isLoaded = true ∧
  s.slots[cap.slot].generation = cap.generation ∧ cap.generation ≠ 0

/-- The context a command names when it is an answer or a unit from the media other than the answer to a CANCEL (R104). -/
def answersContext : Instr → Option CtxNo
  | .accept n _ => some n
  | .fetchUnit n _ => some n
  | .holdFetchUnit n _ => some n
  | .fetchDone n => some n
  | .pieceDone n => some n
  | .holdFetchDone n => some n
  | .releaseStoreDone n => some n
  | .mediaError n .fetch => some n
  | .mediaError n .store => some n
  | .mediaError n .holdFetch => some n
  | .mediaError n .releaseStore => some n
  | _ => none

/-- The schedule and the tweak an engine uses for the context's next unit are those of a key pair and of `t`: the pinned entry of
the captured slot and generation holds the pair's schedule, and the device is in SERVICE (R2, R8, R122). -/
def State.engineReady (c : Context) (p : KeyPair) (t : Block) (s : State) : Prop :=
  s.contain.device = .service ∧ c.streaming = true ∧ c.tweak = .kept t ∧
  ∃ cap e, c.capture = some cap ∧ s.entryOf cap.slot cap.generation = some e ∧ e.schedule = p.schedule

end Sys2Proof.Machine
end

