-- ==== Sys2Proof/Certificates/Slice0/Obligations.lean ====
section
/-! DEFINITION. The statements about the WB-7310, in the order of OBLIGATIONS.json. A next state is given by the fields the
command changes and by an equation that keeps every other field. -/

open Sys2Proof Sys2Proof.Machine

/-! ## The machine as a whole -/

/-- A step carries out the command at the front of the queue on the rest of the queue (log entry 28). -/
def Obligations.step_runs_front : Prop :=
  ∀ (c : Instr) (rest : List Instr) (s : State), s.pending = c :: rest → step s = exec c { s with pending := rest }

/-- A step on an empty queue is a fine tick (the model's choice, log entry 4): one advance of the monitor's cursor, from 55 back
to 0, outside SELF-TEST (R167), and one fine tick less to the coarse tick (R146). In an undisturbed state: a counted answer timer
falls by one, and its last tick takes its context to CANCEL with TIMEOUT, or strands it in the cancel phase; a timer that does not
count stands (R110, R111, R112; which ticks count is log entry 25's reading, and the end of an idle timer of interval 1 just
restarted is log entry 33's). At a coarse tick the dwell and presence timers and,
where no lapse locks its range, each idle timer fall by one or end (R146, R148, R149, R152, R155, R164); at another fine tick none
does. A timer that a row has given the tick is passed by, and so is the visit where a row has made it (the model's choice, log
entry 5). -/
def Obligations.idle_step_is_fine_tick : Prop :=
  ∀ s : State, s.pending = [] → ∃ t, step s = .next t ∧
    t.pending = [] ∧
    t.contain.cursor.val =
      (if s.contain.device = .selfTest ∨ s.marks.visited = true then s.contain.cursor.val
      else (s.contain.cursor.val + 1) % 56) ∧
    t.time.coarsePhase = (if s.time.coarsePhase ≤ 1 then 10000 else s.time.coarsePhase - 1) ∧
    t.link = s.link ∧ t.abort = s.abort ∧ t.decoder.limit = s.decoder.limit ∧ t.decoder.frozen = s.decoder.frozen ∧
    t.tallies.rawIgnored = s.tallies.rawIgnored ∧
    t.marks.tickedAnswer = [] ∧ t.marks.tickedIdle = 0 ∧ t.marks.tickedPresence = false ∧ t.marks.tickedDwell = false ∧
    t.marks.visited = false ∧
    (s.undisturbed → s.contextLaws → ∀ c ∈ s.contexts,
      (c.timer = none ∨ s.countsTick c = false → t.ctx? c.number = some c) ∧
      (∀ x, c.timer = some x → s.countsTick c = true →
        (2 ≤ x.remaining →
          t.ctx? c.number = some { c with timer := some { x with remaining := x.remaining - 1 } }) ∧
        (x.remaining ≤ 1 → x.phase = .cancelAnswer →
          t.ctx? c.number = some { c with state := .stranded, timer := none, tweak := .absent }) ∧
        (x.remaining ≤ 1 → x.phase ≠ .cancelAnswer → c.live = true → c.cancel = .none →
          ∃ d, t.ctx? c.number = some d ∧ d.state = .cancel ∧ d.cancel = .sent ∧ d.timer = none ∧
            d.code = (if c.code = .ok then .timeout else c.code)))) ∧
    (s.undisturbed → 2 ≤ s.time.coarsePhase →
      t.contain.dwell = s.contain.dwell ∧ t.time.presence = s.time.presence ∧
      t.time.idleLocked = s.time.idleLocked ∧ t.ranges = s.ranges) ∧
    (s.undisturbed → s.time.coarsePhase ≤ 1 →
      t.contain.dwell =
        (if s.marks.tickedDwell = true then s.contain.dwell
        else s.contain.dwell.bind fun n => if n ≤ 1 then none else some (n - 1)) ∧
      (s.marks.tickedPresence = true ∨ (∀ n m, s.time.presence ≠ .armed n m) → t.time.presence = s.time.presence) ∧
      (∀ n m, s.time.presence = .armed n m → s.marks.tickedPresence = false →
        t.time.presence = if m ≤ 1 then .lapsed else .armed n (m - 1)) ∧
      (∀ i : RangeNo,
        s.ranges[i].lockOnAbsence = false ∨ s.marks.tickedPresence = true ∨
          (∀ n m, s.time.presence = .armed n m → 2 ≤ m) →
        (s.ranges[i].isOpen = false ∨ s.ranges[i].idleInterval = 0 ∨ s.ranges[i].idleRemaining = none ∨
          s.marks.tickedIdle.getLsbD i.val = true → t.ranges[i] = s.ranges[i]) ∧
        (∀ n, s.ranges[i].isOpen = true → s.ranges[i].idleInterval ≠ 0 → s.ranges[i].idleRemaining = some n →
          s.marks.tickedIdle.getLsbD i.val = false →
          (2 ≤ n → t.ranges[i] = { s.ranges[i] with idleRemaining := some (n - 1) }) ∧
          (n ≤ 1 → t.rangeIs i { s.ranges[i] with state := .locked, idleRemaining := none } ∧
            t.time.idleLocked.getLsbD i.val = true))))

/-- Every command ends in a next state, whatever the state, and leaves the waiting commands as they are. This is the model's
choice: a command whose event cannot take place, or whose item is not taken, completes too, in the state as it was but for the note
of a unit that waits (log entry 3),
and no command but the front one acts (log entry 28). -/
def Obligations.every_command_completes : Prop :=
  ∀ (c : Instr) (s : State), ∃ t, exec c s = .next t ∧ t.pending = s.pending

/-! ## The cipher -/

/-- R3: the tweak input holds the sector number in bytes 0 to 4 and zeros above, and no two sector numbers share one. -/
def Obligations.tweak_input_layout : Prop :=
  ∀ n : Sector,
    (∀ i, i < 5 → byteAt (tweakInput n) i = n.extractLsb' (8 * i) 8) ∧
    (∀ i, 5 ≤ i → i < 16 → byteAt (tweakInput n) i = 0) ∧
    (∀ m : Sector, tweakInput n = tweakInput m → n = m)

/-- R5: doubling shifts every bit up by one place and, if bit 127 was 1, exclusive-ors 0x87 into byte 0. It maps no two values
to one, and zero to zero. -/
def Obligations.doubling_shifts_and_reduces : Prop :=
  (∀ (v : Block) (i : Nat), i < 128 →
    (double v).getLsbD i = ((decide (0 < i) && v.getLsbD (i - 1)) ^^ (v.getLsbD 127 && (0x87 : Block).getLsbD i))) ∧
  (∀ v w : Block, double v = double w → v = w) ∧
  double 0 = 0

/-- R1: for every key, P and its inverse undo each other. -/
def Obligations.permutation_inverts : Prop :=
  ∀ (k : Key) (x : Block),
    blockPermutationInv k (blockPermutation k x) = x ∧ blockPermutation k (blockPermutationInv k x) = x

/-- R2, R4, R9, R10: a key pair's schedule gives the sector tweak under the tweak key and the two directions of the unit
transform under the data key, and deciphering an enciphered unit with the same tweak returns it. -/
def Obligations.schedule_gives_the_transform : Prop :=
  ∀ (p : KeyPair) (n : Sector) (t x : Block),
    p.schedule.sectorTweak n = blockPermutation p.tweakKey (tweakInput n) ∧
    p.schedule.encipher t x = blockPermutation p.dataKey (x ^^^ t) ^^^ t ∧
    p.schedule.decipher t x = blockPermutationInv p.dataKey (x ^^^ t) ^^^ t ∧
    p.schedule.decipher t (p.schedule.encipher t x) = x

/-- R4, R6, R7: SECTOR_TWEAK gives a streaming CIPHER context its sector tweak, kept at once for offset 0 and otherwise doubled
by CATCH_UP as often as the offset says, so that its first unit uses the tweak of its unit position. Nothing else changes but
the model's marks. -/
def Obligations.tweaks_are_kept : Prop :=
  (∀ (n : CtxNo) (c : Context) (cap : Capture) (e : Entry) (s : State),
    s.ctx? n = some c → c.capture = some cap → c.streaming = true → s.contain.device = .service →
    s.entryOf cap.slot cap.generation = some e → c.tweak = .absent →
    ∃ t, exec (.sectorTweak n) s = .next t ∧
      t.ctx? n = some { c with
        tweak := if cap.offset = 0 then .kept (permute e.schedule.tweakForward (tweakInput cap.sector))
          else .catchingUp (permute e.schedule.tweakForward (tweakInput cap.sector)) } ∧
      s.othersKept n t ∧
      t = { s with contexts := t.contexts, marks := t.marks, out := Outputs.quiet }) ∧
  (∀ (n : CtxNo) (c : Context) (cap : Capture) (t0 : Block) (s : State),
    s.ctx? n = some c → c.capture = some cap → s.contain.device = .service → c.tweak = .catchingUp t0 →
    ∃ t, exec (.catchUp n) s = .next t ∧
      t.ctx? n = some { c with tweak := .kept (double^[cap.offset.toNat] t0) } ∧
      s.othersKept n t ∧
      t = { s with contexts := t.contexts, marks := t.marks, out := Outputs.quiet })

/-! ## Power-on reset, the self-test, SEGMENT CLEAR -/

/-- Power-on reset presets every block, from every state (R19, R36, R56, R72, R96, R118, R120, R135, R151, R152, R158, R164,
R167, R171, R174, R180, R181, R183). -/
def Obligations.power_on_reset_presets : Prop :=
  ∀ (clear : Bool) (s : State), ∃ t, exec (.powerOnReset clear) s = .next t ∧
    t.contain = { device := .selfTest, dwell := none, cursor := 0 } ∧
    t.faults = { count := 0, first := none } ∧
    (∀ i : WindowNo, t.decoder.windows[i].treatment = (if i = 0 then .clear else .empty) ∧
      t.decoder.windows[i].first = 0 ∧
      t.decoder.windows[i].last = (if i = 0 then 0x000FFFF else 0) ∧
      t.decoder.windows[i].direction = (if i = 0 then .fetchOnly else .both) ∧
      t.decoder.windows[i].movers = (if i = 0 then 0xFF else 0) ∧ t.decoder.windows[i].relocation = 0) ∧
    t.decoder.frozen = false ∧ t.decoder.limit = 0 ∧
    (∀ i : RangeNo, t.ranges[i].span = (if i = 0 then none else some { first := 0, count := 0 }) ∧
      t.ranges[i].binding = none ∧ t.ranges[i].state = .locked ∧ t.ranges[i].lockOnAbsence = true ∧
      t.ranges[i].idleInterval = 0 ∧ t.ranges[i].idleRemaining = none) ∧
    (∀ k : SlotNo, t.slots[k].body = .empty ∧ t.slots[k].generation = 0) ∧
    t.checksFresh ∧
    t.contexts = [] ∧ t.abort = [] ∧
    (∀ i w, t.way i w = none) ∧ (∀ i : Fin 4, t.cache[i].recent = .way1) ∧
    t.expander = { queue := [], current := none } ∧
    t.intake = (if clear then .clearing else .header) ∧ t.returnPath = [] ∧
    t.media = { slot := none, path := .free, clearDriven := clear } ∧
    t.engines = { outbound := none, inbound := none } ∧ t.hold = none ∧
    t.time.presence = .idle ∧ t.time.idleLocked = 0 ∧ t.link = .empty ∧
    t.events = { pending := 0, enables := 0, alertLow := false } ∧
    t.tallies = { parity := 0, timeout := 0, rawIgnored := 0 }

/-- R160, R162: a self-test that passes moves the device to CONFIG and raises SELF-TEST-DONE; one that fails logs SELF-TEST-FAIL
with the device state SELF-TEST and the test, and enters CONTAINED, where no CIPHER context is live to be revoked. -/
def Obligations.self_test_ends : Prop :=
  ∀ s : State, s.contain.device = .selfTest → s.expander.current = none →
    (exec (.selfTestEnd none) s = .next { s with
      contain := { s.contain with device := .config }
      events := .follow (s.pendingWith .selfTestDone) s.events.enables
      out := Outputs.quiet }) ∧
    (∀ test, (∀ c ∈ s.contexts, c.passage = .cipher → c.live = false) →
      exec (.selfTestEnd (some test)) s = .next { s with
        contain := { s.contain with device := .contained, dwell := some 50 }
        faults :=
          { count := if s.faults.count < 255 then s.faults.count + 1 else 255
            first := some (s.faults.first.getD
              { kind := .selfTestFail, device := .selfTest, ctx := none, sector := none, entry := none, test := some test }) }
        expander := { queue := [], current := none }
        events := .follow (s.pendingWith .contained) s.events.enables
        out := Outputs.quiet })

/-- R95, R96, R117, R130: an assertion of the controller clear frees every context, releases every pin, drops the flush-marked
entries and keeps the others, empties the queue, the engines, the hold and the store slot, asserts the media clear and, if a
context is abandoned, records the two oldest and raises ABORTED. Its deassertion returns the intake to HEADER and deasserts the
media clear. -/
def Obligations.segment_clear_abandons : Prop :=
  (∀ s : State, s.intake ≠ .clearing → ∃ t, exec .segmentClear s = .next t ∧
    (∀ i w, t.way i w = ((s.way i w).filter fun e => !e.flush).map fun e => { e with pins := 0 }) ∧
    (∀ i : Fin 4, t.cache[i].recent = s.cache[i].recent) ∧
    t.abort = (if s.contexts = [] then s.abort else
      (s.contexts.take 2).map fun c =>
        { kind := c.kind, mover := c.mover, tag := c.tag, addr := c.addr, length := c.length, passed := c.passed,
          passage := c.passage, window := c.window, state := c.state,
          capture := c.capture.map fun cap => { sector := cap.sector, offset := cap.offset, range := cap.range } }) ∧
    t.events = (if s.contexts = [] then s.events else .follow (s.pendingWith .aborted) s.events.enables) ∧
    t = { s with
      contexts := []
      cache := t.cache
      abort := t.abort
      events := t.events
      expander := { queue := [], current := s.expander.current.map fun x => { x with attached := [] } }
      engines := { outbound := none, inbound := none }
      hold := none
      intake := .clearing
      media := { slot := none, path := .free, clearDriven := true }
      out := Outputs.quiet }) ∧
  (∀ s : State, s.intake = .clearing →
    exec .segmentClearDeasserted s = .next { s with
      intake := .header, media := { s.media with clearDriven := false }, out := Outputs.quiet })

/-! ## Admission -/

/-- R27, R74, R102: a header taken in HEADER is answered by the first of the twelve checks that fails, or ADMIT; if its window is
CIPHER and its raw attribute is set by a mover without the relocation right, RAW-IGNORED is raised and the raw-ignored tally
counted, whatever the later checks decide. In any other state of the intake it stays on the segment untaken (log entry 3). -/
def Obligations.header_answered_by_first_failing_check : Prop :=
  ∀ (h : Header) (s : State),
    (s.intake = .header → ∃ t, exec (.requestHeader h) s = .next t ∧
      t.out.headerAnswer = some (tableAnswer (s.admissionTable h)).driven) ∧
    (∀ i, s.intake = .header → s.passesWindow h i → s.decoder.windows[i].treatment = .cipher → (readHeader h).raw = true →
      hasMover (readHeader h).mover s.decoder.windows[i].relocation = false →
      ∃ t, exec (.requestHeader h) s = .next t ∧
        t.tallies = { s.tallies with
          rawIgnored := if s.tallies.rawIgnored < 255 then s.tallies.rawIgnored + 1 else 255 } ∧
        t.events = .follow (s.pendingWith .rawIgnored) s.events.enables) ∧
    (s.intake ≠ .header → exec (.requestHeader h) s = .next { s with out := { Outputs.quiet with taken := false } })

/-- R77: a refused request creates no context and changes no table; a refused fetch is handed a completion with its code, unless
it is refused PARITY, and a refused store's beats are to be dropped. -/
def Obligations.refusal_changes_no_table : Prop :=
  ∀ (h : Header) (s t : State) (code : Reply),
    s.intake = .header → exec (.requestHeader h) s = .next t → t.out.headerAnswer = some (HeaderAnswer.driven (.refuse code)) →
    t.intake = (match (readHeader h).kind with
      | .fetch => .header
      | .store => .dropping (readHeader h).length none) ∧
    t.returnPath = s.returnPath ++ (if (readHeader h).kind = .fetch ∧ code ≠ .parity
      then [.completion (readHeader h).mover (readHeader h).tag code] else []) ∧
    t.tallies.parity = (if code = .parity then (if s.tallies.parity < 255 then s.tallies.parity + 1 else 255)
      else s.tallies.parity) ∧
    t = { s with
      intake := t.intake, returnPath := t.returnPath, tallies := t.tallies, events := t.events, out := t.out }

/-- R25, R26, R79: a request that passes its window is admitted CLEAR in a CLEAR window, and RAW in a CIPHER window if its raw
attribute and its mover's relocation right say so; its context takes the lowest number not in use, joins the tail of the list in
STREAM, and nothing else but the intake and the answer changes. -/
def Obligations.plain_request_is_admitted : Prop :=
  ∀ (h : Header) (i : WindowNo) (n : CtxNo) (s : State),
    s.intake = .header → s.passesWindow h i → s.isLowestFree n →
    (s.decoder.windows[i].treatment = .clear ∨
      (s.decoder.windows[i].treatment = .cipher ∧ (readHeader h).raw = true ∧
        hasMover (readHeader h).mover s.decoder.windows[i].relocation = true)) →
    exec (.requestHeader h) s = .next { s with
      contexts := s.contexts ++ [newContext n (readHeader h)
        (if s.decoder.windows[i].treatment = .clear then .clear else .raw) i none .stream]
      intake := match (readHeader h).kind with
        | .fetch => .header
        | .store => .beats n 0
      out := { Outputs.quiet with headerAnswer := some (HeaderAnswer.driven .admitted) } }

/-- R27, R39, R79, R80, R121, R123, R124, R125: a CIPHER request that passes its checks, a degraded raw one among them (which is
counted and raises RAW-IGNORED), restarts its range's idle timer and creates a context with what it captures. On a hit the entry is
pinned once more and the context streams. On a miss it waits: attached to the expansion in progress if that is its pair's and not
void; otherwise to the request for its pair, which joins the tail of the queue if there was none. A void expansion takes no new
context, so the request of its own pair is queued (the model's reading of R126, log entry 28). If the expander is idle and the set
has an unpinned way, the request's expansion starts in the same action. -/
def Obligations.cipher_request_is_admitted : Prop :=
  ∀ (h : Header) (i : WindowNo) (n : CtxNo) (cap : Capture) (s : State),
    s.intake = .header → s.passesWindow h i → s.isLowestFree n → s.decoder.windows[i].treatment = .cipher →
    (readHeader h).raw = false ∨ hasMover (readHeader h).mover s.decoder.windows[i].relocation = false →
    s.passesCipher h cap → s.settled →
    ∃ t, exec (.requestHeader h) s = .next t ∧
      t.out = { Outputs.quiet with headerAnswer := some (HeaderAnswer.driven .admitted) } ∧
      t.tallies = { s.tallies with
        rawIgnored := if (readHeader h).raw = true then
          (if s.tallies.rawIgnored < 255 then s.tallies.rawIgnored + 1 else 255) else s.tallies.rawIgnored } ∧
      t.events = (if (readHeader h).raw = true then .follow (s.pendingWith .rawIgnored) s.events.enables else s.events) ∧
      t.ranges[cap.range] = { s.ranges[cap.range] with
        idleRemaining := if s.ranges[cap.range].idleInterval = 0 then s.ranges[cap.range].idleRemaining
          else some s.ranges[cap.range].idleInterval } ∧
      (∀ j : RangeNo, j ≠ cap.range → t.ranges[j] = s.ranges[j]) ∧
      (∀ e, s.entryOf cap.slot cap.generation = some e →
        t.contexts = s.contexts ++ [newContext n (readHeader h) .cipher i (some cap) .stream] ∧
        (∃ w, s.way (setOf cap.slot cap.generation) w = some e ∧
          t.way (setOf cap.slot cap.generation) w = some { e with pins := e.pins + 1 } ∧
          (∀ v, v ≠ w → t.way (setOf cap.slot cap.generation) v = s.way (setOf cap.slot cap.generation) v) ∧
          t.cache[setOf cap.slot cap.generation].recent = w) ∧
        (∀ j : Fin 4, j ≠ setOf cap.slot cap.generation → t.cache[j] = s.cache[j]) ∧
        t.expander = s.expander ∧
        t.intake = (match (readHeader h).kind with | .fetch => .header | .store => .beats n 0)) ∧
      (s.entryOf cap.slot cap.generation = none →
        t.contexts = s.contexts ++ [newContext n (readHeader h) .cipher i (some cap) .waitKey] ∧
        t.intake = (match (readHeader h).kind with | .fetch => .header | .store => .waiting n)) ∧
      (∀ x, s.entryOf cap.slot cap.generation = none → s.expander.current = some x →
        x.slot = cap.slot → x.generation = cap.generation → x.void = false →
        t.cache = s.cache ∧
        t.expander = { s.expander with current := some { x with attached := x.attached ++ [n] } }) ∧
      (s.entryOf cap.slot cap.generation = none →
        (∃ x, s.expander.current = some x ∧ ¬ (x.slot = cap.slot ∧ x.generation = cap.generation ∧ x.void = false)) ∨
          (s.expander.current = none ∧ s.fullyPinned (setOf cap.slot cap.generation)) →
        t.cache = s.cache ∧
        t.expander = { s.expander with
          queue := if s.expander.queue.any (fun r => r.slot == cap.slot && r.generation == cap.generation) then
              s.expander.queue.map fun r =>
                if r.slot = cap.slot ∧ r.generation = cap.generation then { r with attached := r.attached ++ [n] } else r
            else s.expander.queue ++ [{ slot := cap.slot, generation := cap.generation, attached := [n] }] }) ∧
      (∀ w keys, s.entryOf cap.slot cap.generation = none → s.expander.current = none →
        s.victimWay (setOf cap.slot cap.generation) w → s.slots[cap.slot].body = .loaded keys →
        s.expansionStarted { slot := cap.slot, generation := cap.generation, attached := [n] } w keys s.expander.queue t) ∧
      t = { s with
        ranges := t.ranges, contexts := t.contexts, cache := t.cache, expander := t.expander, intake := t.intake,
        tallies := t.tallies, events := t.events, out := t.out }

/-! ## Beats of a store, and the return path -/

/-- R83, R101, R107: a good beat of a store in STREAM is taken when its path accepts it. A CIPHER beat with all lanes or none
goes to the outbound path; a RAW or CLEAR beat waits in the store slot, or is driven at once while its piece is open and
accepted, and the last one ends the piece and takes the store to CLOSE. While a hold exists no beat is taken (R135, R139; that this
holds of every store is the model's reading, log entry 29). -/
def Obligations.store_beat_is_taken : Prop :=
  (∀ (b : Beat) (n : CtxNo) (k : Nat) (c : Context) (s : State),
    s.intake = .beats n k → s.ctx? n = some c → c.state = .stream → c.code = .ok → s.hold = none → s.media.slot = none →
    beatParityBad b = false → s.settled →
    (c.passage = .cipher → b.enables = 0 ∨ b.enables = 0xFFFF → s.engines.outbound = none → (∃ t, c.tweak = .kept t) →
      exec (.storeBeat b) s = .next { s with
        intake := if c.length ≤ k + 1 then .header else .beats n (k + 1)
        engines := { s.engines with
          outbound := some { ctx := n, index := k, data := b.data, enables := b.enables, merged := false } }
        out := Outputs.quiet }) ∧
    (c.passage ≠ .cipher → s.media.path ≠ .piece n true →
      exec (.storeBeat b) s = .next { s with
        intake := if c.length ≤ k + 1 then .header else .beats n (k + 1)
        media := { s.media with slot := some { ctx := n, index := k, data := b.data, enables := b.enables } }
        out := Outputs.quiet }) ∧
    (c.passage ≠ .cipher → s.media.path = .piece n true → k + 1 < c.length →
      ∃ t, exec (.storeBeat b) s = .next t ∧
        t.ctx? n = some { c with passed := c.passed + 1 } ∧ s.othersKept n t ∧
        t = { s with
          contexts := t.contexts
          intake := .beats n (k + 1)
          out := { Outputs.quiet with
            media := [MediaDrive.driven (.unit n { data := b.data, parity := lanesParity b.data, enables := b.enables })] } }) ∧
    (c.passage ≠ .cipher → c.capture = none → s.media.path = .piece n true → k + 1 = c.length → 0 < c.pieces →
      ∃ t, exec (.storeBeat b) s = .next t ∧
        t.ctx? n = some { c with passed := c.passed + 1, state := .close, tweak := .absent } ∧ s.othersKept n t ∧
        t = { s with
          contexts := t.contexts
          intake := .header
          media := { s.media with path := .free }
          out := { Outputs.quiet with
            media := [MediaDrive.driven (.unit n { data := b.data, parity := lanesParity b.data, enables := b.enables }),
              MediaDrive.driven (.endMark n)] } })) ∧
  (∀ (b : Beat) (n : CtxNo) (k : Nat) (c : Context) (s : State), s.intake = .beats n k → s.ctx? n = some c →
    c.draining = false → s.hold ≠ none →
    exec (.storeBeat b) s = .next { s with out := { Outputs.quiet with taken := false } })

/-- R134, R136: a CIPHER beat with 1 to 15 lanes enabled ends the open piece, puts its store in HOLD and issues the HOLD-FETCH for
the unit's own address, whose ACCEPT is timed from 128. -/
def Obligations.partial_beat_begins_hold : Prop :=
  ∀ (b : Beat) (n : CtxNo) (k : Nat) (c : Context) (s : State),
    s.intake = .beats n k → s.ctx? n = some c → c.state = .stream → c.code = .ok → c.passage = .cipher →
    s.hold = none → s.media.slot = none → s.engines.outbound = none → (∃ t, c.tweak = .kept t) → beatParityBad b = false →
    b.enables ≠ 0 → b.enables ≠ 0xFFFF → s.settled →
    ∃ t, exec (.storeBeat b) s = .next t ∧
      t.ctx? n = some { c with state := .hold, timer := some { phase := .accept, remaining := 128 } } ∧
      s.othersKept n t ∧
      t.hold = some
        { ctx := n, index := k, addr := c.addr + BitVec.ofNat 28 k, bytes := b.data, enables := b.enables, phase := .fetch,
          fetchAnswered := false, merged := none } ∧
      t.media.path = (if s.media.path.owner = some n then .free else s.media.path) ∧
      t.out = { Outputs.quiet with
        media := (if s.media.path.owner = some n then [MediaDrive.driven (.endMark n)] else []) ++
          [MediaDrive.driven (.holdFetch n (c.addr + BitVec.ofNat 28 k))] } ∧
      t = { s with
        contexts := t.contexts
        hold := t.hold
        intake := if c.length ≤ k + 1 then .header else .beats n (k + 1)
        media := { s.media with path := t.media.path }
        marks := t.marks
        out := t.out }

/-- R86, R113: a beat of a store that fails the parity of an enabled lane is dropped, gives the store code PARITY, abandons its
open piece without an end mark, makes its CANCEL ready where it has outstanding work, counts the parity tally, raises
PARITY-SEEN and logs PARITY-UP; a store with beats left drains them in STREAM. R90, R91, R92: at its last beat it enters CANCEL in
the same action, hands its completion and, with nothing outstanding, is freed. -/
def Obligations.bad_beat_starts_drain : Prop :=
  ∀ (b : Beat) (n : CtxNo) (k : Nat) (c : Context) (s : State),
    s.intake = .beats n k → s.ctx? n = some c → c.kind = .store → c.state = .stream → c.code = .ok → c.cancel = .none →
    c.passage ≠ .cipher ∨ (s.engines.outbound = none ∧ ∃ t, c.tweak = .kept t) →
    s.media.slot = none → s.hold = none → beatParityBad b = true →
    (k + 1 < c.length → s.settled →
      ∃ t, exec (.storeBeat b) s = .next t ∧
        t.ctx? n = some { c with
          code := .parity
          cancel := if 0 < c.pieces ∨ c.fetchProgress = .issued then .sent else .none
          timer := c.timer.filter fun x => x.phase == .cancelAnswer } ∧
        s.othersKept n t ∧
        t = { s with
          contexts := t.contexts
          intake := .beats n (k + 1)
          media := { s.media with path := if s.media.path.owner = some n then .free else s.media.path }
          tallies := { s.tallies with parity := if s.tallies.parity < 255 then s.tallies.parity + 1 else 255 }
          events := .follow (s.pendingWith .paritySeen) s.events.enables
          faults :=
            { count := if s.faults.count < 255 then s.faults.count + 1 else 255
              first := some (s.faults.first.getD
                { kind := .parityUp, device := s.contain.device,
                  ctx := some { number := n, mover := c.mover, tag := c.tag },
                  sector := c.capture.map fun cap => cap.sector, entry := none, test := none }) }
          out := Outputs.quiet }) ∧
    (c.length ≤ k + 1 → c.completionSent = false →
      ∃ t, exec (.storeBeat b) s = .next t ∧
        t.ctx? n = (if 0 < c.pieces ∨ c.fetchProgress = .issued then some { c with
            state := .cancel, code := .parity, cancel := .sent, completionSent := true, tweak := .absent
            timer := c.timer.filter fun x => x.phase == .cancelAnswer }
          else none) ∧
        s.othersKept n t ∧ s.withdrawn c t ∧
        t = { s with
          contexts := t.contexts
          intake := .header
          returnPath := s.returnPath ++ [.completion c.mover c.tag .parity]
          tallies := { s.tallies with parity := if s.tallies.parity < 255 then s.tallies.parity + 1 else 255 }
          events := .follow (s.pendingWith .paritySeen) s.events.enables
          faults :=
            { count := if s.faults.count < 255 then s.faults.count + 1 else 255
              first := some (s.faults.first.getD
                { kind := .parityUp, device := s.contain.device,
                  ctx := some { number := n, mover := c.mover, tag := c.tag },
                  sector := c.capture.map fun cap => cap.sector, entry := none, test := none }) }
          engines := t.engines, media := t.media, cache := t.cache, expander := t.expander
          out := Outputs.quiet })

/-- R77, R91, R92, R100: in DROPPING a beat is counted off; the last one returns the intake to HEADER and hands the completion of
the store it belongs to, which is freed if it is in CANCEL with nothing left to answer. R86, R90: a beat of a store that drains in
STREAM is taken and dropped, whatever it holds; at the last one the store enters CANCEL, sends its CANCEL if it has outstanding
work and none was sent, hands its completion and is freed if nothing is left to answer. STORE_BEAT and BEAT_DROPPED agree on all of
this. -/
def Obligations.dropped_beats_are_counted_off : Prop :=
  ∀ i : Instr, (i = .beatDropped ∨ ∃ b, i = .storeBeat b) →
    (∀ (left : Nat) (owner : Option CtxNo) (s : State), s.intake = .dropping left owner → 2 ≤ left →
      exec i s = .next { s with intake := .dropping (left - 1) owner, out := Outputs.quiet }) ∧
    (∀ s : State, s.intake = .dropping 1 none →
      exec i s = .next { s with intake := .header, out := Outputs.quiet }) ∧
    (∀ (n : CtxNo) (c : Context) (s : State), s.intake = .dropping 1 (some n) → s.ctx? n = some c →
      c.completionSent = false → c.state = .cancel ∨ c.state = .stranded →
      ∃ t, exec i s = .next t ∧
        t.ctx? n = (if c.state = .cancel ∧ c.cancel ≠ .sent then none else some { c with completionSent := true }) ∧
        s.othersKept n t ∧
        t = { s with
          contexts := t.contexts
          intake := .header
          returnPath := s.returnPath ++ [.completion c.mover c.tag c.code]
          out := Outputs.quiet }) ∧
    (∀ (n : CtxNo) (k : Nat) (c : Context) (s : State), s.intake = .beats n k → s.ctx? n = some c →
      c.kind = .store → c.state = .stream → c.code ≠ .ok →
      (k + 1 < c.length → s.settled →
        exec i s = .next { s with intake := .beats n (k + 1), out := Outputs.quiet }) ∧
      (c.length ≤ k + 1 → c.completionSent = false → s.hold = none →
        ∃ t, exec i s = .next t ∧
          t.ctx? n = (if c.cancel = .sent ∨ (c.cancel = .none ∧ (0 < c.pieces ∨ c.fetchProgress = .issued)) then some { c with
              state := .cancel, cancel := .sent, completionSent := true, tweak := .absent
              timer := c.timer.filter fun x => x.phase == .cancelAnswer }
            else none) ∧
          s.othersKept n t ∧ s.withdrawn c t ∧
          t = { s with
            contexts := t.contexts
            intake := .header
            returnPath := s.returnPath ++ [.completion c.mover c.tag c.code]
            engines := t.engines, media := t.media, cache := t.cache, expander := t.expander
            out := Outputs.quiet }))

/-- R89, R98, R103: the item at the head of the return path delivers one beat with all 16 byte enables and good parity, or a
completion; a withheld run of n units delivers n beats of the pattern 0x3C. -/
def Obligations.return_path_delivers_head : Prop :=
  ∀ (rest : List ReturnItem) (s : State),
    (∀ m t u, s.returnPath = .data m t u :: rest →
      exec .returnPathDelivery s = .next { s with
        returnPath := rest
        out := { Outputs.quiet with delivered := some (Delivery.driven (.beat m t { data := u, parity := lanesParity u, enables := 0xFFFF })) } }) ∧
    (∀ n m t, s.returnPath = .withheld n m t :: rest → 1 ≤ n →
      exec .returnPathDelivery s = .next { s with
        returnPath := if n = 1 then rest else .withheld (n - 1) m t :: rest
        out := { Outputs.quiet with
          delivered := some (Delivery.driven (.beat m t
            { data := 0x3C3C3C3C3C3C3C3C3C3C3C3C3C3C3C3C, parity := 0xFFFF, enables := 0xFFFF })) } }) ∧
    (∀ m t code, s.returnPath = .completion m t code :: rest →
      exec .returnPathDelivery s = .next { s with
        returnPath := rest, out := { Outputs.quiet with delivered := some (Delivery.driven (.completion m t code)) } })

/-! ## The engines -/

/-- R8, R9, R12, R13: a sound engine's unit, enciphered under its context's data key with the kept tweak, passes the checker, and
the kept tweak advances by one doubling. A beat's unit goes to the empty store slot with the beat's enables or, while its store's
piece is open and accepted, is driven at once (R107); the store's last unit ends the piece, releases the pin and takes the store to
CLOSE (R83, R107, R122). The unit of a hold becomes its merged unit, and the RELEASE-STORE is issued if the HOLD-FETCH has had its
DONE (R139, R140). -/
def Obligations.sound_unit_passes_checker : Prop :=
  ∀ (j : OutboundJob) (c : Context) (p : KeyPair) (tw y : Block) (s : State),
    s.engines.outbound = some j → s.ctx? j.ctx = some c → s.engineReady c p tw →
    y = blockPermutation p.dataKey (j.data ^^^ tw) ^^^ tw →
    (j.merged = false → s.media.slot = none → s.media.path = .free → s.settled →
      ∃ t, exec (.outboundVerify 0) s = .next t ∧
        t.ctx? j.ctx = some { c with tweak := .kept (double tw) } ∧ s.othersKept j.ctx t ∧
        t = { s with
          contexts := t.contexts
          engines := { s.engines with outbound := none }
          media := { s.media with slot := some { ctx := j.ctx, index := j.index, data := y, enables := j.enables } }
          out := Outputs.quiet }) ∧
    (j.merged = false → s.media.path = .piece j.ctx true → j.index + 1 < c.length → s.settled →
      ∃ t, exec (.outboundVerify 0) s = .next t ∧
        t.ctx? j.ctx = some { c with tweak := .kept (double tw), passed := c.passed + 1 } ∧ s.othersKept j.ctx t ∧
        t = { s with
          contexts := t.contexts
          engines := { s.engines with outbound := none }
          out := { Outputs.quiet with
            media := [MediaDrive.driven (.unit j.ctx { data := y, parity := lanesParity y, enables := j.enables })] } }) ∧
    (j.merged = false → s.media.path = .piece j.ctx true → j.index + 1 = c.length → 0 < c.pieces →
      ∃ t, exec (.outboundVerify 0) s = .next t ∧
        t.ctx? j.ctx = some { c with tweak := .absent, passed := c.passed + 1, state := .close } ∧ s.othersKept j.ctx t ∧
        s.released c t ∧
        t = { s with
          contexts := t.contexts
          engines := { s.engines with outbound := none }
          media := { s.media with path := .free }
          cache := t.cache
          expander := t.expander
          out := { Outputs.quiet with
            media := [MediaDrive.driven (.unit j.ctx { data := y, parity := lanesParity y, enables := j.enables }),
              MediaDrive.driven (.endMark j.ctx)] } }) ∧
    (∀ h, j.merged = true → s.hold = some h → h.ctx = j.ctx →
      ∃ t, exec (.outboundVerify 0) s = .next t ∧
        t.ctx? j.ctx = some { c with
          tweak := .kept (double tw)
          timer := if h.fetchAnswered = true then some { phase := .accept, remaining := 128 } else c.timer } ∧
        s.othersKept j.ctx t ∧
        t = { s with
          contexts := t.contexts
          engines := { s.engines with outbound := none }
          hold := some { h with
            merged := some y, phase := if h.fetchAnswered = true then .release else h.phase }
          media := if h.fetchAnswered = true then
              { s.media with
                slot := some { ctx := j.ctx, index := h.index, data := y, enables := 0xFFFF }, path := .release j.ctx }
            else s.media
          out := { Outputs.quiet with
            media := if h.fetchAnswered = true then [MediaDrive.driven (.releaseStore j.ctx h.addr)] else [] } })

/-- R13, R162: whatever wrong result the engine gives (an exclusive-or of the right one, as the model has it: log entry 7), the
checker finds it: nothing goes to the media, ENGINE is logged with the context, and the device enters CONTAINED with every CIPHER
context withdrawn with code FAULT where it had none, the queue empty and the dwell at 50. -/
def Obligations.disturbed_unit_contains_device : Prop :=
  ∀ (j : OutboundJob) (c : Context) (p : KeyPair) (tw d : Block) (s : State),
    s.contextLaws → s.engines.outbound = some j → s.ctx? j.ctx = some c → s.engineReady c p tw → d ≠ 0 →
    ∃ t, exec (.outboundVerify d) s = .next t ∧
      t.contain = { s.contain with device := .contained, dwell := some 50 } ∧
      t.faults =
        { count := if s.faults.count < 255 then s.faults.count + 1 else 255
          first := some (s.faults.first.getD
            { kind := .engine, device := .service, ctx := some { number := c.number, mover := c.mover, tag := c.tag },
              sector := c.capture.map fun cap => cap.sector, entry := none, test := none }) } ∧
      (∀ b ∈ t.contexts, b.passage = .cipher → b.live = false ∧
        ∀ a ∈ s.contexts, a.number = b.number → a.live = true →
          b.state = .cancel ∧ b.code = if a.code = .ok then .fault else a.code) ∧
      t.contexts.filter (fun b => b.passage ≠ .cipher) = s.contexts.filter (fun b => b.passage ≠ .cipher) ∧
      s.returnPath <+: t.returnPath ∧
      t.expander.queue = [] ∧ (∀ x, t.expander.current = some x → x.void = true) ∧
      t.engines.outbound = none ∧ (∀ u, t.media.slot = some u → s.media.slot = some u) ∧
      t.out.media = [] ∧
      t.events = .follow (s.pendingWith .contained) s.events.enables ∧
      t.decoder = s.decoder ∧ t.ranges = s.ranges ∧ t.slots = s.slots ∧ t.time = s.time ∧ t.abort = s.abort ∧
      t.tallies = s.tallies ∧ t.link = s.link

/-- R10, R14, R82, R139: the inbound engine deciphers its unit under the context's data key and kept tweak. A fetch's unit is
handed upstream and the tweak advances, and the fetch's last one, after its DONE, is followed by the completion and frees it. A
hold's unit goes to the merge: each enabled byte is the mover's, every other the deciphered one. -/
def Obligations.inbound_unit_is_deciphered : Prop :=
  ∀ (n : CtxNo) (y : Block) (c : Context) (p : KeyPair) (tw : Block) (s : State),
    s.ctx? n = some c → s.engineReady c p tw →
    (s.engines.inbound = some { ctx := n, data := y, forHold := false } →
      ¬ (c.passed + 1 = c.length ∧ c.doneSeen = true) → s.settled →
      ∃ t, exec .inboundDecipher s = .next t ∧
        t.ctx? n = some { c with tweak := .kept (double tw), passed := c.passed + 1 } ∧ s.othersKept n t ∧
        t = { s with
          contexts := t.contexts
          engines := { s.engines with inbound := none }
          returnPath := s.returnPath ++ [.data c.mover c.tag (blockPermutationInv p.dataKey (y ^^^ tw) ^^^ tw)]
          marks := t.marks
          out := Outputs.quiet }) ∧
    (s.engines.inbound = some { ctx := n, data := y, forHold := false } →
      c.passed + 1 = c.length → c.doneSeen = true → c.completionSent = false →
      ∃ t, exec .inboundDecipher s = .next t ∧
        t.ctx? n = none ∧ s.othersKept n t ∧ s.released c t ∧
        t = { s with
          contexts := t.contexts
          engines := { s.engines with inbound := none }
          returnPath := s.returnPath ++
            [.data c.mover c.tag (blockPermutationInv p.dataKey (y ^^^ tw) ^^^ tw), .completion c.mover c.tag c.code]
          cache := t.cache
          expander := t.expander
          marks := t.marks
          out := Outputs.quiet }) ∧
    (∀ h : Hold, s.engines.inbound = some { ctx := n, data := y, forHold := true } → s.hold = some h →
      ∃ (t : State) (x : Block), exec .inboundDecipher s = .next t ∧
        (∀ i, i < 16 → byteAt x i = if h.enables.getLsbD i then byteAt h.bytes i
          else byteAt (blockPermutationInv p.dataKey (y ^^^ tw) ^^^ tw) i) ∧
        t = { s with
          engines := { outbound := some { ctx := h.ctx, index := h.index, data := x, enables := 0xFFFF, merged := true }, inbound := none }
          out := Outputs.quiet })

/-! ## The media port -/

/-- R105, R106, R107, R112: while the request path is free and no hold exists, the oldest ready context is granted it. Its FETCH,
its piece's STORE header or its CANCEL is issued with its number, and the answer timer starts from 128. -/
def Obligations.oldest_ready_context_is_granted : Prop :=
  ∀ (pre post : List Context) (c : Context) (s : State),
    s.contexts = pre ++ c :: post → (s.contexts.map fun d => d.number).Nodup →
    s.media.path = .free → s.hold = none → s.intake ≠ .clearing → (∀ d ∈ pre, s.readyRequest d = none) →
    (c.kind = .fetch → c.state = .stream → c.fetchProgress = .notIssued → c.cancel ≠ .sent →
      exec .fetchIssue s = .next { s with
        contexts := pre ++ { c with fetchProgress := .issued, timer := some { phase := .accept, remaining := 128 } } :: post
        out := { Outputs.quiet with media := [MediaDrive.driven (.fetch c.number c.addr c.length)] } }) ∧
    (∀ u, c.kind = .store → c.state = .stream → c.code = .ok → c.cancel ≠ .sent → s.media.slot = some u →
      u.ctx = c.number →
      exec .pieceIssue s = .next { s with
        contexts := pre ++ { c with pieces := c.pieces + 1, timer := some { phase := .accept, remaining := 128 } } :: post
        media := { s.media with path := .piece c.number false }
        out := { Outputs.quiet with media := [MediaDrive.driven (.store c.number (c.addr + BitVec.ofNat 28 u.index))] } }) ∧
    (c.cancel = .sent → c.cancelIssued = false → c.state ≠ .stranded →
      exec .cancelIssue s = .next { s with
        contexts := pre ++ { c with cancelIssued := true, timer := some { phase := .cancelAnswer, remaining := 128 } } :: post
        out := { Outputs.quiet with media := [MediaDrive.driven (.cancel c.number)] } })

/-- R104, R106, R107, R110, R138, R140: an ACCEPT moves a FETCH's or a HOLD-FETCH's timer on to the first unit; of a piece it
drives the waiting unit and, if that unit is the store's last, ends the piece, releases the store's pin and takes it to CLOSE; of
a RELEASE-STORE it drives the merged unit, and the DONE is timed. -/
def Obligations.accept_starts_the_flow : Prop :=
  ∀ (n : CtxNo) (c : Context) (s : State), s.portOpen n → s.ctx? n = some c → c.live = true →
    (∀ x, c.kind = .fetch → c.fetchProgress = .issued → c.timer = some x → x.phase = .accept →
      ∃ t, exec (.accept n .fetch) s = .next t ∧
        t.ctx? n = some { c with timer := some { phase := .unit, remaining := 128 } } ∧ s.othersKept n t ∧
        t = { s with contexts := t.contexts, out := Outputs.quiet }) ∧
    (∀ u, s.media.path = .piece n false → s.media.slot = some u → u.ctx = n → u.index + 1 < c.length → s.settled →
      ∃ t, exec (.accept n .store) s = .next t ∧
        t.ctx? n = some { c with timer := none, passed := c.passed + 1 } ∧ s.othersKept n t ∧
        t = { s with
          contexts := t.contexts
          media := { s.media with slot := none, path := .piece n true }
          out := { Outputs.quiet with
            media := [MediaDrive.driven (.unit n { data := u.data, parity := lanesParity u.data, enables := u.enables })] } }) ∧
    (∀ u, s.media.path = .piece n false → s.media.slot = some u → u.ctx = n → u.index + 1 = c.length →
      c.state = .stream → 0 < c.pieces →
      ∃ t, exec (.accept n .store) s = .next t ∧
        t.ctx? n = some { c with timer := none, passed := c.passed + 1, state := .close, tweak := .absent } ∧
        s.othersKept n t ∧ s.released c t ∧
        t = { s with
          contexts := t.contexts
          cache := t.cache
          expander := t.expander
          media := { s.media with slot := none, path := .free }
          out := { Outputs.quiet with
            media := [MediaDrive.driven (.unit n { data := u.data, parity := lanesParity u.data, enables := u.enables }),
              MediaDrive.driven (.endMark n)] } }) ∧
    (∀ h x, c.state = .hold → s.hold = some h → h.phase = .fetch → c.timer = some x → x.phase = .accept →
      ∃ t, exec (.accept n .holdFetch) s = .next t ∧
        t.ctx? n = some { c with timer := some { phase := .unit, remaining := 128 } } ∧ s.othersKept n t ∧
        t = { s with contexts := t.contexts, out := Outputs.quiet }) ∧
    (∀ u, c.state = .hold → s.media.path = .release n → s.media.slot = some u →
      ∃ t, exec (.accept n .releaseStore) s = .next t ∧
        t.ctx? n = some { c with passed := c.passed + 1, timer := some { phase := .done, remaining := 128 } } ∧
        s.othersKept n t ∧
        t = { s with
          contexts := t.contexts
          media := { s.media with slot := none, path := .free }
          out := { Outputs.quiet with
            media := [MediaDrive.driven (.unit n { data := u.data, parity := lanesParity u.data, enables := u.enables })] } })

/-- R94, R103, R105, R109, R117: an arrival from the media changes nothing while the controller clear is asserted; nor when it
names a number not in use or a context in CANCEL or STRANDED, the answer to an unanswered CANCEL apart; nor when it fits no
request of its live context (a unit or DONE before the FETCH's issue and an answer to a RELEASE-STORE before its issue are the
model's reading, log entry 13). While the return path is full, or a hold of another context exists, it is not taken (log entry 3;
for a number not in use, log entry 32). R115: one whose header fails parity is dropped too, but counts the parity tally, raises
PARITY-SEEN and logs PARITY-DOWN with no context; that it is taken while a hold exists, and waits while the return path is full, is
the model's reading (log entry 24). -/
def Obligations.stray_arrivals_are_dropped : Prop :=
  (∀ (i : Instr) (n : CtxNo) (s : State), answersContext i = some n →
    (s.intake = .clearing → exec i s = .next { s with out := Outputs.quiet }) ∧
    (s.portOpen n → (∀ c, s.ctx? n = some c → c.state = .cancel ∨ c.state = .stranded) →
      exec i s = .next { s with out := Outputs.quiet }) ∧
    (s.intake ≠ .clearing → (s.returnFull = true ∨ ∃ h, s.hold = some h ∧ h.ctx ≠ n) →
      exec i s = .next { s with out := { Outputs.quiet with taken := false } })) ∧
  (∀ (n : CtxNo) (e : Bool) (s : State),
    (s.intake = .clearing → exec (.cancelAnswer n e) s = .next { s with out := Outputs.quiet }) ∧
    (s.portOpen n → (∀ c, s.ctx? n = some c → c.cancel ≠ .sent ∨ c.state = .stranded) →
      exec (.cancelAnswer n e) s = .next { s with out := Outputs.quiet }) ∧
    (s.intake ≠ .clearing → (s.returnFull = true ∨ ∃ h, s.hold = some h ∧ h.ctx ≠ n) →
      exec (.cancelAnswer n e) s = .next { s with out := { Outputs.quiet with taken := false } })) ∧
  (∀ (n : CtxNo) (c : Context) (s : State), s.portOpen n → s.ctx? n = some c → c.live = true →
    (c.kind ≠ .fetch ∨ c.fetchProgress ≠ .issued →
      (∀ i ∈ [Instr.accept n .fetch, .fetchDone n, .mediaError n .fetch],
        exec i s = .next { s with out := Outputs.quiet }) ∧
      ∀ u, exec (.fetchUnit n u) s = .next { s with out := Outputs.quiet }) ∧
    ((∀ x, c.timer = some x → x.phase ≠ .accept) →
      ∀ i ∈ [Instr.accept n .fetch, .accept n .holdFetch], exec i s = .next { s with out := Outputs.quiet }) ∧
    (s.media.path ≠ .piece n false → exec (.accept n .store) s = .next { s with out := Outputs.quiet }) ∧
    (c.kind ≠ .store ∨ c.pieces = 0 ∨ c.cancel ≠ .none →
      ∀ i ∈ [Instr.pieceDone n, .mediaError n .store], exec i s = .next { s with out := Outputs.quiet }) ∧
    (c.state ≠ .hold →
      (∀ i ∈ [Instr.accept n .holdFetch, .accept n .releaseStore, .holdFetchDone n, .releaseStoreDone n,
          .mediaError n .holdFetch, .mediaError n .releaseStore],
        exec i s = .next { s with out := Outputs.quiet }) ∧
      ∀ u, exec (.holdFetchUnit n u) s = .next { s with out := Outputs.quiet }) ∧
    (∀ h, s.hold = some h →
      (h.phase ≠ .fetch → exec (.accept n .holdFetch) s = .next { s with out := Outputs.quiet } ∧
        ∀ u, exec (.holdFetchUnit n u) s = .next { s with out := Outputs.quiet }) ∧
      (h.fetchAnswered = true → ∀ i ∈ [Instr.holdFetchDone n, .mediaError n .holdFetch],
        exec i s = .next { s with out := Outputs.quiet }) ∧
      (h.phase ≠ .release → ∀ i ∈ [Instr.releaseStoreDone n, .mediaError n .releaseStore],
        exec i s = .next { s with out := Outputs.quiet })) ∧
    (s.media.path ≠ .release n → exec (.accept n .releaseStore) s = .next { s with out := Outputs.quiet })) ∧
  (∀ s : State,
    (s.intake = .clearing → exec .unroutableArrival s = .next { s with out := Outputs.quiet }) ∧
    (s.intake ≠ .clearing → s.returnFull = true →
      exec .unroutableArrival s = .next { s with out := { Outputs.quiet with taken := false } }) ∧
    (s.intake ≠ .clearing → s.returnFull = false →
      exec .unroutableArrival s = .next { s with
        tallies := { s.tallies with parity := if s.tallies.parity < 255 then s.tallies.parity + 1 else 255 }
        events := .follow (s.pendingWith .paritySeen) s.events.enables
        faults :=
          { count := if s.faults.count < 255 then s.faults.count + 1 else 255
            first := some (s.faults.first.getD
              { kind := .parityDown, device := s.contain.device, ctx := none, sector := none, entry := none, test := none }) }
        out := Outputs.quiet }))

/-- R106, R110, R114: a unit of a FETCH at the index expected with good parity is taken: the expectation rises and the timer moves
to the next unit or to the DONE. A RAW or CLEAR unit joins the return path unchanged, a CIPHER unit enters the inbound engine. Any
CIPHER unit that the inbound engine cannot be given yet waits on the segment, and its context's timer, in whatever phase, counts no
tick meanwhile (that the catch-up is waited for like a busy engine is log entry 15's reading; how ticks are judged is log entry
25's). R82: a
unit past the length is dropped, and then none waits any more. -/
def Obligations.expected_unit_is_taken : Prop :=
  (∀ (n : CtxNo) (u : ReturnedUnit) (c : Context) (s : State),
    s.portOpen n → s.ctx? n = some c → c.live = true → c.kind = .fetch → c.fetchProgress = .issued →
    u.index.val = c.expected → c.expected < c.length → u.parity = lanesParity u.data →
    (c.passage ≠ .cipher → ¬ (c.passed + 1 = c.length ∧ c.doneSeen = true) →
      ∃ t, exec (.fetchUnit n u) s = .next t ∧
        t.ctx? n = some { c with
          expected := c.expected + 1, passed := c.passed + 1
          timer := some { phase := if c.expected + 1 < c.length then .unit else .done, remaining := 128 } } ∧
        s.othersKept n t ∧
        t = { s with
          contexts := t.contexts
          returnPath := s.returnPath ++ [.data c.mover c.tag u.data]
          marks := t.marks
          out := Outputs.quiet }) ∧
    (c.passage = .cipher → (∃ x, c.tweak = .kept x) → s.engines.inbound = none →
      ∃ t, exec (.fetchUnit n u) s = .next t ∧
        t.ctx? n = some { c with
          expected := c.expected + 1
          timer := some { phase := if c.expected + 1 < c.length then .unit else .done, remaining := 128 } } ∧
        s.othersKept n t ∧
        t = { s with
          contexts := t.contexts
          engines := { s.engines with inbound := some { ctx := n, data := u.data, forHold := false } }
          marks := t.marks
          out := Outputs.quiet })) ∧
  (∀ (n : CtxNo) (u : ReturnedUnit) (c : Context) (s : State),
    s.portOpen n → s.ctx? n = some c → c.live = true → c.kind = .fetch → c.fetchProgress = .issued →
    c.passage = .cipher → (s.engines.inbound ≠ none ∨ ∀ x, c.tweak ≠ .kept x) →
    ∃ t, exec (.fetchUnit n u) s = .next t ∧
      t.ctx? n = some { c with timer := c.timer.map fun x => { x with unitWaits := true } } ∧ s.othersKept n t ∧
      t = { s with contexts := t.contexts, out := { Outputs.quiet with taken := false } } ∧
      ∀ d x, t.ctx? n = some d → d.timer = some x → t.countsTick d = false) ∧
  (∀ (n : CtxNo) (u : ReturnedUnit) (c : Context) (s : State),
    s.portOpen n → s.ctx? n = some c → c.live = true → c.kind = .fetch → c.fetchProgress = .issued → c.length ≤ c.expected →
    (c.passage ≠ .cipher ∨ ((∃ x, c.tweak = .kept x) ∧ s.engines.inbound = none)) →
    ∃ t, exec (.fetchUnit n u) s = .next t ∧
      t.ctx? n = some { c with timer := c.timer.map fun x => { x with unitWaits := false } } ∧ s.othersKept n t ∧
      t = { s with contexts := t.contexts, out := Outputs.quiet })

/-- R89, R90, R91, R106, R114: a unit of a FETCH with bad parity or out of its place gives code PARITY and takes the fetch to
CANCEL with its CANCEL made ready: every unit not yet handed is handed as one withheld run, then the completion; the parity tally,
PARITY-SEEN and a PARITY-DOWN record with the context follow. -/
def Obligations.bad_unit_withholds_the_rest : Prop :=
  ∀ (n : CtxNo) (u : ReturnedUnit) (c : Context) (s : State),
    s.portOpen n → s.ctx? n = some c → c.live = true → c.kind = .fetch → c.fetchProgress = .issued →
    c.expected < c.length → c.passed < c.length → (u.index.val ≠ c.expected ∨ u.parity ≠ lanesParity u.data) →
    (c.passage ≠ .cipher ∨ ((∃ x, c.tweak = .kept x) ∧ s.engines.inbound = none)) →
    c.cancel = .none → c.completionSent = false → c.code = .ok →
    ∃ t, exec (.fetchUnit n u) s = .next t ∧
      t.ctx? n = some { c with
        state := .cancel, code := .parity, cancel := .sent, completionSent := true, tweak := .absent
        timer := c.timer.filter fun x => x.phase == .cancelAnswer } ∧
      s.othersKept n t ∧ s.withdrawn c t ∧
      t = { s with
        contexts := t.contexts
        returnPath := s.returnPath ++ [.withheld (c.length - c.passed) c.mover c.tag, .completion c.mover c.tag .parity]
        tallies := { s.tallies with parity := if s.tallies.parity < 255 then s.tallies.parity + 1 else 255 }
        events := .follow (s.pendingWith .paritySeen) s.events.enables
        faults :=
          { count := if s.faults.count < 255 then s.faults.count + 1 else 255
            first := some (s.faults.first.getD
              { kind := .parityDown, device := s.contain.device,
                ctx := some { number := n, mover := c.mover, tag := c.tag },
                sector := c.capture.map fun cap => cap.sector, entry := none, test := none }) }
        engines := t.engines, media := t.media, hold := t.hold, cache := t.cache, expander := t.expander
        out := Outputs.quiet }

/-- R138, R140: the HOLD-FETCH's unit of index 0 with good parity takes the hold to MERGE and the unit to the inbound engine; its
DONE sets fetch answered and, once the merged unit is there, issues the RELEASE-STORE with the merged unit in the store slot.
R114, R141: a unit with another index or bad parity fails the hold: the store enters CANCEL with PARITY and its CANCEL made ready,
the parity tally, PARITY-SEEN and a PARITY-DOWN record follow, and the beats left are dropped or, with none left, the completion
is handed (R91). R106: a unit that meets a busy inbound engine waits on the segment, and the hold's timer counts no tick meanwhile
(how ticks are judged is log entry 25's reading). -/
def Obligations.hold_fetch_is_answered : Prop :=
  ∀ (n : CtxNo) (c : Context) (h : Hold) (s : State),
    s.portOpen n → s.ctx? n = some c → c.state = .hold → s.hold = some h → h.ctx = n →
    (∀ u : ReturnedUnit, h.phase = .fetch → s.engines.inbound = none → u.index = 0 → u.parity = lanesParity u.data →
      ∃ t, exec (.holdFetchUnit n u) s = .next t ∧
        t.ctx? n = some { c with timer := some { phase := .done, remaining := 128 } } ∧ s.othersKept n t ∧
        t = { s with
          contexts := t.contexts
          hold := some { h with phase := .merge }
          engines := { s.engines with inbound := some { ctx := n, data := u.data, forHold := true } }
          marks := t.marks
          out := Outputs.quiet }) ∧
    (∀ (u : ReturnedUnit) (left : Nat), h.phase = .fetch → h.fetchAnswered = false → s.engines.inbound = none →
      u.index ≠ 0 ∨ u.parity ≠ lanesParity u.data → left = s.beatsLeft c →
      c.kind = .store → c.cancel = .none → c.code = .ok → c.completionSent = false →
      ∃ t, exec (.holdFetchUnit n u) s = .next t ∧
        t.ctx? n = some { c with
          state := .cancel, code := .parity, cancel := .sent, tweak := .absent, completionSent := decide (left = 0)
          timer := c.timer.filter fun x => x.phase == .cancelAnswer } ∧
        s.othersKept n t ∧ s.withdrawn c t ∧
        t = { s with
          contexts := t.contexts
          intake := if left = 0 then s.intake else .dropping left (some n)
          returnPath := s.returnPath ++ (if left = 0 then [.completion c.mover c.tag .parity] else [])
          tallies := { s.tallies with parity := if s.tallies.parity < 255 then s.tallies.parity + 1 else 255 }
          events := .follow (s.pendingWith .paritySeen) s.events.enables
          faults :=
            { count := if s.faults.count < 255 then s.faults.count + 1 else 255
              first := some (s.faults.first.getD
                { kind := .parityDown, device := s.contain.device,
                  ctx := some { number := n, mover := c.mover, tag := c.tag },
                  sector := c.capture.map fun cap => cap.sector, entry := none, test := none }) }
          engines := t.engines, media := t.media, hold := none, cache := t.cache, expander := t.expander
          out := Outputs.quiet }) ∧
    (∀ u : ReturnedUnit, h.phase = .fetch → s.engines.inbound ≠ none →
      ∃ t, exec (.holdFetchUnit n u) s = .next t ∧
        t.ctx? n = some { c with timer := c.timer.map fun x => { x with unitWaits := true } } ∧ s.othersKept n t ∧
        t = { s with contexts := t.contexts, out := { Outputs.quiet with taken := false } } ∧
        (c.passage = .cipher → ∀ d x, t.ctx? n = some d → d.timer = some x → t.countsTick d = false)) ∧
    (h.phase ≠ .fetch → h.fetchAnswered = false → h.merged = none →
      ∃ t, exec (.holdFetchDone n) s = .next t ∧
        t.ctx? n = some { c with timer := none } ∧ s.othersKept n t ∧
        t = { s with contexts := t.contexts, hold := some { h with fetchAnswered := true }, out := Outputs.quiet }) ∧
    (∀ m, h.phase ≠ .fetch → h.fetchAnswered = false → h.merged = some m →
      ∃ t, exec (.holdFetchDone n) s = .next t ∧
        t.ctx? n = some { c with timer := some { phase := .accept, remaining := 128 } } ∧ s.othersKept n t ∧
        t = { s with
          contexts := t.contexts
          hold := some { h with fetchAnswered := true, phase := .release }
          media := { s.media with
            slot := some { ctx := n, index := h.index, data := m, enables := 0xFFFF }, path := .release n }
          out := { Outputs.quiet with media := [MediaDrive.driven (.releaseStore n h.addr)] } })

/-- R82, R85, R88, R91, R92: the DONE of a FETCH completes and frees a fetch that has handed its length; leaves DONE seen in one
whose last unit is still to be handed; and ends one short of units with MEDIA, its remainder withheld before the completion. The
DONE of a piece lowers pieces outstanding by one, and completes and frees a store in CLOSE when they reach 0; that it also lowers
them while the only unanswered piece is still open, and leaves that piece open, is the model's reading (log entry 12). -/
def Obligations.done_ends_request : Prop :=
  ∀ (n : CtxNo) (c : Context) (s : State), s.portOpen n → s.ctx? n = some c → c.live = true → c.completionSent = false →
    (c.kind = .fetch → c.fetchProgress = .issued → c.length ≤ c.expected → c.passed = c.length →
      ∃ t, exec (.fetchDone n) s = .next t ∧ t.ctx? n = none ∧ s.othersKept n t ∧ s.released c t ∧
        t = { s with
          contexts := t.contexts, cache := t.cache, expander := t.expander
          returnPath := s.returnPath ++ [.completion c.mover c.tag c.code]
          out := Outputs.quiet }) ∧
    (c.kind = .fetch → c.fetchProgress = .issued → c.length ≤ c.expected → c.passed ≠ c.length →
      ∃ t, exec (.fetchDone n) s = .next t ∧
        t.ctx? n = some { c with doneSeen := true, fetchProgress := .ended, timer := none } ∧ s.othersKept n t ∧
        t = { s with contexts := t.contexts, out := Outputs.quiet }) ∧
    (c.kind = .fetch → c.fetchProgress = .issued → c.expected < c.length → c.passed < c.length → c.pieces = 0 →
      s.hold = none → c.cancel = .none → c.code = .ok →
      ∃ t, exec (.fetchDone n) s = .next t ∧ t.ctx? n = none ∧ s.othersKept n t ∧ s.withdrawn c t ∧
        t = { s with
          contexts := t.contexts, cache := t.cache, expander := t.expander, engines := t.engines, media := t.media
          returnPath := s.returnPath ++ [.withheld (c.length - c.passed) c.mover c.tag, .completion c.mover c.tag .media]
          out := Outputs.quiet }) ∧
    (c.kind = .store → 0 < c.pieces → c.cancel = .none → ¬ (c.state = .close ∧ c.pieces = 1) →
      ∃ t, exec (.pieceDone n) s = .next t ∧
        t.ctx? n = some { c with pieces := c.pieces - 1 } ∧ s.othersKept n t ∧
        t = { s with contexts := t.contexts, out := Outputs.quiet }) ∧
    (c.kind = .store → c.pieces = 1 → c.cancel = .none → c.state = .close →
      ∃ t, exec (.pieceDone n) s = .next t ∧ t.ctx? n = none ∧ s.othersKept n t ∧
        t = { s with
          contexts := t.contexts
          returnPath := s.returnPath ++ [.completion c.mover c.tag c.code]
          out := Outputs.quiet })

/-- R84, R85, R140: the RELEASE-STORE's DONE ends the hold: to STREAM if beats remain; if the partial beat was the last, to CLOSE
with the pin released, where the store completes and is freed at once if no piece is outstanding. Before its ACCEPT (`d`) it is
taken as the ACCEPT and the DONE, and the merged unit is driven. That a
later revocation finds no context where the store has completed with OK, and the unit counted by a DONE before its ACCEPT, is the
model's reading of R145 (log entry 35). -/
def Obligations.release_done_ends_hold : Prop :=
  ∀ (n : CtxNo) (c : Context) (h : Hold) (d : Bool) (u : SlotUnit) (s : State),
    s.portOpen n → s.ctx? n = some c → c.state = .hold → s.hold = some h → h.ctx = n → h.phase = .release →
    (d = true ↔ s.media.path = .release n) → (d = true → s.media.slot = some u) →
    (h.index + 1 < c.length → s.settled →
      ∃ t, exec (.releaseStoreDone n) s = .next t ∧
        t.ctx? n = some { c with
          state := .stream, timer := none, passed := if d = true then c.passed + 1 else c.passed } ∧
        s.othersKept n t ∧
        t = { s with
          contexts := t.contexts
          hold := none
          media := if d = true then { s.media with slot := none, path := .free } else s.media
          out := { Outputs.quiet with
            media := if d = true then
              [MediaDrive.driven (.unit n { data := u.data, parity := lanesParity u.data, enables := u.enables })]
              else [] } }) ∧
    (h.index + 1 = c.length → c.completionSent = false →
      ∃ t, exec (.releaseStoreDone n) s = .next t ∧
        t.ctx? n = (if c.pieces = 0 then none else some { c with
          state := .close, timer := none, tweak := .absent, passed := if d = true then c.passed + 1 else c.passed }) ∧
        s.othersKept n t ∧ s.released c t ∧
        t = { s with
          contexts := t.contexts
          hold := none
          returnPath := s.returnPath ++ (if c.pieces = 0 then [.completion c.mover c.tag c.code] else [])
          cache := t.cache
          expander := t.expander
          media := if d = true then { s.media with slot := none, path := .free } else s.media
          out := { Outputs.quiet with
            media := if d = true then
              [MediaDrive.driven (.unit n { data := u.data, parity := lanesParity u.data, enables := u.enables })]
              else [] } })

/-- R86, R90, R91, R92, R108, R141: an ERROR ends the request it names with code MEDIA. A fetch is filled with withheld units,
completed and freed; a store in CLOSE completes, and cancels the pieces still outstanding; a store in STREAM loses its open piece
and drains, or enters CANCEL if it has no beat left to drain (the model's reading, log entry 14). In HOLD an ERROR of the
HOLD-FETCH, of the RELEASE-STORE or of an earlier piece, or a DONE of the HOLD-FETCH before any unit, ends the hold: the store
enters CANCEL, sends its CANCEL for what is still outstanding, and drops the beats left or hands its completion. -/
def Obligations.media_error_ends_request : Prop :=
  ∀ (n : CtxNo) (c : Context) (s : State),
    s.portOpen n → s.ctx? n = some c → c.live = true → c.cancel = .none → c.completionSent = false → c.code = .ok →
    (c.kind = .fetch → c.fetchProgress = .issued → c.pieces = 0 → s.hold = none →
      ∃ t, exec (.mediaError n .fetch) s = .next t ∧ t.ctx? n = none ∧ s.othersKept n t ∧ s.withdrawn c t ∧
        t = { s with
          contexts := t.contexts, cache := t.cache, expander := t.expander, engines := t.engines, media := t.media
          returnPath := s.returnPath ++
            ((if c.passed < c.length then [.withheld (c.length - c.passed) c.mover c.tag] else []) ++
              [.completion c.mover c.tag .media])
          out := Outputs.quiet }) ∧
    (c.kind = .store → c.state = .close → 0 < c.pieces → c.fetchProgress ≠ .issued → s.hold = none → s.beatsLeft c = 0 →
      ∃ t, exec (.mediaError n .store) s = .next t ∧
        t.ctx? n = (if c.pieces = 1 then none else some { c with
          pieces := c.pieces - 1, state := .cancel, code := .media, cancel := .sent, completionSent := true
          tweak := .absent, timer := c.timer.filter fun x => x.phase == .cancelAnswer }) ∧
        s.othersKept n t ∧ s.withdrawn c t ∧
        t = { s with
          contexts := t.contexts, cache := t.cache, expander := t.expander, engines := t.engines, media := t.media
          returnPath := s.returnPath ++ [.completion c.mover c.tag .media]
          out := Outputs.quiet }) ∧
    (c.kind = .store → c.state = .stream → 0 < c.pieces → 0 < s.beatsLeft c → s.settled →
      ∃ t, exec (.mediaError n .store) s = .next t ∧
        t.ctx? n = some { c with pieces := c.pieces - 1, code := .media, timer := none } ∧ s.othersKept n t ∧
        t = { s with
          contexts := t.contexts
          media := { s.media with
            slot := s.media.slot.filter fun u => u.ctx ≠ n
            path := if s.media.path.owner = some n then .free else s.media.path }
          engines := { s.engines with outbound := s.engines.outbound.filter fun j => j.ctx ≠ n }
          out := Outputs.quiet }) ∧
    (c.kind = .store → c.state = .stream → 0 < c.pieces → c.fetchProgress ≠ .issued → s.hold = none → s.beatsLeft c = 0 →
      ∃ t, exec (.mediaError n .store) s = .next t ∧
        t.ctx? n = (if c.pieces = 1 then none else some { c with
          pieces := c.pieces - 1, state := .cancel, code := .media, cancel := .sent, completionSent := true
          tweak := .absent, timer := none }) ∧
        s.othersKept n t ∧ s.withdrawn c t ∧
        t = { s with
          contexts := t.contexts, cache := t.cache, expander := t.expander, engines := t.engines, media := t.media
          returnPath := s.returnPath ++ [.completion c.mover c.tag .media]
          out := Outputs.quiet }) ∧
    (∀ (h : Hold) (i : Instr) (left pieces : Nat) (sent : Bool),
      c.kind = .store → c.state = .hold → s.hold = some h → h.ctx = n → c.fetchProgress ≠ .issued → left = s.beatsLeft c →
      ((i = .mediaError n .holdFetch ∧ h.fetchAnswered = false) ∨
        (i = .holdFetchDone n ∧ h.fetchAnswered = false ∧ h.phase = .fetch) ∨
        (i = .mediaError n .releaseStore ∧ h.phase = .release)) ∧ pieces = c.pieces ∧ sent = decide (0 < c.pieces) ∨
      (i = .mediaError n .store ∧ 0 < c.pieces) ∧ pieces = c.pieces - 1 ∧
        sent = (decide (1 < c.pieces) || h.phase == .release || !h.fetchAnswered) →
      ∃ t, exec i s = .next t ∧
        t.ctx? n = (if left = 0 ∧ sent = false then none else some { c with
          pieces := pieces, state := .cancel, code := .media, cancel := if sent = true then .sent else .none
          completionSent := decide (left = 0), tweak := .absent
          timer := c.timer.filter fun x => x.phase == .cancelAnswer }) ∧
        s.othersKept n t ∧ s.withdrawn c t ∧
        t = { s with
          contexts := t.contexts, cache := t.cache, expander := t.expander, engines := t.engines, media := t.media
          hold := none
          intake := if left = 0 then s.intake else .dropping left (some n)
          returnPath := s.returnPath ++ (if left = 0 then [.completion c.mover c.tag .media] else [])
          out := Outputs.quiet }) ∧
    exec (.mediaError n .cancel) s = exec (.cancelAnswer n true) s

/-- R92, R93, R112: the answer to a CANCEL, DONE or ERROR alike, frees a context whose completion is SENT and otherwise is noted;
that it is taken from the moment the cancel is SENT, issued or not, is the model's reading (log entry 13). The timer's last counted
tick before it strands the context, in CANCEL or draining in STREAM, with CANCEL-TIMEOUT logged and no tally or event, and drops
the beats left; that the row takes this tick ahead of the others of its moment is the model's choice (log entry 5), as is which
ticks count (log entry 25). -/
def Obligations.cancel_is_answered_or_stranded : Prop :=
  (∀ (n : CtxNo) (e : Bool) (c : Context) (s : State),
    s.portOpen n → s.ctx? n = some c → c.cancel = .sent → c.state ≠ .stranded →
    ∃ t, exec (.cancelAnswer n e) s = .next t ∧
      t.ctx? n = (if c.state = .cancel ∧ c.completionSent = true then none
        else some { c with cancel := .answered, timer := none }) ∧
      s.othersKept n t ∧
      t = { s with contexts := t.contexts, out := Outputs.quiet }) ∧
  (∀ (n : CtxNo) (c : Context) (x : AnswerTimer) (left : Nat) (s : State),
    s.ctx? n = some c → c.timer = some x → x.phase = .cancelAnswer → x.remaining ≤ 1 → s.countsTick c = true →
    c.state = .cancel ∨ c.draining = true → left = s.beatsLeft c →
    ∃ t, exec (.cancelTimeout n) s = .next t ∧
      t.ctx? n = some { c with state := .stranded, timer := none, tweak := .absent } ∧ s.othersKept n t ∧ s.withdrawn c t ∧
      t = { s with
        contexts := t.contexts
        intake := if left = 0 then s.intake else .dropping left (some n)
        faults :=
          { count := if s.faults.count < 255 then s.faults.count + 1 else 255
            first := some (s.faults.first.getD
              { kind := .cancelTimeout, device := s.contain.device,
                ctx := some { number := n, mover := c.mover, tag := c.tag },
                sector := c.capture.map fun cap => cap.sector, entry := none, test := none }) }
        marks := { s.marks with tickedAnswer := n :: s.marks.tickedAnswer }
        engines := t.engines, media := t.media, hold := t.hold, cache := t.cache, expander := t.expander
        out := Outputs.quiet }) ∧
  (∀ (n : CtxNo) (c : Context) (s : State), s.ctx? n = some c →
    (c.timer = none ∨ s.countsTick c = false ∨ ∀ x, c.timer = some x → 2 ≤ x.remaining) →
    exec (.cancelTimeout n) s = .next { s with out := { Outputs.quiet with taken := false } })

/-! ## Timers -/

/-- R89, R91, R110, R111, R142: the 128th counted tick of an answer timer outside the cancel phase takes its context to CANCEL with
code TIMEOUT and its CANCEL made ready, counts the timeout tally and raises TIMEOUT-SEEN. A fetch's remainder is withheld before
its completion. A store in STREAM that awaits its piece's ACCEPT, or in HOLD, drops its beats left or, with none left, hands its
completion; in HOLD it loses the hold and has MEDIA-TIMEOUT logged. Before that tick, or at one that is not counted, nothing
happens. That the row takes the tick ahead of the others of its moment is the model's choice (log entry 5), as is which ticks count
(log entry 25). -/
def Obligations.answer_timer_expires : Prop :=
  (∀ (n : CtxNo) (c : Context) (x : AnswerTimer) (s : State),
    s.ctx? n = some c → c.timer = some x → x.phase ≠ .cancelAnswer → x.remaining ≤ 1 → s.countsTick c = true →
    c.cancel = .none → c.completionSent = false → c.code = .ok →
    (c.kind = .fetch → c.state = .stream →
      ∃ t, exec (.answerTimerExpiry n) s = .next t ∧
        t.ctx? n = some { c with
          state := .cancel, code := .timeout, cancel := .sent, completionSent := true, timer := none, tweak := .absent } ∧
        s.othersKept n t ∧ s.withdrawn c t ∧
        t = { s with
          contexts := t.contexts
          returnPath := s.returnPath ++
            ((if c.passed < c.length then [.withheld (c.length - c.passed) c.mover c.tag] else []) ++
              [.completion c.mover c.tag .timeout])
          tallies := { s.tallies with timeout := if s.tallies.timeout < 255 then s.tallies.timeout + 1 else 255 }
          events := .follow (s.pendingWith .timeoutSeen) s.events.enables
          marks := { s.marks with tickedAnswer := n :: s.marks.tickedAnswer }
          engines := t.engines, media := t.media, hold := t.hold, cache := t.cache, expander := t.expander
          out := Outputs.quiet }) ∧
    (∀ left, c.kind = .store → c.state = .stream ∨ c.state = .hold → left = s.beatsLeft c →
      ∃ t, exec (.answerTimerExpiry n) s = .next t ∧
        t.ctx? n = some { c with
          state := .cancel, code := .timeout, cancel := .sent, timer := none, tweak := .absent
          completionSent := decide (left = 0) } ∧
        s.othersKept n t ∧ s.withdrawn c t ∧
        t = { s with
          contexts := t.contexts
          intake := if left = 0 then s.intake else .dropping left (some n)
          returnPath := s.returnPath ++ (if left = 0 then [.completion c.mover c.tag .timeout] else [])
          tallies := { s.tallies with timeout := if s.tallies.timeout < 255 then s.tallies.timeout + 1 else 255 }
          events := .follow (s.pendingWith .timeoutSeen) s.events.enables
          faults := if c.state = .hold then
              { count := if s.faults.count < 255 then s.faults.count + 1 else 255
                first := some (s.faults.first.getD
                  { kind := .mediaTimeout, device := s.contain.device,
                    ctx := some { number := n, mover := c.mover, tag := c.tag },
                    sector := c.capture.map fun cap => cap.sector, entry := none, test := none }) }
            else s.faults
          marks := { s.marks with tickedAnswer := n :: s.marks.tickedAnswer }
          engines := t.engines, media := t.media, hold := t.hold, cache := t.cache, expander := t.expander
          out := Outputs.quiet })) ∧
  (∀ (n : CtxNo) (c : Context) (s : State), s.ctx? n = some c →
    (c.timer = none ∨ s.countsTick c = false ∨ ∀ x, c.timer = some x → 2 ≤ x.remaining) →
    exec (.answerTimerExpiry n) s = .next { s with out := { Outputs.quiet with taken := false } })

/-- R48, R146, R149, R151: the last coarse tick of an open range's idle timer locks the range with a fresh check word, puts its
index into the idle-locked set and raises RANGE-LOCKED; no context, fault or tally is reached. With ticks left, or at a moment that
is no coarse tick, nothing happens (R147, R150). That the row takes the tick ahead of the others of its moment, once, is the
model's choice (log entry 5). That the tick may be the last of a timer of interval 1 just restarted is its reading (log entry 33).
-/
def Obligations.idle_expiry_locks_range : Prop :=
  ∀ (i : RangeNo) (n : Nat) (s : State), s.ranges[i].isOpen = true → s.ranges[i].idleInterval ≠ 0 →
    s.ranges[i].idleRemaining = some n →
    (n ≤ 1 → s.time.coarsePhase ≤ 1 → s.marks.tickedIdle.getLsbD i.val = false →
      ∃ t, exec (.idleExpiry i) s = .next t ∧
        t.rangeIs i { s.ranges[i] with state := .locked, idleRemaining := none } ∧
        (∀ j : RangeNo, j ≠ i → t.ranges[j] = s.ranges[j]) ∧
        (∀ j, j < 16 → t.time.idleLocked.getLsbD j = (s.time.idleLocked.getLsbD j || decide (j = i.val))) ∧
        (∀ j, j < 16 → t.marks.tickedIdle.getLsbD j = (s.marks.tickedIdle.getLsbD j || decide (j = i.val))) ∧
        t = { s with
          ranges := t.ranges
          time := { s.time with idleLocked := t.time.idleLocked }
          marks := { s.marks with tickedIdle := t.marks.tickedIdle }
          events := .follow (s.pendingWith .rangeLocked) s.events.enables
          out := Outputs.quiet }) ∧
    (2 ≤ n ∨ 2 ≤ s.time.coarsePhase ∨ s.marks.tickedIdle.getLsbD i.val = true →
      exec (.idleExpiry i) s = .next { s with out := { Outputs.quiet with taken := false } })

/-- R45, R153, R154, R155: ARM-PRESENCE arms an IDLE or LAPSED timer with its interval clamped into 10..6,000, which the answer
reports, and is refused ARMED otherwise; RENEW restarts an ARMED timer and is refused NOT-ARMED otherwise. At its last coarse tick
the timer is LAPSED, every open range whose lock on absence is yes is locked and ABSENCE raised; with ticks left nothing happens
(R146, R156). That the row takes the tick ahead of the others of its moment, once, is the model's choice (log entry 5). -/
def Obligations.presence_timer_runs_its_course : Prop :=
  (∀ (n : BitVec 16) (s : State), s.link = .empty → s.contain.device ≠ .selfTest →
    (∀ a b, s.time.presence = .armed a b → exec (.armPresence n) s = .next (s.answered 6 (.refused .armed))) ∧
    (∀ m, (∀ a b, s.time.presence ≠ .armed a b) →
      m = (if n.toNat < 10 then 10 else if 6000 < n.toNat then 6000 else n.toNat) →
      exec (.armPresence n) s = .next (State.answered 6 (.done [BitVec.ofNat 8 m, BitVec.ofNat 8 (m / 256)])
        { s with time := { s.time with presence := .armed m m } }))) ∧
  (∀ s : State, s.link = .empty → s.contain.device ≠ .selfTest →
    (∀ a b, s.time.presence = .armed a b →
      exec .renew s = .next (State.answered 4 (.done []) { s with time := { s.time with presence := .armed a a } })) ∧
    ((∀ a b, s.time.presence ≠ .armed a b) → exec .renew s = .next (s.answered 4 (.refused .notArmed)))) ∧
  (∀ (n m : Nat) (s : State), s.time.presence = .armed n m →
    2 ≤ m ∨ 2 ≤ s.time.coarsePhase ∨ s.marks.tickedPresence = true →
    exec .presenceLapse s = .next { s with out := { Outputs.quiet with taken := false } }) ∧
  (∀ (n m : Nat) (s : State), s.time.presence = .armed n m → m ≤ 1 → s.time.coarsePhase ≤ 1 →
    s.marks.tickedPresence = false →
    ∃ t, exec .presenceLapse s = .next t ∧
      (∀ i : RangeNo, t.ranges[i] =
        if s.ranges[i].lockOnAbsence = true ∧ s.ranges[i].isOpen = true then
          Range.sealed i { s.ranges[i] with state := .locked, idleRemaining := none }
        else s.ranges[i]) ∧
      t = { s with
        ranges := t.ranges
        time := { s.time with presence := .lapsed }
        marks := { s.marks with tickedPresence := true }
        events := .follow (s.pendingWith .absence) s.events.enables
        out := Outputs.quiet })

/-! ## Expander and key table -/

/-- R124, R125: the idle expander takes the oldest eligible request from its place in the queue, invalidates the victim way of its
set and reads the slot's keys; the recency mark stays. That EXPANSION_START finds such a request only in a state the part's own
actions do not reach is the model's reading (log entry 17), and that the slot's generation is not asked for is its choice (log
entry 30); a busy expander takes none. R127: at its completion an expansion that is not void, with its slot LOADED at its
generation, fills its way with one pin for each attached context and lets them into STREAM; any other is discarded; the expander
then takes the oldest eligible request in the same action. -/
def Obligations.expansion_runs_its_course : Prop :=
  (∀ (pre post : List Request) (r : Request) (keys : KeyPair) (w : Way) (s : State),
    s.expander = { queue := pre ++ r :: post, current := none } →
    (∀ q ∈ pre, s.fullyPinned (setOf q.slot q.generation)) → s.victimWay (setOf r.slot r.generation) w →
    s.slots[r.slot].body = .loaded keys →
    ∃ t, exec .expansionStart s = .next t ∧ s.expansionStarted r w keys (pre ++ post) t ∧
      t = { s with cache := t.cache, expander := t.expander, out := Outputs.quiet }) ∧
  (∀ s : State, s.expander.current ≠ none →
    exec .expansionStart s = .next { s with out := { Outputs.quiet with taken := false } }) ∧
  (∀ (x : Expansion) (s : State), s.expander.current = some x → x.void = false →
    s.slots[x.slot].isLoaded = true → s.slots[x.slot].generation = x.generation →
    ∃ t u : State, exec .expansionCompletion s = .next t ∧
      u.way x.set x.way = some
        { slot := x.slot, generation := x.generation, schedule := x.keys.schedule, pins := x.attached.length,
          flush := false } ∧
      (∀ v, v ≠ x.way → u.way x.set v = s.way x.set v) ∧ u.cache[x.set].recent = x.way ∧
      (∀ j : Fin 4, j ≠ x.set → u.cache[j] = s.cache[j]) ∧
      u = { s with
        cache := u.cache
        contexts := s.contexts.map fun c =>
          if c.number ∈ x.attached ∧ c.state = .waitKey then { c with state := .stream } else c
        expander := { s.expander with current := none }
        intake := match s.intake with
          | .waiting n => if n ∈ x.attached then .beats n 0 else .waiting n
          | k => k
        out := Outputs.quiet } ∧
      u.took t ∧ t = { u with cache := t.cache, expander := t.expander }) ∧
  (∀ (x : Expansion) (s : State), s.expander.current = some x →
    (x.void = true ∨ s.slots[x.slot].isLoaded = false ∨ s.slots[x.slot].generation ≠ x.generation) →
    ∃ t u : State, exec .expansionCompletion s = .next t ∧
      u = { s with expander := { s.expander with current := none }, out := Outputs.quiet } ∧
      u.took t ∧ t = { u with cache := t.cache, expander := t.expander })

/-- R63: at the erasure's completion the slot becomes EMPTY for cause COMMAND and FAULTED for cause CHECK, keys and cause absent,
the generation kept; its schedule entries are invalidated whatever their generation; SCRUBBED is raised for cause COMMAND. In any
other state the row is untaken. That a slot is under erasure exactly while it is in SCRUBBING, also where a disturbance has made
it so or taken it out, is the model's choice (log entry 34). R124: a request that the invalidation makes eligible is taken in the
same action, which a pinned entry of such a slot alone can bring about. -/
def Obligations.erasure_empties_slot : Prop :=
  (∀ (k : SlotNo) (s : State), (∀ keys cause, s.slots[k].body ≠ .scrubbing keys cause) →
    exec (.erasureCompletion k) s = .next { s with out := { Outputs.quiet with taken := false } }) ∧
  (∀ (k : SlotNo) (keys : KeyPair) (cause : ScrubCause) (s : State), s.slots[k].body = .scrubbing keys cause →
    ∃ t u : State, exec (.erasureCompletion k) s = .next t ∧
      u.slotIs k { s.slots[k] with body := match cause with | .command => .empty | .check => .faulted } ∧
      (∀ j : SlotNo, j ≠ k → u.slots[j] = s.slots[j]) ∧
      (∀ i w, u.way i w = (s.way i w).filter fun e => e.slot ≠ k) ∧
      (∀ i : Fin 4, u.cache[i].recent = s.cache[i].recent) ∧
      u.took t ∧ t = { u with cache := t.cache, expander := t.expander } ∧
      u = { s with
        slots := u.slots
        cache := u.cache
        events := match cause with
          | .command => .follow (s.pendingWith .scrubbed) s.events.enables
          | .check => s.events
        out := Outputs.quiet })

/-- R11, R54, R57: LOAD-KEY is refused STATE in CONTAINED, BAD-INDEX above 31, OCCUPIED for a slot that is not EMPTY, KEYS-EQUAL
for two equal keys, in that order; that OCCUPIED also answers a stored state that is none of the four is the model's choice (log
entry 10). Otherwise the slot is LOADED with both keys and its generation advanced, 0 and 255 to 1, which the answer reports. -/
def Obligations.load_key_fills_slot : Prop :=
  ∀ (b : Byte) (dataKey tweakKey : Key) (s : State), s.link = .empty →
    (s.contain.device = .contained →
      exec (.loadKey b dataKey tweakKey) s = .next (s.answered 69 (.refused .state))) ∧
    (s.contain.device = .config ∨ s.contain.device = .service → 32 ≤ b.toNat →
      exec (.loadKey b dataKey tweakKey) s = .next (s.answered 69 (.refused .badIndex))) ∧
    (∀ k : SlotNo, s.contain.device = .config ∨ s.contain.device = .service → b.toNat = k.val →
      (s.slots[k].body ≠ .empty →
        exec (.loadKey b dataKey tweakKey) s = .next (s.answered 69 (.refused .occupied))) ∧
      (s.slots[k].body = .empty → dataKey = tweakKey →
        exec (.loadKey b dataKey tweakKey) s = .next (s.answered 69 (.refused .keysEqual))) ∧
      (∀ g : Generation, g = (if s.slots[k].generation = 255 then 1 else s.slots[k].generation + 1) →
        s.slots[k].body = .empty → dataKey ≠ tweakKey →
        ∃ t, exec (.loadKey b dataKey tweakKey) s = .next (State.answered 69 (.done [g]) t) ∧
          t.slotIs k { s.slots[k] with
            body := .loaded { dataKey := dataKey, tweakKey := tweakKey }, generation := g } ∧
          (∀ j : SlotNo, j ≠ k → t.slots[j] = s.slots[j]) ∧ t = { s with slots := t.slots }))

/-- R59, R60, R61, R128: SCRUB-KEY answers BAD-INDEX above 31, ACCEPTED for a LOADED slot, whose scrub it starts, and for a
SCRUBBING one, DONE for an EMPTY one and for a FAULTED one, which becomes EMPTY. R129: FLUSH-SCHEDULES invalidates the unpinned
entries, marks the pinned ones and leaves the recency marks, the queue and the expansion. -/
def Obligations.scrub_withdraws_key_and_flush_schedules : Prop :=
  (∀ (b : Byte) (s : State), s.link = .empty → s.contain.device ≠ .selfTest →
    (32 ≤ b.toNat → exec (.scrubKey b) s = .next (s.answered 5 (.refused .badIndex))) ∧
    (∀ k : SlotNo, b.toNat = k.val →
      (∀ keys, s.slots[k].body = .loaded keys → s.contextLaws →
        ∃ t, exec (.scrubKey b) s = .next (State.answered 5 .accepted t) ∧ s.scrubbed k keys .command t ∧
          t.contain = s.contain ∧ t.faults = s.faults ∧ t.decoder = s.decoder ∧ t.abort = s.abort ∧ t.time = s.time ∧
          t.events = s.events ∧ t.tallies = s.tallies ∧ t.pending = s.pending) ∧
      (∀ keys cause, s.slots[k].body = .scrubbing keys cause →
        exec (.scrubKey b) s = .next (s.answered 5 .accepted)) ∧
      (s.slots[k].body = .empty → exec (.scrubKey b) s = .next (s.answered 5 (.done []))) ∧
      (s.slots[k].body = .faulted →
        ∃ t, exec (.scrubKey b) s = .next (State.answered 5 (.done []) t) ∧
          t.slotIs k { s.slots[k] with body := .empty } ∧ (∀ j : SlotNo, j ≠ k → t.slots[j] = s.slots[j]) ∧
          t = { s with slots := t.slots }))) ∧
  (∀ s : State, s.link = .empty → s.contain.device ≠ .selfTest →
    ∃ t, exec .flushSchedules s = .next (State.answered 4 (.done []) t) ∧
      (∀ i w, t.way i w = (s.way i w).bind fun e => if e.pins = 0 then none else some { e with flush := true }) ∧
      (∀ i : Fin 4, t.cache[i].recent = s.cache[i].recent) ∧ t = { s with cache := t.cache })

/-! ## The table monitor -/

/-- R167, R168: a visit that finds every record equal to its check word only moves the cursor, from 55 back to 0; in SELF-TEST
there is no visit, and at a tick there is one: a row that makes it ahead of the rest of the tick makes no second (the model's
choice, log entry 5). R32, R46, R162, R163: a mismatch raises TABLE-FAULT and logs TABLE-CHECK with table and index. A window
becomes FAULTED, and if the table is frozen the device enters CONTAINED or restarts its dwell; a range becomes FAULTED, its timer
stopped. -/
def Obligations.monitor_visits_windows_and_ranges : Prop :=
  (∀ s : State, s.contain.device = .selfTest ∨ s.marks.visited = true →
    exec .tableMonitorVisit s = .next { s with out := { Outputs.quiet with taken := false } }) ∧
  (∀ s : State, s.contain.device ≠ .selfTest → s.marks.visited = false → s.undisturbed → s.settled →
    exec .tableMonitorVisit s = .next { s with
      contain := { s.contain with cursor := s.contain.cursor + 1 }, marks := { s.marks with visited := true },
      out := Outputs.quiet }) ∧
  (∀ (i : WindowNo) (s : State), s.contain.device ≠ .selfTest → s.marks.visited = false → s.contain.cursor.val = i.val →
    s.decoder.windows[i].check ≠ Config.windowCheck (s.decoder.windows[i].fields i) → s.settled → s.contextLaws →
    ∃ t, exec .tableMonitorVisit s = .next t ∧
      t.windowIs i { s.decoder.windows[i] with treatment := .faulted } ∧
      (∀ j : WindowNo, j ≠ i → t.decoder.windows[j] = s.decoder.windows[j]) ∧
      t.decoder.frozen = s.decoder.frozen ∧ t.decoder.limit = s.decoder.limit ∧
      t.contain =
        (if s.decoder.frozen = true then { device := .contained, dwell := some 50, cursor := s.contain.cursor + 1 }
        else { s.contain with cursor := s.contain.cursor + 1 }) ∧
      t.faults =
        { count := if s.faults.count < 255 then s.faults.count + 1 else 255
          first := some (s.faults.first.getD
            { kind := .tableCheck, device := s.contain.device, ctx := none, sector := none,
              entry := some { table := .window, index := i.val }, test := none }) } ∧
      t.events = .follow
        (if s.decoder.frozen = true then s.pendingWith .tableFault ||| Event.contained.bit else s.pendingWith .tableFault)
        s.events.enables ∧
      (s.decoder.frozen = true → s.contain.device ≠ .contained →
        ∀ c ∈ t.contexts, c.passage = .cipher → c.live = false) ∧
      (s.decoder.frozen = false ∨ s.contain.device = .contained →
        t = { s with
          decoder := t.decoder, contain := t.contain, faults := t.faults, events := t.events, marks := { s.marks with visited := true }
          out := t.out })) ∧
  (∀ (i : RangeNo) (s : State), s.contain.device ≠ .selfTest → s.marks.visited = false → s.contain.cursor.val = 8 + i.val →
    s.ranges[i].check ≠ Config.rangeCheck (s.ranges[i].fields i) → s.settled →
    ∃ t, exec .tableMonitorVisit s = .next t ∧
      t.rangeIs i { s.ranges[i] with state := .faulted, idleRemaining := none } ∧
      (∀ j : RangeNo, j ≠ i → t.ranges[j] = s.ranges[j]) ∧
      t = { s with
        ranges := t.ranges
        contain := { s.contain with cursor := s.contain.cursor + 1 }
        faults :=
          { count := if s.faults.count < 255 then s.faults.count + 1 else 255
            first := some (s.faults.first.getD
              { kind := .tableCheck, device := s.contain.device, ctx := none, sector := none,
                entry := some { table := .range, index := i.val }, test := none }) }
        events := .follow (s.pendingWith .tableFault) s.events.enables
        marks := { s.marks with visited := true }
        out := Outputs.quiet })

/-- R62, R64, R65, R168: a visit to a slot in SCRUBBING passes by. A mismatch on a LOADED slot scrubs it with cause CHECK, its
holders withdrawn with FAULT; on an EMPTY or FAULTED slot the slot is FAULTED. Either raises TABLE-FAULT and logs TABLE-CHECK; the
device state stands. -/
def Obligations.monitor_visits_slots : Prop :=
  ∀ (k : SlotNo) (s : State),
    s.contain.device ≠ .selfTest → s.marks.visited = false → s.contain.cursor.val = 24 + k.val → s.settled →
    (∀ keys cause, s.slots[k].body = .scrubbing keys cause →
      exec .tableMonitorVisit s = .next { s with
        contain := { s.contain with cursor := s.contain.cursor + 1 }, marks := { s.marks with visited := true },
        out := Outputs.quiet }) ∧
    (s.slots[k].check ≠ Config.slotCheck (s.slots[k].fields k) →
      (∀ keys, s.slots[k].body = .loaded keys → s.contextLaws →
        ∃ t, exec .tableMonitorVisit s = .next t ∧ s.scrubbed k keys .check t ∧
          t.contain = { s.contain with cursor := s.contain.cursor + 1 } ∧
          t.faults =
            { count := if s.faults.count < 255 then s.faults.count + 1 else 255
              first := some (s.faults.first.getD
                { kind := .tableCheck, device := s.contain.device, ctx := none, sector := none,
                  entry := some { table := .key, index := k.val }, test := none }) } ∧
          t.events = .follow (s.pendingWith .tableFault) s.events.enables ∧
          t.decoder = s.decoder ∧ t.abort = s.abort ∧ t.time = s.time ∧ t.link = s.link ∧ t.tallies = s.tallies) ∧
      (s.slots[k].body = .empty ∨ s.slots[k].body = .faulted →
        ∃ t, exec .tableMonitorVisit s = .next t ∧
          t.slotIs k { s.slots[k] with body := .faulted } ∧ (∀ j : SlotNo, j ≠ k → t.slots[j] = s.slots[j]) ∧
          t = { s with
            slots := t.slots
            contain := { s.contain with cursor := s.contain.cursor + 1 }
            faults :=
              { count := if s.faults.count < 255 then s.faults.count + 1 else 255
                first := some (s.faults.first.getD
                  { kind := .tableCheck, device := s.contain.device, ctx := none, sector := none,
                    entry := some { table := .key, index := k.val }, test := none }) }
            events := .follow (s.pendingWith .tableFault) s.events.enables
            marks := { s.marks with visited := true }
            out := Outputs.quiet }))

/-! ## The key link -/

/-- R172, R176, R177: the frame of a command, with its check, is judged to be that command, whatever its fields hold. -/
def Obligations.link_frame_round_trip : Prop := ∀ c : LinkCommand, judgeFrame c.frame 0 = .command c

/-- R98, R99: a header written by the layout reads back as its fields, with good parity; and it no longer has good parity with any
one of its parity bits inverted. R98: every byte of an answer to a header, of a delivery and of a media request or end mark, and
every lane of a data beat, is driven with a parity bit that makes the number of ones odd (the bytes of the items that the spec does
not lay out are free values, log entry 19). -/
def Obligations.headers_round_trip_with_odd_parity : Prop :=
  (∀ f : HeaderFields, 1 ≤ f.length → f.length ≤ 256 →
    readHeader f.header = f ∧ headerParityGood f.header = true ∧
    ∀ i, i < 12 → headerParityGood { f.header with parity := f.header.parity ^^^ (1#12 <<< i) } = false) ∧
  (∀ a : HeaderAnswer, a.driven.goodParity) ∧ (∀ d : Delivery, d.driven.goodParity) ∧ (∀ d : MediaDrive, d.driven.goodParity) ∧
  (∀ (data : Block) (enables : Lanes) (i : Nat), i < 16 →
    oddOnes (byteAt data i) ((drivenBeat data enables).parity.getLsbD i))

/-- A command row stands for the command period whose frame carries the command, a busy buffer and SELF-TEST included: that is the
model's choice (log entry 9), and this says that the two agree from every state. The frame is shifted in most significant bit
first, KDO carries ones throughout (R173), and into an EMPTY buffer the period leaves an answer that is PENDING (R174, R176). -/
def Obligations.command_period_runs_its_row : Prop :=
  ∀ (c : LinkCommand) (s : State), ∃ t, exec (periodOf (toBits c.frame)) s = .next t ∧ exec c.row s = .next t ∧
    t.out.kdo = List.replicate (8 * c.frame.length) (some true) ∧
    (s.link = .empty → ∃ a : Answer, t.link = .pending a.frame)

/-- R173: bytes are shifted most significant bit first, eight clocks to the byte; a command period does what the bits of its first
byte and those that follow do in a row, and a period of fewer than eight clocks is ignored (that nothing is kept of KDO then is
the model's choice). R173, R174, R176: a command period is judged by the steps in their order into an EMPTY buffer, which becomes
PENDING, with ones on KDO throughout; a buffer that holds a response has it replaced by BUSY. R174, R175: preparation makes the
buffer READY; a read period drives the response, or a marker, and then ones from its second byte on, and a READY buffer is EMPTY
once the whole has been shifted out. That KDO is not driven in the first byte of a read period, and that a period that begins with
0xFF is the read period of its clocks, is the model's reading of R173 and R175 (log entry 21). -/
def Obligations.link_buffer_runs_its_course : Prop :=
  (∀ (bytes : List Byte) (j i : Nat), j < bytes.length → i < 8 →
    (toBits bytes)[8 * j + i]? = some ((bytes.getD j 0).getLsbD (7 - i))) ∧
  (∀ (first rest : List Bool) (s : State), exec (.commandPeriod first rest) s = exec (periodOf (first ++ rest)) s) ∧
  (∀ (kdi : List Bool) (n : Nat) (s : State), kdi.length < 8 → n < 8 →
    exec (periodOf kdi) s = .next { s with out := { Outputs.quiet with taken := false } } ∧
    exec (.readPeriod n) s = .next { s with out := { Outputs.quiet with taken := false } }) ∧
  (∀ (b : Byte) (bs : List Byte) (part : List Bool) (s : State), b ≠ 0xFF → part.length < 8 →
    (∀ f, s.link = .pending f → exec (periodOf (toBits (b :: bs) ++ part)) s =
      .next (s.replied (8 * bs.length + 8 + part.length) (.refused .busy))) ∧
    (∀ f, s.link = .ready f → exec (periodOf (toBits (b :: bs) ++ part)) s =
      .next { s.replied (8 * bs.length + 8 + part.length) (.refused .busy) with
        link := .ready (Answer.refused .busy).frame }) ∧
    (s.link = .empty → (bs.length < 3 ∨ bs.length ≠ (bs.getD 0 0).toNat + 3 ∨ part ≠ []) →
      exec (periodOf (toBits (b :: bs) ++ part)) s =
        .next (s.replied (8 * bs.length + 8 + part.length) (.refused .check)))) ∧
  (∀ (b : Byte) (p : List Byte) (hi lo : Byte) (s : State), s.link = .empty → b ≠ 0xFF → p.length < 256 →
    (hi ++ lo ≠ crc16 (b :: BitVec.ofNat 8 p.length :: p) →
      exec (periodOf (toBits (b :: BitVec.ofNat 8 p.length :: p ++ [hi, lo]))) s =
        .next (s.answered (p.length + 4) (.refused .check))) ∧
    (hi ++ lo = crc16 (b :: BitVec.ofNat 8 p.length :: p) → lengthOfCode b ≠ some p.length →
      exec (periodOf (toBits (b :: BitVec.ofNat 8 p.length :: p ++ [hi, lo]))) s =
        .next (s.answered (p.length + 4) (.refused (if lengthOfCode b = none then .unknown else .length))))) ∧
  (∀ (c : LinkCommand) (s : State), s.link = .empty → s.contain.device = .selfTest → c ≠ .status →
    exec c.row s = .next (s.answered c.frame.length (.refused .state))) ∧
  (∀ (f : List Byte) (s : State), s.link = .pending f →
    exec .preparationEnd s = .next { s with link := .ready f, out := Outputs.quiet }) ∧
  (∀ (n : Nat) (s : State),
    (s.link = .empty → exec (.readPeriod (8 + n)) s = .next { s with
      out := { Outputs.quiet with kdo := List.replicate 8 none ++
        (([false, true, false, true, true, false, true, true] ++ List.replicate n true).take n).map some } }) ∧
    (∀ f, s.link = .pending f → exec (.readPeriod (8 + n)) s = .next { s with
      out := { Outputs.quiet with kdo := List.replicate 8 none ++
        (([false, true, false, true, true, false, true, false] ++ List.replicate n true).take n).map some } }) ∧
    (∀ f, s.link = .ready f → n < 8 * f.length → exec (.readPeriod (8 + n)) s = .next { s with
      out := { Outputs.quiet with kdo := List.replicate 8 none ++ ((toBits f).take n).map some } }) ∧
    (∀ f, s.link = .ready f → 8 * f.length ≤ n → exec (.readPeriod (8 + n)) s = .next { s with
      link := .empty
      out := { Outputs.quiet with kdo := List.replicate 8 none ++
        (toBits f ++ List.replicate (n - 8 * f.length) true).map some } })) ∧
  (∀ (rest : List Bool) (s : State),
    exec (periodOf (List.replicate 8 true ++ rest)) s = exec (.readPeriod (8 + rest.length)) s)

/-- R178, R179: STATUS answers in every device state with the 104 bytes of its table, READ-FAULT with 16 and READ-ABORT with 1 and
21 for each entry, each multi-byte value least significant byte first; none of them changes what it reports. -/
def Obligations.reads_report_the_state : Prop :=
  (∀ s : State, s.link = .empty → (∀ k : SlotNo, ∀ keys, s.slots[k].body ≠ .undefined keys) →
    ∃ p : List Byte, exec .status s = .next (s.answered 4 (.done p)) ∧ p.length = 104 ∧
      p.take 16 =
        [ (match s.contain.device with | .selfTest => 0 | .config => 1 | .service => 2 | .contained => 3),
          (match s.time.presence with | .idle => 0 | .armed _ _ => 1 | .lapsed => 2),
          (if s.decoder.frozen then 1 else 0),
          s.events.pending.extractLsb' 0 8, s.events.pending.extractLsb' 8 8,
          s.events.enables.extractLsb' 0 8, s.events.enables.extractLsb' 8 8,
          s.time.idleLocked.extractLsb' 0 8, s.time.idleLocked.extractLsb' 8 8,
          BitVec.ofNat 8 s.tallies.parity, BitVec.ofNat 8 s.tallies.timeout, BitVec.ofNat 8 s.tallies.rawIgnored,
          BitVec.ofNat 8 s.faults.count, BitVec.ofNat 8 s.contexts.length,
          BitVec.ofNat 8 (s.contexts.filter fun c => c.state = .stranded).length,
          (if s.contain.dwell = none then 0 else 1) ] ∧
      (∀ k : SlotNo, p[16 + 2 * k.val]? = some (BitVec.ofNat 8 s.slots[k].body.shadow.1) ∧
        p[17 + 2 * k.val]? = some s.slots[k].generation) ∧
      (∀ i : RangeNo, p[80 + i.val]? = some (BitVec.ofNat 8 s.ranges[i].state.code)) ∧
      (∀ w : WindowNo, p[96 + w.val]? = some (BitVec.ofNat 8 s.decoder.windows[w].treatment.code))) ∧
  (∀ s : State, s.link = .empty → s.contain.device ≠ .selfTest →
    (s.faults.first = none →
      exec .readFault s = .next (s.answered 4 (.done (BitVec.ofNat 8 s.faults.count :: List.replicate 15 0)))) ∧
    (∀ r, s.faults.first = some r →
      exec .readFault s = .next (s.answered 4 (.done
        [ BitVec.ofNat 8 s.faults.count, 1, r.kind.code, r.device.code,
          BitVec.ofNat 8 ((if r.ctx = none then 0 else 1) + (if r.sector = none then 0 else 2) +
            (if r.entry = none then 0 else 4) + (if r.test = none then 0 else 8)),
          BitVec.ofNat 8 ((r.ctx.map fun c => c.number.val).getD 0), BitVec.ofNat 8 ((r.ctx.map fun c => c.mover.val).getD 0),
          BitVec.ofNat 8 ((r.ctx.map fun c => c.tag.val).getD 0),
          (r.sector.getD 0).extractLsb' 0 8, (r.sector.getD 0).extractLsb' 8 8, (r.sector.getD 0).extractLsb' 16 8,
          (r.sector.getD 0).extractLsb' 24 8, (r.sector.getD 0).extractLsb' 32 8,
          ((r.entry.map fun e => e.table.code).getD 0), BitVec.ofNat 8 ((r.entry.map fun e => e.index).getD 0),
          ((r.test.map testCode).getD 0) ]))) ∧
    (∃ p : List Byte, exec .readAbort s = .next (s.answered 4 (.done p)) ∧ p.length = 1 + 21 * s.abort.length ∧
      p[0]? = some (BitVec.ofNat 8 s.abort.length) ∧
      ∀ (j : Nat) (e : AbortEntry), s.abort[j]? = some e → (p.drop (1 + 21 * j)).take 21 =
        [ e.kind.code, BitVec.ofNat 8 e.mover.val, BitVec.ofNat 8 e.tag.val,
          e.addr.extractLsb' 0 8, e.addr.extractLsb' 8 8, e.addr.extractLsb' 16 8, e.addr.extractLsb' 24 8,
          BitVec.ofNat 8 e.length, BitVec.ofNat 8 (e.length / 256), BitVec.ofNat 8 e.passed, BitVec.ofNat 8 (e.passed / 256),
          e.passage.code, BitVec.ofNat 8 e.window.val, e.state.code ] ++
        (match e.capture with
          | none => [0, 0, 0, 0, 0, 0, 0]
          | some c => [ c.sector.extractLsb' 0 8, c.sector.extractLsb' 8 8, c.sector.extractLsb' 16 8,
              c.sector.extractLsb' 24 8, c.sector.extractLsb' 32 8, c.offset, BitVec.ofNat 8 c.range.val ])))

/-! ## The commands of ranges, windows and the device -/

/-- R40: SET-RANGE is refused BAD-INDEX above 15, RANGE-OPEN for an open range, BAD-VALUE for a span past 2^40, a binding that
names no slot or a lock byte above 1, OVERLAP for a span that shares a sector with another defined range, in that order. Otherwise
the record is rewritten and LOCKED, an idle interval above 1,048,575 clamped; range 0 keeps its span absent. -/
def Obligations.set_range_writes_record : Prop :=
  ∀ (b : Byte) (first : Sector) (count : BitVec 48) (bind lock : Byte) (idle : BitVec 24) (s : State),
    s.link = .empty → s.contain.device ≠ .selfTest →
    (16 ≤ b.toNat → exec (.setRange b first count bind lock idle) s = .next (s.answered 21 (.refused .badIndex))) ∧
    (∀ i : RangeNo, b.toNat = i.val →
      (s.ranges[i].isOpen = true →
        exec (.setRange b first count bind lock idle) s = .next (s.answered 21 (.refused .rangeOpen))) ∧
      (s.ranges[i].isOpen = false →
        (i ≠ 0 ∧ 2 ^ 40 < first.toNat + count.toNat) ∨ (32 ≤ bind.toNat ∧ bind ≠ 0xFF) ∨ 2 ≤ lock.toNat →
        exec (.setRange b first count bind lock idle) s = .next (s.answered 21 (.refused .badValue))) ∧
      (s.ranges[i].isOpen = false → (i ≠ 0 → first.toNat + count.toNat ≤ 2 ^ 40) → (bind.toNat < 32 ∨ bind = 0xFF) →
        lock.toNat < 2 →
        (∀ (j : RangeNo) (n : Nat) (sp : Span), i ≠ 0 → j ≠ 0 → j ≠ i → s.ranges[j].span = some sp →
          first.toNat ≤ n → n < first.toNat + count.toNat → sp.first.toNat ≤ n → n < sp.first.toNat + sp.count →
          exec (.setRange b first count bind lock idle) s = .next (s.answered 21 (.refused .overlap))) ∧
        ((i ≠ 0 → ∀ (j : RangeNo) (n : Nat) (sp : Span), j ≠ 0 → j ≠ i → s.ranges[j].span = some sp →
            ¬ (first.toNat ≤ n ∧ n < first.toNat + count.toNat ∧ sp.first.toNat ≤ n ∧ n < sp.first.toNat + sp.count)) →
          ∃ t, exec (.setRange b first count bind lock idle) s = .next (State.answered 21 (.done []) t) ∧
            (∃ k, (bind = 0xFF → k = none) ∧ (∀ m : SlotNo, bind.toNat = m.val → k = some m) ∧
              t.rangeIs i
                { span := if i = 0 then s.ranges[i].span else some { first := first, count := count.toNat }
                  binding := k, state := .locked, lockOnAbsence := lock == 1
                  idleInterval := if 1048575 < idle.toNat then 1048575 else idle.toNat
                  idleRemaining := none, check := 0 }) ∧
            (∀ j : RangeNo, j ≠ i → t.ranges[j] = s.ranges[j]) ∧ t = { s with ranges := t.ranges })))

/-- R42, R43: OPEN-RANGE is refused STATE in CONTAINED, BAD-INDEX, BAD-VALUE, STATE for a FAULTED range, NO-KEY without a LOADED
bound slot, in that order; otherwise the range is open in the mode named and its idle timer starts from the full interval. That
the record of a range already open gets a fresh check word too is the model's reading (log entry 26); that a disturbed record is
repaired by it is R35's, R51 read as log entry 31 says. LOCK-RANGE locks an open range and leaves a LOCKED or FAULTED one, in
every device state but SELF-TEST. -/
def Obligations.open_and_lock_range : Prop :=
  (∀ (b mode : Byte) (s : State), s.link = .empty →
    (s.contain.device = .contained → exec (.openRange b mode) s = .next (s.answered 6 (.refused .state))) ∧
    (s.contain.device = .config ∨ s.contain.device = .service →
      (16 ≤ b.toNat → exec (.openRange b mode) s = .next (s.answered 6 (.refused .badIndex))) ∧
      (∀ i : RangeNo, b.toNat = i.val →
        (2 ≤ mode.toNat → exec (.openRange b mode) s = .next (s.answered 6 (.refused .badValue))) ∧
        (mode.toNat < 2 → s.ranges[i].state = .faulted →
          exec (.openRange b mode) s = .next (s.answered 6 (.refused .state))) ∧
        (mode.toNat < 2 → s.ranges[i].state ≠ .faulted →
          (∀ k, s.ranges[i].binding = some k → s.slots[k].isLoaded = false) →
          exec (.openRange b mode) s = .next (s.answered 6 (.refused .noKey))) ∧
        (∀ k, mode.toNat < 2 → s.ranges[i].state ≠ .faulted → s.ranges[i].binding = some k → s.slots[k].isLoaded = true →
          ∃ t, exec (.openRange b mode) s = .next (State.answered 6 (.done []) t) ∧
            t.rangeIs i { s.ranges[i] with
              state := if mode = 0 then .openRW else .openRO
              idleRemaining := if s.ranges[i].idleInterval = 0 then none else some s.ranges[i].idleInterval } ∧
            (∀ j : RangeNo, j ≠ i → t.ranges[j] = s.ranges[j]) ∧ t = { s with ranges := t.ranges })))) ∧
  (∀ (b : Byte) (s : State), s.link = .empty → s.contain.device ≠ .selfTest →
    (16 ≤ b.toNat → exec (.lockRange b) s = .next (s.answered 5 (.refused .badIndex))) ∧
    (∀ i : RangeNo, b.toNat = i.val →
      (s.ranges[i].isOpen = false → exec (.lockRange b) s = .next (s.answered 5 (.done []))) ∧
      (s.ranges[i].isOpen = true →
        ∃ t, exec (.lockRange b) s = .next (State.answered 5 (.done []) t) ∧
          t.rangeIs i { s.ranges[i] with state := .locked, idleRemaining := none } ∧
          (∀ j : RangeNo, j ≠ i → t.ranges[j] = s.ranges[j]) ∧ t = { s with ranges := t.ranges })))

/-- R18, R22, R31: SET-WINDOW is refused FROZEN, BAD-INDEX above 7, BAD-VALUE for a treatment that may not be written or, for a
treatment other than EMPTY, a bad direction or bounds, OVERLAP with another window that covers addresses, in that order. EMPTY
clears the record, its relocation rights with it (the model's reading, log entry 36), whatever the other fields hold; any other
treatment writes them. R30: SET-LIMIT is refused STATE in SELF-TEST, FROZEN while the freeze flag is set, BAD-VALUE for 0 or above
2^40, in that order; otherwise the limit becomes n. -/
def Obligations.window_decoder_is_written : Prop :=
  (∀ (b tr : Byte) (first last : BitVec 32) (dir : Byte) (movers reloc : MoverSet) (s : State),
    s.link = .empty → s.contain.device ≠ .selfTest →
    (s.decoder.frozen = true →
      exec (.setWindow b tr first last dir movers reloc) s = .next (s.answered 17 (.refused .frozen))) ∧
    (s.decoder.frozen = false → 8 ≤ b.toNat →
      exec (.setWindow b tr first last dir movers reloc) s = .next (s.answered 17 (.refused .badIndex))) ∧
    (∀ i : WindowNo, s.decoder.frozen = false → b.toNat = i.val →
      (4 ≤ tr.toNat ∨ (tr ≠ 0 ∧ (3 ≤ dir.toNat ∨ last.toNat < first.toNat ∨ 2 ^ 28 ≤ first.toNat ∨ 2 ^ 28 ≤ last.toNat)) →
        exec (.setWindow b tr first last dir movers reloc) s = .next (s.answered 17 (.refused .badValue))) ∧
      (tr = 0 →
        ∃ t, exec (.setWindow b tr first last dir movers reloc) s = .next (State.answered 17 (.done []) t) ∧
          t.windowIs i
            { treatment := .empty, first := 0, last := 0, direction := .both, movers := 0, relocation := 0, check := 0 } ∧
          (∀ j : WindowNo, j ≠ i → t.decoder.windows[j] = s.decoder.windows[j]) ∧
          t = { s with decoder := { s.decoder with windows := t.decoder.windows } }) ∧
      (∀ (k : Treatment) (d : Direction), k ≠ .empty → k ≠ .faulted → tr.toNat = k.code → dir.toNat = d.code →
        first.toNat ≤ last.toNat → last.toNat < 2 ^ 28 →
        (∀ (j : WindowNo) (a : UnitAddr), j ≠ i → s.decoder.windows[j].covers a = true → first.toNat ≤ a.toNat →
          a.toNat ≤ last.toNat →
          exec (.setWindow b tr first last dir movers reloc) s = .next (s.answered 17 (.refused .overlap))) ∧
        ((∀ (j : WindowNo) (a : UnitAddr), j ≠ i → s.decoder.windows[j].covers a = true →
            ¬ (first.toNat ≤ a.toNat ∧ a.toNat ≤ last.toNat)) →
          ∃ t, exec (.setWindow b tr first last dir movers reloc) s = .next (State.answered 17 (.done []) t) ∧
            t.windowIs i
              { treatment := k, first := BitVec.ofNat 28 first.toNat, last := BitVec.ofNat 28 last.toNat, direction := d,
                movers := movers, relocation := reloc, check := 0 } ∧
            (∀ j : WindowNo, j ≠ i → t.decoder.windows[j] = s.decoder.windows[j]) ∧
            t = { s with decoder := { s.decoder with windows := t.decoder.windows } })))) ∧
  (∀ (n : BitVec 48) (s : State), s.link = .empty →
    exec (.setLimit n) s = .next
      (if s.contain.device = .selfTest then s.answered 10 (.refused .state)
      else if s.decoder.frozen = true then s.answered 10 (.refused .frozen)
      else if n = 0 ∨ 2 ^ 40 < n.toNat then s.answered 10 (.refused .badValue)
      else State.answered 10 (.done []) { s with decoder := { s.decoder with limit := n.toNat } }))

/-- R31, R161, R164, R165: FREEZE sets the freeze flag. GO takes CONFIG to SERVICE and is refused STATE elsewhere. The last coarse
tick of the dwell timer ends it and changes nothing else; with ticks left nothing happens (R146). That the row takes the tick
ahead of the others of its moment, once, is the model's choice (log entry 5). RECOVER is refused STATE outside CONTAINED and DWELL
while the dwell runs. R47, R69, R132, R157: otherwise it voids the expansion, empties the cache and every slot, locks every range,
and enters SELF-TEST. -/
def Obligations.device_state_commands : Prop :=
  (∀ s : State, s.link = .empty → s.contain.device ≠ .selfTest →
    exec .freeze s = .next (State.answered 4 (.done []) { s with decoder := { s.decoder with frozen := true } })) ∧
  (∀ s : State, s.link = .empty →
    (s.contain.device = .config →
      exec .go s = .next (State.answered 4 (.done []) { s with contain := { s.contain with device := .service } })) ∧
    (s.contain.device ≠ .config → exec .go s = .next (s.answered 4 (.refused .state)))) ∧
  (∀ (n : Nat) (s : State), s.contain.dwell = some n →
    (n ≤ 1 → s.time.coarsePhase ≤ 1 → s.marks.tickedDwell = false →
      exec .dwellEnd s = .next { s with
        contain := { s.contain with dwell := none }, marks := { s.marks with tickedDwell := true }
        out := Outputs.quiet }) ∧
    (2 ≤ n ∨ 2 ≤ s.time.coarsePhase ∨ s.marks.tickedDwell = true →
      exec .dwellEnd s = .next { s with out := { Outputs.quiet with taken := false } })) ∧
  (∀ s : State, s.link = .empty →
    (s.contain.device ≠ .contained → exec .recover s = .next (s.answered 4 (.refused .state))) ∧
    (∀ n, s.contain.device = .contained → s.contain.dwell = some n →
      exec .recover s = .next (s.answered 4 (.refused .dwell))) ∧
    (s.contain.device = .contained → s.contain.dwell = none →
      ∃ t, exec .recover s = .next (State.answered 4 .accepted t) ∧
        (∀ k : SlotNo, t.slotIs k { s.slots[k] with body := .empty }) ∧
        (∀ i : RangeNo, t.rangeIs i { s.ranges[i] with
          span := if s.ranges[i].state = .faulted ∧ i ≠ 0 then some { first := 0, count := 0 } else s.ranges[i].span
          state := .locked, idleRemaining := none }) ∧
        (∀ i w, t.way i w = none) ∧ (∀ i : Fin 4, t.cache[i].recent = s.cache[i].recent) ∧
        ((∃ (k : SlotNo) (keys : KeyPair), s.slots[k].body = .scrubbing keys .command) →
          t.events = .follow (s.pendingWith .scrubbed) s.events.enables) ∧
        ((∀ (k : SlotNo) (keys : KeyPair), s.slots[k].body ≠ .scrubbing keys .command) → t.events = s.events) ∧
        t = { s with
          slots := t.slots, ranges := t.ranges, cache := t.cache, events := t.events
          expander := { s.expander with current := s.expander.current.map fun x => { x with void := true } }
          time := { s.time with presence := .idle }
          contain := { s.contain with device := .selfTest } }))

/-- R181: SET-ALERT writes the whole enable set; R182, R151: CLEAR-EVENTS clears the flags named, and the idle-locked set if it
names RANGE-LOCKED; both are refused BAD-VALUE for a bit above 9, and ALERT_N follows at once. R171: CLEAR-FAULT empties the fault
log. R183: CLEAR-TALLIES sets the three tallies to 0. -/
def Obligations.event_and_log_commands : Prop :=
  (∀ (e : BitVec 16) (s : State), s.link = .empty → s.contain.device ≠ .selfTest →
    (1024 ≤ e.toNat →
      exec (.setAlert e) s = .next (s.answered 6 (.refused .badValue)) ∧
      exec (.clearEvents e) s = .next (s.answered 6 (.refused .badValue))) ∧
    (e.toNat < 1024 →
      (∃ t, exec (.setAlert e) s = .next (State.answered 6 (.done []) t) ∧
        (∀ j, j < 10 → t.events.enables.getLsbD j = e.getLsbD j) ∧ t.events.pending = s.events.pending ∧
        t.alertLaw ∧ t = { s with events := t.events }) ∧
      (∃ t, exec (.clearEvents e) s = .next (State.answered 6 (.done []) t) ∧
        (∀ j, j < 10 → t.events.pending.getLsbD j = (s.events.pending.getLsbD j && !e.getLsbD j)) ∧
        t.events.enables = s.events.enables ∧ t.alertLaw ∧
        t.time.idleLocked = (if e.getLsbD 1 = true then 0 else s.time.idleLocked) ∧
        t = { s with events := t.events, time := { s.time with idleLocked := t.time.idleLocked } }))) ∧
  (∀ s : State, s.link = .empty → s.contain.device ≠ .selfTest →
    exec .clearFault s = .next (State.answered 4 (.done []) { s with faults := { count := 0, first := none } }) ∧
    exec .clearTallies s = .next (State.answered 4 (.done [])
      { s with tallies := { parity := 0, timeout := 0, rawIgnored := 0 } }))

/-! ## What holds throughout -/

/-- The reset state keeps the laws that every step keeps. -/
def Obligations.laws_hold_at_reset : Prop :=
  State.reset.tableLaws ∧ State.reset.checksFresh ∧ State.reset.timerLaws ∧ State.reset.keyCustody ∧ State.reset.cacheLaws

/-- R11, R22, R34, R40, R44, R54: every step keeps windows and ranges apart, an open range bound to a LOADED slot, and a LOADED
slot's two keys different with a generation that is not 0. -/
def Obligations.every_step_keeps_table_laws : Prop :=
  ∀ s t : State, s.tableLaws → step s = .next t → t.tableLaws

/-- R18, R35, R55, R168: every step leaves every record's check word that of its stored fields, a slot in SCRUBBING among them, and
no slot in a state that is none of the four: the part itself disturbs no record, and the monitor finds only what something else has
disturbed. -/
def Obligations.every_step_keeps_checks_fresh : Prop :=
  ∀ s t : State, s.checksFresh → step s = .next t → t.checksFresh

/-- R34, R116, R148, R152, R162, R164, R170, R181, R183: every step keeps the dwell, presence and idle timers within their bounds
and running only where they may, the counts within 0..255, and ALERT_N low exactly while an enabled event is pending. -/
def Obligations.every_step_keeps_timer_laws : Prop :=
  ∀ s t : State, s.timerLaws → step s = .next t → t.timerLaws

/-- R14, R53, R61, R72, R97: every step keeps the context table's numbers and claims apart, and every CIPHER context in WAITKEY,
STREAM, HOLD or CLOSE entitled to its key: the device in SERVICE and its slot LOADED at the captured generation. -/
def Obligations.every_step_keeps_key_custody : Prop :=
  ∀ s t : State, s.keyCustody → step s = .next t → t.keyCustody

/-- R2, R63, R119, R121, R122, R123, R124, R126, R127: where key custody holds, every step keeps the laws of the schedule cache: an
entry stands once, in its pair's set, with the schedule of the keys its slot holds, of a LOADED slot if it is pinned; its pin count
is the number of contexts of its pair in STREAM or HOLD; no pair is queued twice; every queued request, and every expansion that is
not void, is of a pair without an entry and has only waiting contexts of the pair attached, a request at least one; every waiting
context is attached; and no eligible request stands before an idle expander. -/
def Obligations.every_step_keeps_cache_laws : Prop :=
  ∀ s t : State, s.keyCustody → s.cacheLaws → step s = .next t → t.cacheLaws

/-- R42, R44, R47, R51: a range that is locked or faulted before a step and open after it was opened by an OPEN-RANGE for its
index, in CONFIG or SERVICE, that came as its row or as the frame of a command period. -/
def Obligations.only_open_range_opens : Prop :=
  ∀ (s t : State) (i : RangeNo), step s = .next t → s.ranges[i].isOpen = false → t.ranges[i].isOpen = true →
    (s.contain.device = .config ∨ s.contain.device = .service) ∧
    ∃ (b mode : Byte) (rest : List Instr), b.toNat = i.val ∧
      (s.pending = .openRange b mode :: rest ∨
        ∃ kdi more, kdi ++ more = toBits (LinkCommand.openRange b mode).frame ∧ s.pending = .commandPeriod kdi more :: rest)

/-- R70, R174: in two states that differ only in key material, no key-link command is answered differently, by its row or by a read
period, and the states after it still differ only in key material. -/
def Obligations.link_reveals_no_key : Prop :=
  ∀ (s t u v : State), s.sameButKeys t →
    (∀ c : LinkCommand, exec c.row s = .next u → exec c.row t = .next v → u.link = v.link ∧ u.out = v.out ∧ u.sameButKeys v) ∧
    (∀ n, exec (.readPeriod n) s = .next u → exec (.readPeriod n) t = .next v →
      u.link = v.link ∧ u.out = v.out ∧ u.sameButKeys v)
end

