-- ==== Sys2Proof/Laws/Cipher.lean ====
section
/-! SUPPORT. Units byte by byte, and a schedule's three parts (R1, R2). -/

namespace Sys2Proof.Machine

/-- Two units with the same sixteen bytes are the same. -/
theorem block_ext {a b : Block} (h : ∀ i, i < 16 → byteAt a i = byteAt b i) : a = b := by
  apply BitVec.eq_of_getLsbD_eq
  intro j hj
  have hb := congrArg (fun x : Byte => x.getLsbD (j % 8)) (h (j / 8) (by omega))
  simp only [byteAt, BitVec.getLsbD_extractLsb'] at hb
  have h8 : j % 8 < 8 := Nat.mod_lt _ (by decide)
  have hj' : 8 * (j / 8) + j % 8 = j := Nat.div_add_mod j 8
  simpa [h8, hj'] using hb

/-- An exclusive or of units is one of their bytes. -/
theorem byteAt_xor (a b : Block) (i : Nat) : byteAt (a ^^^ b) i = byteAt a i ^^^ byteAt b i := by
  simp [byteAt, BitVec.extractLsb'_xor]

/-- The bits of the first n bytes of a unit built from bytes. -/
theorem getLsbD_fold_bytes (f : Nat → Byte) (n j : Nat) (hn : n ≤ 16) :
    ((List.range n).foldl (fun acc i => acc ||| ((f i).setWidth 128 <<< (8 * i))) (0 : Block)).getLsbD j =
      (decide (j < 8 * n) && (f (j / 8)).getLsbD (j % 8)) := by
  induction n with
  | zero => simp
  | succ n ih =>
    rw [List.range_succ, List.foldl_append, List.foldl_cons, List.foldl_nil, BitVec.getLsbD_or, ih (by omega),
      BitVec.getLsbD_shiftLeft, BitVec.getLsbD_setWidth]
    rcases Nat.lt_or_ge j (8 * n) with h | h
    · have h1 : j < 8 * (n + 1) := by omega
      simp [h, h1]
    · rcases Nat.lt_or_ge j (8 * (n + 1)) with h2 | h2
      · have hd : j / 8 = n := by omega
        have hm : j % 8 = j - 8 * n := by omega
        have h3 : j < 128 := by omega
        have h4 : j - 8 * n < 128 := by omega
        simp [h2, h3, h4, hd, hm, Nat.not_lt.2 h]
      · have h5 : (f n).getLsbD (j - 8 * n) = false := BitVec.getLsbD_of_ge _ _ (by omega)
        simp [Nat.not_lt.2 h, Nat.not_lt.2 h2, h5]

/-- The bytes of a unit built from bytes are those bytes. -/
theorem byteAt_ofBytes (f : Nat → Byte) {i : Nat} (hi : i < 16) : byteAt (ofBytes f) i = f i := by
  apply BitVec.eq_of_getLsbD_eq
  intro j hj
  have hd : (8 * i + j) / 8 = i := by omega
  have hm : (8 * i + j) % 8 = j := by omega
  have hl : 8 * i + j < 8 * 16 := by omega
  rw [byteAt, BitVec.getLsbD_extractLsb', ofBytes, getLsbD_fold_bytes f 16 _ le_rfl, hd, hm]
  simp [hj, hl]

/-- The forward data rounds of a schedule are those of the data key. -/
@[simp] theorem schedule_dataForward (p : KeyPair) : p.schedule.dataForward = roundKeys p.dataKey := rfl

/-- The inverse data rounds of a schedule are those of the data key, last first. -/
@[simp] theorem schedule_dataInverse (p : KeyPair) : p.schedule.dataInverse = (roundKeys p.dataKey).reverse := rfl

/-- The forward tweak rounds of a schedule are those of the tweak key. -/
@[simp] theorem schedule_tweakForward (p : KeyPair) : p.schedule.tweakForward = roundKeys p.tweakKey := rfl

/-- Doubling a number of times is iterating the doubling. -/
theorem doubled_eq_iterate (n : Nat) (v : Block) : doubled n v = double^[n] v := by
  induction n generalizing v with
  | zero => rfl
  | succ n ih => rw [Function.iterate_succ_apply', ← ih]; rfl

end Sys2Proof.Machine
end

