-- ==== Sys2Proof/Laws/Contexts.lean ====
section
/-! SUPPORT. The context table: what a look-up finds after a change of one record, and what the change leaves (R72, R73). -/

namespace Sys2Proof.Machine

/-- A record found under a number has that number. -/
theorem ctx?_number {n : CtxNo} {c : Context} {s : State} (h : s.ctx? n = some c) : c.number = n := by
  have := List.find?_some h
  simpa using this

/-- A record found under a number is in the list. -/
theorem ctx?_mem {n : CtxNo} {c : Context} {s : State} (h : s.ctx? n = some c) : c ∈ s.contexts :=
  List.mem_of_find?_eq_some h

/-- With no number twice, a record of the list is the one found under its number (R72). -/
theorem ctx?_of_mem {c : Context} {s : State} (hn : (s.contexts.map fun d => d.number).Nodup) (h : c ∈ s.contexts) :
    s.ctx? c.number = some c := by
  unfold State.ctx?
  revert hn h
  induction s.contexts with
  | nil => simp
  | cons d l ih =>
    intro hn h
    rw [List.map_cons, List.nodup_cons] at hn
    by_cases hd : d.number = c.number
    · rcases List.mem_cons.1 h with rfl | hl
      · simp
      · exact absurd (List.mem_map.2 ⟨c, hl, hd.symm⟩) hn.1
    · rcases List.mem_cons.1 h with rfl | hl
      · exact absurd rfl hd
      · simp [hd, ih hn.2 hl]

/-- A change that keeps numbers is found by a look-up under the number changed. -/
theorem ctx?_modCtx {n : CtxNo} {c : Context} {f : Context → Context} {s : State} (hf : (f c).number = c.number)
    (h : s.ctx? n = some c) : (s.modCtx n f).ctx? n = some (f c) := by
  unfold State.ctx? State.modCtx at *
  revert h
  induction s.contexts with
  | nil => simp
  | cons d l ih =>
    intro h
    by_cases hd : d.number = n
    · have hc : d = c := by simpa [hd] using h
      subst hc
      simp [hd, hf]
    · have hc : l.find? (fun c => c.number == n) = some c := by simpa [hd] using h
      simpa [hd] using ih hc

/-- A change of a number not in use changes nothing. -/
theorem modCtx_of_none {n : CtxNo} {f : Context → Context} {s : State} (h : s.ctx? n = none) : s.modCtx n f = s := by
  have hl : s.contexts.map (fun c => if c.number = n then f c else c) = s.contexts := by
    rw [State.ctx?, List.find?_eq_none] at h
    conv_rhs => rw [← List.map_id s.contexts]
    exact List.map_congr_left fun c hc => if_neg (by simpa using h c hc)
  simp only [State.modCtx, hl]

/-- A number dropped is not found. -/
theorem ctx?_dropCtx (n : CtxNo) (s : State) : (s.dropCtx n).ctx? n = none := by
  simp [State.ctx?, State.dropCtx, List.find?_eq_none]

/-- A change of one record leaves every other in its place. -/
theorem othersKept_modCtx {n : CtxNo} {f : Context → Context} {s : State} (hf : ∀ c, (f c).number = c.number) :
    s.othersKept n (s.modCtx n f) := by
  unfold State.othersKept State.modCtx
  induction s.contexts with
  | nil => rfl
  | cons d l ih => by_cases hd : d.number = n <;> simp_all

/-- A record dropped leaves every other in its place. -/
theorem othersKept_dropCtx (n : CtxNo) (s : State) : s.othersKept n (s.dropCtx n) := by
  simp [State.othersKept, State.dropCtx, List.filter_filter]

/-- Leaving the others as they are, twice, is leaving them. -/
theorem othersKept_trans {n : CtxNo} {s t u : State} (h : s.othersKept n t) (h' : t.othersKept n u) : s.othersKept n u :=
  Eq.trans h' h

/-- A state with the same contexts keeps them all. -/
theorem othersKept_of_eq {n : CtxNo} {s t : State} (h : t.contexts = s.contexts) : s.othersKept n t := by
  simp [State.othersKept, h]

/-- A look-up reads the list of contexts only. -/
theorem ctx?_congr {n : CtxNo} {s t : State} (h : t.contexts = s.contexts) : t.ctx? n = s.ctx? n := by
  simp [State.ctx?, h]

end Sys2Proof.Machine
end

