-- ==== Sys2Proof/Laws/Flags.lean ====
section
/-! SUPPORT. The saturating counts, the fault log and the alert line (R116, R170, R181, R183). -/

namespace Sys2Proof.Machine

/-- A count stays within 255. -/
theorem countUp_le (n : Nat) : countUp n ≤ 255 := by unfold countUp; split <;> omega

/-- A count never falls, once within 255. -/
theorem le_countUp {n : Nat} (h : n ≤ 255) : n ≤ countUp n := by unfold countUp; split <;> omega

/-- A count is never 0 after an event. -/
theorem countUp_ne_zero (n : Nat) : countUp n ≠ 0 := by unfold countUp; split <;> omega

/-- A fault logged leaves a record held: the one held before, or its own (R170). -/
theorem FaultLog.add_first (r : FaultRecord) (l : FaultLog) : (l.add r).first = some (l.first.getD r) := rfl

/-- A record held is kept (R170). -/
theorem FaultLog.add_first_of_some {r q : FaultRecord} {l : FaultLog} (h : l.first = some q) : (l.add r).first = some q := by
  simp [FaultLog.add, h]

/-- The alert level is high exactly where some flag of the ten is pending and enabled (R181). -/
theorem alertLevel_iff (pending enables : BitVec 10) :
    alertLevel pending enables = true ↔ ∃ e, e < 10 ∧ pending.getLsbD e = true ∧ enables.getLsbD e = true := by
  unfold alertLevel
  rw [bne_iff_ne, ne_eq, ← BitVec.toNat_inj]
  constructor
  · intro h
    by_contra hn
    push Not at hn
    apply h
    have hz : pending &&& enables = 0 := by
      apply BitVec.eq_of_getLsbD_eq
      intro e he
      have := hn e he
      rw [BitVec.getLsbD_and]
      cases hp : pending.getLsbD e <;> simp_all
    rw [hz]
  · rintro ⟨e, he, hp, hq⟩ h
    have hz : pending &&& enables = 0 := BitVec.eq_of_toNat_eq h
    have : (pending &&& enables).getLsbD e = true := by rw [BitVec.getLsbD_and, hp, hq]; rfl
    rw [hz] at this
    simp at this

/-- An event unit that follows its flags keeps the law of the alert line (R181). -/
theorem follow_alertLow (pending enables : BitVec 10) :
    (EventUnit.follow pending enables).alertLow = true ↔
      ∃ e, e < 10 ∧ (EventUnit.follow pending enables).pending.getLsbD e = true ∧
        (EventUnit.follow pending enables).enables.getLsbD e = true :=
  alertLevel_iff pending enables

end Sys2Proof.Machine
end

