-- ==== Sys2Proof/Laws/KeyLink.lean ====
section
/-! SUPPORT. What a command row of the key link does, once for all of them: with an EMPTY buffer it runs its owner and holds the
answer, except in SELF-TEST (R174, R176). -/

namespace Sys2Proof.Machine

/-- The state in which a frame of `n` bytes has been heard: nothing else driven, KDO at ones throughout (R173). -/
abbrev State.heard (n : Nat) (s : State) : State := s.start.driveKdo (List.replicate (8 * n) (some true))

/-- A state answered is the state heard with the answer held. -/
theorem respond_heard (n : Nat) (a : Answer) (s : State) : (s.heard n).respond a = s.answered n a := rfl

/-- Into an EMPTY buffer a frame is judged. -/
theorem commandEnds_empty {n : Nat} {judge : State → State} {s : State} (h : s.link = .empty) :
    s.commandEnds (8 * n) judge = judge (s.heard n) := by
  unfold State.commandEnds
  have h' : (s.heard n).link = .empty := h
  dsimp only
  rw [h']

/-- A buffer that is PENDING has its response replaced by BUSY. -/
theorem commandEnds_pending {n : Nat} {judge : State → State} {s : State} {f : List Byte} (h : s.link = .pending f) :
    s.commandEnds (8 * n) judge = s.answered n (.refused .busy) := by
  unfold State.commandEnds
  have h' : (s.heard n).link = .pending f := h
  dsimp only
  rw [h']
  rfl

/-- A buffer that is READY has its response replaced by BUSY and stays READY. -/
theorem commandEnds_ready {n : Nat} {judge : State → State} {s : State} {f : List Byte} (h : s.link = .ready f) :
    s.commandEnds (8 * n) judge = { s.answered n (.refused .busy) with link := .ready (Answer.refused .busy).frame } := by
  unfold State.commandEnds
  have h' : (s.heard n).link = .ready f := h
  dsimp only
  rw [h']
  rfl

/-- In SELF-TEST a command other than STATUS is refused STATE by the link itself. -/
theorem judged_selfTest {b : Bool} {owner : State → State × Answer} {s : State} (hd : s.contain.device = .selfTest)
    (hb : b = false) : s.judged b owner = s.respond (.refused .state) := by
  simp [State.judged, hd, hb]

/-- Otherwise its owner carries it out. -/
theorem judged_owner {b : Bool} {owner : State → State × Answer} {s : State} (hd : s.contain.device ≠ .selfTest ∨ b = true) :
    s.judged b owner = (owner s).1.respond (owner s).2 := by
  unfold State.judged
  rw [if_neg]
  rintro ⟨h1, h2⟩
  rcases hd with hd | hd
  · exact hd h1
  · rw [hd] at h2; cases h2

/-- A command row with an EMPTY buffer outside SELF-TEST: the owner carries the command out and gives the answer. -/
theorem linkRow_owner {c : LinkCommand} {owner : State → State × Answer} {s : State} (h : s.link = .empty)
    (hd : s.contain.device ≠ .selfTest ∨ (c == .status) = true) :
    linkRow c owner s =
      .next ((owner (s.heard c.frame.length)).1.respond (owner (s.heard c.frame.length)).2) := by
  unfold linkRow
  rw [commandEnds_empty h, judged_owner (s := s.heard c.frame.length) hd]

/-- A command row whose owner turns the state heard into another state heard: that state, answered. -/
theorem linkRow_answers {c : LinkCommand} {owner : State → State × Answer} {n : Nat} {a : Answer} {s t : State}
    (h : s.link = .empty) (hd : s.contain.device ≠ .selfTest ∨ (c == .status) = true) (hn : c.frame.length = n)
    (ho : owner (s.heard n) = (t.heard n, a)) : linkRow c owner s = .next (t.answered n a) := by
  rw [linkRow_owner h hd, hn, ho]
  rfl

/-- A command row with an EMPTY buffer in SELF-TEST. -/
theorem linkRow_selfTest {c : LinkCommand} {owner : State → State × Answer} {s : State} (h : s.link = .empty)
    (hd : s.contain.device = .selfTest) (hc : (c == .status) = false) :
    linkRow c owner s = .next (s.answered c.frame.length (.refused .state)) := by
  unfold linkRow
  rw [commandEnds_empty h, judged_selfTest (s := s.heard c.frame.length) hd hc]
  rfl

/-- The length of a frame is that of its payload and four bytes (R172). -/
theorem frame_length (c : LinkCommand) : c.frame.length = c.payload.length + 4 := by
  simp only [LinkCommand.frame, withCheck, List.length_append, List.length_cons, List.length_nil]
  omega

/-- A byte shifted out bit by bit and in again is the byte (R173). -/
theorem bitsByte_byteBits (b : Byte) : bitsByte (byteBits b) = b := by revert b; decide +kernel

/-- A byte is shifted in eight clocks (R173). -/
@[simp] theorem byteBits_length (b : Byte) : (byteBits b).length = 8 := by simp [byteBits]

/-- Eight clocks to the byte (R173). -/
@[simp] theorem toBits_length (bytes : List Byte) : (toBits bytes).length = 8 * bytes.length := by
  induction bytes with
  | nil => rfl
  | cons b l ih =>
    have : toBits (b :: l) = byteBits b ++ toBits l := rfl
    rw [this, List.length_append, ih, byteBits_length, List.length_cons]
    omega

/-- Whole bytes shifted out are taken in again, whatever part-byte follows (R173). -/
theorem wholeBytes_toBits (bytes : List Byte) (rest : List Bool) :
    wholeBytes bytes.length (toBits bytes ++ rest) = bytes := by
  induction bytes with
  | nil => rfl
  | cons b l ih =>
    have hb : toBits (b :: l) ++ rest = byteBits b ++ (toBits l ++ rest) := by simp [toBits]
    rw [hb, List.length_cons, wholeBytes, List.take_left' (byteBits_length b), List.drop_left' (byteBits_length b),
      bitsByte_byteBits, ih]

/-- A value written in n bytes has n bytes. -/
@[simp] theorem leBytes_length (n v : Nat) : (leBytes n v).length = n := by simp [leBytes]

end Sys2Proof.Machine
end

