-- ==== Sys2Proof/Laws/State.lean ====
section
/-! SUPPORT. One lemma for each field of the state and each named update of it: what the update leaves there. With them a proof
need not unfold an update. -/

namespace Sys2Proof.Machine

/-! ### start -/

@[simp] theorem State.start_contain (s : State) : (s.start).contain = s.contain := rfl
@[simp] theorem State.start_faults (s : State) : (s.start).faults = s.faults := rfl
@[simp] theorem State.start_decoder (s : State) : (s.start).decoder = s.decoder := rfl
@[simp] theorem State.start_ranges (s : State) : (s.start).ranges = s.ranges := rfl
@[simp] theorem State.start_slots (s : State) : (s.start).slots = s.slots := rfl
@[simp] theorem State.start_contexts (s : State) : (s.start).contexts = s.contexts := rfl
@[simp] theorem State.start_abort (s : State) : (s.start).abort = s.abort := rfl
@[simp] theorem State.start_cache (s : State) : (s.start).cache = s.cache := rfl
@[simp] theorem State.start_expander (s : State) : (s.start).expander = s.expander := rfl
@[simp] theorem State.start_intake (s : State) : (s.start).intake = s.intake := rfl
@[simp] theorem State.start_returnPath (s : State) : (s.start).returnPath = s.returnPath := rfl
@[simp] theorem State.start_media (s : State) : (s.start).media = s.media := rfl
@[simp] theorem State.start_engines (s : State) : (s.start).engines = s.engines := rfl
@[simp] theorem State.start_hold (s : State) : (s.start).hold = s.hold := rfl
@[simp] theorem State.start_time (s : State) : (s.start).time = s.time := rfl
@[simp] theorem State.start_marks (s : State) : (s.start).marks = s.marks := rfl
@[simp] theorem State.start_link (s : State) : (s.start).link = s.link := rfl
@[simp] theorem State.start_events (s : State) : (s.start).events = s.events := rfl
@[simp] theorem State.start_tallies (s : State) : (s.start).tallies = s.tallies := rfl
@[simp] theorem State.start_out (s : State) : (s.start).out = Outputs.quiet := rfl
@[simp] theorem State.start_choices (s : State) : (s.start).choices = s.choices := rfl
@[simp] theorem State.start_pending (s : State) : (s.start).pending = s.pending := rfl

/-! ### untaken -/

@[simp] theorem State.untaken_contain (s : State) : (s.untaken).contain = s.contain := rfl
@[simp] theorem State.untaken_faults (s : State) : (s.untaken).faults = s.faults := rfl
@[simp] theorem State.untaken_decoder (s : State) : (s.untaken).decoder = s.decoder := rfl
@[simp] theorem State.untaken_ranges (s : State) : (s.untaken).ranges = s.ranges := rfl
@[simp] theorem State.untaken_slots (s : State) : (s.untaken).slots = s.slots := rfl
@[simp] theorem State.untaken_contexts (s : State) : (s.untaken).contexts = s.contexts := rfl
@[simp] theorem State.untaken_abort (s : State) : (s.untaken).abort = s.abort := rfl
@[simp] theorem State.untaken_cache (s : State) : (s.untaken).cache = s.cache := rfl
@[simp] theorem State.untaken_expander (s : State) : (s.untaken).expander = s.expander := rfl
@[simp] theorem State.untaken_intake (s : State) : (s.untaken).intake = s.intake := rfl
@[simp] theorem State.untaken_returnPath (s : State) : (s.untaken).returnPath = s.returnPath := rfl
@[simp] theorem State.untaken_media (s : State) : (s.untaken).media = s.media := rfl
@[simp] theorem State.untaken_engines (s : State) : (s.untaken).engines = s.engines := rfl
@[simp] theorem State.untaken_hold (s : State) : (s.untaken).hold = s.hold := rfl
@[simp] theorem State.untaken_time (s : State) : (s.untaken).time = s.time := rfl
@[simp] theorem State.untaken_marks (s : State) : (s.untaken).marks = s.marks := rfl
@[simp] theorem State.untaken_link (s : State) : (s.untaken).link = s.link := rfl
@[simp] theorem State.untaken_events (s : State) : (s.untaken).events = s.events := rfl
@[simp] theorem State.untaken_tallies (s : State) : (s.untaken).tallies = s.tallies := rfl
@[simp] theorem State.untaken_out (s : State) : (s.untaken).out = { Outputs.quiet with taken := false } := rfl
@[simp] theorem State.untaken_choices (s : State) : (s.untaken).choices = s.choices := rfl
@[simp] theorem State.untaken_pending (s : State) : (s.untaken).pending = s.pending := rfl

/-! ### drive -/

@[simp] theorem State.drive_contain (d : MediaDrive) (s : State) : (s.drive d).contain = s.contain := rfl
@[simp] theorem State.drive_faults (d : MediaDrive) (s : State) : (s.drive d).faults = s.faults := rfl
@[simp] theorem State.drive_decoder (d : MediaDrive) (s : State) : (s.drive d).decoder = s.decoder := rfl
@[simp] theorem State.drive_ranges (d : MediaDrive) (s : State) : (s.drive d).ranges = s.ranges := rfl
@[simp] theorem State.drive_slots (d : MediaDrive) (s : State) : (s.drive d).slots = s.slots := rfl
@[simp] theorem State.drive_contexts (d : MediaDrive) (s : State) : (s.drive d).contexts = s.contexts := rfl
@[simp] theorem State.drive_abort (d : MediaDrive) (s : State) : (s.drive d).abort = s.abort := rfl
@[simp] theorem State.drive_cache (d : MediaDrive) (s : State) : (s.drive d).cache = s.cache := rfl
@[simp] theorem State.drive_expander (d : MediaDrive) (s : State) : (s.drive d).expander = s.expander := rfl
@[simp] theorem State.drive_intake (d : MediaDrive) (s : State) : (s.drive d).intake = s.intake := rfl
@[simp] theorem State.drive_returnPath (d : MediaDrive) (s : State) : (s.drive d).returnPath = s.returnPath := rfl
@[simp] theorem State.drive_media (d : MediaDrive) (s : State) : (s.drive d).media = s.media := rfl
@[simp] theorem State.drive_engines (d : MediaDrive) (s : State) : (s.drive d).engines = s.engines := rfl
@[simp] theorem State.drive_hold (d : MediaDrive) (s : State) : (s.drive d).hold = s.hold := rfl
@[simp] theorem State.drive_time (d : MediaDrive) (s : State) : (s.drive d).time = s.time := rfl
@[simp] theorem State.drive_marks (d : MediaDrive) (s : State) : (s.drive d).marks = s.marks := rfl
@[simp] theorem State.drive_link (d : MediaDrive) (s : State) : (s.drive d).link = s.link := rfl
@[simp] theorem State.drive_events (d : MediaDrive) (s : State) : (s.drive d).events = s.events := rfl
@[simp] theorem State.drive_tallies (d : MediaDrive) (s : State) : (s.drive d).tallies = s.tallies := rfl
@[simp] theorem State.drive_out (d : MediaDrive) (s : State) : (s.drive d).out = { s.out with media := s.out.media ++ [d.driven] } := rfl
@[simp] theorem State.drive_choices (d : MediaDrive) (s : State) : (s.drive d).choices = s.choices := rfl
@[simp] theorem State.drive_pending (d : MediaDrive) (s : State) : (s.drive d).pending = s.pending := rfl

/-! ### driveKdo -/

@[simp] theorem State.driveKdo_contain (b : List (Option Bool)) (s : State) : (s.driveKdo b).contain = s.contain := rfl
@[simp] theorem State.driveKdo_faults (b : List (Option Bool)) (s : State) : (s.driveKdo b).faults = s.faults := rfl
@[simp] theorem State.driveKdo_decoder (b : List (Option Bool)) (s : State) : (s.driveKdo b).decoder = s.decoder := rfl
@[simp] theorem State.driveKdo_ranges (b : List (Option Bool)) (s : State) : (s.driveKdo b).ranges = s.ranges := rfl
@[simp] theorem State.driveKdo_slots (b : List (Option Bool)) (s : State) : (s.driveKdo b).slots = s.slots := rfl
@[simp] theorem State.driveKdo_contexts (b : List (Option Bool)) (s : State) : (s.driveKdo b).contexts = s.contexts := rfl
@[simp] theorem State.driveKdo_abort (b : List (Option Bool)) (s : State) : (s.driveKdo b).abort = s.abort := rfl
@[simp] theorem State.driveKdo_cache (b : List (Option Bool)) (s : State) : (s.driveKdo b).cache = s.cache := rfl
@[simp] theorem State.driveKdo_expander (b : List (Option Bool)) (s : State) : (s.driveKdo b).expander = s.expander := rfl
@[simp] theorem State.driveKdo_intake (b : List (Option Bool)) (s : State) : (s.driveKdo b).intake = s.intake := rfl
@[simp] theorem State.driveKdo_returnPath (b : List (Option Bool)) (s : State) : (s.driveKdo b).returnPath = s.returnPath := rfl
@[simp] theorem State.driveKdo_media (b : List (Option Bool)) (s : State) : (s.driveKdo b).media = s.media := rfl
@[simp] theorem State.driveKdo_engines (b : List (Option Bool)) (s : State) : (s.driveKdo b).engines = s.engines := rfl
@[simp] theorem State.driveKdo_hold (b : List (Option Bool)) (s : State) : (s.driveKdo b).hold = s.hold := rfl
@[simp] theorem State.driveKdo_time (b : List (Option Bool)) (s : State) : (s.driveKdo b).time = s.time := rfl
@[simp] theorem State.driveKdo_marks (b : List (Option Bool)) (s : State) : (s.driveKdo b).marks = s.marks := rfl
@[simp] theorem State.driveKdo_link (b : List (Option Bool)) (s : State) : (s.driveKdo b).link = s.link := rfl
@[simp] theorem State.driveKdo_events (b : List (Option Bool)) (s : State) : (s.driveKdo b).events = s.events := rfl
@[simp] theorem State.driveKdo_tallies (b : List (Option Bool)) (s : State) : (s.driveKdo b).tallies = s.tallies := rfl
@[simp] theorem State.driveKdo_out (b : List (Option Bool)) (s : State) : (s.driveKdo b).out = { s.out with kdo := b } := rfl
@[simp] theorem State.driveKdo_choices (b : List (Option Bool)) (s : State) : (s.driveKdo b).choices = s.choices := rfl
@[simp] theorem State.driveKdo_pending (b : List (Option Bool)) (s : State) : (s.driveKdo b).pending = s.pending := rfl

/-! ### answerHeader -/

@[simp] theorem State.answerHeader_contain (a : HeaderAnswer) (s : State) : (s.answerHeader a).contain = s.contain := rfl
@[simp] theorem State.answerHeader_faults (a : HeaderAnswer) (s : State) : (s.answerHeader a).faults = s.faults := rfl
@[simp] theorem State.answerHeader_decoder (a : HeaderAnswer) (s : State) : (s.answerHeader a).decoder = s.decoder := rfl
@[simp] theorem State.answerHeader_ranges (a : HeaderAnswer) (s : State) : (s.answerHeader a).ranges = s.ranges := rfl
@[simp] theorem State.answerHeader_slots (a : HeaderAnswer) (s : State) : (s.answerHeader a).slots = s.slots := rfl
@[simp] theorem State.answerHeader_contexts (a : HeaderAnswer) (s : State) : (s.answerHeader a).contexts = s.contexts := rfl
@[simp] theorem State.answerHeader_abort (a : HeaderAnswer) (s : State) : (s.answerHeader a).abort = s.abort := rfl
@[simp] theorem State.answerHeader_cache (a : HeaderAnswer) (s : State) : (s.answerHeader a).cache = s.cache := rfl
@[simp] theorem State.answerHeader_expander (a : HeaderAnswer) (s : State) : (s.answerHeader a).expander = s.expander := rfl
@[simp] theorem State.answerHeader_intake (a : HeaderAnswer) (s : State) : (s.answerHeader a).intake = s.intake := rfl
@[simp] theorem State.answerHeader_returnPath (a : HeaderAnswer) (s : State) : (s.answerHeader a).returnPath = s.returnPath := rfl
@[simp] theorem State.answerHeader_media (a : HeaderAnswer) (s : State) : (s.answerHeader a).media = s.media := rfl
@[simp] theorem State.answerHeader_engines (a : HeaderAnswer) (s : State) : (s.answerHeader a).engines = s.engines := rfl
@[simp] theorem State.answerHeader_hold (a : HeaderAnswer) (s : State) : (s.answerHeader a).hold = s.hold := rfl
@[simp] theorem State.answerHeader_time (a : HeaderAnswer) (s : State) : (s.answerHeader a).time = s.time := rfl
@[simp] theorem State.answerHeader_marks (a : HeaderAnswer) (s : State) : (s.answerHeader a).marks = s.marks := rfl
@[simp] theorem State.answerHeader_link (a : HeaderAnswer) (s : State) : (s.answerHeader a).link = s.link := rfl
@[simp] theorem State.answerHeader_events (a : HeaderAnswer) (s : State) : (s.answerHeader a).events = s.events := rfl
@[simp] theorem State.answerHeader_tallies (a : HeaderAnswer) (s : State) : (s.answerHeader a).tallies = s.tallies := rfl
@[simp] theorem State.answerHeader_out (a : HeaderAnswer) (s : State) : (s.answerHeader a).out = { s.out with headerAnswer := some a.driven } := rfl
@[simp] theorem State.answerHeader_choices (a : HeaderAnswer) (s : State) : (s.answerHeader a).choices = s.choices := rfl
@[simp] theorem State.answerHeader_pending (a : HeaderAnswer) (s : State) : (s.answerHeader a).pending = s.pending := rfl

/-! ### respond -/

@[simp] theorem State.respond_contain (a : Answer) (s : State) : (s.respond a).contain = s.contain := rfl
@[simp] theorem State.respond_faults (a : Answer) (s : State) : (s.respond a).faults = s.faults := rfl
@[simp] theorem State.respond_decoder (a : Answer) (s : State) : (s.respond a).decoder = s.decoder := rfl
@[simp] theorem State.respond_ranges (a : Answer) (s : State) : (s.respond a).ranges = s.ranges := rfl
@[simp] theorem State.respond_slots (a : Answer) (s : State) : (s.respond a).slots = s.slots := rfl
@[simp] theorem State.respond_contexts (a : Answer) (s : State) : (s.respond a).contexts = s.contexts := rfl
@[simp] theorem State.respond_abort (a : Answer) (s : State) : (s.respond a).abort = s.abort := rfl
@[simp] theorem State.respond_cache (a : Answer) (s : State) : (s.respond a).cache = s.cache := rfl
@[simp] theorem State.respond_expander (a : Answer) (s : State) : (s.respond a).expander = s.expander := rfl
@[simp] theorem State.respond_intake (a : Answer) (s : State) : (s.respond a).intake = s.intake := rfl
@[simp] theorem State.respond_returnPath (a : Answer) (s : State) : (s.respond a).returnPath = s.returnPath := rfl
@[simp] theorem State.respond_media (a : Answer) (s : State) : (s.respond a).media = s.media := rfl
@[simp] theorem State.respond_engines (a : Answer) (s : State) : (s.respond a).engines = s.engines := rfl
@[simp] theorem State.respond_hold (a : Answer) (s : State) : (s.respond a).hold = s.hold := rfl
@[simp] theorem State.respond_time (a : Answer) (s : State) : (s.respond a).time = s.time := rfl
@[simp] theorem State.respond_marks (a : Answer) (s : State) : (s.respond a).marks = s.marks := rfl
@[simp] theorem State.respond_link (a : Answer) (s : State) : (s.respond a).link = .pending a.frame := rfl
@[simp] theorem State.respond_events (a : Answer) (s : State) : (s.respond a).events = s.events := rfl
@[simp] theorem State.respond_tallies (a : Answer) (s : State) : (s.respond a).tallies = s.tallies := rfl
@[simp] theorem State.respond_out (a : Answer) (s : State) : (s.respond a).out = s.out := rfl
@[simp] theorem State.respond_choices (a : Answer) (s : State) : (s.respond a).choices = s.choices := rfl
@[simp] theorem State.respond_pending (a : Answer) (s : State) : (s.respond a).pending = s.pending := rfl

/-! ### raise -/

@[simp] theorem State.raise_contain (e : Event) (s : State) : (State.raise e s).contain = s.contain := rfl
@[simp] theorem State.raise_faults (e : Event) (s : State) : (State.raise e s).faults = s.faults := rfl
@[simp] theorem State.raise_decoder (e : Event) (s : State) : (State.raise e s).decoder = s.decoder := rfl
@[simp] theorem State.raise_ranges (e : Event) (s : State) : (State.raise e s).ranges = s.ranges := rfl
@[simp] theorem State.raise_slots (e : Event) (s : State) : (State.raise e s).slots = s.slots := rfl
@[simp] theorem State.raise_contexts (e : Event) (s : State) : (State.raise e s).contexts = s.contexts := rfl
@[simp] theorem State.raise_abort (e : Event) (s : State) : (State.raise e s).abort = s.abort := rfl
@[simp] theorem State.raise_cache (e : Event) (s : State) : (State.raise e s).cache = s.cache := rfl
@[simp] theorem State.raise_expander (e : Event) (s : State) : (State.raise e s).expander = s.expander := rfl
@[simp] theorem State.raise_intake (e : Event) (s : State) : (State.raise e s).intake = s.intake := rfl
@[simp] theorem State.raise_returnPath (e : Event) (s : State) : (State.raise e s).returnPath = s.returnPath := rfl
@[simp] theorem State.raise_media (e : Event) (s : State) : (State.raise e s).media = s.media := rfl
@[simp] theorem State.raise_engines (e : Event) (s : State) : (State.raise e s).engines = s.engines := rfl
@[simp] theorem State.raise_hold (e : Event) (s : State) : (State.raise e s).hold = s.hold := rfl
@[simp] theorem State.raise_time (e : Event) (s : State) : (State.raise e s).time = s.time := rfl
@[simp] theorem State.raise_marks (e : Event) (s : State) : (State.raise e s).marks = s.marks := rfl
@[simp] theorem State.raise_link (e : Event) (s : State) : (State.raise e s).link = s.link := rfl
@[simp] theorem State.raise_events (e : Event) (s : State) : (State.raise e s).events = .follow (s.events.pending ||| e.bit) s.events.enables := rfl
@[simp] theorem State.raise_tallies (e : Event) (s : State) : (State.raise e s).tallies = s.tallies := rfl
@[simp] theorem State.raise_out (e : Event) (s : State) : (State.raise e s).out = s.out := rfl
@[simp] theorem State.raise_choices (e : Event) (s : State) : (State.raise e s).choices = s.choices := rfl
@[simp] theorem State.raise_pending (e : Event) (s : State) : (State.raise e s).pending = s.pending := rfl

/-! ### clearFlags -/

@[simp] theorem State.clearFlags_contain (e : BitVec 10) (s : State) : (s.clearFlags e).contain = s.contain := rfl
@[simp] theorem State.clearFlags_faults (e : BitVec 10) (s : State) : (s.clearFlags e).faults = s.faults := rfl
@[simp] theorem State.clearFlags_decoder (e : BitVec 10) (s : State) : (s.clearFlags e).decoder = s.decoder := rfl
@[simp] theorem State.clearFlags_ranges (e : BitVec 10) (s : State) : (s.clearFlags e).ranges = s.ranges := rfl
@[simp] theorem State.clearFlags_slots (e : BitVec 10) (s : State) : (s.clearFlags e).slots = s.slots := rfl
@[simp] theorem State.clearFlags_contexts (e : BitVec 10) (s : State) : (s.clearFlags e).contexts = s.contexts := rfl
@[simp] theorem State.clearFlags_abort (e : BitVec 10) (s : State) : (s.clearFlags e).abort = s.abort := rfl
@[simp] theorem State.clearFlags_cache (e : BitVec 10) (s : State) : (s.clearFlags e).cache = s.cache := rfl
@[simp] theorem State.clearFlags_expander (e : BitVec 10) (s : State) : (s.clearFlags e).expander = s.expander := rfl
@[simp] theorem State.clearFlags_intake (e : BitVec 10) (s : State) : (s.clearFlags e).intake = s.intake := rfl
@[simp] theorem State.clearFlags_returnPath (e : BitVec 10) (s : State) : (s.clearFlags e).returnPath = s.returnPath := rfl
@[simp] theorem State.clearFlags_media (e : BitVec 10) (s : State) : (s.clearFlags e).media = s.media := rfl
@[simp] theorem State.clearFlags_engines (e : BitVec 10) (s : State) : (s.clearFlags e).engines = s.engines := rfl
@[simp] theorem State.clearFlags_hold (e : BitVec 10) (s : State) : (s.clearFlags e).hold = s.hold := rfl
@[simp] theorem State.clearFlags_time (e : BitVec 10) (s : State) : (s.clearFlags e).time = s.time := rfl
@[simp] theorem State.clearFlags_marks (e : BitVec 10) (s : State) : (s.clearFlags e).marks = s.marks := rfl
@[simp] theorem State.clearFlags_link (e : BitVec 10) (s : State) : (s.clearFlags e).link = s.link := rfl
@[simp] theorem State.clearFlags_events (e : BitVec 10) (s : State) : (s.clearFlags e).events = .follow (s.events.pending &&& ~~~e) s.events.enables := rfl
@[simp] theorem State.clearFlags_tallies (e : BitVec 10) (s : State) : (s.clearFlags e).tallies = s.tallies := rfl
@[simp] theorem State.clearFlags_out (e : BitVec 10) (s : State) : (s.clearFlags e).out = s.out := rfl
@[simp] theorem State.clearFlags_choices (e : BitVec 10) (s : State) : (s.clearFlags e).choices = s.choices := rfl
@[simp] theorem State.clearFlags_pending (e : BitVec 10) (s : State) : (s.clearFlags e).pending = s.pending := rfl

/-! ### setEnables -/

@[simp] theorem State.setEnables_contain (e : BitVec 10) (s : State) : (s.setEnables e).contain = s.contain := rfl
@[simp] theorem State.setEnables_faults (e : BitVec 10) (s : State) : (s.setEnables e).faults = s.faults := rfl
@[simp] theorem State.setEnables_decoder (e : BitVec 10) (s : State) : (s.setEnables e).decoder = s.decoder := rfl
@[simp] theorem State.setEnables_ranges (e : BitVec 10) (s : State) : (s.setEnables e).ranges = s.ranges := rfl
@[simp] theorem State.setEnables_slots (e : BitVec 10) (s : State) : (s.setEnables e).slots = s.slots := rfl
@[simp] theorem State.setEnables_contexts (e : BitVec 10) (s : State) : (s.setEnables e).contexts = s.contexts := rfl
@[simp] theorem State.setEnables_abort (e : BitVec 10) (s : State) : (s.setEnables e).abort = s.abort := rfl
@[simp] theorem State.setEnables_cache (e : BitVec 10) (s : State) : (s.setEnables e).cache = s.cache := rfl
@[simp] theorem State.setEnables_expander (e : BitVec 10) (s : State) : (s.setEnables e).expander = s.expander := rfl
@[simp] theorem State.setEnables_intake (e : BitVec 10) (s : State) : (s.setEnables e).intake = s.intake := rfl
@[simp] theorem State.setEnables_returnPath (e : BitVec 10) (s : State) : (s.setEnables e).returnPath = s.returnPath := rfl
@[simp] theorem State.setEnables_media (e : BitVec 10) (s : State) : (s.setEnables e).media = s.media := rfl
@[simp] theorem State.setEnables_engines (e : BitVec 10) (s : State) : (s.setEnables e).engines = s.engines := rfl
@[simp] theorem State.setEnables_hold (e : BitVec 10) (s : State) : (s.setEnables e).hold = s.hold := rfl
@[simp] theorem State.setEnables_time (e : BitVec 10) (s : State) : (s.setEnables e).time = s.time := rfl
@[simp] theorem State.setEnables_marks (e : BitVec 10) (s : State) : (s.setEnables e).marks = s.marks := rfl
@[simp] theorem State.setEnables_link (e : BitVec 10) (s : State) : (s.setEnables e).link = s.link := rfl
@[simp] theorem State.setEnables_events (e : BitVec 10) (s : State) : (s.setEnables e).events = .follow s.events.pending e := rfl
@[simp] theorem State.setEnables_tallies (e : BitVec 10) (s : State) : (s.setEnables e).tallies = s.tallies := rfl
@[simp] theorem State.setEnables_out (e : BitVec 10) (s : State) : (s.setEnables e).out = s.out := rfl
@[simp] theorem State.setEnables_choices (e : BitVec 10) (s : State) : (s.setEnables e).choices = s.choices := rfl
@[simp] theorem State.setEnables_pending (e : BitVec 10) (s : State) : (s.setEnables e).pending = s.pending := rfl

/-! ### countParity -/

@[simp] theorem State.countParity_contain (s : State) : (s.countParity).contain = s.contain := rfl
@[simp] theorem State.countParity_faults (s : State) : (s.countParity).faults = s.faults := rfl
@[simp] theorem State.countParity_decoder (s : State) : (s.countParity).decoder = s.decoder := rfl
@[simp] theorem State.countParity_ranges (s : State) : (s.countParity).ranges = s.ranges := rfl
@[simp] theorem State.countParity_slots (s : State) : (s.countParity).slots = s.slots := rfl
@[simp] theorem State.countParity_contexts (s : State) : (s.countParity).contexts = s.contexts := rfl
@[simp] theorem State.countParity_abort (s : State) : (s.countParity).abort = s.abort := rfl
@[simp] theorem State.countParity_cache (s : State) : (s.countParity).cache = s.cache := rfl
@[simp] theorem State.countParity_expander (s : State) : (s.countParity).expander = s.expander := rfl
@[simp] theorem State.countParity_intake (s : State) : (s.countParity).intake = s.intake := rfl
@[simp] theorem State.countParity_returnPath (s : State) : (s.countParity).returnPath = s.returnPath := rfl
@[simp] theorem State.countParity_media (s : State) : (s.countParity).media = s.media := rfl
@[simp] theorem State.countParity_engines (s : State) : (s.countParity).engines = s.engines := rfl
@[simp] theorem State.countParity_hold (s : State) : (s.countParity).hold = s.hold := rfl
@[simp] theorem State.countParity_time (s : State) : (s.countParity).time = s.time := rfl
@[simp] theorem State.countParity_marks (s : State) : (s.countParity).marks = s.marks := rfl
@[simp] theorem State.countParity_link (s : State) : (s.countParity).link = s.link := rfl
@[simp] theorem State.countParity_events (s : State) : (s.countParity).events = .follow (s.events.pending ||| Event.paritySeen.bit) s.events.enables := rfl
@[simp] theorem State.countParity_tallies (s : State) : (s.countParity).tallies = { s.tallies with parity := countUp s.tallies.parity } := rfl
@[simp] theorem State.countParity_out (s : State) : (s.countParity).out = s.out := rfl
@[simp] theorem State.countParity_choices (s : State) : (s.countParity).choices = s.choices := rfl
@[simp] theorem State.countParity_pending (s : State) : (s.countParity).pending = s.pending := rfl

/-! ### countTimeout -/

@[simp] theorem State.countTimeout_contain (s : State) : (s.countTimeout).contain = s.contain := rfl
@[simp] theorem State.countTimeout_faults (s : State) : (s.countTimeout).faults = s.faults := rfl
@[simp] theorem State.countTimeout_decoder (s : State) : (s.countTimeout).decoder = s.decoder := rfl
@[simp] theorem State.countTimeout_ranges (s : State) : (s.countTimeout).ranges = s.ranges := rfl
@[simp] theorem State.countTimeout_slots (s : State) : (s.countTimeout).slots = s.slots := rfl
@[simp] theorem State.countTimeout_contexts (s : State) : (s.countTimeout).contexts = s.contexts := rfl
@[simp] theorem State.countTimeout_abort (s : State) : (s.countTimeout).abort = s.abort := rfl
@[simp] theorem State.countTimeout_cache (s : State) : (s.countTimeout).cache = s.cache := rfl
@[simp] theorem State.countTimeout_expander (s : State) : (s.countTimeout).expander = s.expander := rfl
@[simp] theorem State.countTimeout_intake (s : State) : (s.countTimeout).intake = s.intake := rfl
@[simp] theorem State.countTimeout_returnPath (s : State) : (s.countTimeout).returnPath = s.returnPath := rfl
@[simp] theorem State.countTimeout_media (s : State) : (s.countTimeout).media = s.media := rfl
@[simp] theorem State.countTimeout_engines (s : State) : (s.countTimeout).engines = s.engines := rfl
@[simp] theorem State.countTimeout_hold (s : State) : (s.countTimeout).hold = s.hold := rfl
@[simp] theorem State.countTimeout_time (s : State) : (s.countTimeout).time = s.time := rfl
@[simp] theorem State.countTimeout_marks (s : State) : (s.countTimeout).marks = s.marks := rfl
@[simp] theorem State.countTimeout_link (s : State) : (s.countTimeout).link = s.link := rfl
@[simp] theorem State.countTimeout_events (s : State) : (s.countTimeout).events = .follow (s.events.pending ||| Event.timeoutSeen.bit) s.events.enables := rfl
@[simp] theorem State.countTimeout_tallies (s : State) : (s.countTimeout).tallies = { s.tallies with timeout := countUp s.tallies.timeout } := rfl
@[simp] theorem State.countTimeout_out (s : State) : (s.countTimeout).out = s.out := rfl
@[simp] theorem State.countTimeout_choices (s : State) : (s.countTimeout).choices = s.choices := rfl
@[simp] theorem State.countTimeout_pending (s : State) : (s.countTimeout).pending = s.pending := rfl

/-! ### countRawIgnored -/

@[simp] theorem State.countRawIgnored_contain (s : State) : (s.countRawIgnored).contain = s.contain := rfl
@[simp] theorem State.countRawIgnored_faults (s : State) : (s.countRawIgnored).faults = s.faults := rfl
@[simp] theorem State.countRawIgnored_decoder (s : State) : (s.countRawIgnored).decoder = s.decoder := rfl
@[simp] theorem State.countRawIgnored_ranges (s : State) : (s.countRawIgnored).ranges = s.ranges := rfl
@[simp] theorem State.countRawIgnored_slots (s : State) : (s.countRawIgnored).slots = s.slots := rfl
@[simp] theorem State.countRawIgnored_contexts (s : State) : (s.countRawIgnored).contexts = s.contexts := rfl
@[simp] theorem State.countRawIgnored_abort (s : State) : (s.countRawIgnored).abort = s.abort := rfl
@[simp] theorem State.countRawIgnored_cache (s : State) : (s.countRawIgnored).cache = s.cache := rfl
@[simp] theorem State.countRawIgnored_expander (s : State) : (s.countRawIgnored).expander = s.expander := rfl
@[simp] theorem State.countRawIgnored_intake (s : State) : (s.countRawIgnored).intake = s.intake := rfl
@[simp] theorem State.countRawIgnored_returnPath (s : State) : (s.countRawIgnored).returnPath = s.returnPath := rfl
@[simp] theorem State.countRawIgnored_media (s : State) : (s.countRawIgnored).media = s.media := rfl
@[simp] theorem State.countRawIgnored_engines (s : State) : (s.countRawIgnored).engines = s.engines := rfl
@[simp] theorem State.countRawIgnored_hold (s : State) : (s.countRawIgnored).hold = s.hold := rfl
@[simp] theorem State.countRawIgnored_time (s : State) : (s.countRawIgnored).time = s.time := rfl
@[simp] theorem State.countRawIgnored_marks (s : State) : (s.countRawIgnored).marks = s.marks := rfl
@[simp] theorem State.countRawIgnored_link (s : State) : (s.countRawIgnored).link = s.link := rfl
@[simp] theorem State.countRawIgnored_events (s : State) : (s.countRawIgnored).events = .follow (s.events.pending ||| Event.rawIgnored.bit) s.events.enables := rfl
@[simp] theorem State.countRawIgnored_tallies (s : State) : (s.countRawIgnored).tallies = { s.tallies with rawIgnored := countUp s.tallies.rawIgnored } := rfl
@[simp] theorem State.countRawIgnored_out (s : State) : (s.countRawIgnored).out = s.out := rfl
@[simp] theorem State.countRawIgnored_choices (s : State) : (s.countRawIgnored).choices = s.choices := rfl
@[simp] theorem State.countRawIgnored_pending (s : State) : (s.countRawIgnored).pending = s.pending := rfl

/-! ### logFault -/

@[simp] theorem State.logFault_contain (k : FaultKind) (c : Option Context) (e : Option TableEntry) (x : Option KnownAnswerTest) (s : State) : (s.logFault k c e x).contain = s.contain := rfl
@[simp] theorem State.logFault_faults (k : FaultKind) (c : Option Context) (e : Option TableEntry) (x : Option KnownAnswerTest) (s : State) : (s.logFault k c e x).faults = s.faults.add (faultRecord k s.contain.device c e x) := rfl
@[simp] theorem State.logFault_decoder (k : FaultKind) (c : Option Context) (e : Option TableEntry) (x : Option KnownAnswerTest) (s : State) : (s.logFault k c e x).decoder = s.decoder := rfl
@[simp] theorem State.logFault_ranges (k : FaultKind) (c : Option Context) (e : Option TableEntry) (x : Option KnownAnswerTest) (s : State) : (s.logFault k c e x).ranges = s.ranges := rfl
@[simp] theorem State.logFault_slots (k : FaultKind) (c : Option Context) (e : Option TableEntry) (x : Option KnownAnswerTest) (s : State) : (s.logFault k c e x).slots = s.slots := rfl
@[simp] theorem State.logFault_contexts (k : FaultKind) (c : Option Context) (e : Option TableEntry) (x : Option KnownAnswerTest) (s : State) : (s.logFault k c e x).contexts = s.contexts := rfl
@[simp] theorem State.logFault_abort (k : FaultKind) (c : Option Context) (e : Option TableEntry) (x : Option KnownAnswerTest) (s : State) : (s.logFault k c e x).abort = s.abort := rfl
@[simp] theorem State.logFault_cache (k : FaultKind) (c : Option Context) (e : Option TableEntry) (x : Option KnownAnswerTest) (s : State) : (s.logFault k c e x).cache = s.cache := rfl
@[simp] theorem State.logFault_expander (k : FaultKind) (c : Option Context) (e : Option TableEntry) (x : Option KnownAnswerTest) (s : State) : (s.logFault k c e x).expander = s.expander := rfl
@[simp] theorem State.logFault_intake (k : FaultKind) (c : Option Context) (e : Option TableEntry) (x : Option KnownAnswerTest) (s : State) : (s.logFault k c e x).intake = s.intake := rfl
@[simp] theorem State.logFault_returnPath (k : FaultKind) (c : Option Context) (e : Option TableEntry) (x : Option KnownAnswerTest) (s : State) : (s.logFault k c e x).returnPath = s.returnPath := rfl
@[simp] theorem State.logFault_media (k : FaultKind) (c : Option Context) (e : Option TableEntry) (x : Option KnownAnswerTest) (s : State) : (s.logFault k c e x).media = s.media := rfl
@[simp] theorem State.logFault_engines (k : FaultKind) (c : Option Context) (e : Option TableEntry) (x : Option KnownAnswerTest) (s : State) : (s.logFault k c e x).engines = s.engines := rfl
@[simp] theorem State.logFault_hold (k : FaultKind) (c : Option Context) (e : Option TableEntry) (x : Option KnownAnswerTest) (s : State) : (s.logFault k c e x).hold = s.hold := rfl
@[simp] theorem State.logFault_time (k : FaultKind) (c : Option Context) (e : Option TableEntry) (x : Option KnownAnswerTest) (s : State) : (s.logFault k c e x).time = s.time := rfl
@[simp] theorem State.logFault_marks (k : FaultKind) (c : Option Context) (e : Option TableEntry) (x : Option KnownAnswerTest) (s : State) : (s.logFault k c e x).marks = s.marks := rfl
@[simp] theorem State.logFault_link (k : FaultKind) (c : Option Context) (e : Option TableEntry) (x : Option KnownAnswerTest) (s : State) : (s.logFault k c e x).link = s.link := rfl
@[simp] theorem State.logFault_events (k : FaultKind) (c : Option Context) (e : Option TableEntry) (x : Option KnownAnswerTest) (s : State) : (s.logFault k c e x).events = s.events := rfl
@[simp] theorem State.logFault_tallies (k : FaultKind) (c : Option Context) (e : Option TableEntry) (x : Option KnownAnswerTest) (s : State) : (s.logFault k c e x).tallies = s.tallies := rfl
@[simp] theorem State.logFault_out (k : FaultKind) (c : Option Context) (e : Option TableEntry) (x : Option KnownAnswerTest) (s : State) : (s.logFault k c e x).out = s.out := rfl
@[simp] theorem State.logFault_choices (k : FaultKind) (c : Option Context) (e : Option TableEntry) (x : Option KnownAnswerTest) (s : State) : (s.logFault k c e x).choices = s.choices := rfl
@[simp] theorem State.logFault_pending (k : FaultKind) (c : Option Context) (e : Option TableEntry) (x : Option KnownAnswerTest) (s : State) : (s.logFault k c e x).pending = s.pending := rfl

/-! ### modCtx -/

@[simp] theorem State.modCtx_contain (n : CtxNo) (f : Context → Context) (s : State) : (s.modCtx n f).contain = s.contain := rfl
@[simp] theorem State.modCtx_faults (n : CtxNo) (f : Context → Context) (s : State) : (s.modCtx n f).faults = s.faults := rfl
@[simp] theorem State.modCtx_decoder (n : CtxNo) (f : Context → Context) (s : State) : (s.modCtx n f).decoder = s.decoder := rfl
@[simp] theorem State.modCtx_ranges (n : CtxNo) (f : Context → Context) (s : State) : (s.modCtx n f).ranges = s.ranges := rfl
@[simp] theorem State.modCtx_slots (n : CtxNo) (f : Context → Context) (s : State) : (s.modCtx n f).slots = s.slots := rfl
@[simp] theorem State.modCtx_contexts (n : CtxNo) (f : Context → Context) (s : State) : (s.modCtx n f).contexts = s.contexts.map fun c => if c.number = n then f c else c := rfl
@[simp] theorem State.modCtx_abort (n : CtxNo) (f : Context → Context) (s : State) : (s.modCtx n f).abort = s.abort := rfl
@[simp] theorem State.modCtx_cache (n : CtxNo) (f : Context → Context) (s : State) : (s.modCtx n f).cache = s.cache := rfl
@[simp] theorem State.modCtx_expander (n : CtxNo) (f : Context → Context) (s : State) : (s.modCtx n f).expander = s.expander := rfl
@[simp] theorem State.modCtx_intake (n : CtxNo) (f : Context → Context) (s : State) : (s.modCtx n f).intake = s.intake := rfl
@[simp] theorem State.modCtx_returnPath (n : CtxNo) (f : Context → Context) (s : State) : (s.modCtx n f).returnPath = s.returnPath := rfl
@[simp] theorem State.modCtx_media (n : CtxNo) (f : Context → Context) (s : State) : (s.modCtx n f).media = s.media := rfl
@[simp] theorem State.modCtx_engines (n : CtxNo) (f : Context → Context) (s : State) : (s.modCtx n f).engines = s.engines := rfl
@[simp] theorem State.modCtx_hold (n : CtxNo) (f : Context → Context) (s : State) : (s.modCtx n f).hold = s.hold := rfl
@[simp] theorem State.modCtx_time (n : CtxNo) (f : Context → Context) (s : State) : (s.modCtx n f).time = s.time := rfl
@[simp] theorem State.modCtx_marks (n : CtxNo) (f : Context → Context) (s : State) : (s.modCtx n f).marks = s.marks := rfl
@[simp] theorem State.modCtx_link (n : CtxNo) (f : Context → Context) (s : State) : (s.modCtx n f).link = s.link := rfl
@[simp] theorem State.modCtx_events (n : CtxNo) (f : Context → Context) (s : State) : (s.modCtx n f).events = s.events := rfl
@[simp] theorem State.modCtx_tallies (n : CtxNo) (f : Context → Context) (s : State) : (s.modCtx n f).tallies = s.tallies := rfl
@[simp] theorem State.modCtx_out (n : CtxNo) (f : Context → Context) (s : State) : (s.modCtx n f).out = s.out := rfl
@[simp] theorem State.modCtx_choices (n : CtxNo) (f : Context → Context) (s : State) : (s.modCtx n f).choices = s.choices := rfl
@[simp] theorem State.modCtx_pending (n : CtxNo) (f : Context → Context) (s : State) : (s.modCtx n f).pending = s.pending := rfl

/-! ### unitWaits -/

@[simp] theorem State.unitWaits_contain (n : CtxNo) (s : State) : (s.unitWaits n).contain = s.contain := rfl
@[simp] theorem State.unitWaits_faults (n : CtxNo) (s : State) : (s.unitWaits n).faults = s.faults := rfl
@[simp] theorem State.unitWaits_decoder (n : CtxNo) (s : State) : (s.unitWaits n).decoder = s.decoder := rfl
@[simp] theorem State.unitWaits_ranges (n : CtxNo) (s : State) : (s.unitWaits n).ranges = s.ranges := rfl
@[simp] theorem State.unitWaits_slots (n : CtxNo) (s : State) : (s.unitWaits n).slots = s.slots := rfl
@[simp] theorem State.unitWaits_contexts (n : CtxNo) (s : State) : (s.unitWaits n).contexts = s.contexts.map fun c => if c.number = n then c.withUnitWaiting true else c := rfl
@[simp] theorem State.unitWaits_abort (n : CtxNo) (s : State) : (s.unitWaits n).abort = s.abort := rfl
@[simp] theorem State.unitWaits_cache (n : CtxNo) (s : State) : (s.unitWaits n).cache = s.cache := rfl
@[simp] theorem State.unitWaits_expander (n : CtxNo) (s : State) : (s.unitWaits n).expander = s.expander := rfl
@[simp] theorem State.unitWaits_intake (n : CtxNo) (s : State) : (s.unitWaits n).intake = s.intake := rfl
@[simp] theorem State.unitWaits_returnPath (n : CtxNo) (s : State) : (s.unitWaits n).returnPath = s.returnPath := rfl
@[simp] theorem State.unitWaits_media (n : CtxNo) (s : State) : (s.unitWaits n).media = s.media := rfl
@[simp] theorem State.unitWaits_engines (n : CtxNo) (s : State) : (s.unitWaits n).engines = s.engines := rfl
@[simp] theorem State.unitWaits_hold (n : CtxNo) (s : State) : (s.unitWaits n).hold = s.hold := rfl
@[simp] theorem State.unitWaits_time (n : CtxNo) (s : State) : (s.unitWaits n).time = s.time := rfl
@[simp] theorem State.unitWaits_marks (n : CtxNo) (s : State) : (s.unitWaits n).marks = s.marks := rfl
@[simp] theorem State.unitWaits_link (n : CtxNo) (s : State) : (s.unitWaits n).link = s.link := rfl
@[simp] theorem State.unitWaits_events (n : CtxNo) (s : State) : (s.unitWaits n).events = s.events := rfl
@[simp] theorem State.unitWaits_tallies (n : CtxNo) (s : State) : (s.unitWaits n).tallies = s.tallies := rfl
@[simp] theorem State.unitWaits_out (n : CtxNo) (s : State) : (s.unitWaits n).out = { Outputs.quiet with taken := false } := rfl
@[simp] theorem State.unitWaits_choices (n : CtxNo) (s : State) : (s.unitWaits n).choices = s.choices := rfl
@[simp] theorem State.unitWaits_pending (n : CtxNo) (s : State) : (s.unitWaits n).pending = s.pending := rfl

/-! ### unitDropped -/

@[simp] theorem State.unitDropped_contain (n : CtxNo) (s : State) : (s.unitDropped n).contain = s.contain := rfl
@[simp] theorem State.unitDropped_faults (n : CtxNo) (s : State) : (s.unitDropped n).faults = s.faults := rfl
@[simp] theorem State.unitDropped_decoder (n : CtxNo) (s : State) : (s.unitDropped n).decoder = s.decoder := rfl
@[simp] theorem State.unitDropped_ranges (n : CtxNo) (s : State) : (s.unitDropped n).ranges = s.ranges := rfl
@[simp] theorem State.unitDropped_slots (n : CtxNo) (s : State) : (s.unitDropped n).slots = s.slots := rfl
@[simp] theorem State.unitDropped_contexts (n : CtxNo) (s : State) : (s.unitDropped n).contexts = s.contexts.map fun c => if c.number = n then c.withUnitWaiting false else c := rfl
@[simp] theorem State.unitDropped_abort (n : CtxNo) (s : State) : (s.unitDropped n).abort = s.abort := rfl
@[simp] theorem State.unitDropped_cache (n : CtxNo) (s : State) : (s.unitDropped n).cache = s.cache := rfl
@[simp] theorem State.unitDropped_expander (n : CtxNo) (s : State) : (s.unitDropped n).expander = s.expander := rfl
@[simp] theorem State.unitDropped_intake (n : CtxNo) (s : State) : (s.unitDropped n).intake = s.intake := rfl
@[simp] theorem State.unitDropped_returnPath (n : CtxNo) (s : State) : (s.unitDropped n).returnPath = s.returnPath := rfl
@[simp] theorem State.unitDropped_media (n : CtxNo) (s : State) : (s.unitDropped n).media = s.media := rfl
@[simp] theorem State.unitDropped_engines (n : CtxNo) (s : State) : (s.unitDropped n).engines = s.engines := rfl
@[simp] theorem State.unitDropped_hold (n : CtxNo) (s : State) : (s.unitDropped n).hold = s.hold := rfl
@[simp] theorem State.unitDropped_time (n : CtxNo) (s : State) : (s.unitDropped n).time = s.time := rfl
@[simp] theorem State.unitDropped_marks (n : CtxNo) (s : State) : (s.unitDropped n).marks = s.marks := rfl
@[simp] theorem State.unitDropped_link (n : CtxNo) (s : State) : (s.unitDropped n).link = s.link := rfl
@[simp] theorem State.unitDropped_events (n : CtxNo) (s : State) : (s.unitDropped n).events = s.events := rfl
@[simp] theorem State.unitDropped_tallies (n : CtxNo) (s : State) : (s.unitDropped n).tallies = s.tallies := rfl
@[simp] theorem State.unitDropped_out (n : CtxNo) (s : State) : (s.unitDropped n).out = Outputs.quiet := rfl
@[simp] theorem State.unitDropped_choices (n : CtxNo) (s : State) : (s.unitDropped n).choices = s.choices := rfl
@[simp] theorem State.unitDropped_pending (n : CtxNo) (s : State) : (s.unitDropped n).pending = s.pending := rfl

/-! ### dropCtx -/

@[simp] theorem State.dropCtx_contain (n : CtxNo) (s : State) : (s.dropCtx n).contain = s.contain := rfl
@[simp] theorem State.dropCtx_faults (n : CtxNo) (s : State) : (s.dropCtx n).faults = s.faults := rfl
@[simp] theorem State.dropCtx_decoder (n : CtxNo) (s : State) : (s.dropCtx n).decoder = s.decoder := rfl
@[simp] theorem State.dropCtx_ranges (n : CtxNo) (s : State) : (s.dropCtx n).ranges = s.ranges := rfl
@[simp] theorem State.dropCtx_slots (n : CtxNo) (s : State) : (s.dropCtx n).slots = s.slots := rfl
@[simp] theorem State.dropCtx_contexts (n : CtxNo) (s : State) : (s.dropCtx n).contexts = s.contexts.filter fun c => c.number ≠ n := rfl
@[simp] theorem State.dropCtx_abort (n : CtxNo) (s : State) : (s.dropCtx n).abort = s.abort := rfl
@[simp] theorem State.dropCtx_cache (n : CtxNo) (s : State) : (s.dropCtx n).cache = s.cache := rfl
@[simp] theorem State.dropCtx_expander (n : CtxNo) (s : State) : (s.dropCtx n).expander = s.expander := rfl
@[simp] theorem State.dropCtx_intake (n : CtxNo) (s : State) : (s.dropCtx n).intake = s.intake := rfl
@[simp] theorem State.dropCtx_returnPath (n : CtxNo) (s : State) : (s.dropCtx n).returnPath = s.returnPath := rfl
@[simp] theorem State.dropCtx_media (n : CtxNo) (s : State) : (s.dropCtx n).media = s.media := rfl
@[simp] theorem State.dropCtx_engines (n : CtxNo) (s : State) : (s.dropCtx n).engines = s.engines := rfl
@[simp] theorem State.dropCtx_hold (n : CtxNo) (s : State) : (s.dropCtx n).hold = s.hold := rfl
@[simp] theorem State.dropCtx_time (n : CtxNo) (s : State) : (s.dropCtx n).time = s.time := rfl
@[simp] theorem State.dropCtx_marks (n : CtxNo) (s : State) : (s.dropCtx n).marks = s.marks := rfl
@[simp] theorem State.dropCtx_link (n : CtxNo) (s : State) : (s.dropCtx n).link = s.link := rfl
@[simp] theorem State.dropCtx_events (n : CtxNo) (s : State) : (s.dropCtx n).events = s.events := rfl
@[simp] theorem State.dropCtx_tallies (n : CtxNo) (s : State) : (s.dropCtx n).tallies = s.tallies := rfl
@[simp] theorem State.dropCtx_out (n : CtxNo) (s : State) : (s.dropCtx n).out = s.out := rfl
@[simp] theorem State.dropCtx_choices (n : CtxNo) (s : State) : (s.dropCtx n).choices = s.choices := rfl
@[simp] theorem State.dropCtx_pending (n : CtxNo) (s : State) : (s.dropCtx n).pending = s.pending := rfl

/-! ### addContext -/

@[simp] theorem State.addContext_contain (c : Context) (s : State) : (s.addContext c).contain = s.contain := rfl
@[simp] theorem State.addContext_faults (c : Context) (s : State) : (s.addContext c).faults = s.faults := rfl
@[simp] theorem State.addContext_decoder (c : Context) (s : State) : (s.addContext c).decoder = s.decoder := rfl
@[simp] theorem State.addContext_ranges (c : Context) (s : State) : (s.addContext c).ranges = s.ranges := rfl
@[simp] theorem State.addContext_slots (c : Context) (s : State) : (s.addContext c).slots = s.slots := rfl
@[simp] theorem State.addContext_contexts (c : Context) (s : State) : (s.addContext c).contexts = s.contexts ++ [c] := rfl
@[simp] theorem State.addContext_abort (c : Context) (s : State) : (s.addContext c).abort = s.abort := rfl
@[simp] theorem State.addContext_cache (c : Context) (s : State) : (s.addContext c).cache = s.cache := rfl
@[simp] theorem State.addContext_expander (c : Context) (s : State) : (s.addContext c).expander = s.expander := rfl
@[simp] theorem State.addContext_intake (c : Context) (s : State) : (s.addContext c).intake = intakeAfter c.kind c.number c.state := rfl
@[simp] theorem State.addContext_returnPath (c : Context) (s : State) : (s.addContext c).returnPath = s.returnPath := rfl
@[simp] theorem State.addContext_media (c : Context) (s : State) : (s.addContext c).media = s.media := rfl
@[simp] theorem State.addContext_engines (c : Context) (s : State) : (s.addContext c).engines = s.engines := rfl
@[simp] theorem State.addContext_hold (c : Context) (s : State) : (s.addContext c).hold = s.hold := rfl
@[simp] theorem State.addContext_time (c : Context) (s : State) : (s.addContext c).time = s.time := rfl
@[simp] theorem State.addContext_marks (c : Context) (s : State) : (s.addContext c).marks = s.marks := rfl
@[simp] theorem State.addContext_link (c : Context) (s : State) : (s.addContext c).link = s.link := rfl
@[simp] theorem State.addContext_events (c : Context) (s : State) : (s.addContext c).events = s.events := rfl
@[simp] theorem State.addContext_tallies (c : Context) (s : State) : (s.addContext c).tallies = s.tallies := rfl
@[simp] theorem State.addContext_out (c : Context) (s : State) : (s.addContext c).out = s.out := rfl
@[simp] theorem State.addContext_choices (c : Context) (s : State) : (s.addContext c).choices = s.choices := rfl
@[simp] theorem State.addContext_pending (c : Context) (s : State) : (s.addContext c).pending = s.pending := rfl

/-! ### writeWindow -/

@[simp] theorem State.writeWindow_contain (i : WindowNo) (w : Window) (s : State) : (s.writeWindow i w).contain = s.contain := rfl
@[simp] theorem State.writeWindow_faults (i : WindowNo) (w : Window) (s : State) : (s.writeWindow i w).faults = s.faults := rfl
@[simp] theorem State.writeWindow_decoder (i : WindowNo) (w : Window) (s : State) : (s.writeWindow i w).decoder = { s.decoder with windows := s.decoder.windows.set i (w.sealed i) } := rfl
@[simp] theorem State.writeWindow_ranges (i : WindowNo) (w : Window) (s : State) : (s.writeWindow i w).ranges = s.ranges := rfl
@[simp] theorem State.writeWindow_slots (i : WindowNo) (w : Window) (s : State) : (s.writeWindow i w).slots = s.slots := rfl
@[simp] theorem State.writeWindow_contexts (i : WindowNo) (w : Window) (s : State) : (s.writeWindow i w).contexts = s.contexts := rfl
@[simp] theorem State.writeWindow_abort (i : WindowNo) (w : Window) (s : State) : (s.writeWindow i w).abort = s.abort := rfl
@[simp] theorem State.writeWindow_cache (i : WindowNo) (w : Window) (s : State) : (s.writeWindow i w).cache = s.cache := rfl
@[simp] theorem State.writeWindow_expander (i : WindowNo) (w : Window) (s : State) : (s.writeWindow i w).expander = s.expander := rfl
@[simp] theorem State.writeWindow_intake (i : WindowNo) (w : Window) (s : State) : (s.writeWindow i w).intake = s.intake := rfl
@[simp] theorem State.writeWindow_returnPath (i : WindowNo) (w : Window) (s : State) : (s.writeWindow i w).returnPath = s.returnPath := rfl
@[simp] theorem State.writeWindow_media (i : WindowNo) (w : Window) (s : State) : (s.writeWindow i w).media = s.media := rfl
@[simp] theorem State.writeWindow_engines (i : WindowNo) (w : Window) (s : State) : (s.writeWindow i w).engines = s.engines := rfl
@[simp] theorem State.writeWindow_hold (i : WindowNo) (w : Window) (s : State) : (s.writeWindow i w).hold = s.hold := rfl
@[simp] theorem State.writeWindow_time (i : WindowNo) (w : Window) (s : State) : (s.writeWindow i w).time = s.time := rfl
@[simp] theorem State.writeWindow_marks (i : WindowNo) (w : Window) (s : State) : (s.writeWindow i w).marks = s.marks := rfl
@[simp] theorem State.writeWindow_link (i : WindowNo) (w : Window) (s : State) : (s.writeWindow i w).link = s.link := rfl
@[simp] theorem State.writeWindow_events (i : WindowNo) (w : Window) (s : State) : (s.writeWindow i w).events = s.events := rfl
@[simp] theorem State.writeWindow_tallies (i : WindowNo) (w : Window) (s : State) : (s.writeWindow i w).tallies = s.tallies := rfl
@[simp] theorem State.writeWindow_out (i : WindowNo) (w : Window) (s : State) : (s.writeWindow i w).out = s.out := rfl
@[simp] theorem State.writeWindow_choices (i : WindowNo) (w : Window) (s : State) : (s.writeWindow i w).choices = s.choices := rfl
@[simp] theorem State.writeWindow_pending (i : WindowNo) (w : Window) (s : State) : (s.writeWindow i w).pending = s.pending := rfl

/-! ### writeRange -/

@[simp] theorem State.writeRange_contain (i : RangeNo) (r : Range) (s : State) : (s.writeRange i r).contain = s.contain := rfl
@[simp] theorem State.writeRange_faults (i : RangeNo) (r : Range) (s : State) : (s.writeRange i r).faults = s.faults := rfl
@[simp] theorem State.writeRange_decoder (i : RangeNo) (r : Range) (s : State) : (s.writeRange i r).decoder = s.decoder := rfl
@[simp] theorem State.writeRange_ranges (i : RangeNo) (r : Range) (s : State) : (s.writeRange i r).ranges = s.ranges.set i (r.sealed i) := rfl
@[simp] theorem State.writeRange_slots (i : RangeNo) (r : Range) (s : State) : (s.writeRange i r).slots = s.slots := rfl
@[simp] theorem State.writeRange_contexts (i : RangeNo) (r : Range) (s : State) : (s.writeRange i r).contexts = s.contexts := rfl
@[simp] theorem State.writeRange_abort (i : RangeNo) (r : Range) (s : State) : (s.writeRange i r).abort = s.abort := rfl
@[simp] theorem State.writeRange_cache (i : RangeNo) (r : Range) (s : State) : (s.writeRange i r).cache = s.cache := rfl
@[simp] theorem State.writeRange_expander (i : RangeNo) (r : Range) (s : State) : (s.writeRange i r).expander = s.expander := rfl
@[simp] theorem State.writeRange_intake (i : RangeNo) (r : Range) (s : State) : (s.writeRange i r).intake = s.intake := rfl
@[simp] theorem State.writeRange_returnPath (i : RangeNo) (r : Range) (s : State) : (s.writeRange i r).returnPath = s.returnPath := rfl
@[simp] theorem State.writeRange_media (i : RangeNo) (r : Range) (s : State) : (s.writeRange i r).media = s.media := rfl
@[simp] theorem State.writeRange_engines (i : RangeNo) (r : Range) (s : State) : (s.writeRange i r).engines = s.engines := rfl
@[simp] theorem State.writeRange_hold (i : RangeNo) (r : Range) (s : State) : (s.writeRange i r).hold = s.hold := rfl
@[simp] theorem State.writeRange_time (i : RangeNo) (r : Range) (s : State) : (s.writeRange i r).time = s.time := rfl
@[simp] theorem State.writeRange_marks (i : RangeNo) (r : Range) (s : State) : (s.writeRange i r).marks = s.marks := rfl
@[simp] theorem State.writeRange_link (i : RangeNo) (r : Range) (s : State) : (s.writeRange i r).link = s.link := rfl
@[simp] theorem State.writeRange_events (i : RangeNo) (r : Range) (s : State) : (s.writeRange i r).events = s.events := rfl
@[simp] theorem State.writeRange_tallies (i : RangeNo) (r : Range) (s : State) : (s.writeRange i r).tallies = s.tallies := rfl
@[simp] theorem State.writeRange_out (i : RangeNo) (r : Range) (s : State) : (s.writeRange i r).out = s.out := rfl
@[simp] theorem State.writeRange_choices (i : RangeNo) (r : Range) (s : State) : (s.writeRange i r).choices = s.choices := rfl
@[simp] theorem State.writeRange_pending (i : RangeNo) (r : Range) (s : State) : (s.writeRange i r).pending = s.pending := rfl

/-! ### writeSlot -/

@[simp] theorem State.writeSlot_contain (k : SlotNo) (r : Slot) (s : State) : (s.writeSlot k r).contain = s.contain := rfl
@[simp] theorem State.writeSlot_faults (k : SlotNo) (r : Slot) (s : State) : (s.writeSlot k r).faults = s.faults := rfl
@[simp] theorem State.writeSlot_decoder (k : SlotNo) (r : Slot) (s : State) : (s.writeSlot k r).decoder = s.decoder := rfl
@[simp] theorem State.writeSlot_ranges (k : SlotNo) (r : Slot) (s : State) : (s.writeSlot k r).ranges = s.ranges := rfl
@[simp] theorem State.writeSlot_slots (k : SlotNo) (r : Slot) (s : State) : (s.writeSlot k r).slots = s.slots.set k (r.sealed k) := rfl
@[simp] theorem State.writeSlot_contexts (k : SlotNo) (r : Slot) (s : State) : (s.writeSlot k r).contexts = s.contexts := rfl
@[simp] theorem State.writeSlot_abort (k : SlotNo) (r : Slot) (s : State) : (s.writeSlot k r).abort = s.abort := rfl
@[simp] theorem State.writeSlot_cache (k : SlotNo) (r : Slot) (s : State) : (s.writeSlot k r).cache = s.cache := rfl
@[simp] theorem State.writeSlot_expander (k : SlotNo) (r : Slot) (s : State) : (s.writeSlot k r).expander = s.expander := rfl
@[simp] theorem State.writeSlot_intake (k : SlotNo) (r : Slot) (s : State) : (s.writeSlot k r).intake = s.intake := rfl
@[simp] theorem State.writeSlot_returnPath (k : SlotNo) (r : Slot) (s : State) : (s.writeSlot k r).returnPath = s.returnPath := rfl
@[simp] theorem State.writeSlot_media (k : SlotNo) (r : Slot) (s : State) : (s.writeSlot k r).media = s.media := rfl
@[simp] theorem State.writeSlot_engines (k : SlotNo) (r : Slot) (s : State) : (s.writeSlot k r).engines = s.engines := rfl
@[simp] theorem State.writeSlot_hold (k : SlotNo) (r : Slot) (s : State) : (s.writeSlot k r).hold = s.hold := rfl
@[simp] theorem State.writeSlot_time (k : SlotNo) (r : Slot) (s : State) : (s.writeSlot k r).time = s.time := rfl
@[simp] theorem State.writeSlot_marks (k : SlotNo) (r : Slot) (s : State) : (s.writeSlot k r).marks = s.marks := rfl
@[simp] theorem State.writeSlot_link (k : SlotNo) (r : Slot) (s : State) : (s.writeSlot k r).link = s.link := rfl
@[simp] theorem State.writeSlot_events (k : SlotNo) (r : Slot) (s : State) : (s.writeSlot k r).events = s.events := rfl
@[simp] theorem State.writeSlot_tallies (k : SlotNo) (r : Slot) (s : State) : (s.writeSlot k r).tallies = s.tallies := rfl
@[simp] theorem State.writeSlot_out (k : SlotNo) (r : Slot) (s : State) : (s.writeSlot k r).out = s.out := rfl
@[simp] theorem State.writeSlot_choices (k : SlotNo) (r : Slot) (s : State) : (s.writeSlot k r).choices = s.choices := rfl
@[simp] theorem State.writeSlot_pending (k : SlotNo) (r : Slot) (s : State) : (s.writeSlot k r).pending = s.pending := rfl

/-! ### lockRanges -/

@[simp] theorem State.lockRanges_contain (p : Range → Bool) (s : State) : (s.lockRanges p).contain = s.contain := rfl
@[simp] theorem State.lockRanges_faults (p : Range → Bool) (s : State) : (s.lockRanges p).faults = s.faults := rfl
@[simp] theorem State.lockRanges_decoder (p : Range → Bool) (s : State) : (s.lockRanges p).decoder = s.decoder := rfl
@[simp] theorem State.lockRanges_ranges (p : Range → Bool) (s : State) : (s.lockRanges p).ranges = Vector.ofFn fun i => if p s.ranges[i] then s.ranges[i].lock i else s.ranges[i] := rfl
@[simp] theorem State.lockRanges_slots (p : Range → Bool) (s : State) : (s.lockRanges p).slots = s.slots := rfl
@[simp] theorem State.lockRanges_contexts (p : Range → Bool) (s : State) : (s.lockRanges p).contexts = s.contexts := rfl
@[simp] theorem State.lockRanges_abort (p : Range → Bool) (s : State) : (s.lockRanges p).abort = s.abort := rfl
@[simp] theorem State.lockRanges_cache (p : Range → Bool) (s : State) : (s.lockRanges p).cache = s.cache := rfl
@[simp] theorem State.lockRanges_expander (p : Range → Bool) (s : State) : (s.lockRanges p).expander = s.expander := rfl
@[simp] theorem State.lockRanges_intake (p : Range → Bool) (s : State) : (s.lockRanges p).intake = s.intake := rfl
@[simp] theorem State.lockRanges_returnPath (p : Range → Bool) (s : State) : (s.lockRanges p).returnPath = s.returnPath := rfl
@[simp] theorem State.lockRanges_media (p : Range → Bool) (s : State) : (s.lockRanges p).media = s.media := rfl
@[simp] theorem State.lockRanges_engines (p : Range → Bool) (s : State) : (s.lockRanges p).engines = s.engines := rfl
@[simp] theorem State.lockRanges_hold (p : Range → Bool) (s : State) : (s.lockRanges p).hold = s.hold := rfl
@[simp] theorem State.lockRanges_time (p : Range → Bool) (s : State) : (s.lockRanges p).time = s.time := rfl
@[simp] theorem State.lockRanges_marks (p : Range → Bool) (s : State) : (s.lockRanges p).marks = s.marks := rfl
@[simp] theorem State.lockRanges_link (p : Range → Bool) (s : State) : (s.lockRanges p).link = s.link := rfl
@[simp] theorem State.lockRanges_events (p : Range → Bool) (s : State) : (s.lockRanges p).events = s.events := rfl
@[simp] theorem State.lockRanges_tallies (p : Range → Bool) (s : State) : (s.lockRanges p).tallies = s.tallies := rfl
@[simp] theorem State.lockRanges_out (p : Range → Bool) (s : State) : (s.lockRanges p).out = s.out := rfl
@[simp] theorem State.lockRanges_choices (p : Range → Bool) (s : State) : (s.lockRanges p).choices = s.choices := rfl
@[simp] theorem State.lockRanges_pending (p : Range → Bool) (s : State) : (s.lockRanges p).pending = s.pending := rfl

/-! ### putSet -/

@[simp] theorem State.putSet_contain (i : Fin 4) (c : CacheSet) (s : State) : (s.putSet i c).contain = s.contain := rfl
@[simp] theorem State.putSet_faults (i : Fin 4) (c : CacheSet) (s : State) : (s.putSet i c).faults = s.faults := rfl
@[simp] theorem State.putSet_decoder (i : Fin 4) (c : CacheSet) (s : State) : (s.putSet i c).decoder = s.decoder := rfl
@[simp] theorem State.putSet_ranges (i : Fin 4) (c : CacheSet) (s : State) : (s.putSet i c).ranges = s.ranges := rfl
@[simp] theorem State.putSet_slots (i : Fin 4) (c : CacheSet) (s : State) : (s.putSet i c).slots = s.slots := rfl
@[simp] theorem State.putSet_contexts (i : Fin 4) (c : CacheSet) (s : State) : (s.putSet i c).contexts = s.contexts := rfl
@[simp] theorem State.putSet_abort (i : Fin 4) (c : CacheSet) (s : State) : (s.putSet i c).abort = s.abort := rfl
@[simp] theorem State.putSet_cache (i : Fin 4) (c : CacheSet) (s : State) : (s.putSet i c).cache = s.cache.set i c := rfl
@[simp] theorem State.putSet_expander (i : Fin 4) (c : CacheSet) (s : State) : (s.putSet i c).expander = s.expander := rfl
@[simp] theorem State.putSet_intake (i : Fin 4) (c : CacheSet) (s : State) : (s.putSet i c).intake = s.intake := rfl
@[simp] theorem State.putSet_returnPath (i : Fin 4) (c : CacheSet) (s : State) : (s.putSet i c).returnPath = s.returnPath := rfl
@[simp] theorem State.putSet_media (i : Fin 4) (c : CacheSet) (s : State) : (s.putSet i c).media = s.media := rfl
@[simp] theorem State.putSet_engines (i : Fin 4) (c : CacheSet) (s : State) : (s.putSet i c).engines = s.engines := rfl
@[simp] theorem State.putSet_hold (i : Fin 4) (c : CacheSet) (s : State) : (s.putSet i c).hold = s.hold := rfl
@[simp] theorem State.putSet_time (i : Fin 4) (c : CacheSet) (s : State) : (s.putSet i c).time = s.time := rfl
@[simp] theorem State.putSet_marks (i : Fin 4) (c : CacheSet) (s : State) : (s.putSet i c).marks = s.marks := rfl
@[simp] theorem State.putSet_link (i : Fin 4) (c : CacheSet) (s : State) : (s.putSet i c).link = s.link := rfl
@[simp] theorem State.putSet_events (i : Fin 4) (c : CacheSet) (s : State) : (s.putSet i c).events = s.events := rfl
@[simp] theorem State.putSet_tallies (i : Fin 4) (c : CacheSet) (s : State) : (s.putSet i c).tallies = s.tallies := rfl
@[simp] theorem State.putSet_out (i : Fin 4) (c : CacheSet) (s : State) : (s.putSet i c).out = s.out := rfl
@[simp] theorem State.putSet_choices (i : Fin 4) (c : CacheSet) (s : State) : (s.putSet i c).choices = s.choices := rfl
@[simp] theorem State.putSet_pending (i : Fin 4) (c : CacheSet) (s : State) : (s.putSet i c).pending = s.pending := rfl

/-! ### discardEntries -/

@[simp] theorem State.discardEntries_contain (p : Entry → Bool) (s : State) : (s.discardEntries p).contain = s.contain := rfl
@[simp] theorem State.discardEntries_faults (p : Entry → Bool) (s : State) : (s.discardEntries p).faults = s.faults := rfl
@[simp] theorem State.discardEntries_decoder (p : Entry → Bool) (s : State) : (s.discardEntries p).decoder = s.decoder := rfl
@[simp] theorem State.discardEntries_ranges (p : Entry → Bool) (s : State) : (s.discardEntries p).ranges = s.ranges := rfl
@[simp] theorem State.discardEntries_slots (p : Entry → Bool) (s : State) : (s.discardEntries p).slots = s.slots := rfl
@[simp] theorem State.discardEntries_contexts (p : Entry → Bool) (s : State) : (s.discardEntries p).contexts = s.contexts := rfl
@[simp] theorem State.discardEntries_abort (p : Entry → Bool) (s : State) : (s.discardEntries p).abort = s.abort := rfl
@[simp] theorem State.discardEntries_cache (p : Entry → Bool) (s : State) : (s.discardEntries p).cache = Vector.ofFn fun i => s.cache[i].discard p := rfl
@[simp] theorem State.discardEntries_expander (p : Entry → Bool) (s : State) : (s.discardEntries p).expander = s.expander := rfl
@[simp] theorem State.discardEntries_intake (p : Entry → Bool) (s : State) : (s.discardEntries p).intake = s.intake := rfl
@[simp] theorem State.discardEntries_returnPath (p : Entry → Bool) (s : State) : (s.discardEntries p).returnPath = s.returnPath := rfl
@[simp] theorem State.discardEntries_media (p : Entry → Bool) (s : State) : (s.discardEntries p).media = s.media := rfl
@[simp] theorem State.discardEntries_engines (p : Entry → Bool) (s : State) : (s.discardEntries p).engines = s.engines := rfl
@[simp] theorem State.discardEntries_hold (p : Entry → Bool) (s : State) : (s.discardEntries p).hold = s.hold := rfl
@[simp] theorem State.discardEntries_time (p : Entry → Bool) (s : State) : (s.discardEntries p).time = s.time := rfl
@[simp] theorem State.discardEntries_marks (p : Entry → Bool) (s : State) : (s.discardEntries p).marks = s.marks := rfl
@[simp] theorem State.discardEntries_link (p : Entry → Bool) (s : State) : (s.discardEntries p).link = s.link := rfl
@[simp] theorem State.discardEntries_events (p : Entry → Bool) (s : State) : (s.discardEntries p).events = s.events := rfl
@[simp] theorem State.discardEntries_tallies (p : Entry → Bool) (s : State) : (s.discardEntries p).tallies = s.tallies := rfl
@[simp] theorem State.discardEntries_out (p : Entry → Bool) (s : State) : (s.discardEntries p).out = s.out := rfl
@[simp] theorem State.discardEntries_choices (p : Entry → Bool) (s : State) : (s.discardEntries p).choices = s.choices := rfl
@[simp] theorem State.discardEntries_pending (p : Entry → Bool) (s : State) : (s.discardEntries p).pending = s.pending := rfl

/-! ### hand -/

@[simp] theorem State.hand_contain (x : ReturnItem) (s : State) : (s.hand x).contain = s.contain := rfl
@[simp] theorem State.hand_faults (x : ReturnItem) (s : State) : (s.hand x).faults = s.faults := rfl
@[simp] theorem State.hand_decoder (x : ReturnItem) (s : State) : (s.hand x).decoder = s.decoder := rfl
@[simp] theorem State.hand_ranges (x : ReturnItem) (s : State) : (s.hand x).ranges = s.ranges := rfl
@[simp] theorem State.hand_slots (x : ReturnItem) (s : State) : (s.hand x).slots = s.slots := rfl
@[simp] theorem State.hand_contexts (x : ReturnItem) (s : State) : (s.hand x).contexts = s.contexts := rfl
@[simp] theorem State.hand_abort (x : ReturnItem) (s : State) : (s.hand x).abort = s.abort := rfl
@[simp] theorem State.hand_cache (x : ReturnItem) (s : State) : (s.hand x).cache = s.cache := rfl
@[simp] theorem State.hand_expander (x : ReturnItem) (s : State) : (s.hand x).expander = s.expander := rfl
@[simp] theorem State.hand_intake (x : ReturnItem) (s : State) : (s.hand x).intake = s.intake := rfl
@[simp] theorem State.hand_returnPath (x : ReturnItem) (s : State) : (s.hand x).returnPath = s.returnPath ++ [x] := rfl
@[simp] theorem State.hand_media (x : ReturnItem) (s : State) : (s.hand x).media = s.media := rfl
@[simp] theorem State.hand_engines (x : ReturnItem) (s : State) : (s.hand x).engines = s.engines := rfl
@[simp] theorem State.hand_hold (x : ReturnItem) (s : State) : (s.hand x).hold = s.hold := rfl
@[simp] theorem State.hand_time (x : ReturnItem) (s : State) : (s.hand x).time = s.time := rfl
@[simp] theorem State.hand_marks (x : ReturnItem) (s : State) : (s.hand x).marks = s.marks := rfl
@[simp] theorem State.hand_link (x : ReturnItem) (s : State) : (s.hand x).link = s.link := rfl
@[simp] theorem State.hand_events (x : ReturnItem) (s : State) : (s.hand x).events = s.events := rfl
@[simp] theorem State.hand_tallies (x : ReturnItem) (s : State) : (s.hand x).tallies = s.tallies := rfl
@[simp] theorem State.hand_out (x : ReturnItem) (s : State) : (s.hand x).out = s.out := rfl
@[simp] theorem State.hand_choices (x : ReturnItem) (s : State) : (s.hand x).choices = s.choices := rfl
@[simp] theorem State.hand_pending (x : ReturnItem) (s : State) : (s.hand x).pending = s.pending := rfl

/-! ### discardWork -/

@[simp] theorem State.discardWork_contain (n : CtxNo) (s : State) : (s.discardWork n).contain = s.contain := rfl
@[simp] theorem State.discardWork_faults (n : CtxNo) (s : State) : (s.discardWork n).faults = s.faults := rfl
@[simp] theorem State.discardWork_decoder (n : CtxNo) (s : State) : (s.discardWork n).decoder = s.decoder := rfl
@[simp] theorem State.discardWork_ranges (n : CtxNo) (s : State) : (s.discardWork n).ranges = s.ranges := rfl
@[simp] theorem State.discardWork_slots (n : CtxNo) (s : State) : (s.discardWork n).slots = s.slots := rfl
@[simp] theorem State.discardWork_contexts (n : CtxNo) (s : State) : (s.discardWork n).contexts = s.contexts := rfl
@[simp] theorem State.discardWork_abort (n : CtxNo) (s : State) : (s.discardWork n).abort = s.abort := rfl
@[simp] theorem State.discardWork_cache (n : CtxNo) (s : State) : (s.discardWork n).cache = s.cache := rfl
@[simp] theorem State.discardWork_expander (n : CtxNo) (s : State) : (s.discardWork n).expander = s.expander.detach n := rfl
@[simp] theorem State.discardWork_intake (n : CtxNo) (s : State) : (s.discardWork n).intake = s.intake := rfl
@[simp] theorem State.discardWork_returnPath (n : CtxNo) (s : State) : (s.discardWork n).returnPath = s.returnPath := rfl
@[simp] theorem State.discardWork_media (n : CtxNo) (s : State) : (s.discardWork n).media = s.media.abandon n := rfl
@[simp] theorem State.discardWork_engines (n : CtxNo) (s : State) : (s.discardWork n).engines = s.engines.discardUnits n := rfl
@[simp] theorem State.discardWork_hold (n : CtxNo) (s : State) : (s.discardWork n).hold = s.hold.filter fun h => h.ctx ≠ n := rfl
@[simp] theorem State.discardWork_time (n : CtxNo) (s : State) : (s.discardWork n).time = s.time := rfl
@[simp] theorem State.discardWork_marks (n : CtxNo) (s : State) : (s.discardWork n).marks = s.marks := rfl
@[simp] theorem State.discardWork_link (n : CtxNo) (s : State) : (s.discardWork n).link = s.link := rfl
@[simp] theorem State.discardWork_events (n : CtxNo) (s : State) : (s.discardWork n).events = s.events := rfl
@[simp] theorem State.discardWork_tallies (n : CtxNo) (s : State) : (s.discardWork n).tallies = s.tallies := rfl
@[simp] theorem State.discardWork_out (n : CtxNo) (s : State) : (s.discardWork n).out = s.out := rfl
@[simp] theorem State.discardWork_choices (n : CtxNo) (s : State) : (s.discardWork n).choices = s.choices := rfl
@[simp] theorem State.discardWork_pending (n : CtxNo) (s : State) : (s.discardWork n).pending = s.pending := rfl

/-! ### clearOutbound -/

@[simp] theorem State.clearOutbound_contain (s : State) : (s.clearOutbound).contain = s.contain := rfl
@[simp] theorem State.clearOutbound_faults (s : State) : (s.clearOutbound).faults = s.faults := rfl
@[simp] theorem State.clearOutbound_decoder (s : State) : (s.clearOutbound).decoder = s.decoder := rfl
@[simp] theorem State.clearOutbound_ranges (s : State) : (s.clearOutbound).ranges = s.ranges := rfl
@[simp] theorem State.clearOutbound_slots (s : State) : (s.clearOutbound).slots = s.slots := rfl
@[simp] theorem State.clearOutbound_contexts (s : State) : (s.clearOutbound).contexts = s.contexts := rfl
@[simp] theorem State.clearOutbound_abort (s : State) : (s.clearOutbound).abort = s.abort := rfl
@[simp] theorem State.clearOutbound_cache (s : State) : (s.clearOutbound).cache = s.cache := rfl
@[simp] theorem State.clearOutbound_expander (s : State) : (s.clearOutbound).expander = s.expander := rfl
@[simp] theorem State.clearOutbound_intake (s : State) : (s.clearOutbound).intake = s.intake := rfl
@[simp] theorem State.clearOutbound_returnPath (s : State) : (s.clearOutbound).returnPath = s.returnPath := rfl
@[simp] theorem State.clearOutbound_media (s : State) : (s.clearOutbound).media = s.media := rfl
@[simp] theorem State.clearOutbound_engines (s : State) : (s.clearOutbound).engines = { s.engines with outbound := none } := rfl
@[simp] theorem State.clearOutbound_hold (s : State) : (s.clearOutbound).hold = s.hold := rfl
@[simp] theorem State.clearOutbound_time (s : State) : (s.clearOutbound).time = s.time := rfl
@[simp] theorem State.clearOutbound_marks (s : State) : (s.clearOutbound).marks = s.marks := rfl
@[simp] theorem State.clearOutbound_link (s : State) : (s.clearOutbound).link = s.link := rfl
@[simp] theorem State.clearOutbound_events (s : State) : (s.clearOutbound).events = s.events := rfl
@[simp] theorem State.clearOutbound_tallies (s : State) : (s.clearOutbound).tallies = s.tallies := rfl
@[simp] theorem State.clearOutbound_out (s : State) : (s.clearOutbound).out = s.out := rfl
@[simp] theorem State.clearOutbound_choices (s : State) : (s.clearOutbound).choices = s.choices := rfl
@[simp] theorem State.clearOutbound_pending (s : State) : (s.clearOutbound).pending = s.pending := rfl

/-! ### clearInbound -/

@[simp] theorem State.clearInbound_contain (s : State) : (s.clearInbound).contain = s.contain := rfl
@[simp] theorem State.clearInbound_faults (s : State) : (s.clearInbound).faults = s.faults := rfl
@[simp] theorem State.clearInbound_decoder (s : State) : (s.clearInbound).decoder = s.decoder := rfl
@[simp] theorem State.clearInbound_ranges (s : State) : (s.clearInbound).ranges = s.ranges := rfl
@[simp] theorem State.clearInbound_slots (s : State) : (s.clearInbound).slots = s.slots := rfl
@[simp] theorem State.clearInbound_contexts (s : State) : (s.clearInbound).contexts = s.contexts := rfl
@[simp] theorem State.clearInbound_abort (s : State) : (s.clearInbound).abort = s.abort := rfl
@[simp] theorem State.clearInbound_cache (s : State) : (s.clearInbound).cache = s.cache := rfl
@[simp] theorem State.clearInbound_expander (s : State) : (s.clearInbound).expander = s.expander := rfl
@[simp] theorem State.clearInbound_intake (s : State) : (s.clearInbound).intake = s.intake := rfl
@[simp] theorem State.clearInbound_returnPath (s : State) : (s.clearInbound).returnPath = s.returnPath := rfl
@[simp] theorem State.clearInbound_media (s : State) : (s.clearInbound).media = s.media := rfl
@[simp] theorem State.clearInbound_engines (s : State) : (s.clearInbound).engines = { s.engines with inbound := none } := rfl
@[simp] theorem State.clearInbound_hold (s : State) : (s.clearInbound).hold = s.hold := rfl
@[simp] theorem State.clearInbound_time (s : State) : (s.clearInbound).time = s.time := rfl
@[simp] theorem State.clearInbound_marks (s : State) : (s.clearInbound).marks = s.marks := rfl
@[simp] theorem State.clearInbound_link (s : State) : (s.clearInbound).link = s.link := rfl
@[simp] theorem State.clearInbound_events (s : State) : (s.clearInbound).events = s.events := rfl
@[simp] theorem State.clearInbound_tallies (s : State) : (s.clearInbound).tallies = s.tallies := rfl
@[simp] theorem State.clearInbound_out (s : State) : (s.clearInbound).out = s.out := rfl
@[simp] theorem State.clearInbound_choices (s : State) : (s.clearInbound).choices = s.choices := rfl
@[simp] theorem State.clearInbound_pending (s : State) : (s.clearInbound).pending = s.pending := rfl

/-! ### noteAnswer -/

@[simp] theorem State.noteAnswer_contain (n : CtxNo) (s : State) : (s.noteAnswer n).contain = s.contain := rfl
@[simp] theorem State.noteAnswer_faults (n : CtxNo) (s : State) : (s.noteAnswer n).faults = s.faults := rfl
@[simp] theorem State.noteAnswer_decoder (n : CtxNo) (s : State) : (s.noteAnswer n).decoder = s.decoder := rfl
@[simp] theorem State.noteAnswer_ranges (n : CtxNo) (s : State) : (s.noteAnswer n).ranges = s.ranges := rfl
@[simp] theorem State.noteAnswer_slots (n : CtxNo) (s : State) : (s.noteAnswer n).slots = s.slots := rfl
@[simp] theorem State.noteAnswer_contexts (n : CtxNo) (s : State) : (s.noteAnswer n).contexts = s.contexts := rfl
@[simp] theorem State.noteAnswer_abort (n : CtxNo) (s : State) : (s.noteAnswer n).abort = s.abort := rfl
@[simp] theorem State.noteAnswer_cache (n : CtxNo) (s : State) : (s.noteAnswer n).cache = s.cache := rfl
@[simp] theorem State.noteAnswer_expander (n : CtxNo) (s : State) : (s.noteAnswer n).expander = s.expander := rfl
@[simp] theorem State.noteAnswer_intake (n : CtxNo) (s : State) : (s.noteAnswer n).intake = s.intake := rfl
@[simp] theorem State.noteAnswer_returnPath (n : CtxNo) (s : State) : (s.noteAnswer n).returnPath = s.returnPath := rfl
@[simp] theorem State.noteAnswer_media (n : CtxNo) (s : State) : (s.noteAnswer n).media = s.media := rfl
@[simp] theorem State.noteAnswer_engines (n : CtxNo) (s : State) : (s.noteAnswer n).engines = s.engines := rfl
@[simp] theorem State.noteAnswer_hold (n : CtxNo) (s : State) : (s.noteAnswer n).hold = s.hold := rfl
@[simp] theorem State.noteAnswer_time (n : CtxNo) (s : State) : (s.noteAnswer n).time = s.time := rfl
@[simp] theorem State.noteAnswer_marks (n : CtxNo) (s : State) : (s.noteAnswer n).marks = { s.marks with tickedAnswer := n :: s.marks.tickedAnswer } := rfl
@[simp] theorem State.noteAnswer_link (n : CtxNo) (s : State) : (s.noteAnswer n).link = s.link := rfl
@[simp] theorem State.noteAnswer_events (n : CtxNo) (s : State) : (s.noteAnswer n).events = s.events := rfl
@[simp] theorem State.noteAnswer_tallies (n : CtxNo) (s : State) : (s.noteAnswer n).tallies = s.tallies := rfl
@[simp] theorem State.noteAnswer_out (n : CtxNo) (s : State) : (s.noteAnswer n).out = s.out := rfl
@[simp] theorem State.noteAnswer_choices (n : CtxNo) (s : State) : (s.noteAnswer n).choices = s.choices := rfl
@[simp] theorem State.noteAnswer_pending (n : CtxNo) (s : State) : (s.noteAnswer n).pending = s.pending := rfl

end Sys2Proof.Machine
end

