-- ==== Sys2Proof/Laws/Ops.lean ====
section
/-! SUPPORT. What the shared operations can do, once for each: the fields an operation may change, and what it answers in the
cases its callers meet. -/

namespace Sys2Proof.Machine

/-! ## Parity (R98) -/

/-- The parity generated over a byte is odd. -/
theorem oddParity_oddOnes (b : Byte) : oddOnes b (oddParity b) := by
  revert b; unfold oddOnes; decide +kernel

/-- An item driven with any bytes has good parity. -/
theorem Driven.of_goodParity {α : Type} (item : α) (bytes : List Byte) : (Driven.of item bytes).goodParity := by
  refine ⟨by simp [Driven.of], ?_⟩
  simp only [Driven.of]
  induction bytes with
  | nil => simp
  | cons b bs ih => simpa using ⟨oddParity_oddOnes b, by simpa using ih⟩

/-! ## Pins and the expander (R122 to R125) -/

/-- Releasing a pin changes the cache alone. -/
theorem unpin_frame (k : SlotNo) (g : Generation) (s : State) : ∃ c, s.unpin k g = { s with cache := c } := by
  unfold State.unpin
  dsimp only
  split
  · exact ⟨_, rfl⟩
  · exact ⟨s.cache, rfl⟩

/-- Releasing a context's pin changes the cache alone. -/
theorem releasePin_frame (c : Context) (s : State) : ∃ x, s.releasePin c = { s with cache := x } := by
  unfold State.releasePin
  split
  · split
    · exact unpin_frame _ _ s
    · exact ⟨s.cache, rfl⟩
  · exact ⟨s.cache, rfl⟩

/-- A context out of STREAM and HOLD has no pin to release. -/
theorem releasePin_of_not_streaming {c : Context} (h : c.streaming = false) (s : State) : s.releasePin c = s := by
  simp [State.releasePin, h]

/-- A context that captured nothing has no pin to release. -/
theorem releasePin_of_no_capture {c : Context} (h : c.capture = none) (s : State) : s.releasePin c = s := by
  unfold State.releasePin
  rw [h]
  split <;> rfl

/-- Releasing a pin reads the cache alone. -/
theorem unpin_congr {k : SlotNo} {g : Generation} {s t : State} (hk : t.cache = s.cache) :
    t.unpin k g = { t with cache := (s.unpin k g).cache } := by
  cases t
  cases s
  cases hk
  unfold State.unpin
  dsimp only
  split <;> rfl

/-- A pin's release depends on the state and capture of its context and on the cache alone. -/
theorem releasePin_congr {c d : Context} {s t : State} (hs : d.state = c.state) (hc : d.capture = c.capture)
    (hk : t.cache = s.cache) : t.releasePin d = { t with cache := (s.releasePin c).cache } := by
  have hst : d.streaming = c.streaming := by simp [Context.streaming, hs]
  unfold State.releasePin
  rw [hst, hc]
  cases c.streaming with
  | false => simp [← hk]
  | true =>
    cases c.capture with
    | none => simp [← hk]
    | some cap => exact unpin_congr hk

/-- Starting an expansion changes the cache and the expander. -/
theorem startExpansion_frame (r : Request) (s : State) :
    ∃ c x, s.startExpansion r = { s with cache := c, expander := x } := by
  unfold State.startExpansion
  dsimp only
  split
  · exact ⟨_, _, rfl⟩
  · exact ⟨s.cache, s.expander, rfl⟩

/-- The expander's take changes the cache and the expander. -/
theorem takeEligible_frame (s : State) : ∃ c x, s.takeEligible = { s with cache := c, expander := x } := by
  unfold State.takeEligible
  split
  · exact ⟨s.cache, s.expander, rfl⟩
  · split
    · exact startExpansion_frame _ s
    · exact ⟨s.cache, s.expander, rfl⟩

/-- Nothing is taken where nothing stands to be taken. -/
theorem takeEligible_of_settled {s : State} (h : s.settled) : s.takeEligible = s := by
  unfold State.takeEligible
  rcases h with h | h
  · obtain ⟨x, hx⟩ := Option.isSome_iff_exists.1 h
    rw [hx]
  · rw [h]
    split <;> rfl

/-- Whether a take stands reads the cache and the expander alone. -/
theorem settled_congr {s t : State} (hc : t.cache = s.cache) (hx : t.expander = s.expander) : t.settled ↔ s.settled := by
  simp [State.settled, State.oldestEligible, State.eligible, hc, hx]

/-- The victim way is the one R125's table gives. -/
theorem victim_victimWay {i : Fin 4} {w : Way} {s : State} (h : s.cache[i].victim = some w) : s.victimWay i w := by
  unfold CacheSet.victim at h
  unfold State.victimWay State.way CacheSet.entry
  generalize s.cache[i] = c at h ⊢
  rcases c with ⟨_ | a, _ | b, r⟩ <;> simp only at h
  · cases h; simp
  · cases h; simp
  · cases h; simp
  · right; right
    split at h
    · rename_i hp
      rw [Bool.and_eq_true, beq_iff_eq, beq_iff_eq] at hp
      cases r <;> cases h
      · exact ⟨b, a, .way0, by simp [hp.1, hp.2]⟩
      · exact ⟨a, b, .way1, by simp [hp.1, hp.2]⟩
    · rename_i hp
      rw [Bool.and_eq_true, beq_iff_eq, beq_iff_eq] at hp
      split at h
      · rename_i ha
        rw [beq_iff_eq] at ha
        cases h
        exact ⟨a, b, .way1, by decide, rfl, rfl, ha, .inl fun hb => hp ⟨ha, hb⟩⟩
      · rename_i ha
        rw [beq_iff_eq] at ha
        split at h
        · rename_i hb
          rw [beq_iff_eq] at hb
          cases h
          exact ⟨b, a, .way0, by simp [hb, ha]⟩
        · cases h

/-- R125's table gives one way, the victim. -/
theorem victim_of_victimWay {i : Fin 4} {w : Way} {s : State} (h : s.victimWay i w) : s.cache[i].victim = some w := by
  unfold State.victimWay State.way CacheSet.entry at h
  unfold CacheSet.victim
  generalize s.cache[i] = c at h ⊢
  rcases c with ⟨a, b, r⟩
  rcases h with ⟨h1, rfl⟩ | ⟨h1, h2, rfl⟩ | ⟨e, d, v, hv, hw, hd, hp, hr⟩
  · simp only at h1; subst h1; rfl
  · simp only at h1 h2; subst h2
    cases a with
    | none => exact absurd rfl h1
    | some a => rfl
  · cases w <;> cases v <;> simp_all
    · split <;> simp_all
    · split
      · simp_all
      · simp_all

/-- A set has no victim way exactly if both ways are pinned (R124). -/
theorem fullyPinned_iff {i : Fin 4} {s : State} : s.fullyPinned i ↔ s.cache[i].victim = none := by
  unfold State.fullyPinned State.way
  have hw : (∀ w, ∃ e, s.cache[i].entry w = some e ∧ e.pins ≠ 0) ↔
      (∃ e, s.cache[i].way0 = some e ∧ e.pins ≠ 0) ∧ (∃ e, s.cache[i].way1 = some e ∧ e.pins ≠ 0) :=
    ⟨fun h => ⟨h .way0, h .way1⟩, fun h w => by cases w <;> [exact h.1; exact h.2]⟩
  rw [hw]
  unfold CacheSet.victim
  generalize s.cache[i] = c
  rcases c with ⟨_ | a, _ | b, r⟩ <;> simp
  by_cases ha : a.pins = 0 <;> by_cases hb : b.pins = 0 <;> simp [ha, hb]
  cases r <;> simp

/-- A request is eligible exactly if its set is not fully pinned (R124). -/
theorem eligible_iff {r : Request} {s : State} : s.eligible r = true ↔ ¬ s.fullyPinned (setOf r.slot r.generation) := by
  rw [fullyPinned_iff, State.eligible, Option.isSome_iff_ne_none]

/-- What the take gives, in the terms of the statements (R124, R125). -/
theorem takeEligible_took (s : State) : s.took s.takeEligible := by
  refine ⟨fun h => ?_, fun pre post r w hx hp hw => ?_⟩
  · have : s.settled := by
      rcases h with h | h
      · exact .inl (Option.isSome_iff_ne_none.2 h)
      · exact .inr (List.find?_eq_none.2 fun q hq => by rw [eligible_iff]; exact fun hn => hn (h q hq))
    rw [takeEligible_of_settled this]
    exact ⟨rfl, rfl⟩
  · have hv := victim_of_victimWay hw
    have hr : s.eligible r = true := by rw [State.eligible, hv]; rfl
    have hn : r ∉ pre := fun hm => by
      have := fullyPinned_iff.1 (hp r hm)
      rw [this] at hv
      cases hv
    have hf : s.oldestEligible = some r := by
      rw [State.oldestEligible, hx, List.find?_append, List.find?_eq_none.2, Option.none_or]
      · simp [hr]
      · exact fun q hq => by rw [eligible_iff]; exact fun h => h (hp q hq)
    have ht : s.takeEligible = s.startExpansion r := by
      unfold State.takeEligible
      rw [hf, hx]
    refine ⟨fun keys hk => ?_, fun hl => ?_⟩
    · have hs : s.startExpansion r =
          { s.putSet (setOf r.slot r.generation) (s.cache[setOf r.slot r.generation].put w none) with
            expander :=
              { queue := pre ++ post
                current := some
                  { slot := r.slot, generation := r.generation, set := setOf r.slot r.generation, way := w,
                    attached := r.attached, void := false, keys := keys } } } := by
        unfold State.startExpansion
        dsimp only
        rw [hv, hk, hx]
        dsimp only
        rw [List.erase_append_right _ hn, List.erase_cons_head]
      rw [ht, hs]
      refine ⟨?_, fun v hv => ?_, ?_, fun j hj => ?_, rfl⟩
      · cases w <;> simp [State.way, State.putSet, CacheSet.put, CacheSet.entry]
      · cases w <;> cases v <;> first | exact absurd rfl hv | simp [State.way, State.putSet, CacheSet.put, CacheSet.entry]
      · cases w <;> simp [State.putSet, CacheSet.put]
      · have : (setOf r.slot r.generation).val ≠ j.val := fun h => hj (Fin.ext h).symm
        simp [State.putSet, this]
    · have hs : s.startExpansion r = s := by
        unfold State.startExpansion
        dsimp only
        split
        · rename_i hb
          have hb' : s.slots[r.slot].isLoaded = true := by unfold Slot.isLoaded; rw [hb]
          rw [hb'] at hl
          cases hl
        · rfl
      rw [ht, hs]
      exact ⟨rfl, rfl⟩

/-- What the release of a pin gives, in the terms of the statements (R122). -/
theorem releasePin_pinReleased (c : Context) (s : State) : s.pinReleased c (s.releasePin c) := by
  refine ⟨fun cap e hs hc he => ?_, ?_⟩
  · unfold State.entryOf at he
    split at he
    · rename_i w hw
      have hr : s.releasePin c = s.putSet (setOf cap.slot cap.generation)
          (s.cache[setOf cap.slot cap.generation].put w
            ((s.cache[setOf cap.slot cap.generation].entry w).bind Entry.unpin)) := by
        unfold State.releasePin State.unpin
        rw [hs, hc]
        dsimp only
        rw [hw]
        rfl
      rw [hr, he]
      refine ⟨w, he, ?_, fun v hv => ?_, ?_, fun j hj => ?_⟩
      · cases w <;> simp [State.way, State.putSet, CacheSet.put, CacheSet.entry, Entry.unpin]
      · cases w <;> cases v <;> first | exact absurd rfl hv | simp [State.way, State.putSet, CacheSet.put, CacheSet.entry]
      · cases w <;> simp [State.putSet, CacheSet.put]
      · have : (setOf cap.slot cap.generation).val ≠ j.val := fun h => hj (Fin.ext h).symm
        simp [State.putSet, this]
    · cases he
  · rintro (h | h | ⟨cap, hc, he⟩)
    · rw [releasePin_of_not_streaming h]
    · rw [releasePin_of_no_capture h]
    · unfold State.releasePin State.unpin
      rw [hc]
      split
      · dsimp only
        split
        · rename_i w hw
          unfold State.entryOf at he
          rw [hw] at he
          dsimp only at he
          rw [he]
          have hp : s.cache[setOf cap.slot cap.generation].put w none = s.cache[setOf cap.slot cap.generation] := by
            generalize s.cache[setOf cap.slot cap.generation] = k at he
            cases w <;> cases k <;> simp_all [CacheSet.put, CacheSet.entry]
          unfold State.putSet
          dsimp only [Option.bind_none]
          rw [hp]
          exact Vector.set_getElem_self _
        · rfl
      · rfl

/-- Releasing a pin and then taking is what a statement calls released (R122, R124). -/
theorem released_of_takeEligible (c : Context) (s : State) : s.released c (s.releasePin c).takeEligible := by
  refine ⟨s.releasePin c, releasePin_pinReleased c s, ?_, takeEligible_took _⟩
  obtain ⟨x, h⟩ := releasePin_frame c s
  rw [h]

/-- The take reads and changes the cache and the expander, and reads the slots. -/
theorem took_congr {s t u v : State} (h : s.took t) (hc : u.cache = s.cache) (hx : u.expander = s.expander)
    (hs : u.slots = s.slots) (hc' : v.cache = t.cache) (hx' : v.expander = t.expander) : u.took v := by
  simpa [State.took, State.expansionStarted, State.fullyPinned, State.victimWay, State.way, hc, hx, hs, hc', hx'] using h

/-- A context detached from queue and expansion, in the terms of the statements (R123). -/
theorem detach_eq (n : CtxNo) (x : Expander) :
    x.detach n =
      { queue := x.queue.filterMap fun r =>
          if n ∈ r.attached ∧ ∀ m ∈ r.attached, m = n then none
          else some { r with attached := r.attached.filter fun m => m ≠ n }
        current := x.current.map fun e => { e with attached := e.attached.filter fun m => m ≠ n } } := by
  unfold Expander.detach
  congr 1
  refine congrFun (congrArg List.filterMap (funext fun r => ?_)) _
  unfold Request.detach
  by_cases hm : n ∈ r.attached
  · simp [hm, List.filter_eq_nil_iff]
  · have hf : r.attached.filter (fun m => m ≠ n) = r.attached :=
      List.filter_eq_self.2 fun m h => by simpa using fun e : m = n => hm (e ▸ h)
    rw [if_neg hm, if_neg (fun h => hm h.1), hf]

/-- A pin released, the work discarded, and the take: what a statement calls withdrawn (R90, R122, R123, R124). -/
theorem withdrawn_of_takeEligible (c : Context) (s : State) :
    s.withdrawn c ((s.releasePin c).discardWork c.number).takeEligible := by
  obtain ⟨x, h⟩ := releasePin_frame c s
  obtain ⟨y, z, h'⟩ := takeEligible_frame ((s.releasePin c).discardWork c.number)
  have ht := takeEligible_took ((s.releasePin c).discardWork c.number)
  have hp := releasePin_pinReleased c s
  refine ⟨?_, ?_, ?_, { s with cache := x, expander := s.expander.detach c.number }, ?_, ?_, ?_⟩
  · rw [h', h]; rfl
  · rw [h', h]; rfl
  · rw [h', h]; rfl
  · rw [h] at hp; exact hp
  · exact took_congr ht (by rw [h]; rfl) (by rw [h]; rfl) (by rw [h]; rfl) rfl rfl
  · rw [detach_eq]

@[simp] theorem State.releasePin_contain (c : Context) (s : State) : (s.releasePin c).contain = s.contain := by
  obtain ⟨x, h⟩ := releasePin_frame c s; rw [h]
@[simp] theorem State.releasePin_faults (c : Context) (s : State) : (s.releasePin c).faults = s.faults := by
  obtain ⟨x, h⟩ := releasePin_frame c s; rw [h]
@[simp] theorem State.releasePin_decoder (c : Context) (s : State) : (s.releasePin c).decoder = s.decoder := by
  obtain ⟨x, h⟩ := releasePin_frame c s; rw [h]
@[simp] theorem State.releasePin_ranges (c : Context) (s : State) : (s.releasePin c).ranges = s.ranges := by
  obtain ⟨x, h⟩ := releasePin_frame c s; rw [h]
@[simp] theorem State.releasePin_slots (c : Context) (s : State) : (s.releasePin c).slots = s.slots := by
  obtain ⟨x, h⟩ := releasePin_frame c s; rw [h]
@[simp] theorem State.releasePin_contexts (c : Context) (s : State) : (s.releasePin c).contexts = s.contexts := by
  obtain ⟨x, h⟩ := releasePin_frame c s; rw [h]
@[simp] theorem State.releasePin_abort (c : Context) (s : State) : (s.releasePin c).abort = s.abort := by
  obtain ⟨x, h⟩ := releasePin_frame c s; rw [h]
@[simp] theorem State.releasePin_expander (c : Context) (s : State) : (s.releasePin c).expander = s.expander := by
  obtain ⟨x, h⟩ := releasePin_frame c s; rw [h]
@[simp] theorem State.releasePin_intake (c : Context) (s : State) : (s.releasePin c).intake = s.intake := by
  obtain ⟨x, h⟩ := releasePin_frame c s; rw [h]
@[simp] theorem State.releasePin_returnPath (c : Context) (s : State) : (s.releasePin c).returnPath = s.returnPath := by
  obtain ⟨x, h⟩ := releasePin_frame c s; rw [h]
@[simp] theorem State.releasePin_media (c : Context) (s : State) : (s.releasePin c).media = s.media := by
  obtain ⟨x, h⟩ := releasePin_frame c s; rw [h]
@[simp] theorem State.releasePin_engines (c : Context) (s : State) : (s.releasePin c).engines = s.engines := by
  obtain ⟨x, h⟩ := releasePin_frame c s; rw [h]
@[simp] theorem State.releasePin_hold (c : Context) (s : State) : (s.releasePin c).hold = s.hold := by
  obtain ⟨x, h⟩ := releasePin_frame c s; rw [h]
@[simp] theorem State.releasePin_time (c : Context) (s : State) : (s.releasePin c).time = s.time := by
  obtain ⟨x, h⟩ := releasePin_frame c s; rw [h]
@[simp] theorem State.releasePin_marks (c : Context) (s : State) : (s.releasePin c).marks = s.marks := by
  obtain ⟨x, h⟩ := releasePin_frame c s; rw [h]
@[simp] theorem State.releasePin_link (c : Context) (s : State) : (s.releasePin c).link = s.link := by
  obtain ⟨x, h⟩ := releasePin_frame c s; rw [h]
@[simp] theorem State.releasePin_events (c : Context) (s : State) : (s.releasePin c).events = s.events := by
  obtain ⟨x, h⟩ := releasePin_frame c s; rw [h]
@[simp] theorem State.releasePin_tallies (c : Context) (s : State) : (s.releasePin c).tallies = s.tallies := by
  obtain ⟨x, h⟩ := releasePin_frame c s; rw [h]
@[simp] theorem State.releasePin_out (c : Context) (s : State) : (s.releasePin c).out = s.out := by
  obtain ⟨x, h⟩ := releasePin_frame c s; rw [h]
@[simp] theorem State.releasePin_choices (c : Context) (s : State) : (s.releasePin c).choices = s.choices := by
  obtain ⟨x, h⟩ := releasePin_frame c s; rw [h]
@[simp] theorem State.releasePin_pending (c : Context) (s : State) : (s.releasePin c).pending = s.pending := by
  obtain ⟨x, h⟩ := releasePin_frame c s; rw [h]

@[simp] theorem State.takeEligible_contain (s : State) : (s.takeEligible).contain = s.contain := by
  obtain ⟨x, y, h⟩ := takeEligible_frame s; rw [h]
@[simp] theorem State.takeEligible_faults (s : State) : (s.takeEligible).faults = s.faults := by
  obtain ⟨x, y, h⟩ := takeEligible_frame s; rw [h]
@[simp] theorem State.takeEligible_decoder (s : State) : (s.takeEligible).decoder = s.decoder := by
  obtain ⟨x, y, h⟩ := takeEligible_frame s; rw [h]
@[simp] theorem State.takeEligible_ranges (s : State) : (s.takeEligible).ranges = s.ranges := by
  obtain ⟨x, y, h⟩ := takeEligible_frame s; rw [h]
@[simp] theorem State.takeEligible_slots (s : State) : (s.takeEligible).slots = s.slots := by
  obtain ⟨x, y, h⟩ := takeEligible_frame s; rw [h]
@[simp] theorem State.takeEligible_contexts (s : State) : (s.takeEligible).contexts = s.contexts := by
  obtain ⟨x, y, h⟩ := takeEligible_frame s; rw [h]
@[simp] theorem State.takeEligible_abort (s : State) : (s.takeEligible).abort = s.abort := by
  obtain ⟨x, y, h⟩ := takeEligible_frame s; rw [h]
@[simp] theorem State.takeEligible_intake (s : State) : (s.takeEligible).intake = s.intake := by
  obtain ⟨x, y, h⟩ := takeEligible_frame s; rw [h]
@[simp] theorem State.takeEligible_returnPath (s : State) : (s.takeEligible).returnPath = s.returnPath := by
  obtain ⟨x, y, h⟩ := takeEligible_frame s; rw [h]
@[simp] theorem State.takeEligible_media (s : State) : (s.takeEligible).media = s.media := by
  obtain ⟨x, y, h⟩ := takeEligible_frame s; rw [h]
@[simp] theorem State.takeEligible_engines (s : State) : (s.takeEligible).engines = s.engines := by
  obtain ⟨x, y, h⟩ := takeEligible_frame s; rw [h]
@[simp] theorem State.takeEligible_hold (s : State) : (s.takeEligible).hold = s.hold := by
  obtain ⟨x, y, h⟩ := takeEligible_frame s; rw [h]
@[simp] theorem State.takeEligible_time (s : State) : (s.takeEligible).time = s.time := by
  obtain ⟨x, y, h⟩ := takeEligible_frame s; rw [h]
@[simp] theorem State.takeEligible_marks (s : State) : (s.takeEligible).marks = s.marks := by
  obtain ⟨x, y, h⟩ := takeEligible_frame s; rw [h]
@[simp] theorem State.takeEligible_link (s : State) : (s.takeEligible).link = s.link := by
  obtain ⟨x, y, h⟩ := takeEligible_frame s; rw [h]
@[simp] theorem State.takeEligible_events (s : State) : (s.takeEligible).events = s.events := by
  obtain ⟨x, y, h⟩ := takeEligible_frame s; rw [h]
@[simp] theorem State.takeEligible_tallies (s : State) : (s.takeEligible).tallies = s.tallies := by
  obtain ⟨x, y, h⟩ := takeEligible_frame s; rw [h]
@[simp] theorem State.takeEligible_out (s : State) : (s.takeEligible).out = s.out := by
  obtain ⟨x, y, h⟩ := takeEligible_frame s; rw [h]
@[simp] theorem State.takeEligible_choices (s : State) : (s.takeEligible).choices = s.choices := by
  obtain ⟨x, y, h⟩ := takeEligible_frame s; rw [h]
@[simp] theorem State.takeEligible_pending (s : State) : (s.takeEligible).pending = s.pending := by
  obtain ⟨x, y, h⟩ := takeEligible_frame s; rw [h]

/-! ## Completions and freeing (R73, R82, R85, R88, R92) -/

/-- A completion not yet sent is handed and marked SENT. -/
theorem handCompletion_unsent {n : CtxNo} {c : Context} {s : State} (h : s.ctx? n = some c) (hs : c.completionSent = false) :
    s.handCompletion n =
      (s.hand (.completion c.mover c.tag c.code)).modCtx n fun c => { c with completionSent := true } := by
  simp [State.handCompletion, h, hs]

/-- A completion already sent is not handed again. -/
theorem handCompletion_sent {n : CtxNo} {c : Context} {s : State} (h : s.ctx? n = some c) (hs : c.completionSent = true) :
    s.handCompletion n = s := by
  simp [State.handCompletion, h, hs]

/-- Freeing releases the pin and drops the record. -/
theorem free_eq {n : CtxNo} {c : Context} {s : State} (h : s.ctx? n = some c) : s.free n = (s.releasePin c).dropCtx n := by
  simp [State.free, h]

/-- A context in CANCEL with its completion SENT and no answer to await is freed. -/
theorem freeIfDone_done {n : CtxNo} {c : Context} {s : State} (h : s.ctx? n = some c) (hc : c.state = .cancel)
    (hs : c.completionSent = true) (ha : c.cancel ≠ .sent) : s.freeIfDone n = s.free n := by
  simp [State.freeIfDone, h, hc, hs, ha]

/-- Any other context stays. -/
theorem freeIfDone_kept {n : CtxNo} {c : Context} {s : State} (h : s.ctx? n = some c)
    (hk : c.state ≠ .cancel ∨ c.completionSent = false ∨ c.cancel = .sent) : s.freeIfDone n = s := by
  rcases hk with hk | hk | hk <;> simp [State.freeIfDone, h, hk]

/-- A context that completes hands its completion and is gone; its pin is released first (R82, R85). -/
theorem complete_eq {n : CtxNo} {c : Context} {s : State} (h : s.ctx? n = some c) (hs : c.completionSent = false) :
    s.complete n =
      ({ (s.hand (.completion c.mover c.tag c.code)).modCtx n (fun c => { c with completionSent := true }) with
        cache := (s.releasePin c).cache } : State).dropCtx n := by
  have h' : (s.handCompletion n).ctx? n = some { c with completionSent := true } := by
    rw [handCompletion_unsent h hs]
    exact ctx?_modCtx (s := s.hand _) (f := fun c => { c with completionSent := true }) rfl h
  rw [State.complete, free_eq h', handCompletion_unsent h hs]
  refine congrArg (State.dropCtx n) (releasePin_congr ?_ ?_ ?_) <;> rfl

/-! ## Entry to CANCEL (R90, R91, R92) -/

/-- A live context enters CANCEL: its pin goes, its work is discarded, its record is cancelled, its duty is finished. -/
theorem enterCancel_live {n : CtxNo} {c : Context} {code : Reply} {answered timed : Bool} {s : State}
    (h : s.ctx? n = some c) (hl : c.live = true) :
    s.enterCancel n code answered timed =
      (((s.releasePin c).discardWork n).modCtx n
        (Context.cancelled code
          (timed || (if answered then decide (0 < c.pieces) || c.fetchProgress == .issued else s.outstanding c)))).finishDuty c
        (s.beatsLeft c) := by
  simp [State.enterCancel, h, hl]

/-- A context in CANCEL or STRANDED does not enter CANCEL again. -/
theorem enterCancel_not_live {n : CtxNo} {c : Context} {code : Reply} {answered timed : Bool} {s : State}
    (h : s.ctx? n = some c) (hl : c.live = false) : s.enterCancel n code answered timed = s := by
  simp [State.enterCancel, h, hl]

/-- No context of the number, no effect. -/
theorem enterCancel_none {n : CtxNo} {code : Reply} {answered timed : Bool} {s : State} (h : s.ctx? n = none) :
    s.enterCancel n code answered timed = s := by
  simp [State.enterCancel, h]

/-- Two states that agree in all but what an entry to CANCEL may change. -/
def State.sameButWork (s t : State) : Prop :=
  t = { s with
    contexts := t.contexts, cache := t.cache, expander := t.expander, intake := t.intake, returnPath := t.returnPath
    media := t.media, engines := t.engines, hold := t.hold }

/-- The fields an entry to CANCEL never changes, one by one. -/
theorem sameButWork_iff (s t : State) :
    s.sameButWork t ↔ t.contain = s.contain ∧ t.faults = s.faults ∧ t.decoder = s.decoder ∧ t.ranges = s.ranges ∧
      t.slots = s.slots ∧ t.abort = s.abort ∧ t.time = s.time ∧ t.marks = s.marks ∧ t.link = s.link ∧ t.events = s.events ∧
      t.tallies = s.tallies ∧ t.out = s.out ∧ t.choices = s.choices ∧ t.pending = s.pending := by
  unfold State.sameButWork
  constructor
  · intro h
    rw [h]
    simp
  · rintro ⟨h1, h2, h3, h4, h5, h6, h7, h8, h9, h10, h11, h12, h13, h14⟩
    cases s
    cases t
    simp_all

theorem sameButWork_refl (s : State) : s.sameButWork s := rfl

theorem sameButWork_trans {s t u : State} (h : s.sameButWork t) (h' : t.sameButWork u) : s.sameButWork u := by
  rw [sameButWork_iff] at *
  simp_all

/-- Handing a completion changes the context's mark and the return path. -/
theorem handCompletion_sameButWork (n : CtxNo) (s : State) : s.sameButWork (s.handCompletion n) := by
  unfold State.handCompletion
  split
  · split
    · exact rfl
    · exact rfl
  · exact rfl

/-- Freeing changes the list and the cache. -/
theorem free_sameButWork (n : CtxNo) (s : State) : s.sameButWork (s.free n) := by
  unfold State.free
  split
  · rw [sameButWork_iff]
    simp
  · exact rfl

/-- Freeing a context that is done changes the list and the cache. -/
theorem freeIfDone_sameButWork (n : CtxNo) (s : State) : s.sameButWork (s.freeIfDone n) := by
  unfold State.freeIfDone
  split
  · split
    · exact free_sameButWork n s
    · exact rfl
  · exact rfl

/-- Finishing a cancelled context's duty changes what belongs to contexts only. -/
theorem finishDuty_sameButWork (c : Context) (left : Nat) (s : State) : s.sameButWork (s.finishDuty c left) := by
  unfold State.finishDuty
  split
  · dsimp only
    split
    · exact sameButWork_trans (t := s.hand (.withheld (c.length - c.passed) c.mover c.tag)) rfl
        (sameButWork_trans (handCompletion_sameButWork _ _) (freeIfDone_sameButWork _ _))
    · exact sameButWork_trans (handCompletion_sameButWork _ _) (freeIfDone_sameButWork _ _)
  · split
    · exact sameButWork_trans (handCompletion_sameButWork _ _) (freeIfDone_sameButWork _ _)
    · exact rfl

/-- Entry to CANCEL changes what belongs to contexts only: no table, timer, count, event or output. -/
theorem enterCancel_sameButWork (n : CtxNo) (code : Reply) (answered timed : Bool) (s : State) :
    s.sameButWork (s.enterCancel n code answered timed) := by
  unfold State.enterCancel
  split
  · split
    · refine sameButWork_trans ?_ (finishDuty_sameButWork _ _ _)
      rw [sameButWork_iff]
      simp
    · exact rfl
  · exact rfl

/-- A revocation changes what belongs to contexts only. -/
theorem revoke_sameButWork (p : Context → Bool) (code : Reply) (s : State) : s.sameButWork (s.revoke p code) := by
  unfold State.revoke
  generalize s.contexts.filter p = l
  induction l generalizing s with
  | nil => exact rfl
  | cons c l ih => exact sameButWork_trans (enterCancel_sameButWork c.number code false false s) (ih _)

/-- Entry to CLOSE changes what belongs to contexts only. -/
theorem enterClose_sameButWork (n : CtxNo) (s : State) : s.sameButWork (s.enterClose n) := by
  unfold State.enterClose
  split
  · split
    · dsimp only
      split
      · refine sameButWork_trans ?_ (sameButWork_trans (handCompletion_sameButWork n _) (free_sameButWork n _))
        rw [sameButWork_iff]
        simp
      · rw [sameButWork_iff]
        simp
    · exact rfl
  · exact rfl

/-! ## Arrivals (R94, R103, R105, R117) -/

/-- An open port takes an arrival for a live context. -/
theorem liveArrival_taken {n : CtxNo} {c : Context} {s : State} (hp : s.portOpen n) (hc : s.ctx? n = some c)
    (hl : c.live = true) : s.liveArrival n = .takenBy c := by
  obtain ⟨h1, h2, h3⟩ := hp
  unfold State.liveArrival State.arrival
  rw [if_neg h1, h2, hc]
  cases hh : s.hold with
  | none => simp [hl]
  | some h => simp [h3 h hh, hl]

/-- What an open port does with it is the handler's. -/
theorem onArrival_taken {n : CtxNo} {c : Context} {s : State} {f : Context → Host.Outcome State Fault Refusal}
    (hp : s.portOpen n) (hc : s.ctx? n = some c) (hl : c.live = true) : s.onArrival n f = f c := by
  simp only [State.onArrival, liveArrival_taken hp hc hl]

/-- While a unit of a CIPHER context waits for an engine that holds a unit, its timer counts no tick (R106, R110). -/
theorem countsTick_unitWaiting {c : Context} {s : State} (hw : c.unitWaiting = true) (hp : c.passage = .cipher)
    (hi : s.engines.inbound ≠ none) : s.countsTick c = false := by
  have : s.engines.inbound.isNone = false := by simpa [← Option.isSome_iff_ne_none] using hi
  simp [State.countsTick, hw, hp, this]

/-! ## The monitor's visit (R167) -/

/-- Where no visit is due the monitor's part of a tick changes nothing. -/
theorem monitorTick_of_not_due {s : State} (h : s.visitDue = false) : s.monitorTick = s := by
  simp [State.monitorTick, h]

/-- What is due is outside SELF-TEST, at a tick without a visit yet. -/
theorem visitDue_iff {s : State} : s.visitDue = true ↔ s.contain.device ≠ .selfTest ∧ s.marks.visited = false := by
  simp [State.visitDue]

/-- A range's record matches where its check word is fresh (R46, R168). -/
theorem Range.disturbed_eq_false_iff {i : RangeNo} {r : Range} :
    r.disturbed i = false ↔ r.check = Config.rangeCheck (r.fields i) := by
  simp [Range.disturbed]

/-- A write leaves a record that matches (R35). -/
@[simp] theorem Range.sealed_disturbed (i : RangeNo) (r : Range) : (r.sealed i).disturbed i = false := by
  rw [Range.disturbed_eq_false_iff]; rfl

end Sys2Proof.Machine
end

