-- ==== Sys2Proof/WellFormed.lean ====
section
/-! DEFINITION. Which terms of `Instr` are commands the spec knows. The operands' types leave four checks. The meanings
are total all the same: an ill-formed term has the effect its event would have on the wires. -/

namespace Sys2Proof

/-- A command is well formed when
* an ACCEPT does not name CANCEL, which is answered by DONE or ERROR alone (R104);
* a command period holds at least eight clocks (R173: fewer are ignored);
* a command period does not begin with the byte 0xFF, which marks a read period (R173);
* a read period holds at least eight clocks (R173). -/
def Instr.wf : Instr → Bool
  | .accept _ kind => kind != .cancel
  | .commandPeriod first _ => decide (first.length = 8) && first != List.replicate 8 true
  | .readPeriod clocks => decide (8 ≤ clocks)
  | _ => true

end Sys2Proof
end

