-- ==== Sys2Proof/Tests/Slice0.lean ====
section
/-! SUPPORT. The model's own tests: the well-formedness smoke, the spec's worked examples, one or two small tests of the commands,
and, for each statement with hypotheses, a state and operands that meet them (`witness_…`, named after the statement). -/

namespace Sys2Proof.Tests

open Sys2Proof Sys2Proof.Machine

/- The tests are checked one after another: as many threads as there are theirs do not fit the memory a check has. -/
set_option Elab.async false

/-! ## Well-formedness: an ill-formed term for each check -/

theorem test_wf_refuses_accept_of_cancel : Instr.wf (.accept 3 .cancel) = false := by decide
theorem test_wf_refuses_short_command_period : Instr.wf (periodOf (List.replicate 7 false)) = false := by decide
theorem test_wf_refuses_command_period_of_read :
    Instr.wf (periodOf (List.replicate 8 true ++ List.replicate 8 false)) = false := by decide
theorem test_wf_refuses_short_read_period : Instr.wf (.readPeriod 7) = false := by decide
theorem test_wf_accepts_status_frame : Instr.wf (periodOf (toBits [0x01, 0x00, 0x2E, 0x3E])) = true := by decide +kernel

/-! ## Worked examples of the cipher -/

/-- The known-answer vector of the standard's appendix for a 256-bit key (log entry 1). -/
theorem test_permutation_standard_vector :
    blockPermutation 0x1f1e1d1c1b1a191817161514131211100f0e0d0c0b0a09080706050403020100
      0xffeeddccbbaa99887766554433221100 = 0x8960494b9049fceabf456751cab7a28e := by decide +kernel

/-- R3's table. -/
theorem test_tweak_input_rows :
    tweakInput 74565 = 0x012345 ∧ tweakInput 1249999 = 0x1312CF ∧ tweakInput 1099511627775 = 0xFFFFFFFFFF := by decide

/-- Case A of section 1.4. -/
theorem test_doubling_case_a :
    doubled 1 0x80000000000000000000000000000001 = 0x85 ∧ doubled 2 0x80000000000000000000000000000001 = 0x010A ∧
    doubled 3 0x80000000000000000000000000000001 = 0x0214 := by decide

/-- Case B of section 1.4. -/
theorem test_doubling_case_b :
    doubled 1 0xC00000000000000000FF800000000000 = 0x800000000000000001FF000000000087 ∧
    doubled 3 0xC00000000000000000FF800000000000 = 0x000000000000000007FC000000000312 := by decide

/-- Case C of section 1.4: bit 127 alone, then 0x87, then 0x10E. -/
theorem test_doubling_case_c : doubled 127 1 = 1 <<< 127 ∧ doubled 128 1 = 0x87 ∧ doubled 129 1 = 0x10E := by decide +kernel

/-- The table of section 7.1. -/
theorem test_set_of_pairs :
    Machine.setOf 5 2 = 3 ∧ Machine.setOf 9 2 = 3 ∧ Machine.setOf 2 1 = 1 ∧ Machine.setOf 1 255 = 2 ∧
    Machine.setOf 7 4 = 3 ∧ Machine.setOf 7 5 = 2 := by decide

/-! ## Worked examples of the encodings -/

/-- Section 11.7: the STATUS frame on KDI. -/
theorem test_status_frame : LinkCommand.status.frame = [0x01, 0x00, 0x2E, 0x3E] := by decide +kernel

/-- Section 11.7: with the check's bytes swapped it is answered CHECK. -/
theorem test_swapped_check_refused : judgeFrame [0x01, 0x00, 0x3E, 0x2E] 0 = .refuse .check := by decide +kernel

/-- R173: the byte 0x2E on KDI, most significant bit first. -/
theorem test_bits_of_byte : toBits [0x2E] = [false, false, true, false, true, true, true, false] := by decide

/-- R99, written out bit by bit: a STORE (bit 0) with tag (bit 2) of mover 5 (bits 3 to 5), tag 9 (bits 8 to 11), unit address
0x0ABCDEF (bits 12 to 39), length 4 (bits 40 to 47 hold 3), offset 2 (bits 48 to 55), sector 0x0102030405 (bits 56 to 95). -/
theorem test_header_fields :
    readHeader { bytes := 0x010203040502030ABCDEF92D, parity := 0 } =
      { kind := .store, raw := false, tagPresent := true, mover := 5, tag := 9, addr := 0x0ABCDEF, length := 4,
        offset := 2, sector := 0x0102030405 } := by decide

/-! ## A device in service, laid out as in section 2.9 -/

/-- Window records of the layout. -/
def clearWindow : Window :=
  { treatment := .clear, first := 0x0010000, last := 0x001FFFF, direction := .both, movers := 0x40, relocation := 0, check := 0 }

/-- Window 2 of the layout. -/
def cipherWindow : Window :=
  { treatment := .cipher, first := 0x0020000, last := 0x0FFFFFF, direction := .both, movers := 0x3F, relocation := 0x10,
    check := 0 }

/-- A key pair of two different keys. -/
def pair : KeyPair := { dataKey := 1, tweakKey := 2 }

/-- Range 3 under slot 7, open. -/
def openRange3 : Range :=
  { span := some { first := 1000000, count := 250000 }, binding := some 7, state := .openRW, lockOnAbsence := true,
    idleInterval := 3, idleRemaining := some 2, check := 0 }

/-- Slot 7 at generation 4. -/
def slot7 : Slot := { body := .loaded pair, generation := 4, check := 0 }

/-- SERVICE, with windows 1 and 2, the limit, range 3 and slot 7. -/
def service : State :=
  { State.reset with
    contain := { device := .service, dwell := none, cursor := 0 }
    decoder :=
      { windows := (State.reset.decoder.windows.set 1 (clearWindow.sealed 1)).set 2 (cipherWindow.sealed 2)
        frozen := false, limit := 4000000 }
    ranges := State.reset.ranges.set 3 (openRange3.sealed 3)
    slots := State.reset.slots.set 7 (slot7.sealed 7) }

/-- A valid entry of slot 7 at generation 4, in way 0 of set 3. -/
def entry : Entry := { slot := 7, generation := 4, schedule := pair.schedule, pins := 1, flush := false }

/-- Set 3 with that entry. -/
def withEntry (s : State) : State := { s with cache := s.cache.set 3 { way0 := some entry, way1 := none, recent := .way0 } }

/-- What a CIPHER context of section 2.9's layout captured. -/
def capture : Capture := { range := 3, slot := 7, generation := 4, sector := 1249999, offset := 1 }

/-- A CIPHER fetch of 8 units in STREAM, number 0. -/
def fetch : Context :=
  { number := 0, kind := .fetch, mover := 0, tag := 2, passage := .cipher, window := 2, capture := some capture,
    addr := 0x0020100, length := 8, passed := 0, pieces := 0, doneSeen := false, cancel := .none, completionSent := false,
    code := .ok, state := .stream, fetchProgress := .notIssued, cancelIssued := false, expected := 0, timer := none,
    tweak := .kept 5 }

/-- A CIPHER store of 8 units in STREAM, number 0. -/
def store : Context := { fetch with kind := .store }

/-- A CLEAR context of the same kind and state. -/
def clear (c : Context) : Context := { c with passage := .clear, window := 1, capture := none, tweak := .absent }

/-- The device with one context. -/
def at1 (c : Context) : State := withEntry { service with contexts := [c] }

/-- A running timer. -/
def timer (p : TimerPhase) : Option AnswerTimer := some { phase := p, remaining := 128 }

/-- A timer with one counted tick left. -/
def lastTick (p : TimerPhase) : Option AnswerTimer := some { phase := p, remaining := 1 }

/-- The moment before a coarse tick. -/
def due (s : State) : State := { s with time := { s.time with coarsePhase := 1 } }

/-- A hold of context 0 on its unit 3. -/
def hold : Hold :=
  { ctx := 0, index := 3, addr := 0x0020103, bytes := 7, enables := 0x00FF, phase := .fetch, fetchAnswered := false,
    merged := none }

/-- A store in HOLD with its hold in some phase. -/
def held (h : Hold) : State := { at1 { store with state := .hold, timer := timer .accept } with hold := some h }

/-- A beat with good parity and the enables given: unit 0. -/
def beat (enables : Lanes) : Beat := { data := 0, parity := 0xFFFF, enables := enables }

/-- The same beat with bad parity on lane 0. -/
def badBeat : Beat := { data := 0, parity := 0xFFFE, enables := 0xFFFF }

/-- The unit that follows an outcome. -/
def after (o : Host.Outcome State Fault Refusal) : State :=
  match o with
  | .next t => t
  | _ => State.reset

/-- A request header of mover m with tag 2: FETCH or STORE of 8 units at an address, for sector 1,249,999 at offset 1. -/
def request (k : Kind) (raw : Bool) (m : Fin 8) (addr : UnitAddr) : Header :=
  HeaderFields.header
    { kind := k, raw := raw, tagPresent := true, mover := m, tag := 2, addr := addr, length := 8, offset := 1, sector := 1249999 }

/-- The answer to a request header. -/
def answerOf (s : State) (h : Header) : Option HeaderAnswer :=
  (after (exec (.requestHeader h) s)).out.headerAnswer.map fun a => a.item

/-! ## Section 2.9 and 2.10 -/

/-- Requests a to i of section 2.9 as the decoder answers them: a waits for its key and is admitted, b DENIED, c BOUND, g DENIED.
-/
theorem test_classifying_requests :
    answerOf service (request .fetch false 0 0x0020100) = some .admitted ∧
    answerOf service (request .store false 6 0x0000400) = some (.refuse .denied) ∧
    answerOf service (request .fetch false 6 0x001FFFC) = some (.refuse .bound) ∧
    answerOf service (request .fetch false 0 0x2000000) = some (.refuse .denied) := by decide +kernel

/-- Request e of section 2.9: the raw attribute of mover 2 is ignored and counted. -/
theorem test_raw_ignored_counted :
    (after (exec (.requestHeader (request .store true 2 0x0030000)) service)).tallies.rawIgnored = 1 := by decide +kernel

/-- Step 1 of section 2.10: the widened window 1 overlaps window 2. -/
theorem test_widened_window_overlaps :
    (after (exec (.setWindow 1 2 0x0010000 0x002FFFF 2 0x40 0) service)).link = .pending (Answer.refused .overlap).frame := by
  decide +kernel

/-! ## Small tests of the commands -/

theorem test_reset_answers_retry : answerOf State.reset (request .fetch false 0 0) = some (.refuse .retry) := by
  decide +kernel

theorem test_self_test_passes_to_config : (after (exec (.selfTestEnd none) State.reset)).contain.device = .config := by
  decide +kernel

theorem test_segment_clear_records_context :
    ((after (exec .segmentClear (at1 fetch))).abort.map fun e => e.capture.map fun c => c.range) = [some 3] := by decide +kernel

theorem test_partial_beat_holds :
    ((after (exec (.storeBeat (beat 0x0001)) { at1 store with intake := .beats 0 3 })).out.media.map fun d => d.item) =
      [.holdFetch 0 0x0020103] := by decide +kernel

/-- R135, R139: no beat of another store is taken while a hold exists. -/
theorem test_no_beat_in_a_hold :
    (after (exec (.storeBeat (beat 0xFFFF)) { at1 { store with number := 1 } with
      intake := .beats 1 0, hold := some { hold with ctx := 0 } })).out.taken = false := by decide +kernel

theorem test_bad_beat_drains :
    ((after (exec (.storeBeat badBeat) { at1 store with intake := .beats 0 3 })).contexts.map fun c => (c.state, c.code)) =
      [(.stream, .parity)] := by decide +kernel

theorem test_withheld_beat_pattern :
    (after (exec .returnPathDelivery { service with returnPath := [.withheld 2 3 4] })).out.delivered.map (fun d => (d.item, d.parity)) =
      some (.beat 3 4 { data := 0x3C3C3C3C3C3C3C3C3C3C3C3C3C3C3C3C, parity := 0xFFFF, enables := 0xFFFF },
        List.replicate 16 true) := by decide +kernel

theorem test_clear_unit_passes_through :
    (after (exec (.fetchUnit 0 { index := 0, data := 9, parity := lanesParity 9 })
      (at1 { clear fetch with fetchProgress := .issued }))).returnPath = [.data 0 2 9] := by decide +kernel

theorem test_index_gap_is_parity :
    (after (exec (.fetchUnit 0 { index := 1, data := 0, parity := 0xFFFF })
      (at1 { clear fetch with fetchProgress := .issued }))).returnPath =
      [.withheld 8 0 2, .completion 0 2 .parity] := by decide +kernel

theorem test_short_fetch_ends_media :
    (after (exec (.fetchDone 0) (at1 { fetch with fetchProgress := .issued }))).returnPath =
      [.withheld 8 0 2, .completion 0 2 .media] := by decide +kernel

theorem test_timeout_tally_counts :
    (after (exec (.answerTimerExpiry 0) (at1 { fetch with fetchProgress := .issued, timer := lastTick .unit }))).tallies.timeout =
      1 ∧
    (after (exec (.answerTimerExpiry 0) (at1 { fetch with fetchProgress := .issued, timer := timer .unit }))).out.taken = false := by
  decide +kernel

theorem test_unanswered_cancel_strands :
    ((after (exec (.cancelTimeout 0) (at1 { fetch with
        state := .cancel, cancel := .sent, cancelIssued := true, completionSent := true, timer := lastTick .cancelAnswer }))).contexts.map
      fun c => c.state) = [.stranded] := by decide +kernel

/-- Step 10 of section 11.8: the interval is kept; 0 is clamped to 10 and 65,535 to 6,000. -/
theorem test_arm_presence_clamps :
    (after (exec (.armPresence 3000) service)).time.presence = .armed 3000 3000 ∧
    (after (exec (.armPresence 0) service)).time.presence = .armed 10 10 ∧
    (after (exec (.armPresence 65535) service)).time.presence = .armed 6000 6000 := by decide +kernel

/-- R156: a RENEW taken first restarts the timer, and the tick finds no lapse. -/
theorem test_renew_before_lapse :
    (after (exec .presenceLapse (after (exec .renew (due { service with
      time := { service.time with presence := .armed 10 1 } }))))).time.presence = .armed 10 10 := by decide +kernel

theorem test_scrub_revokes_and_locks :
    (after (exec (.scrubKey 7) (at1 fetch))).returnPath = [.withheld 8 0 2, .completion 0 2 .revoked] ∧
    (after (exec (.scrubKey 7) (at1 fetch))).ranges[3].state = .locked := by decide +kernel

/-- R54: the generation after 255 is 1. -/
theorem test_generation_wraps :
    (after (exec (.loadKey 7 1 2) { service with
      slots := service.slots.set 7 { body := .empty, generation := 255, check := 0 } })).slots[7].generation = 1 := by
  decide +kernel

theorem test_load_key_refuses_loaded_slot :
    (after (exec (.loadKey 7 1 2) service)).link = .pending (Answer.refused .occupied).frame := by decide +kernel

theorem test_go_refused_in_service : (after (exec .go service)).link = .pending (Answer.refused .state).frame := by
  decide +kernel

theorem test_limit_above_space_refused :
    (after (exec (.setLimit 0x010000000001) service)).link = .pending (Answer.refused .badValue).frame ∧
    (after (exec (.setLimit 0x010000000000) service)).decoder.limit = 2 ^ 40 := by decide +kernel

theorem test_alert_follows_enable :
    (after (exec (.setAlert 0x0020)
      { service with events := { pending := 0x020, enables := 0, alertLow := false } })).events.alertLow = true := by
  decide +kernel

theorem test_idle_marker_read :
    (after (exec (.readPeriod 18) service)).out.kdo =
      List.replicate 8 none ++ [false, true, false, true, true, false, true, true, true, true].map some := by decide +kernel

/-! ## The hypotheses of the statements can be met -/

/-- The port is open, as a check that can be run. -/
theorem portOpen_iff (n : CtxNo) (s : State) :
    s.portOpen n ↔ s.intake ≠ .clearing ∧ s.returnFull = false ∧ (s.hold.all fun h => h.ctx == n) = true := by
  cases hh : s.hold <;> simp [State.portOpen, hh]

theorem witness_step_runs_front : { service with pending := [.go, .renew] }.pending = .go :: [.renew] := rfl

/-- No visit finds a mismatch in the device in service. -/
theorem undisturbed_service : service.undisturbed := by
  refine ⟨fun i => ?_, fun i => ?_, fun k => ?_⟩
  · fin_cases i <;> rfl
  · rw [Range.disturbed_eq_false_iff]
    fin_cases i <;> rfl
  · fin_cases k <;> simp [slotDisturbed, service, State.reset, Slot.sealed, Slot.preset, Slot.fields, slot7]

/-- SERVICE with presence and idle timers at given counts, before a coarse tick. -/
def ticking (presence idle : Nat) : State :=
  due { service with
    ranges := service.ranges.set 3 (Range.sealed 3 { openRange3 with lockOnAbsence := false, idleRemaining := some idle })
    time := { service.time with presence := .armed 10 presence } }

/-- Each clause: a timer that counts, one at its last tick in and out of the cancel phase, one that does not count; a fine tick
that is no coarse tick; a coarse tick with each timer at 1 and above. -/
theorem witness_idle_step_is_fine_tick :
    (service.pending = [] ∧ service.contain.device ≠ .selfTest ∧ 2 ≤ service.time.coarsePhase) ∧ service.undisturbed ∧
    (at1 { fetch with timer := timer .unit }).contextLaws ∧
    (at1 { fetch with timer := timer .unit }).countsTick { fetch with timer := timer .unit } = true ∧
    (at1 { fetch with timer := lastTick .unit }).countsTick { fetch with timer := lastTick .unit } = true ∧
    ({ fetch with timer := lastTick .unit } : Context).live = true ∧ fetch.cancel = .none ∧
    (at1 { fetch with timer := lastTick .cancelAnswer }).countsTick { fetch with timer := lastTick .cancelAnswer } = true ∧
    ({ at1 fetch with hold := some { hold with ctx := 1 } } : State).countsTick fetch = false ∧
    ((ticking 1 1).time.coarsePhase ≤ 1 ∧ (ticking 1 1).time.presence = .armed 10 1 ∧ (ticking 2 2).time.presence = .armed 10 2 ∧
      (ticking 1 1).ranges[3].isOpen = true ∧ (ticking 1 1).ranges[3].idleInterval ≠ 0 ∧
      (ticking 1 1).ranges[3].lockOnAbsence = false ∧ (ticking 1 1).ranges[3].idleRemaining = some 1 ∧
      (ticking 2 2).ranges[3].idleRemaining = some 2 ∧ (ticking 1 1).marks.tickedIdle.getLsbD 3 = false ∧
      (ticking 1 1).marks.tickedPresence = false) := by
  refine ⟨by decide +kernel, undisturbed_service, ?_⟩
  simp only [State.contextLaws]; decide +kernel

/-- Offset 0, offset 1, and a catch-up to the last position. -/
theorem witness_tweaks_are_kept :
    ((at1 { fetch with tweak := .absent, capture := some { capture with offset := 0 } }).ctx? 0 =
        some { fetch with tweak := .absent, capture := some { capture with offset := 0 } } ∧ fetch.streaming = true ∧
      (at1 { fetch with tweak := .absent, capture := some { capture with offset := 0 } }).contain.device = .service ∧
      (at1 { fetch with tweak := .absent, capture := some { capture with offset := 0 } }).entryOf 7 4 = some entry) ∧
    ((at1 { fetch with tweak := .absent }).ctx? 0 = some { fetch with tweak := .absent } ∧ fetch.capture = some capture ∧
      fetch.streaming = true ∧ (at1 { fetch with tweak := .absent }).contain.device = .service ∧
      (at1 { fetch with tweak := .absent }).entryOf capture.slot capture.generation = some entry) ∧
    ((at1 { fetch with tweak := .catchingUp 1, capture := some { capture with offset := 255 } }).ctx? 0 =
        some { fetch with tweak := .catchingUp 1, capture := some { capture with offset := 255 } } ∧
      (at1 { fetch with tweak := .catchingUp 1, capture := some { capture with offset := 255 } }).contain.device = .service) :=
  ⟨⟨rfl, rfl, rfl, rfl⟩, ⟨rfl, rfl, rfl, rfl, rfl⟩, rfl, rfl⟩

theorem witness_self_test_ends :
    State.reset.contain.device = .selfTest ∧ State.reset.expander.current = none ∧
    (∀ c ∈ State.reset.contexts, c.passage = .cipher → c.live = false) := by decide +kernel

theorem witness_segment_clear_abandons :
    (at1 fetch).intake ≠ .clearing ∧ (at1 fetch).contexts ≠ [] ∧ service.contexts = [] ∧
    ({ service with intake := .clearing } : State).intake = .clearing := by decide +kernel

theorem witness_header_answered_by_first_failing_check :
    service.intake = .header ∧
    (service.passesWindow (request .store true 2 0x0030000) 2 ∧ service.decoder.windows[2].treatment = .cipher ∧
      (readHeader (request .store true 2 0x0030000)).raw = true ∧
      hasMover (readHeader (request .store true 2 0x0030000)).mover service.decoder.windows[2].relocation = false) ∧
    ({ service with intake := .clearing } : State).intake ≠ .header := by
  simp only [State.passesWindow]; decide +kernel

/-- A fetch and a store refused, and a header refused PARITY. -/
theorem witness_refusal_changes_no_table :
    (∃ t, exec (.requestHeader (request .fetch false 0 0x2000000)) service = .next t ∧
      t.out.headerAnswer = some (HeaderAnswer.driven (.refuse .denied))) ∧
    (∃ t, exec (.requestHeader (request .store false 0 0x2000000)) service = .next t ∧
      t.out.headerAnswer = some (HeaderAnswer.driven (.refuse .denied))) ∧
    (∃ t, exec (.requestHeader { request .fetch false 0 0x0020100 with parity := 0 }) service = .next t ∧
      t.out.headerAnswer = some (HeaderAnswer.driven (.refuse .parity))) := by
  refine ⟨⟨_, rfl, rfl⟩, ⟨_, rfl, rfl⟩, ⟨_, rfl, rfl⟩⟩

/-- A CLEAR request at the last units of its window, and a RAW one. -/
theorem witness_plain_request_is_admitted :
    (service.intake = .header ∧ service.passesWindow (request .fetch true 6 0x001FFF8) 1 ∧ service.isLowestFree 0 ∧
      service.decoder.windows[1].treatment = .clear) ∧
    (service.passesWindow (request .store true 4 0x0030000) 2 ∧ service.decoder.windows[2].treatment = .cipher ∧
      (readHeader (request .store true 4 0x0030000)).raw = true ∧
      hasMover (readHeader (request .store true 4 0x0030000)).mover service.decoder.windows[2].relocation = true) := by
  simp only [State.passesWindow, State.isLowestFree]; decide +kernel

/-- Another expansion in progress. -/
def expanding (k : SlotNo) : Expansion :=
  { slot := k, generation := 4, set := 3, way := .way1, attached := [], void := false, keys := pair }

/-- The request that waits in the queue for slot 7. -/
def queued : Request := { slot := 7, generation := 4, attached := [9] }

/-- Set 3 with two entries of other slots, both pinned. -/
def otherPins : State :=
  { service with
    cache := service.cache.set 3 { way0 := some { entry with slot := 15 }, way1 := some { entry with slot := 11 }, recent := .way0 } }

/-- A hit; a miss with the pair's own expansion in progress; a miss with another's, the request queued already or not; a miss with
the expander idle and an unpinned way, and with none; a degraded raw request. -/
theorem witness_cipher_request_is_admitted :
    (service.intake = .header ∧ service.passesWindow (request .fetch false 0 0x0020100) 2 ∧ service.isLowestFree 0 ∧
      service.decoder.windows[2].treatment = .cipher ∧ (readHeader (request .fetch false 0 0x0020100)).raw = false ∧
      service.passesCipher (request .fetch false 0 0x0020100) capture ∧ service.settled) ∧
    (withEntry service).entryOf capture.slot capture.generation = some entry ∧
    service.entryOf capture.slot capture.generation = none ∧
    ({ service with expander := { queue := [], current := some (expanding 7) } } : State).settled ∧
    ({ service with expander := { queue := [], current := some (expanding 8) } } : State).settled ∧
    ({ service with expander := { queue := [queued], current := some (expanding 8) } } : State).settled ∧
    (service.expander.current = none ∧ service.slots[7].body = .loaded pair) ∧
    (otherPins.settled ∧ otherPins.entryOf 7 4 = none ∧ otherPins.expander.current = none) ∧
    (service.passesWindow (request .store true 2 0x0030000) 2 ∧
      hasMover (readHeader (request .store true 2 0x0030000)).mover service.decoder.windows[2].relocation = false) ∧
    service.victimWay (Machine.setOf 7 4) .way0 ∧ otherPins.fullyPinned (Machine.setOf 7 4) := by
  refine ⟨?_, rfl, ?_, ?_, ?_, ?_, ?_, ?_, ?_, .inl ⟨rfl, rfl⟩, fun w => ?_⟩
  rotate_right
  · cases w <;> exact ⟨_, rfl, by decide⟩
  all_goals
    first
    | decide +kernel
    | simp only [State.passesWindow, State.isLowestFree, State.passesCipher, State.settled]; decide +kernel

/-- A CLEAR store with its piece open and accepted, at its last unit. -/
def lastUnit : State :=
  { at1 { clear store with pieces := 1, passed := 7 } with
    intake := .beats 0 7, media := { slot := none, path := .piece 0 true, clearDriven := false } }

/-- Each clause: a CIPHER beat with all lanes, and with none; a CLEAR beat that waits; one driven at once; the last; a hold. -/
theorem witness_store_beat_is_taken :
    (({ at1 store with intake := .beats 0 0 } : State).ctx? 0 = some store ∧ store.state = .stream ∧ store.code = .ok ∧
      (at1 store).media.slot = none ∧ store.passage = .cipher ∧ (at1 store).engines.outbound = none ∧ store.tweak = .kept 5 ∧
      beatParityBad (beat 0xFFFF) = false ∧ beatParityBad (beat 0) = false ∧ (at1 store).hold = none ∧
      ({ at1 store with intake := .beats 0 0 } : State).settled) ∧
    (({ at1 (clear store) with intake := .beats 0 0 } : State).ctx? 0 = some (clear store) ∧
      (clear store).state = .stream ∧ (clear store).code = .ok ∧ (at1 (clear store)).media.slot = none ∧
      (clear store).passage ≠ .cipher ∧ (at1 (clear store)).media.path ≠ .piece 0 true ∧
      ({ at1 (clear store) with intake := .beats 0 0 } : State).settled) ∧
    (({ lastUnit with intake := .beats 0 6 } : State).ctx? 0 = some { clear store with pieces := 1, passed := 7 } ∧
      ({ lastUnit with intake := .beats 0 6 } : State).settled ∧ lastUnit.media.path = .piece 0 true ∧
      6 + 1 < (clear store).length) ∧
    (lastUnit.intake = .beats 0 7 ∧ lastUnit.ctx? 0 = some { clear store with pieces := 1, passed := 7 } ∧
      lastUnit.settled ∧ lastUnit.media.slot = none ∧ (clear store).capture = none ∧ lastUnit.media.path = .piece 0 true ∧
      7 + 1 = (clear store).length ∧ 0 < 1 ∧ lastUnit.hold = none) ∧
    (({ lastUnit with hold := some { hold with ctx := 1 } } : State).hold ≠ none ∧ (clear store).draining = false) := by
  simp only [State.settled]; decide +kernel

/-- One lane enabled, and all but one. -/
theorem witness_partial_beat_begins_hold :
    ({ at1 store with intake := .beats 0 3 } : State).ctx? 0 = some store ∧ store.state = .stream ∧ store.code = .ok ∧
    store.passage = .cipher ∧ (at1 store).media.slot = none ∧ (at1 store).engines.outbound = none ∧ store.tweak = .kept 5 ∧
    (at1 store).hold = none ∧ (beatParityBad (beat 0x0001) = false ∧ (beat 0x0001).enables ≠ 0 ∧ (beat 0x0001).enables ≠ 0xFFFF) ∧
    (beatParityBad (beat 0x7FFF) = false ∧ (beat 0x7FFF).enables ≠ 0 ∧ (beat 0x7FFF).enables ≠ 0xFFFF) ∧
    ({ at1 store with intake := .beats 0 3 } : State).settled := by
  simp only [State.settled]; decide +kernel

/-- A beat before the last, of a CIPHER store and of a CLEAR one; the last beat. -/
theorem witness_bad_beat_starts_drain :
    (({ at1 store with intake := .beats 0 6 } : State).ctx? 0 = some store ∧ store.kind = .store ∧ store.state = .stream ∧
      store.code = .ok ∧ store.cancel = .none ∧ (at1 store).engines.outbound = none ∧ store.tweak = .kept 5 ∧
      (at1 store).media.slot = none ∧ (at1 store).hold = none ∧ beatParityBad badBeat = true ∧ 6 + 1 < store.length ∧
      ({ at1 store with intake := .beats 0 6 } : State).settled) ∧
    (({ at1 (clear store) with intake := .beats 0 0 } : State).ctx? 0 = some (clear store) ∧ (clear store).kind = .store ∧
      (clear store).state = .stream ∧ (clear store).code = .ok ∧ (clear store).cancel = .none ∧
      (clear store).passage ≠ .cipher ∧ 0 + 1 < (clear store).length ∧
      ({ at1 (clear store) with intake := .beats 0 0 } : State).settled) ∧
    (({ at1 store with intake := .beats 0 7 } : State).ctx? 0 = some store ∧ store.length ≤ 7 + 1 ∧
      store.completionSent = false) := by
  simp only [State.settled]; decide +kernel

/-- A store in CANCEL whose beats are being dropped. -/
def dropping (x : CancelProgress) : Context := { store with state := .cancel, code := .fault, cancel := x, tweak := .absent }

/-- A store that drains in STREAM. -/
def draining (pieces : Nat) : Context := { store with code := .media, pieces := pieces }

/-- Each clause: two beats left, the last of a refused store, the last of a store in CANCEL and of one STRANDED; a beat of a
draining store before the last, and the last. -/
theorem witness_dropped_beats_are_counted_off :
    (({ service with intake := .dropping 2 none } : State).intake = .dropping 2 none ∧ 2 ≤ 2) ∧
    ({ service with intake := .dropping 1 none } : State).intake = .dropping 1 none ∧
    (({ at1 (dropping .none) with intake := .dropping 1 (some 0) } : State).intake = .dropping 1 (some 0) ∧
      ({ at1 (dropping .none) with intake := .dropping 1 (some 0) } : State).ctx? 0 = some (dropping .none) ∧
      (dropping .none).completionSent = false ∧ (dropping .none).state = .cancel) ∧
    (({ at1 { dropping .sent with state := .stranded } with intake := .dropping 1 (some 0) } : State).ctx? 0 =
        some { dropping .sent with state := .stranded } ∧ (dropping .sent).completionSent = false) ∧
    (({ at1 (draining 1) with intake := .beats 0 6 } : State).ctx? 0 = some (draining 1) ∧ (draining 1).kind = .store ∧
      (draining 1).state = .stream ∧ (draining 1).code ≠ .ok ∧ 6 + 1 < (draining 1).length ∧
      ({ at1 (draining 1) with intake := .beats 0 6 } : State).settled) ∧
    (({ at1 (draining 1) with intake := .beats 0 7 } : State).ctx? 0 = some (draining 1) ∧ (draining 1).length ≤ 7 + 1 ∧
      (draining 1).completionSent = false ∧ (at1 (draining 1)).hold = none) := by
  simp only [State.settled]; decide +kernel

/-- Each clause, the withheld run at its last unit. -/
theorem witness_return_path_delivers_head :
    ({ service with returnPath := [.data 1 2 3] } : State).returnPath = .data 1 2 3 :: [] ∧
    (({ service with returnPath := [.withheld 1 0 0] } : State).returnPath = .withheld 1 0 0 :: [] ∧ 1 ≤ 1) ∧
    ({ service with returnPath := [.completion 7 15 .ok] } : State).returnPath = .completion 7 15 .ok :: [] :=
  ⟨rfl, ⟨rfl, by decide⟩, rfl⟩

/-- A unit of context 0 on the outbound path. -/
def outbound (s : State) : State :=
  { s with engines := { outbound := some { ctx := 0, index := 3, data := 9, enables := 0xFFFF, merged := false }, inbound := none } }

/-- The device with one CIPHER context is ready to use its key pair. -/
theorem engineReady_at1 (c : Context) (h : c.streaming = true) (hc : c.capture = some capture) (ht : c.tweak = .kept 5) :
    (at1 c).engineReady c pair 5 := ⟨rfl, h, ht, capture, entry, hc, rfl, rfl⟩

/-- The last unit of context 0 on the outbound path, its piece open and accepted. -/
def outboundLast : State :=
  { at1 { store with pieces := 1, passed := 7 } with
    engines := { outbound := some { ctx := 0, index := 7, data := 9, enables := 0xFFFF, merged := false }, inbound := none }
    media := { slot := none, path := .piece 0 true, clearDriven := false } }

/-- A hold's merged plaintext on the outbound path. -/
def outboundMerged (answered : Bool) : State :=
  { held { hold with phase := .merge, fetchAnswered := answered } with
    engines := { outbound := some { ctx := 0, index := 3, data := 9, enables := 0xFFFF, merged := true }, inbound := none } }

/-- Each clause: to the slot, driven at once, the last unit, a hold's unit before and after the HOLD-FETCH's DONE. -/
theorem witness_sound_unit_passes_checker :
    ((outbound (at1 store)).engines.outbound = some { ctx := 0, index := 3, data := 9, enables := 0xFFFF, merged := false } ∧
      (outbound (at1 store)).ctx? 0 = some store ∧ (outbound (at1 store)).engineReady store pair 5 ∧
      (outbound (at1 store)).media.slot = none ∧ (outbound (at1 store)).media.path = .free ∧
      (outbound (at1 store)).settled) ∧
    (outboundLast.ctx? 0 = some { store with pieces := 1, passed := 7 } ∧
      outboundLast.engineReady { store with pieces := 1, passed := 7 } pair 5 ∧ outboundLast.media.path = .piece 0 true ∧
      3 + 1 < store.length ∧ 7 + 1 = store.length ∧ outboundLast.settled) ∧
    (∀ a, (outboundMerged a).hold = some { hold with phase := .merge, fetchAnswered := a } ∧ hold.ctx = 0 ∧
      (outboundMerged a).ctx? 0 = some { store with state := .hold, timer := timer .accept } ∧
      (outboundMerged a).engineReady { store with state := .hold, timer := timer .accept } pair 5) :=
  ⟨⟨rfl, rfl, engineReady_at1 store rfl rfl rfl, rfl, rfl, by simp only [State.settled]; decide +kernel⟩,
    ⟨rfl, ⟨rfl, rfl, rfl, capture, entry, rfl, rfl, rfl⟩, rfl, by decide, by decide,
      by simp only [State.settled]; decide +kernel⟩,
    fun _ => ⟨rfl, rfl, rfl, ⟨rfl, rfl, rfl, capture, entry, rfl, rfl, rfl⟩⟩⟩

theorem witness_disturbed_unit_contains_device :
    (outbound (at1 store)).contextLaws ∧ (outbound (at1 store)).ctx? 0 = some store ∧
    (outbound (at1 store)).engineReady store pair 5 ∧ (1 : Block) ≠ 0 :=
  ⟨by simp only [State.contextLaws]; decide +kernel, rfl, engineReady_at1 store rfl rfl rfl, by decide⟩

/-- A unit of context 0 in the inbound engine. -/
def inbound (forHold : Bool) (s : State) : State :=
  { s with engines := { outbound := none, inbound := some { ctx := 0, data := 9, forHold := forHold } } }

/-- A middle unit, the last unit after DONE, a hold's unit. -/
theorem witness_inbound_unit_is_deciphered :
    ((inbound false (at1 fetch)).ctx? 0 = some fetch ∧ (inbound false (at1 fetch)).engineReady fetch pair 5 ∧
      (inbound false (at1 fetch)).engines.inbound = some { ctx := 0, data := 9, forHold := false } ∧
      ¬ (fetch.passed + 1 = fetch.length ∧ fetch.doneSeen = true) ∧ (inbound false (at1 fetch)).settled) ∧
    ((inbound false (at1 { fetch with passed := 7, doneSeen := true })).ctx? 0 =
        some { fetch with passed := 7, doneSeen := true } ∧
      (inbound false (at1 { fetch with passed := 7, doneSeen := true })).engineReady
        { fetch with passed := 7, doneSeen := true } pair 5 ∧
      7 + 1 = fetch.length ∧ fetch.completionSent = false) ∧
    ((inbound true (held { hold with phase := .merge })).hold = some { hold with phase := .merge } ∧
      (inbound true (held { hold with phase := .merge })).ctx? 0 =
        some { store with state := .hold, timer := timer .accept } ∧
      (inbound true (held { hold with phase := .merge })).engineReady
        { store with state := .hold, timer := timer .accept } pair 5 ∧
      (inbound true (held { hold with phase := .merge })).engines.inbound =
        some { ctx := 0, data := 9, forHold := true }) :=
  ⟨⟨rfl, engineReady_at1 fetch rfl rfl rfl, rfl, by decide, by simp only [State.settled]; decide +kernel⟩,
    ⟨rfl, ⟨rfl, rfl, rfl, capture, entry, rfl, rfl, rfl⟩, by decide, rfl⟩,
    rfl, rfl, ⟨rfl, rfl, rfl, capture, entry, rfl, rfl, rfl⟩, rfl⟩

/-- A context with nothing ready: its FETCH is issued. -/
def notReady : Context := { fetch with number := 9, fetchProgress := .issued }

/-- The first unit of context 0. -/
def slotUnit : SlotUnit := { ctx := 0, index := 0, data := 0, enables := 0 }

/-- A context behind it in the list, with a unit of context 0 in the store slot. -/
def behind (c : Context) : State :=
  { at1 c with contexts := [notReady, c], media := { slot := some slotUnit, path := .free, clearDriven := false } }

/-- Each clause, behind a context that is not ready: a FETCH, a piece, a CANCEL. -/
theorem witness_oldest_ready_context_is_granted :
    (behind fetch).readyRequest notReady = none ∧ ((behind fetch).contexts.map fun d => d.number).Nodup ∧
    (behind fetch).media.path = .free ∧ (behind fetch).hold = none ∧ (behind fetch).intake ≠ .clearing ∧
    (fetch.kind = .fetch ∧ fetch.state = .stream ∧ fetch.fetchProgress = .notIssued ∧ fetch.cancel ≠ .sent) ∧
    ((behind store).readyRequest notReady = none ∧ store.kind = .store ∧ store.state = .stream ∧ store.code = .ok ∧
      store.cancel ≠ .sent ∧ (behind store).media.slot = some slotUnit ∧ slotUnit.ctx = store.number) ∧
    ((behind (dropping .sent)).readyRequest notReady = none ∧ (dropping .sent).cancel = .sent ∧
      (dropping .sent).cancelIssued = false ∧ (dropping .sent).state ≠ .stranded) := by decide +kernel

/-- A store whose piece awaits its ACCEPT with unit k in the slot. -/
def opening (k : Nat) : State :=
  { at1 { clear store with pieces := 1 } with
    media := { slot := some { ctx := 0, index := k, data := 9, enables := 0xFFFF }, path := .piece 0 false, clearDriven := false } }

/-- A hold in RELEASE whose RELEASE-STORE awaits its ACCEPT. -/
def releasing (k : Nat) : State :=
  { held { hold with phase := .release, index := k, fetchAnswered := true, merged := some 9 } with
    media := { slot := some { ctx := 0, index := k, data := 9, enables := 0xFFFF }, path := .release 0, clearDriven := false } }

/-- The same of a CIPHER store. -/
def openingCipher : State := { opening 7 with contexts := [{ store with pieces := 1 }] }

/-- Each clause: FETCH, a first unit, a unit that is first and last (CLEAR and CIPHER), HOLD-FETCH, RELEASE-STORE. -/
theorem witness_accept_starts_the_flow :
    ((at1 { fetch with fetchProgress := .issued, timer := timer .accept }).portOpen 0 ∧
      (at1 { fetch with fetchProgress := .issued, timer := timer .accept }).ctx? 0 =
        some { fetch with fetchProgress := .issued, timer := timer .accept } ∧ fetch.live = true ∧ fetch.kind = .fetch) ∧
    ((opening 0).portOpen 0 ∧ (opening 0).ctx? 0 = some { clear store with pieces := 1 } ∧ (clear store).live = true ∧
      (opening 0).media.path = .piece 0 false ∧ 0 + 1 < (clear store).length ∧ (opening 0).settled) ∧
    ((opening 7).portOpen 0 ∧ (opening 7).ctx? 0 = some { clear store with pieces := 1 } ∧ (opening 7).settled ∧
      (opening 7).media.path = .piece 0 false ∧ 7 + 1 = (clear store).length ∧ (clear store).state = .stream ∧
      (clear store).capture = none) ∧
    (openingCipher.portOpen 0 ∧ openingCipher.ctx? 0 = some { store with pieces := 1 } ∧ store.live = true) ∧
    ((held hold).portOpen 0 ∧ (held hold).ctx? 0 = some { store with state := .hold, timer := timer .accept } ∧
      ({ store with state := .hold } : Context).live = true ∧ (held hold).hold = some hold ∧ hold.phase = .fetch) ∧
    ((releasing 3).portOpen 0 ∧ (releasing 3).ctx? 0 = some { store with state := .hold, timer := timer .accept } ∧
      (releasing 3).media.path = .release 0 ∧ (releasing 3).media.slot.isSome = true) := by
  simp only [portOpen_iff, State.settled]; decide +kernel

/-- Each clause: cleared, a number not in use, a context in CANCEL and one STRANDED, a full return path, another context's hold; a
CANCEL already answered; answers that fit nothing of a store in STREAM and of one in HOLD; an unroutable arrival with the return
path one short of full. -/
theorem witness_stray_arrivals_are_dropped :
    answersContext (.accept 0 .fetch) = some 0 ∧ answersContext (.mediaError 31 .releaseStore) = some 31 ∧
    ({ service with intake := .clearing } : State).intake = .clearing ∧
    (service.portOpen 31 ∧ service.ctx? 31 = none) ∧
    ((at1 (dropping .sent)).portOpen 0 ∧ (dropping .sent).state = .cancel) ∧
    ({ dropping .sent with state := .stranded } : Context).state = .stranded ∧
    (({ service with returnPath := List.replicate 16 (.data 0 0 0) } : State).returnFull = true ∧
      ({ service with returnPath := List.replicate 16 (.data 0 0 0) } : State).intake ≠ .clearing) ∧
    ((held hold).intake ≠ .clearing ∧ (held hold).hold = some hold ∧ hold.ctx ≠ 5) ∧
    ((at1 (dropping .answered)).portOpen 0 ∧ (dropping .answered).cancel ≠ .sent) ∧
    ((at1 store).portOpen 0 ∧ (at1 store).ctx? 0 = some store ∧ store.live = true ∧ store.kind ≠ .fetch ∧ store.timer = none ∧
      (at1 store).media.path ≠ .piece 0 false ∧ store.pieces = 0 ∧ store.state ≠ .hold) ∧
    ((held { hold with phase := .merge, fetchAnswered := true }).portOpen 0 ∧
      (held { hold with phase := .merge, fetchAnswered := true }).hold = some { hold with phase := .merge, fetchAnswered := true } ∧
      (held hold).media.path ≠ .release 0) ∧
    (({ service with returnPath := List.replicate 15 (.data 0 0 0) } : State).returnFull = false ∧
      ({ service with returnPath := List.replicate 15 (.data 0 0 0) } : State).intake ≠ .clearing) := by
  simp only [portOpen_iff]; decide +kernel

/-- A fetch that awaits its ACCEPT while the inbound engine holds another context's unit. -/
def acceptLost : State :=
  { at1 { fetch with fetchProgress := .issued, timer := timer .accept } with
    engines := { outbound := none, inbound := some { ctx := 1, data := 0, forHold := false } } }

/-- R106: a unit that has come in place of the ACCEPT waits for the engine, and the tick is not counted; without it, it is. -/
theorem test_waiting_unit_counts_no_tick :
    acceptLost.answerTicks.contexts.map (fun c => c.timer.map fun t => t.remaining) = [some 127] ∧
    (after (exec (.fetchUnit 0 { index := 0, data := 0, parity := 0xFFFF }) acceptLost)).answerTicks.contexts.map
      (fun c => c.timer.map fun t => t.remaining) = [some 128] := by
  refine ⟨?_, ?_⟩ <;> decide +kernel

/-- R110: once an extra unit that waited is dropped, the timer of the DONE counts while the engine serves others. -/
theorem test_dropped_unit_waits_no_more :
    let extra : Instr := .fetchUnit 0 { index := 0, data := 0, parity := 0xFFFF }
    let waiting := after (exec extra { acceptLost with
      contexts := [{ fetch with fetchProgress := .issued, expected := 8, timer := timer .done }] })
    let dropped := after (exec extra { waiting with engines := { outbound := none, inbound := none } })
    ({ dropped with engines := acceptLost.engines } : State).answerTicks.contexts.map
      (fun c => c.timer.map fun t => t.remaining) = [some 127] := by decide +kernel

/-- A unit at the index expected: the first of a CLEAR fetch, the last of a CIPHER one; a CIPHER unit that meets a busy engine, and
one whose catch-up has not ended; a unit past the length. -/
theorem witness_expected_unit_is_taken :
    ((at1 { clear fetch with fetchProgress := .issued }).portOpen 0 ∧
      (at1 { clear fetch with fetchProgress := .issued }).ctx? 0 = some { clear fetch with fetchProgress := .issued } ∧
      (clear fetch).live = true ∧ (clear fetch).kind = .fetch ∧ (0 : Fin 256).val = (clear fetch).expected ∧
      (clear fetch).expected < (clear fetch).length ∧ (0xFFFF : Lanes) = lanesParity 0 ∧ (clear fetch).passage ≠ .cipher ∧
      ¬ ((clear fetch).passed + 1 = (clear fetch).length ∧ (clear fetch).doneSeen = true)) ∧
    ((at1 { fetch with fetchProgress := .issued, expected := 7 }).portOpen 0 ∧
      (at1 { fetch with fetchProgress := .issued, expected := 7 }).ctx? 0 =
        some { fetch with fetchProgress := .issued, expected := 7 } ∧
      (7 : Fin 256).val = 7 ∧ 7 < fetch.length ∧ fetch.passage = .cipher ∧ fetch.tweak = .kept 5 ∧
      (at1 { fetch with fetchProgress := .issued, expected := 7 }).engines.inbound = none) ∧
    (acceptLost.portOpen 0 ∧ acceptLost.ctx? 0 = some { fetch with fetchProgress := .issued, timer := timer .accept } ∧
      acceptLost.engines.inbound ≠ none) ∧
    (((at1 { fetch with fetchProgress := .issued, expected := 8 }).portOpen 0 ∧
      (at1 { fetch with fetchProgress := .issued, expected := 8 }).ctx? 0 =
        some { fetch with fetchProgress := .issued, expected := 8 } ∧
      fetch.length ≤ 8) ∧ (at1 { fetch with fetchProgress := .issued, expected := 8 }).engines.inbound = none) ∧
    (∀ x, ({ fetch with tweak := .absent } : Context).tweak ≠ .kept x) := by
  simp only [portOpen_iff]
  refine ⟨by decide +kernel, by decide +kernel, by decide +kernel, by decide +kernel, ?_⟩
  intro x h; cases h

/-- A gap in the index, and bad parity at the index expected. -/
theorem witness_bad_unit_withholds_the_rest :
    (at1 { clear fetch with fetchProgress := .issued }).portOpen 0 ∧
    (at1 { clear fetch with fetchProgress := .issued }).ctx? 0 = some { clear fetch with fetchProgress := .issued } ∧
    (clear fetch).live = true ∧ (clear fetch).kind = .fetch ∧ (clear fetch).expected < (clear fetch).length ∧
    (clear fetch).passed < (clear fetch).length ∧ (1 : Fin 256).val ≠ (clear fetch).expected ∧
    (0xFFFE : Lanes) ≠ lanesParity 0 ∧ (clear fetch).passage ≠ .cipher ∧ (clear fetch).cancel = .none ∧
    (clear fetch).completionSent = false ∧ (clear fetch).code = .ok := by
  simp only [portOpen_iff]; decide +kernel

/-- Each clause: the unit, a bad one (out of index, and bad parity) with beats left and none, one that meets a busy engine, the
DONE before the merged unit, the DONE after it. -/
theorem witness_hold_fetch_is_answered :
    ((held hold).portOpen 0 ∧ (held hold).ctx? 0 = some { store with state := .hold, timer := timer .accept } ∧
      (held hold).hold = some hold ∧ hold.phase = .fetch ∧ (held hold).engines.inbound = none ∧
      (0xFFFF : Lanes) = lanesParity 0) ∧
    (hold.fetchAnswered = false ∧ (1 : Fin 256) ≠ 0 ∧ (0xFFFE : Lanes) ≠ lanesParity 0 ∧ store.kind = .store ∧
      store.cancel = .none ∧ store.code = .ok ∧ store.completionSent = false ∧
      (held hold).beatsLeft { store with state := .hold, timer := timer .accept } = 0 ∧
      ({ held hold with intake := .beats 0 4 } : State).beatsLeft { store with state := .hold, timer := timer .accept } = 4) ∧
    (({ held hold with engines := acceptLost.engines } : State).portOpen 0 ∧ acceptLost.engines.inbound ≠ none ∧
      store.passage = .cipher) ∧
    ((held { hold with phase := .merge }).portOpen 0 ∧
      (held { hold with phase := .merge }).ctx? 0 = some { store with state := .hold, timer := timer .accept } ∧
      ({ hold with phase := .merge } : Hold).phase ≠ .fetch ∧ hold.fetchAnswered = false ∧ hold.merged = none) ∧
    ((held { hold with phase := .merge, merged := some 1 }).portOpen 0 ∧
      (held { hold with phase := .merge, merged := some 1 }).ctx? 0 =
        some { store with state := .hold, timer := timer .accept }) := by
  simp only [portOpen_iff]; decide +kernel

/-- A fetch whose FETCH has been issued, with so many units returned and so many handed. -/
def fetched (expected passed : Nat) : Context := { fetch with fetchProgress := .issued, expected := expected, passed := passed }

/-- Each clause: a fetch all handed, one with its last unit to come, one short; a store with two pieces, one in CLOSE with one. -/
theorem witness_done_ends_request :
    ((at1 (fetched 8 8)).portOpen 0 ∧ (at1 (fetched 8 8)).ctx? 0 = some (fetched 8 8) ∧ (fetched 8 8).live = true ∧
      (fetched 8 8).completionSent = false ∧ (fetched 8 8).kind = .fetch ∧ (fetched 8 8).fetchProgress = .issued ∧
      (fetched 8 8).length ≤ (fetched 8 8).expected ∧ (fetched 8 8).passed = (fetched 8 8).length) ∧
    ((at1 (fetched 8 7)).portOpen 0 ∧ (at1 (fetched 8 7)).ctx? 0 = some (fetched 8 7) ∧
      (fetched 8 7).length ≤ (fetched 8 7).expected ∧ (fetched 8 7).passed ≠ (fetched 8 7).length) ∧
    ((at1 (fetched 7 7)).portOpen 0 ∧ (at1 (fetched 7 7)).ctx? 0 = some (fetched 7 7) ∧
      (fetched 7 7).expected < (fetched 7 7).length ∧ (fetched 7 7).passed < (fetched 7 7).length ∧
      (fetched 7 7).pieces = 0 ∧ (at1 (fetched 7 7)).hold = none ∧ (fetched 7 7).cancel = .none ∧ (fetched 7 7).code = .ok) ∧
    ((at1 { store with pieces := 2 }).portOpen 0 ∧ (at1 { store with pieces := 2 }).ctx? 0 = some { store with pieces := 2 } ∧
      store.live = true ∧ store.kind = .store ∧ store.cancel = .none ∧ store.state ≠ .close) ∧
    ((at1 { store with pieces := 1, state := .close }).portOpen 0 ∧
      (at1 { store with pieces := 1, state := .close }).ctx? 0 = some { store with pieces := 1, state := .close } ∧
      ({ store with state := .close } : Context).live = true ∧ store.completionSent = false) := by
  simp only [portOpen_iff]; decide +kernel

/-- A hold of the store's last unit in RELEASE, with a piece outstanding. -/
def lastHold : State :=
  { at1 { store with state := .hold, pieces := 1 } with hold := some { hold with phase := .release, index := 7 } }

/-- Each clause, with the ACCEPT seen and not: beats remain; none remain, with and without a piece outstanding. -/
theorem witness_release_done_ends_hold :
    (({ releasing 6 with media := { slot := none, path := .free, clearDriven := false } } : State).portOpen 0 ∧
      (releasing 6).ctx? 0 = some { store with state := .hold, timer := timer .accept } ∧
      (releasing 6).hold = some { hold with phase := .release, index := 6, fetchAnswered := true, merged := some 9 } ∧
      ({ releasing 6 with media := { slot := none, path := .free, clearDriven := false } } : State).media.path ≠ .release 0 ∧
      ({ releasing 6 with media := { slot := none, path := .free, clearDriven := false } } : State).settled ∧
      6 + 1 < store.length) ∧
    (lastHold.portOpen 0 ∧ lastHold.ctx? 0 = some { store with state := .hold, pieces := 1 } ∧
      lastHold.hold = some { hold with phase := .release, index := 7 } ∧ lastHold.media.path ≠ .release 0 ∧
      7 + 1 = store.length) ∧
    ((releasing 6).portOpen 0 ∧ (releasing 6).media.path = .release 0 ∧ (releasing 6).media.slot.isSome = true ∧
      (releasing 6).settled) ∧
    ((releasing 7).portOpen 0 ∧ (releasing 7).ctx? 0 = some { store with state := .hold, timer := timer .accept } ∧
      store.pieces = 0 ∧ store.completionSent = false ∧ (releasing 7).media.path = .release 0) := by
  simp only [portOpen_iff, State.settled]; decide +kernel

/-- A store in CLOSE with so many pieces outstanding. -/
def closing (pieces : Nat) : Context := { store with state := .close, pieces := pieces }

/-- Each clause: a fetch, a store in CLOSE with one and with two pieces, a store in STREAM with a beat left and with none, a hold
before its answer and in RELEASE, with an earlier piece outstanding. -/
theorem witness_media_error_ends_request :
    ((at1 (fetched 0 0)).portOpen 0 ∧ (at1 (fetched 0 0)).ctx? 0 = some (fetched 0 0) ∧ (fetched 0 0).live = true ∧
      (fetched 0 0).cancel = .none ∧ (fetched 0 0).completionSent = false ∧ (fetched 0 0).code = .ok ∧
      (fetched 0 0).passed < (fetched 0 0).length ∧ (fetched 0 0).pieces = 0 ∧ (at1 (fetched 0 0)).hold = none) ∧
    ((at1 (closing 1)).portOpen 0 ∧ (at1 (closing 1)).ctx? 0 = some (closing 1) ∧ (closing 1).live = true ∧
      0 < (closing 1).pieces ∧ (closing 1).fetchProgress ≠ .issued ∧ (at1 (closing 1)).beatsLeft (closing 1) = 0) ∧
    ((at1 (closing 2)).portOpen 0 ∧ (at1 (closing 2)).ctx? 0 = some (closing 2) ∧
      (at1 (closing 2)).beatsLeft (closing 2) = 0) ∧
    (({ at1 { store with pieces := 1 } with intake := .beats 0 7 } : State).portOpen 0 ∧
      ({ at1 { store with pieces := 1 } with intake := .beats 0 7 } : State).ctx? 0 = some { store with pieces := 1 } ∧
      ({ at1 { store with pieces := 1 } with intake := .beats 0 7 } : State).beatsLeft { store with pieces := 1 } = 1 ∧
      ({ at1 { store with pieces := 1 } with intake := .beats 0 7 } : State).settled) ∧
    (({ held hold with intake := .beats 0 4 } : State).portOpen 0 ∧
      ({ held hold with intake := .beats 0 4 } : State).ctx? 0 = some { store with state := .hold, timer := timer .accept } ∧
      hold.fetchAnswered = false ∧ store.pieces = 0 ∧ store.fetchProgress ≠ .issued ∧ hold.phase = .fetch ∧
      ({ held hold with intake := .beats 0 4 } : State).beatsLeft { store with state := .hold, timer := timer .accept } = 4) ∧
    ((at1 { store with pieces := 1 }).portOpen 0 ∧ (at1 { store with pieces := 1 }).beatsLeft { store with pieces := 1 } = 0 ∧
      (at1 { store with pieces := 1 }).hold = none) ∧
    (lastHold.portOpen 0 ∧ lastHold.ctx? 0 = some { store with state := .hold, pieces := 1 } ∧
      lastHold.hold = some { hold with phase := .release, index := 7 } ∧
      lastHold.beatsLeft { store with state := .hold, pieces := 1 } = 0 ∧ 0 < ({ store with pieces := 1 } : Context).pieces) := by
  simp only [portOpen_iff, State.settled]; decide +kernel

/-- Each clause, with the completion sent and not yet sent; the timer's last tick in CANCEL and of a draining store with a beat
left; a timer with ticks left. -/
theorem witness_cancel_is_answered_or_stranded :
    ((at1 { dropping .sent with completionSent := true }).portOpen 0 ∧
      (at1 { dropping .sent with completionSent := true }).ctx? 0 = some { dropping .sent with completionSent := true } ∧
      (dropping .sent).cancel = .sent ∧ (dropping .sent).state ≠ .stranded) ∧
    ((at1 (dropping .sent)).portOpen 0 ∧ (at1 (dropping .sent)).ctx? 0 = some (dropping .sent)) ∧
    ((at1 { dropping .sent with timer := lastTick .cancelAnswer }).ctx? 0 =
        some { dropping .sent with timer := lastTick .cancelAnswer } ∧ (dropping .sent).state = .cancel ∧
      (at1 { dropping .sent with timer := lastTick .cancelAnswer }).countsTick
        { dropping .sent with timer := lastTick .cancelAnswer } = true ∧
      (at1 { dropping .sent with timer := lastTick .cancelAnswer }).beatsLeft
        { dropping .sent with timer := lastTick .cancelAnswer } = 0) ∧
    (({ at1 { draining 1 with timer := lastTick .cancelAnswer } with intake := .beats 0 7 } : State).ctx? 0 =
        some { draining 1 with timer := lastTick .cancelAnswer } ∧ (draining 1).draining = true ∧
      ({ at1 { draining 1 with timer := lastTick .cancelAnswer } with intake := .beats 0 7 } : State).countsTick
        { draining 1 with timer := lastTick .cancelAnswer } = true) ∧
    ((at1 { dropping .sent with timer := timer .cancelAnswer }).ctx? 0 =
        some { dropping .sent with timer := timer .cancelAnswer } ∧ 2 ≤ 128) := by
  simp only [portOpen_iff]; decide +kernel

/-- A fetch that awaits a unit; a store that awaits its piece's ACCEPT; a store in HOLD with beats left and with none; ticks left.
-/
theorem witness_answer_timer_expires :
    ((at1 { fetch with timer := lastTick .unit }).ctx? 0 = some { fetch with timer := lastTick .unit } ∧
      (at1 { fetch with timer := lastTick .unit }).countsTick { fetch with timer := lastTick .unit } = true ∧
      TimerPhase.unit ≠ .cancelAnswer ∧ fetch.cancel = .none ∧ fetch.completionSent = false ∧ fetch.code = .ok ∧
      fetch.kind = .fetch ∧ fetch.state = .stream) ∧
    ((at1 { store with timer := lastTick .accept }).ctx? 0 = some { store with timer := lastTick .accept } ∧
      (at1 { store with timer := lastTick .accept }).countsTick { store with timer := lastTick .accept } = true ∧
      store.kind = .store ∧ store.state = .stream) ∧
    (({ held hold with intake := .beats 0 4, contexts := [{ store with state := .hold, timer := lastTick .done }] } : State).countsTick
        { store with state := .hold, timer := lastTick .done } = true ∧
      ({ held hold with intake := .beats 0 4 } : State).beatsLeft { store with state := .hold, timer := lastTick .done } = 4 ∧
      (held hold).beatsLeft { store with state := .hold, timer := lastTick .done } = 0) ∧
    ((at1 { fetch with timer := timer .unit }).ctx? 0 = some { fetch with timer := timer .unit } ∧ 2 ≤ 128) := by
  decide +kernel

/-- At the last tick, with ticks left, and between coarse ticks. -/
theorem witness_idle_expiry_locks_range :
    ((ticking 1 1).ranges[3].isOpen = true ∧ (ticking 1 1).ranges[3].idleInterval ≠ 0 ∧
      (ticking 1 1).ranges[3].idleRemaining = some 1 ∧ (ticking 1 1).time.coarsePhase ≤ 1 ∧
      (ticking 1 1).marks.tickedIdle.getLsbD 3 = false) ∧
    (service.ranges[3].isOpen = true ∧ service.ranges[3].idleRemaining = some 2 ∧ 2 ≤ service.time.coarsePhase) := by
  decide +kernel

/-- Each clause: armed and not, with the boundary intervals. -/
theorem witness_presence_timer_runs_its_course :
    service.link = .empty ∧ service.contain.device ≠ .selfTest ∧ service.time.presence = .idle ∧
    ((ticking 1 1).time.presence = .armed 10 1 ∧ (ticking 1 1).time.coarsePhase ≤ 1 ∧
      (ticking 1 1).marks.tickedPresence = false) ∧
    ((ticking 2 2).time.presence = .armed 10 2 ∧ 2 ≤ service.time.coarsePhase) ∧
    (10 = if (9 : BitVec 16).toNat < 10 then 10 else if 6000 < (9 : BitVec 16).toNat then 6000 else 9) ∧
    (6000 = if (6001 : BitVec 16).toNat < 10 then 10 else if 6000 < (6001 : BitVec 16).toNat then 6000 else 6001) := by
  decide +kernel

/-- Set 3 with two pinned entries, of slots 7 and 11. -/
def pinnedSet : CacheSet := { way0 := some entry, way1 := some { entry with slot := 11 }, recent := .way0 }

/-- A queue whose first request waits for a pinned set and whose second does not. -/
def waitingQueue : State :=
  { service with
    cache := State.reset.cache.set 3 pinnedSet
    slots := service.slots.set 8 slot7
    expander := { queue := [queued, { slot := 8, generation := 4, attached := [] }], current := none } }

/-- The start behind a request that is not eligible; a busy expander; a fill; a void expansion. -/
theorem witness_expansion_runs_its_course :
    (waitingQueue.fullyPinned (Machine.setOf 7 4) ∧ Machine.setOf 8 4 = 0 ∧ waitingQueue.victimWay (Machine.setOf 8 4) .way0 ∧
      waitingQueue.slots[8].body = .loaded pair) ∧
    (service.slots[7].isLoaded = true ∧ service.slots[7].generation = (expanding 7).generation) ∧
    (({ expanding 7 with void := true } : Expansion).void = true ∧ service.slots[9].isLoaded = false ∧
      waitingQueue.fullyPinned 3) := by
  refine ⟨⟨?_, by decide, ?_, rfl⟩, by decide +kernel, ⟨rfl, by decide +kernel, ?_⟩⟩
  · intro w; cases w
    · exact ⟨entry, rfl, by decide⟩
    · exact ⟨{ entry with slot := 11 }, rfl, by decide⟩
  · exact .inl ⟨rfl, rfl⟩
  · intro w; cases w
    · exact ⟨entry, rfl, by decide⟩
    · exact ⟨{ entry with slot := 11 }, rfl, by decide⟩

/-- The device with set 3 as given. -/
def withSet (c : CacheSet) : State := { service with cache := service.cache.set 3 c }

/-- Two unpinned entries, way 0 the more recently used. -/
def bothUnpinned : CacheSet :=
  { way0 := some { entry with pins := 0 }, way1 := some { entry with slot := 11, pins := 0 }, recent := .way0 }

/-- Every way a victim is chosen: the first not valid, the second not valid, the only unpinned, the one not most recent. -/
theorem witness_victim_ways :
    service.victimWay 3 .way0 ∧ (withEntry service).victimWay 3 .way1 ∧
    (withSet { pinnedSet with way0 := some { entry with pins := 0 } }).victimWay 3 .way0 ∧
    (withSet bothUnpinned).victimWay 3 .way1 := by
  refine ⟨.inl ⟨rfl, rfl⟩, .inr (.inl ⟨by decide +kernel, rfl, rfl⟩),
    .inr (.inr ⟨_, _, .way1, by decide, rfl, rfl, rfl, .inl (by decide)⟩),
    .inr (.inr ⟨_, _, .way0, by decide, rfl, rfl, rfl, .inr rfl⟩)⟩

/-- The device with slot k in a state. -/
def withSlot (k : SlotNo) (b : SlotBody) : State :=
  { service with slots := service.slots.set k { body := b, generation := 255, check := 0 } }

theorem witness_erasure_empties_slot :
    (withSlot 31 (.scrubbing pair .command)).slots[31].body = .scrubbing pair .command ∧
    (withSlot 0 (.scrubbing pair .check)).slots[0].body = .scrubbing pair .check ∧
    ∀ keys cause, (withSlot 31 .faulted).slots[(31 : SlotNo)].body ≠ .scrubbing keys cause := ⟨rfl, rfl, fun _ _ h => by cases h⟩

/-- CONTAINED, with the dwell as given. -/
def contained (dwell : Option Nat) : State := { service with contain := { device := .contained, dwell := dwell, cursor := 0 } }

/-- Each clause, at slots 0, 31 and the first index past them. -/
theorem witness_load_key_fills_slot :
    service.link = .empty ∧ (contained none).contain.device = .contained ∧ service.contain.device = .service ∧
    32 ≤ (32 : Byte).toNat ∧ (31 : Byte).toNat = (31 : SlotNo).val ∧
    service.slots[7].body ≠ .empty ∧ service.slots[31].body = .empty ∧ (1 : Key) ≠ 2 := by decide +kernel

/-- Each clause. -/
theorem witness_scrub_withdraws_key_and_flush_schedules :
    (at1 fetch).link = .empty ∧ (at1 fetch).contain.device ≠ .selfTest ∧ (at1 fetch).slots[7].body = .loaded pair ∧
    (at1 fetch).contextLaws ∧ (withSlot 7 (.scrubbing pair .check)).slots[7].body = .scrubbing pair .check ∧
    service.slots[0].body = .empty ∧ (withSlot 31 .faulted).slots[31].body = .faulted := by
  simp only [State.contextLaws]; decide +kernel

/-- A state whose check words are all fresh. -/
theorem checksFresh_reset : State.reset.checksFresh := by
  refine ⟨fun i => ?_, fun i => ?_, fun k => ?_⟩
  · fin_cases i <;> rfl
  · fin_cases i <;> rfl
  · have h : ∀ k : SlotNo, State.reset.slots[k] = Slot.preset.sealed k := fun k => by fin_cases k <;> rfl
    rw [h k]
    exact ⟨rfl, fun _ h => by cases h⟩

/-- The device in CONFIG, just after its self-test. -/
def config : State := { State.reset with contain := { device := .config, dwell := none, cursor := 55 } }

/-- No visit finds a mismatch in it. -/
theorem undisturbed_config : config.undisturbed :=
  ⟨checksFresh_reset.1, fun i => Range.disturbed_eq_false_iff.2 (checksFresh_reset.2.1 i), fun k => by
    have h : config.slots[k] = Slot.preset.sealed k := by fin_cases k <;> rfl
    rw [h]; simp [slotDisturbed, Slot.sealed, Slot.preset, Slot.fields]⟩

/-- A word that differs from a check word. -/
theorem differs (w : BitVec 16) : w + 1 ≠ w := by
  intro h; have := congrArg (· - w) h; simp at this

/-- CONFIG with window i's check word disturbed. -/
def badWindow (i : WindowNo) (frozen : Bool) (d : DeviceState) : State :=
  { config with
    contain := { device := d, dwell := none, cursor := ⟨i.val, by omega⟩ }
    decoder := { config.decoder with
      windows := config.decoder.windows.set i { config.decoder.windows[i] with
        check := Config.windowCheck (config.decoder.windows[i].fields i) + 1 }
      frozen := frozen } }

/-- CONFIG with range 15's check word disturbed. -/
def badRange : State :=
  { config with
    contain := { config.contain with cursor := 23 }
    ranges := config.ranges.set 15 { config.ranges[15] with check := Config.rangeCheck (config.ranges[15].fields 15) + 1 } }

/-- R167: a tick has one visit. -/
theorem test_tick_has_one_visit :
    (after (exec .tableMonitorVisit { config with marks := { config.marks with visited := true } })).out.taken = false := by
  decide +kernel

/-- R35, R46: an OPEN-RANGE repairs a disturbed record before the visit. -/
theorem test_open_range_repairs_record (w : BitVec 16) :
    (after (exec (.openRange 3 0) { service with ranges := service.ranges.set 3 { openRange3 with check := w } })).ranges[(3 : RangeNo)].disturbed
      3 = false := Range.sealed_disturbed 3 _

/-- Each clause: SELF-TEST, a tick that has had its visit, a fresh table at the last cursor position, the first and the last
window, frozen or not and in CONTAINED, the last range. -/
theorem witness_monitor_visits_windows_and_ranges :
    State.reset.contain.device = .selfTest ∧
    ({ config with marks := { config.marks with visited := true } } : State).marks.visited = true ∧
    (config.contain.device ≠ .selfTest ∧ config.marks.visited = false ∧ config.undisturbed ∧ config.settled) ∧
    ((badWindow 0 false .config).decoder.windows[(0 : WindowNo)].check ≠
        Config.windowCheck ((badWindow 0 false .config).decoder.windows[(0 : WindowNo)].fields 0) ∧
      (badWindow 0 false .config).settled ∧ (badWindow 0 false .config).contextLaws) ∧
    ((badWindow 7 true .config).decoder.windows[(7 : WindowNo)].check ≠
        Config.windowCheck ((badWindow 7 true .config).decoder.windows[(7 : WindowNo)].fields 7) ∧
      (badWindow 7 true .contained).contain.cursor.val = 7) ∧
    (badRange.contain.cursor.val = 8 + (15 : RangeNo).val ∧
      badRange.ranges[(15 : RangeNo)].check ≠ Config.rangeCheck (badRange.ranges[(15 : RangeNo)].fields 15) ∧
      badRange.settled) := by
  refine ⟨rfl, rfl, ⟨by decide +kernel, rfl, undisturbed_config, .inr rfl⟩, ⟨differs _, .inr rfl, ?_⟩, ⟨differs _, rfl⟩, rfl, differs _,
    .inr rfl⟩
  simp only [State.contextLaws]; decide +kernel

/-- The slot with index k disturbed. -/
def badSlot (k : SlotNo) (b : SlotBody) : State :=
  { config with
    contain := { config.contain with cursor := ⟨24 + k.val, by omega⟩ }
    slots := config.slots.set k
      { body := b, generation := 1, check := Config.slotCheck (Slot.fields k { body := b, generation := 1, check := 0 }) + 1 } }

/-- Each clause, at the first and the last slot. -/
theorem witness_monitor_visits_slots :
    ((badSlot 0 (.scrubbing pair .command)).contain.cursor.val = 24 + 0 ∧ (badSlot 0 .empty).marks.visited = false ∧ (badSlot 0 (.scrubbing pair .command)).settled) ∧
    ((badSlot 31 (.loaded pair)).slots[(31 : SlotNo)].check ≠
        Config.slotCheck ((badSlot 31 (.loaded pair)).slots[(31 : SlotNo)].fields 31) ∧
      (badSlot 31 (.loaded pair)).contain.cursor.val = 24 + 31 ∧ (badSlot 31 (.loaded pair)).contextLaws) ∧
    ((badSlot 31 .faulted).slots[(31 : SlotNo)].check ≠
        Config.slotCheck ((badSlot 31 .faulted).slots[(31 : SlotNo)].fields 31)) ∧
    ((badSlot 0 .empty).slots[(0 : SlotNo)].check ≠
        Config.slotCheck ((badSlot 0 .empty).slots[(0 : SlotNo)].fields 0)) := by
  refine ⟨⟨rfl, rfl, .inr rfl⟩, ⟨differs _, rfl, ?_⟩, differs _, differs _⟩
  simp only [State.contextLaws]; decide +kernel

/-- A header with every field at its highest value. -/
def fullHeader : HeaderFields :=
  { kind := .store, raw := true, tagPresent := true, mover := 7, tag := 15, addr := 0xFFFFFFF, length := 256, offset := 255,
    sector := 0xFFFFFFFFFF }

/-- The longest and the shortest length. -/
theorem witness_headers_round_trip_with_odd_parity :
    1 ≤ fullHeader.length ∧ fullHeader.length ≤ 256 ∧ 1 ≤ ({ fullHeader with length := 1 } : HeaderFields).length := by decide

/-- Each clause: a period too short; the three buffer states; a part-byte; a frame too short, a wrong check, an unknown code, a
wrong length. -/
theorem witness_link_buffer_runs_its_course :
    service.link = .empty ∧ (0x01 : Byte) ≠ 0xFF ∧ ([] : List Byte).length < 3 ∧
    (0x3E : Byte) ++ (0x2E : Byte) ≠ crc16 (0x01 :: BitVec.ofNat 8 0 :: []) ∧
    (0x2E : Byte) ++ (0x3E : Byte) = crc16 (0x01 :: BitVec.ofNat 8 0 :: []) ∧ lengthOfCode 0x04 = none ∧
    lengthOfCode 0x11 = some 1 ∧ State.reset.contain.device = .selfTest ∧ State.reset.link = .empty ∧
    ((Answer.refused .busy).frame).length = 5 ∧ (List.replicate 7 true).length < 8 ∧ 7 < 8 ∧ [true] ≠ [] := by decide +kernel

/-- STATUS, READ-FAULT with and without a record, READ-ABORT with two entries. -/
theorem witness_reads_report_the_state :
    service.link = .empty ∧ (∀ k : SlotNo, ∀ p, service.slots[k].body ≠ .undefined p) ∧ service.faults.first = none ∧
    ((after (exec .unroutableArrival service)).faults.first).isSome = true ∧
    (after (exec .segmentClear (at1 fetch))).abort[0]? ≠ none := by
  refine ⟨rfl, fun k p => ?_, rfl, by decide +kernel, by decide +kernel⟩
  fin_cases k <;> simp [service, State.reset, Slot.preset, Slot.sealed, slot7]

/-- Each clause, at ranges 0 and 15 and the first index past them. -/
theorem witness_set_range_writes_record :
    service.link = .empty ∧ service.contain.device ≠ .selfTest ∧ 16 ≤ (16 : Byte).toNat ∧ (15 : Byte).toNat = (15 : RangeNo).val ∧
    service.ranges[3].isOpen = true ∧ service.ranges[15].isOpen = false ∧
    2 ^ 40 < (0xFFFFFFFFFF : Sector).toNat + (2 : BitVec 48).toNat ∧
    (0xFFFFFFFFFF : Sector).toNat + (1 : BitVec 48).toNat ≤ 2 ^ 40 ∧
    (32 ≤ (32 : Byte).toNat ∧ (32 : Byte) ≠ 0xFF) ∧ 2 ≤ (2 : Byte).toNat ∧ (31 : Byte).toNat < 32 ∧ (1 : Byte).toNat < 2 ∧
    service.ranges[3].span = some { first := 1000000, count := 250000 } := by decide +kernel

/-- Nothing overlaps a span of no sectors. -/
theorem witness_set_range_apart :
    ∀ (j : RangeNo) (n : Nat) (sp : Span), j ≠ 0 → j ≠ 15 → service.ranges[j].span = some sp →
      ¬ ((5 : Sector).toNat ≤ n ∧ n < (5 : Sector).toNat + (0 : BitVec 48).toNat ∧ sp.first.toNat ≤ n ∧
        n < sp.first.toNat + sp.count) := by
  intro j n sp _ _ _ h; simp at h; omega

/-- Each clause. -/
theorem witness_open_and_lock_range :
    service.link = .empty ∧ service.contain.device = .service ∧ 16 ≤ (16 : Byte).toNat ∧ 2 ≤ (2 : Byte).toNat ∧
    (1 : Byte).toNat < 2 ∧
    ({ service with ranges := service.ranges.set 3 { openRange3 with state := .faulted } } : State).ranges[3].state = .faulted ∧
    service.ranges[0].binding = none ∧ service.ranges[0].state ≠ .faulted ∧
    service.ranges[3].binding = some 7 ∧ service.slots[7].isLoaded = true ∧ service.ranges[3].isOpen = true ∧
    service.ranges[15].isOpen = false := by decide +kernel

/-- Each clause: frozen, a bad index, bad bounds, an emptied record, an overlap at window 2's first unit, none just below it. -/
theorem witness_window_decoder_is_written :
    service.link = .empty ∧ ({ service with decoder := { service.decoder with frozen := true } } : State).decoder.frozen = true ∧
    service.decoder.frozen = false ∧ 8 ≤ (8 : Byte).toNat ∧ (7 : Byte).toNat = (7 : WindowNo).val ∧ 4 ≤ (4 : Byte).toNat ∧
    ((1 : Byte) ≠ 0 ∧ 2 ^ 28 ≤ (0x10000000 : BitVec 32).toNat) ∧ (0x0FFFFFFF : BitVec 32).toNat < 2 ^ 28 ∧
    service.decoder.windows[2].covers 0x0020000 = true ∧ service.decoder.windows[2].covers 0x001FFFF = false := by
  decide +kernel

/-- Nothing is covered above window 2. -/
theorem witness_set_window_apart :
    ∀ (j : WindowNo) (a : UnitAddr), j ≠ 3 → service.decoder.windows[j].covers a = true →
      ¬ ((0x1000000 : BitVec 32).toNat ≤ a.toNat ∧ a.toNat ≤ (0x100FFFF : BitVec 32).toNat) := by
  intro j a _ h
  fin_cases j <;>
    simp [service, State.reset, Window.covers, Window.sealed, Window.preset, clearWindow, cipherWindow, Treatment.covers] at h ⊢ <;>
    omega

/-- Each clause: the dwell at its last tick and with ticks left; RECOVER outside CONTAINED, with the dwell running, with it ended.
-/
theorem witness_device_state_commands :
    service.link = .empty ∧ service.contain.device ≠ .config ∧ config.contain.device = .config ∧
    ((contained (some 1)).contain.device = .contained ∧ (contained (some 1)).contain.dwell = some 1 ∧
      (due (contained (some 1))).time.coarsePhase ≤ 1 ∧ (due (contained (some 1))).contain.dwell = some 1 ∧
      (due (contained (some 1))).marks.tickedDwell = false ∧ (contained (some 50)).contain.dwell = some 50) ∧
    ((contained none).contain.device = .contained ∧ (contained none).contain.dwell = none) ∧
    (withSlot 7 (.scrubbing pair .command)).slots[7].body = .scrubbing pair .command := by decide +kernel

theorem witness_event_and_log_commands :
    service.link = .empty ∧ service.contain.device ≠ .selfTest ∧ 1024 ≤ (0x0400 : BitVec 16).toNat ∧
    (0x03FF : BitVec 16).toNat < 1024 := by decide +kernel

/-! ## The laws can be met by a state that takes a step -/

theorem witness_every_step_keeps_table_laws : config.tableLaws ∧ step config = .next config.fineTick := by
  refine ⟨⟨?_, ⟨?_, ?_⟩, ?_, ?_⟩, rfl⟩
  · intro i j a hi hj
    fin_cases i <;> fin_cases j <;>
      first
      | rfl
      | (exfalso; simp [config, State.reset, Window.covers, Window.sealed, Window.preset, Treatment.covers] at hi hj)
  · intro i j n _ _ hi
    fin_cases i <;> simp [config, State.reset, Range.covers, Range.sealed, Range.preset] at hi
  · intro i h0 sp hsp
    fin_cases i <;> simp_all [config, State.reset, Range.sealed, Range.preset] <;> (subst hsp; decide)
  · intro i h
    fin_cases i <;> simp [config, State.reset, Range.sealed, Range.preset, Range.isOpen] at h
  · intro k p h
    fin_cases k <;> simp [config, State.reset, Slot.sealed, Slot.preset] at h

theorem witness_every_step_keeps_checks_fresh : config.checksFresh ∧ step config = .next config.fineTick :=
  ⟨checksFresh_reset, rfl⟩

theorem witness_every_step_keeps_timer_laws : config.timerLaws ∧ step config = .next config.fineTick := by
  refine ⟨⟨?_, ?_, ?_, ?_, ?_⟩, rfl⟩
  · intro n h; cases h
  · intro n m h; cases h
  · intro i; fin_cases i <;> exact ⟨by decide, fun n h => by cases h⟩
  · simp only [State.countLaw]; decide +kernel
  · simp only [State.alertLaw]; decide +kernel

/-- A live CIPHER context entitled to its key. -/
theorem witness_every_step_keeps_key_custody : (at1 fetch).keyCustody ∧ ∃ t, step (at1 fetch) = .next t := by
  refine ⟨⟨by simp only [State.contextLaws]; decide +kernel, ?_⟩, _, rfl⟩
  intro c hc _ _
  obtain rfl : c = fetch := by simpa [at1, withEntry] using hc
  exact ⟨rfl, capture, rfl, by decide, rfl, rfl⟩

/-- The one entry of the device with one context. -/
theorem only_entry (i : Fin 4) (w : Way) (e : Entry) (h : (at1 fetch).way i w = some e) : i = 3 ∧ w = .way0 ∧ entry = e := by
  fin_cases i <;> cases w <;>
    first
    | exact ⟨rfl, rfl, Option.some.inj h⟩
    | (exfalso; revert h; exact fun h => by cases h)

/-- A fetch that streams with its pin. -/
theorem witness_every_step_keeps_cache_laws :
    (at1 fetch).keyCustody ∧ (at1 fetch).cacheLaws ∧ ∃ t, step (at1 fetch) = .next t := by
  refine ⟨witness_every_step_keeps_key_custody.1, ⟨?_, ⟨?_, ?_⟩, ?_, ⟨?_, ?_⟩, ⟨?_, ?_⟩, ?_, ?_, .inr rfl⟩, _, rfl⟩
  · intro c hc
    obtain rfl : c = fetch := by simpa [at1, withEntry] using hc
    decide
  · intro i w e h
    obtain ⟨rfl, rfl, rfl⟩ := only_entry i w e h
    decide
  · intro i e d h h'
    obtain ⟨rfl, -, -⟩ := only_entry i .way0 e h
    cases h'
  · intro i w e h
    obtain ⟨rfl, rfl, rfl⟩ := only_entry i w e h
    exact ⟨rfl, ⟨pair, rfl, .inl rfl⟩, fun _ => rfl⟩
  · intro i w e h
    obtain ⟨rfl, rfl, rfl⟩ := only_entry i w e h
    exact ⟨by decide +kernel, by decide⟩
  · intro c hc cap _ hcap
    obtain rfl : c = fetch := by simpa [at1, withEntry] using hc
    obtain rfl : capture = cap := by simpa [fetch] using hcap
    rfl
  · exact List.nodup_nil
  · intro r h; cases h
  · intro x h; cases h
  · intro c hc hw
    obtain rfl : c = fetch := by simpa [at1, withEntry] using hc
    cases hw

/-- Range 3 locked, and the OPEN-RANGE that opens it as a row and as a frame. -/
def lockedRange3 (c : Instr) : State :=
  { service with ranges := service.ranges.set 3 { openRange3 with state := .locked }, pending := [c] }

theorem witness_only_open_range_opens :
    (∃ t, step (lockedRange3 (.openRange 3 0)) = .next t ∧ t.ranges[3].isOpen = true) ∧
    (∃ t, step (lockedRange3 (periodOf (toBits (LinkCommand.openRange 3 0).frame))) = .next t ∧ t.ranges[3].isOpen = true) ∧
    (lockedRange3 .go).ranges[3].isOpen = false := by
  refine ⟨⟨_, rfl, by decide +kernel⟩, ⟨_, rfl, by decide +kernel⟩, by decide +kernel⟩

/-- Two states that differ in the keys of slot 7 only, and the LOAD-KEY that meets both. -/
theorem witness_link_reveals_no_key :
    service.sameButKeys { service with slots := service.slots.set 7 { slot7 with body := .loaded { dataKey := 8, tweakKey := 9 } } } ∧
    (∃ u, exec (.loadKey 7 1 2) service = .next u) := by
  refine ⟨⟨fun k => ?_, rfl⟩, _, rfl⟩
  fin_cases k <;> exact ⟨rfl, rfl⟩

end Sys2Proof.Tests
end

