-- ==== Sys2Proof/Proofs/SectorCipher.lean ====
section
/-! SUPPORT. The sector cipher: the tweak input, doubling, and the rounds of P against those of its inverse (R1 to R10). -/

namespace Sys2Proof.Machine

/-! ## The tweak input and doubling (R3, R5) -/

/-- The low five bytes of a tweak input are those of the sector number (R3). -/
theorem byteAt_tweakInput_low (n : Sector) {i : Nat} (hi : i < 5) :
    byteAt (tweakInput n) i = n.extractLsb' (8 * i) 8 := by
  apply BitVec.eq_of_getLsbD_eq
  intro j hj
  have h : 8 * i + j < 128 := by omega
  simp [byteAt, tweakInput, hj, h]

/-- The bytes above are zero (R3). -/
theorem byteAt_tweakInput_high (n : Sector) {i : Nat} (hi : 5 ≤ i) : byteAt (tweakInput n) i = 0 := by
  apply BitVec.eq_of_getLsbD_eq
  intro j hj
  have h : n.getLsbD (8 * i + j) = false := BitVec.getLsbD_of_ge _ _ (by omega)
  simp [byteAt, tweakInput, BitVec.getLsbD_extractLsb', h]

/-- No two sector numbers share a tweak input (R3). -/
theorem tweakInput_injective : Function.Injective tweakInput := by
  intro n m h
  have h' := congrArg (BitVec.setWidth 40) h
  simpa [tweakInput] using h'

/-- Doubling bit by bit: the bit below, and the reduction by 0x87 where bit 127 was 1 (R5). -/
theorem getLsbD_double (v : Block) {i : Nat} (hi : i < 128) :
    (double v).getLsbD i =
      ((decide (0 < i) && v.getLsbD (i - 1)) ^^ (v.getLsbD 127 && (0x87 : Block).getLsbD i)) := by
  have hm : v.msb = v.getLsbD 127 := by simp [BitVec.msb_eq_getLsbD_last]
  have hs : (v <<< 1).getLsbD i = (decide (0 < i) && v.getLsbD (i - 1)) := by
    rw [BitVec.getLsbD_shiftLeft]
    rcases Nat.eq_zero_or_pos i with rfl | hp
    · simp
    · simp [hi, hp, Nat.not_lt.2 (show 1 ≤ i from hp)]
  rw [double, BitVec.getLsbD_xor, hs, hm]
  cases v.getLsbD 127 <;> simp

/-- Bit 0 of a doubled value tells whether bit 127 was 1 (R5). -/
theorem getLsbD_double_zero (v : Block) : (double v).getLsbD 0 = v.getLsbD 127 := by
  rw [getLsbD_double v (by decide)]
  simp

/-- Doubling maps no two values to one (R5). -/
theorem double_injective : Function.Injective double := by
  intro v w h
  have htop : v.getLsbD 127 = w.getLsbD 127 := by rw [← getLsbD_double_zero, h, getLsbD_double_zero]
  apply BitVec.eq_of_getLsbD_eq
  intro j hj
  rcases Nat.lt_or_ge (j + 1) 128 with hlt | hge
  · have hb := congrArg (fun b : Block => b.getLsbD (j + 1)) h
    simpa only [getLsbD_double _ hlt, htop, Nat.add_sub_cancel, Nat.succ_pos, decide_true, Bool.true_and,
      Bool.xor_left_inj] using hb
  · have : j = 127 := by omega
    rw [this, htop]

/-! ## The rounds of P (R1) -/

/-- Multiplication by x is linear. -/
theorem xtime_xor (a b : Byte) : xtime (a ^^^ b) = xtime a ^^^ xtime b := by
  unfold xtime
  rw [BitVec.shiftLeft_xor_distrib, BitVec.msb_xor]
  cases a.msb <;> cases b.msb
  · simp
  · simp [BitVec.xor_assoc]
  · simp only [Bool.xor_false, if_true, Bool.false_eq_true, if_false]; ac_rfl
  · have h : (a <<< 1 ^^^ 0x1B) ^^^ (b <<< 1 ^^^ 0x1B) = (a <<< 1 ^^^ b <<< 1) ^^^ (0x1B ^^^ 0x1B) := by ac_rfl
    simpa using h.symm

@[simp] theorem invSbox_sbox (v : Byte) : invSbox (sbox v) = v := by revert v; decide +kernel

@[simp] theorem sbox_invSbox (v : Byte) : sbox (invSbox v) = v := by revert v; decide +kernel

/-- Byte substitution and its inverse undo each other. -/
theorem invSubBytes_subBytes (b : Block) : invSubBytes (subBytes b) = b :=
  block_ext fun i hi => by rw [invSubBytes, byteAt_ofBytes _ hi, subBytes, byteAt_ofBytes _ hi, invSbox_sbox]

/-- Byte substitution and its inverse undo each other. -/
theorem subBytes_invSubBytes (b : Block) : subBytes (invSubBytes b) = b :=
  block_ext fun i hi => by rw [subBytes, byteAt_ofBytes _ hi, invSubBytes, byteAt_ofBytes _ hi, sbox_invSbox]

/-- The row shift and its inverse undo each other: 5 · 13 is 1 modulo 16. -/
theorem invShiftRows_shiftRows (b : Block) : invShiftRows (shiftRows b) = b :=
  block_ext fun i hi => by
    rw [invShiftRows, byteAt_ofBytes _ hi, shiftRows, byteAt_ofBytes _ (by omega)]
    congr 1
    omega

/-- The row shift and its inverse undo each other. -/
theorem shiftRows_invShiftRows (b : Block) : shiftRows (invShiftRows b) = b :=
  block_ext fun i hi => by
    rw [shiftRows, byteAt_ofBytes _ hi, invShiftRows, byteAt_ofBytes _ (by omega)]
    congr 1
    omega

/-- A byte of a column of a unit built from bytes. -/
theorem columnByte_ofBytes (f : Nat → Byte) {i d : Nat} (hi : i < 16) :
    columnByte (ofBytes f) i d = f (i / 4 * 4 + (i + d) % 4) :=
  byteAt_ofBytes f (by omega)

/-- The place d further down in a column, seen from the place e further down. -/
theorem columnByte_shift (b : Block) (i d e : Nat) :
    columnByte b (i / 4 * 4 + (i + d) % 4) e = columnByte b i (d + e) := by
  unfold columnByte
  congr 1
  omega

/-- A column has four places. -/
theorem columnByte_add_four (b : Block) (i d : Nat) : columnByte b i (d + 4) = columnByte b i d := by
  unfold columnByte
  congr 1
  omega

/-- The place none further down is the byte itself. -/
theorem columnByte_zero (b : Block) (i : Nat) : columnByte b i 0 = byteAt b i := by
  unfold columnByte
  congr 1
  omega

/-- The multiples of the inverse mix are linear. -/
theorem times9_xor (a b : Byte) : times9 (a ^^^ b) = times9 a ^^^ times9 b := by
  simp only [times9, xtime_xor]; ac_rfl

theorem times11_xor (a b : Byte) : times11 (a ^^^ b) = times11 a ^^^ times11 b := by
  simp only [times11, xtime_xor]; ac_rfl

theorem times13_xor (a b : Byte) : times13 (a ^^^ b) = times13 a ^^^ times13 b := by
  simp only [times13, xtime_xor]; ac_rfl

theorem times14_xor (a b : Byte) : times14 (a ^^^ b) = times14 a ^^^ times14 b := by
  simp only [times14, xtime_xor]; ac_rfl

theorem times3_xor (a b : Byte) : times3 (a ^^^ b) = times3 a ^^^ times3 b := by
  simp only [times3, xtime_xor]; ac_rfl

/-- The inverse mix after the mix, coefficient by coefficient: 1 for the byte itself and 0 for the three others. -/
theorem invMix_mix_coefficients (v : Byte) :
    times14 (xtime v) ^^^ times11 v ^^^ times13 v ^^^ times9 (times3 v) = v ∧
    times14 (times3 v) ^^^ times11 (xtime v) ^^^ times13 v ^^^ times9 v = 0 ∧
    times14 v ^^^ times11 (times3 v) ^^^ times13 (xtime v) ^^^ times9 v = 0 ∧
    times14 v ^^^ times11 v ^^^ times13 (times3 v) ^^^ times9 (xtime v) = 0 := by
  revert v; decide +kernel

/-- The mix after the inverse mix, coefficient by coefficient. -/
theorem mix_invMix_coefficients (v : Byte) :
    xtime (times14 v) ^^^ times3 (times9 v) ^^^ times13 v ^^^ times11 v = v ∧
    xtime (times11 v) ^^^ times3 (times14 v) ^^^ times9 v ^^^ times13 v = 0 ∧
    xtime (times13 v) ^^^ times3 (times11 v) ^^^ times14 v ^^^ times9 v = 0 ∧
    xtime (times9 v) ^^^ times3 (times13 v) ^^^ times11 v ^^^ times14 v = 0 := by
  revert v; decide +kernel

/-- A sum of four columns is the sum of the four rows. -/
theorem xor_transpose (a₀ a₁ a₂ a₃ b₀ b₁ b₂ b₃ c₀ c₁ c₂ c₃ d₀ d₁ d₂ d₃ : Byte) :
    (a₀ ^^^ b₀ ^^^ c₀ ^^^ d₀) ^^^ (a₁ ^^^ b₁ ^^^ c₁ ^^^ d₁) ^^^ (a₂ ^^^ b₂ ^^^ c₂ ^^^ d₂) ^^^ (a₃ ^^^ b₃ ^^^ c₃ ^^^ d₃) =
      (a₀ ^^^ a₁ ^^^ a₂ ^^^ a₃) ^^^ (b₀ ^^^ b₁ ^^^ b₂ ^^^ b₃) ^^^ (c₀ ^^^ c₁ ^^^ c₂ ^^^ c₃) ^^^
        (d₀ ^^^ d₁ ^^^ d₂ ^^^ d₃) := by
  ac_rfl

/-- The inverse mix of a mixed column: every product but the byte's own cancels. -/
theorem invMix_mix (a b c d : Byte) :
    times14 (xtime a ^^^ times3 b ^^^ c ^^^ d) ^^^ times11 (a ^^^ xtime b ^^^ times3 c ^^^ d) ^^^
      times13 (a ^^^ b ^^^ xtime c ^^^ times3 d) ^^^ times9 (times3 a ^^^ b ^^^ c ^^^ xtime d) = a := by
  obtain ⟨ha, -, -, -⟩ := invMix_mix_coefficients a
  obtain ⟨-, hb, -, -⟩ := invMix_mix_coefficients b
  obtain ⟨-, -, hc, -⟩ := invMix_mix_coefficients c
  obtain ⟨-, -, -, hd⟩ := invMix_mix_coefficients d
  simp only [times9_xor, times11_xor, times13_xor, times14_xor]
  rw [xor_transpose, ha, hb, hc, hd]
  simp

/-- The mix of an inversely mixed column. -/
theorem mix_invMix (a b c d : Byte) :
    xtime (times14 a ^^^ times11 b ^^^ times13 c ^^^ times9 d) ^^^
      times3 (times9 a ^^^ times14 b ^^^ times11 c ^^^ times13 d) ^^^
      (times13 a ^^^ times9 b ^^^ times14 c ^^^ times11 d) ^^^ (times11 a ^^^ times13 b ^^^ times9 c ^^^ times14 d) = a := by
  obtain ⟨ha, -, -, -⟩ := mix_invMix_coefficients a
  obtain ⟨-, hb, -, -⟩ := mix_invMix_coefficients b
  obtain ⟨-, -, hc, -⟩ := mix_invMix_coefficients c
  obtain ⟨-, -, -, hd⟩ := mix_invMix_coefficients d
  simp only [xtime_xor, times3_xor]
  rw [xor_transpose, ha, hb, hc, hd]
  simp

/-- A place of a mixed column. -/
theorem columnByte_mixColumns (b : Block) {i : Nat} (d : Nat) (hi : i < 16) :
    columnByte (mixColumns b) i d =
      xtime (columnByte b i d) ^^^ times3 (columnByte b i (d + 1)) ^^^ columnByte b i (d + 2) ^^^ columnByte b i (d + 3) := by
  rw [mixColumns, columnByte_ofBytes _ hi]
  simp only [columnByte_shift, Nat.add_zero]

/-- A place of an inversely mixed column. -/
theorem columnByte_invMixColumns (b : Block) {i : Nat} (d : Nat) (hi : i < 16) :
    columnByte (invMixColumns b) i d =
      times14 (columnByte b i d) ^^^ times11 (columnByte b i (d + 1)) ^^^ times13 (columnByte b i (d + 2)) ^^^
        times9 (columnByte b i (d + 3)) := by
  rw [invMixColumns, columnByte_ofBytes _ hi]
  simp only [columnByte_shift, Nat.add_zero]

/-- The column mix and its inverse undo each other. -/
theorem invMixColumns_mixColumns (b : Block) : invMixColumns (mixColumns b) = b :=
  block_ext fun i hi => by
    rw [← columnByte_zero, ← columnByte_zero b, columnByte_invMixColumns _ _ hi]
    simp only [columnByte_mixColumns _ _ hi, Nat.reduceAdd]
    rw [columnByte_add_four b i 0, columnByte_add_four b i 1, columnByte_add_four b i 2]
    have h := invMix_mix (columnByte b i 0) (columnByte b i 1) (columnByte b i 2) (columnByte b i 3)
    convert h using 2 <;> ac_rfl

/-- The column mix and its inverse undo each other. -/
theorem mixColumns_invMixColumns (b : Block) : mixColumns (invMixColumns b) = b :=
  block_ext fun i hi => by
    rw [← columnByte_zero, ← columnByte_zero b, columnByte_mixColumns _ _ hi]
    simp only [columnByte_invMixColumns _ _ hi, Nat.reduceAdd]
    rw [columnByte_add_four b i 0, columnByte_add_four b i 1, columnByte_add_four b i 2]
    have h := mix_invMix (columnByte b i 0) (columnByte b i 1) (columnByte b i 2) (columnByte b i 3)
    convert h using 2 <;> ac_rfl

/-- A middle round of P: substitution, row shift, column mix, round key. -/
def middleRound (x k : Block) : Block := mixColumns (shiftRows (subBytes x)) ^^^ k

/-- A middle round of the inverse. -/
def middleRoundInv (y k : Block) : Block := invSubBytes (invShiftRows (invMixColumns (y ^^^ k)))

theorem middleRoundInv_middleRound (x k : Block) : middleRoundInv (middleRound x k) k = x := by
  rw [middleRound, middleRoundInv, BitVec.xor_assoc, BitVec.xor_self, BitVec.xor_zero, invMixColumns_mixColumns,
    invShiftRows_shiftRows, invSubBytes_subBytes]

theorem middleRound_middleRoundInv (y k : Block) : middleRound (middleRoundInv y k) k = y := by
  rw [middleRound, middleRoundInv, subBytes_invSubBytes, shiftRows_invShiftRows, mixColumns_invMixColumns,
    BitVec.xor_assoc, BitVec.xor_self, BitVec.xor_zero]

/-- The rounds after the first key: the middle ones in turn, and a last one without column mix. -/
theorem forwardRounds_concat (l : List Block) (k x : Block) :
    forwardRounds (l ++ [k]) x = shiftRows (subBytes (l.foldl middleRound x)) ^^^ k := by
  induction l generalizing x with
  | nil => rfl
  | cons a l ih =>
    obtain ⟨b, m, hb⟩ : ∃ b m, l ++ [k] = b :: m := by cases l <;> exact ⟨_, _, rfl⟩
    rw [List.cons_append, hb, forwardRounds, ← hb]
    exact ih _

/-- The inverse rounds: the middle ones in turn, and the first key last. -/
theorem inverseRounds_concat (l : List Block) (k y : Block) :
    inverseRounds (l ++ [k]) y = l.foldl middleRoundInv y ^^^ k := by
  induction l generalizing y with
  | nil => rfl
  | cons a l ih =>
    obtain ⟨b, m, hb⟩ : ∃ b m, l ++ [k] = b :: m := by cases l <;> exact ⟨_, _, rfl⟩
    rw [List.cons_append, hb, inverseRounds, ← hb]
    exact ih _

/-- P under a first, some middle and a last key. -/
theorem permute_eq (k₀ k₁ : Block) (l : List Block) (x : Block) :
    permute (k₀ :: (l ++ [k₁])) x = shiftRows (subBytes (l.foldl middleRound (x ^^^ k₀))) ^^^ k₁ :=
  forwardRounds_concat l k₁ _

/-- The inverse of P under the same keys reversed. -/
theorem permuteInv_eq (k₀ k₁ : Block) (l : List Block) (y : Block) :
    permuteInv (k₀ :: (l ++ [k₁])).reverse y =
      l.reverse.foldl middleRoundInv (invSubBytes (invShiftRows (y ^^^ k₁))) ^^^ k₀ := by
  have hr : (k₀ :: (l ++ [k₁])).reverse = k₁ :: (l.reverse ++ [k₀]) := by simp
  obtain ⟨b, m, hb⟩ : ∃ b m, l.reverse ++ [k₀] = b :: m := by cases l.reverse <;> exact ⟨_, _, rfl⟩
  rw [hr, hb, permuteInv, ← hb, inverseRounds_concat]

/-- The middle rounds undone, last first. -/
theorem foldl_middleRoundInv_reverse (l : List Block) (x : Block) :
    l.reverse.foldl middleRoundInv (l.foldl middleRound x) = x := by
  induction l generalizing x with
  | nil => rfl
  | cons k l ih => simp [ih, middleRoundInv_middleRound]

/-- The middle rounds done again. -/
theorem foldl_middleRound_reverse (l : List Block) (y : Block) :
    l.foldl middleRound (l.reverse.foldl middleRoundInv y) = y := by
  induction l generalizing y with
  | nil => rfl
  | cons k l ih => rw [List.reverse_cons, List.foldl_concat, List.foldl_cons, middleRound_middleRoundInv, ih]

/-- A list of round keys is empty, a single key, or a first, some middle and a last one. -/
theorem rounds_cases (l : List Block) : l = [] ∨ (∃ k, l = [k]) ∨ ∃ k₀ m k₁, l = k₀ :: (m ++ [k₁]) := by
  rcases l with _ | ⟨k₀, l⟩
  · exact .inl rfl
  · rcases List.eq_nil_or_concat l with rfl | ⟨m, k₁, rfl⟩
    · exact .inr (.inl ⟨k₀, rfl⟩)
    · exact .inr (.inr ⟨k₀, m, k₁, by simp⟩)

/-- Under any round keys the inverse undoes P (R1). -/
theorem permuteInv_permute (rounds : List Block) (x : Block) : permuteInv rounds.reverse (permute rounds x) = x := by
  rcases rounds_cases rounds with rfl | ⟨k, rfl⟩ | ⟨k₀, m, k₁, rfl⟩
  · rfl
  · simp [permute, permuteInv, forwardRounds]
  · rw [permute_eq, permuteInv_eq, BitVec.xor_assoc, BitVec.xor_self, BitVec.xor_zero, invShiftRows_shiftRows,
      invSubBytes_subBytes, foldl_middleRoundInv_reverse, BitVec.xor_assoc, BitVec.xor_self, BitVec.xor_zero]

/-- Under any round keys P undoes its inverse (R1). -/
theorem permute_permuteInv (rounds : List Block) (y : Block) : permute rounds (permuteInv rounds.reverse y) = y := by
  rcases rounds_cases rounds with rfl | ⟨k, rfl⟩ | ⟨k₀, m, k₁, rfl⟩
  · rfl
  · simp [permute, permuteInv, forwardRounds]
  · rw [permuteInv_eq, permute_eq, BitVec.xor_assoc, BitVec.xor_self, BitVec.xor_zero, foldl_middleRound_reverse,
      subBytes_invSubBytes, shiftRows_invShiftRows, BitVec.xor_assoc, BitVec.xor_self, BitVec.xor_zero]

/-! ## The unit transform (R9, R10) -/

/-- Deciphering an enciphered unit with the same tweak returns it (R9, R10). -/
theorem decipher_encipher (p : KeyPair) (t x : Block) : p.schedule.decipher t (p.schedule.encipher t x) = x := by
  rw [Schedule.decipher, Schedule.encipher, schedule_dataInverse, schedule_dataForward, BitVec.xor_assoc, BitVec.xor_self,
    BitVec.xor_zero, permuteInv_permute, BitVec.xor_assoc, BitVec.xor_self, BitVec.xor_zero]

/-- Enciphering a deciphered unit with the same tweak returns it (R9, R10). -/
theorem encipher_decipher (p : KeyPair) (t y : Block) : p.schedule.encipher t (p.schedule.decipher t y) = y := by
  rw [Schedule.decipher, Schedule.encipher, schedule_dataInverse, schedule_dataForward, BitVec.xor_assoc, BitVec.xor_self,
    BitVec.xor_zero, permute_permuteInv, BitVec.xor_assoc, BitVec.xor_self, BitVec.xor_zero]

/-- The checker passes exactly the right result: a disturbed one deciphers to another unit (R13). -/
theorem decipher_disturbed {p : KeyPair} {t x d : Block} (hd : d ≠ 0) :
    p.schedule.decipher t (p.schedule.encipher t x ^^^ d) ≠ x := by
  intro h
  have he := congrArg (p.schedule.encipher t) h
  rw [encipher_decipher] at he
  apply hd
  have hx := congrArg (p.schedule.encipher t x ^^^ ·) he
  simpa [← BitVec.xor_assoc] using hx

/-! ## The statements -/

/-- Settles O4: byte by byte, low and high. -/
theorem tweakInputLayout : Obligations.tweak_input_layout := by
  intro n
  exact ⟨fun i hi => byteAt_tweakInput_low n hi, fun i hi _ => byteAt_tweakInput_high n hi,
    fun m h => tweakInput_injective h⟩

/-- Settles O5: bit by bit; bit 0 of the doubled value gives bit 127 back. -/
theorem doublingShiftsAndReduces : Obligations.doubling_shifts_and_reduces :=
  ⟨fun v _ hi => getLsbD_double v hi, fun _ _ h => double_injective h, by decide⟩

/-- Settles O6: every round undoes its inverse, whatever the round keys are. -/
theorem permutationInverts : Obligations.permutation_inverts := by
  intro k x
  exact ⟨permuteInv_permute (roundKeys k) x, permute_permuteInv (roundKeys k) x⟩

/-- Settles O7: the parts of a schedule are the rounds of its two keys. -/
theorem scheduleGivesTheTransform : Obligations.schedule_gives_the_transform := by
  intro p n t x
  exact ⟨rfl, rfl, rfl, decipher_encipher p t x⟩

end Sys2Proof.Machine
end

