-- ==== Sys2Proof/Proofs/Contexts.lean ====
section
/-! SUPPORT. What a step may do to a context's record, and what follows for the list of contexts (R71, R72, R73). -/

namespace Sys2Proof.Machine

/-! ## A record and what becomes of it -/

/-- What no action changes of a record, and what it changes one way only: a completion SENT stays SENT (R88), and a context
that is out of WAITKEY, STREAM, HOLD and CLOSE stays out (R90). -/
structure Context.Follows (c d : Context) : Prop where
  number : d.number = c.number
  mover : d.mover = c.mover
  tag : d.tag = c.tag
  passage : d.passage = c.passage
  capture : d.capture = c.capture
  sent : c.completionSent = true → d.completionSent = true
  live : d.live = true → c.live = true

/-- A record changed within its phase: it holds a pin as before, and waits for its key as before, with no FETCH issued (R81,
R122). -/
structure Context.Touched (c d : Context) : Prop extends Context.Follows c d where
  streaming : d.streaming = c.streaming
  waiting : d.state = .waitKey ↔ c.state = .waitKey
  fetch : c.state = .waitKey → c.fetchProgress = .notIssued → d.fetchProgress = .notIssued

/-- A record that has left WAITKEY, STREAM and HOLD (R84, R90). -/
structure Context.Left (c d : Context) : Prop extends Context.Follows c d where
  streaming : d.streaming = false
  waiting : d.state ≠ .waitKey

theorem Context.Follows.refl (c : Context) : c.Follows c := ⟨rfl, rfl, rfl, rfl, rfl, id, id⟩

theorem Context.Follows.trans {c d e : Context} (h : c.Follows d) (h' : d.Follows e) : c.Follows e :=
  ⟨h'.number.trans h.number, h'.mover.trans h.mover, h'.tag.trans h.tag, h'.passage.trans h.passage,
    h'.capture.trans h.capture, fun hs => h'.sent (h.sent hs), fun hl => h.live (h'.live hl)⟩

theorem Context.Touched.refl (c : Context) : c.Touched c := ⟨.refl c, rfl, Iff.rfl, fun _ => id⟩

/-- A record whose number, claims, capture and state stay as they are is changed within its phase. -/
theorem touched_of_state {c d : Context} (hn : d.number = c.number) (hm : d.mover = c.mover) (ht : d.tag = c.tag)
    (hp : d.passage = c.passage) (hc : d.capture = c.capture) (hs : c.completionSent = true → d.completionSent = true)
    (hst : d.state = c.state) (hf : c.state = .waitKey → c.fetchProgress = .notIssued → d.fetchProgress = .notIssued) :
    c.Touched d where
  number := hn
  mover := hm
  tag := ht
  passage := hp
  capture := hc
  sent := hs
  live := fun h => by simpa [Context.live, hst] using h
  streaming := by simp [Context.streaming, hst]
  waiting := by rw [hst]
  fetch := hf

/-- What follows a record has its pair. -/
theorem Context.Follows.hasPair {c d : Context} (h : c.Follows d) (k : SlotNo) (g : Generation) :
    d.hasPair k g = c.hasPair k g := by
  simp [Context.hasPair, h.capture]

/-- A context in STREAM or HOLD is live. -/
theorem live_of_streaming {c : Context} (h : c.streaming = true) : c.live = true := by
  unfold Context.streaming at h
  unfold Context.live
  split at h <;> simp_all

/-- A context in WAITKEY is live. -/
theorem live_of_waitKey {c : Context} (h : c.state = .waitKey) : c.live = true := by
  simp [Context.live, h]

/-- A context in WAITKEY holds no pin. -/
theorem streaming_of_waitKey {c : Context} (h : c.state = .waitKey) : c.streaming = false := by
  simp [Context.streaming, h]

/-- A context has the pair it captured. -/
theorem hasPair_iff {c : Context} {k : SlotNo} {g : Generation} :
    c.hasPair k g = true ↔ ∃ cap, c.capture = some cap ∧ cap.slot = k ∧ cap.generation = g := by
  simp [Context.hasPair, Option.any_eq_true]

/-- A context that captured has no other pair. -/
theorem hasPair_of_capture {c : Context} {cap : Capture} (h : c.capture = some cap) {k : SlotNo} {g : Generation} :
    c.hasPair k g = true ↔ cap.slot = k ∧ cap.generation = g := by
  rw [hasPair_iff, h]
  simp

/-! ## Look-ups -/

/-- A change of records that keeps numbers is found by every look-up. -/
theorem ctx?_map {g : Context → Context} {s t : State} (hg : ∀ c ∈ s.contexts, (g c).number = c.number)
    (ht : t.contexts = s.contexts.map g) (m : CtxNo) : t.ctx? m = (s.ctx? m).map g := by
  unfold State.ctx?
  rw [ht]
  revert hg
  induction s.contexts with
  | nil => simp
  | cons c l ih =>
    intro hg
    have hc := hg c List.mem_cons_self
    have ih := ih fun d hd => hg d (List.mem_cons_of_mem _ hd)
    by_cases hm : c.number = m <;> simp [hc, hm, ih]

/-- A look-up of another number does not see a record dropped. -/
theorem ctx?_dropCtx_ne {n m : CtxNo} (h : m ≠ n) (s : State) : (s.dropCtx n).ctx? m = s.ctx? m := by
  unfold State.ctx? State.dropCtx
  induction s.contexts with
  | nil => rfl
  | cons c l ih =>
    by_cases hm : c.number = m
    · simp [hm, h]
    · by_cases hn : c.number = n <;> simp_all

/-- A look-up of a number in use among records added at the tail finds what it found. -/
theorem ctx?_addContext_ne {c : Context} {m : CtxNo} (h : c.number ≠ m) (s : State) :
    (s.addContext c).ctx? m = s.ctx? m := by
  simp [State.ctx?, State.addContext, List.find?_append, h]

/-- A record added under a number not in use is found. -/
theorem ctx?_addContext_self {c : Context} {s : State} (h : s.ctx? c.number = none) :
    (s.addContext c).ctx? c.number = some c := by
  unfold State.ctx? at h
  simp [State.ctx?, State.addContext, List.find?_append, h]

/-- A change of another record is not seen. -/
theorem ctx?_modCtx_ne {n m : CtxNo} {f : Context → Context} (hf : ∀ c, c.number = n → (f c).number = n) (h : m ≠ n)
    (s : State) : (s.modCtx n f).ctx? m = s.ctx? m := by
  unfold State.ctx? State.modCtx
  induction s.contexts with
  | nil => rfl
  | cons c l ih =>
    by_cases hn : c.number = n
    · have h1 : (f c).number ≠ m := by rw [hf c hn]; exact h.symm
      simpa [hn, h1, Ne.symm h] using ih
    · by_cases hm : c.number = m <;> simp_all

/-- With no number twice, the list is the record found and the others. -/
theorem contexts_perm {n : CtxNo} {c : Context} {s : State} (hn : (s.contexts.map fun d => d.number).Nodup)
    (h : s.ctx? n = some c) : s.contexts.Perm (c :: (s.dropCtx n).contexts) := by
  unfold State.ctx? at h
  unfold State.dropCtx
  revert hn h
  dsimp only
  induction s.contexts with
  | nil => simp
  | cons d l ih =>
    intro hn h
    rw [List.map_cons, List.nodup_cons] at hn
    by_cases hd : d.number = n
    · have hc : d = c := by simpa [hd] using h
      have hl : l.filter (fun c => c.number ≠ n) = l :=
        List.filter_eq_self.2 fun e he => by
          simpa using fun hen : e.number = n => hn.1 (List.mem_map.2 ⟨e, he, hen.trans hd.symm⟩)
      have hf : (d :: l).filter (fun c => c.number ≠ n) = l := by rw [List.filter_cons_of_neg (by simpa using hd), hl]
      rw [hf, hc]
    · have hl : l.find? (fun c => c.number == n) = some c := by simpa [hd] using h
      have := (ih hn.2 hl).cons d
      simpa [hd] using this.trans (List.Perm.swap _ _ _)

/-- With no number twice, the list with one record changed is the changed record and the others. -/
theorem modCtx_perm {n : CtxNo} {c : Context} {f : Context → Context} {s : State}
    (hn : (s.contexts.map fun d => d.number).Nodup) (h : s.ctx? n = some c) :
    (s.modCtx n f).contexts.Perm (f c :: (s.dropCtx n).contexts) := by
  have hp := (contexts_perm hn h).map fun d => if d.number = n then f d else d
  have hd : ((s.dropCtx n).contexts.map fun d => if d.number = n then f d else d) = (s.dropCtx n).contexts := by
    conv_rhs => rw [← List.map_id (s.dropCtx n).contexts]
    exact List.map_congr_left fun d hd => if_neg (by simpa [State.dropCtx] using (List.mem_filter.1 hd).2)
  rw [List.map_cons, if_pos (ctx?_number h), hd] at hp
  exact hp

/-- A record of the list under a number is the one found under it. -/
theorem eq_of_mem_of_number {c d : Context} {s : State} (hn : (s.contexts.map fun d => d.number).Nodup)
    (hd : d ∈ s.contexts) (hc : s.ctx? d.number = some c) : d = c := by
  rw [ctx?_of_mem hn hd] at hc
  exact Option.some.inj hc

/-- The records of a list changed under one number, where each record under it is changed within bounds. -/
theorem modCtx_map_follows {n : CtxNo} {f : Context → Context} {R : Context → Context → Prop} {s : State}
    (hr : ∀ c, R c c) (hn : (s.contexts.map fun d => d.number).Nodup) (hf : ∀ c, s.ctx? n = some c → R c (f c)) :
    ∀ c ∈ s.contexts, R c (if c.number = n then f c else c) := by
  intro c hc
  split
  · next h => exact hf c (h ▸ ctx?_of_mem hn hc)
  · exact hr c

/-! ## The laws of the list (R72) -/

/-- The laws read the list of contexts alone. -/
theorem contextLaws_congr {s t : State} (h : t.contexts = s.contexts) : t.contextLaws ↔ s.contextLaws := by
  simp [State.contextLaws, h]

/-- A list whose records follow those of another keeps its laws. -/
theorem contextLaws_map {g : Context → Context} {s t : State} (hs : s.contextLaws)
    (hg : ∀ c ∈ s.contexts, c.Follows (g c)) (ht : t.contexts = s.contexts.map g) : t.contextLaws := by
  obtain ⟨hl, hn, hc⟩ := hs
  refine ⟨by rw [ht, List.length_map]; exact hl, ?_, ?_⟩
  · rw [ht, List.map_map]
    exact (List.map_congr_left fun c h => (hg c h).number) ▸ hn
  · rw [ht]
    refine hc.sublist ?_
    revert hg
    clear hl hn hc ht
    induction s.contexts with
    | nil => simp
    | cons c l ih =>
      intro hg
      have hc := hg c List.mem_cons_self
      have ih := ih fun d hd => hg d (List.mem_cons_of_mem _ hd)
      cases h1 : c.completionSent with
      | true => simpa [h1, hc.sent h1] using ih
      | false =>
        cases h2 : (g c).completionSent with
        | true => simpa [h1, h2] using ih.cons (c.mover, c.tag)
        | false => simpa [h1, h2, hc.mover, hc.tag] using ih

/-- A list with records taken out keeps its laws. -/
theorem contextLaws_sublist {s t : State} (hs : s.contextLaws) (ht : t.contexts.Sublist s.contexts) : t.contextLaws := by
  obtain ⟨hl, hn, hc⟩ := hs
  exact ⟨ht.length_le.trans hl, hn.sublist (ht.map _), hc.sublist ((ht.filter _).map _)⟩

/-- A list with no context keeps the laws. -/
theorem contextLaws_nil {t : State} (ht : t.contexts = []) : t.contextLaws := by
  simp [State.contextLaws, ht]

/-- A context added under a number not in use, with a claim that no other has, keeps the laws (R72, R73, R79). -/
theorem contextLaws_addContext {c : Context} {s : State} (hs : s.contextLaws) (hl : s.contexts.length < 32)
    (hn : s.ctx? c.number = none) (hc : s.contexts.any (Context.claims c.mover c.tag) = false) :
    (s.addContext c).contextLaws := by
  obtain ⟨_, h2, h3⟩ := hs
  refine ⟨by simp only [State.addContext_contexts, List.length_append, List.length_singleton]; omega, ?_, ?_⟩
  · rw [State.addContext_contexts, List.map_append, List.map_singleton, List.nodup_append]
    refine ⟨h2, List.nodup_singleton _, ?_⟩
    rintro a ha b hb rfl
    obtain ⟨d, hd, hdn⟩ := List.mem_map.1 ha
    rw [List.mem_singleton] at hb
    rw [State.ctx?, List.find?_eq_none] at hn
    exact hn d hd (by simpa using hdn.trans hb)
  · rw [State.addContext_contexts, List.filter_append, List.map_append, List.nodup_append]
    refine ⟨h3, ?_, ?_⟩
    · cases h : c.completionSent <;> simp [h]
    · rintro a ha b hb rfl
      obtain ⟨d, hd, hda⟩ := List.mem_map.1 ha
      obtain ⟨e, he, hea⟩ := List.mem_map.1 hb
      rw [List.mem_filter, List.mem_singleton] at he
      obtain ⟨rfl, -⟩ := he
      rw [List.mem_filter] at hd
      rw [List.any_eq_false] at hc
      apply hc d hd.1
      obtain ⟨h4, h5⟩ := Prod.mk.inj (hda.trans hea.symm)
      simpa [Context.claims, h4, h5] using hd.2

end Sys2Proof.Machine
end

