-- ==== Sys2Proof/Proofs/Cache.lean ====
section
/-! SUPPORT. The ways of the schedule cache, and the laws of cache, queue and expander that read no slot (R119 to R126). -/

namespace Sys2Proof.Machine

/-! ## Ways and entries -/

@[simp] theorem CacheSet.entry_put (c : CacheSet) (w v : Way) (e : Option Entry) :
    (c.put w e).entry v = if v = w then e else c.entry v := by
  cases w <;> cases v <;> rfl

/-- A set written reads as written, and the others as they were. -/
theorem way_putSet (i j : Fin 4) (w : Way) (c : CacheSet) (s : State) :
    (s.putSet i c).way j w = if j = i then c.entry w else s.way j w := by
  unfold State.way State.putSet
  split
  · next h => subst h; simp
  · next h => simp [Vector.getElem_set_ne, show (i : Nat) ≠ j from fun hv => h (Fin.ext hv).symm]

/-- The ways read the cache alone. -/
theorem way_congr {s t : State} (h : t.cache = s.cache) (i : Fin 4) (w : Way) : t.way i w = s.way i w := by
  simp [State.way, h]

/-- A set of the cache built from the old one, way by way. -/
theorem way_ofFn {f : Fin 4 → CacheSet} {t : State} (h : t.cache = Vector.ofFn f) (i : Fin 4) (w : Way) :
    t.way i w = (f i).entry w := by
  simp [State.way, h]

/-- A way matches a pair exactly if it holds an entry of it. -/
theorem entryMatches_iff {k : SlotNo} {g : Generation} {o : Option Entry} :
    entryMatches k g o = true ↔ ∃ e, o = some e ∧ e.slot = k ∧ e.generation = g := by
  cases o <;> simp [entryMatches]

/-- The way found for a pair holds an entry of it. -/
theorem find_some {k : SlotNo} {g : Generation} {c : CacheSet} {w : Way} (h : c.find k g = some w) :
    ∃ e, c.entry w = some e ∧ e.slot = k ∧ e.generation = g := by
  unfold CacheSet.find at h
  split at h
  · next hm => cases h; exact entryMatches_iff.1 hm
  · split at h
    · next hm => cases h; exact entryMatches_iff.1 hm
    · cases h

/-- No way is found for a pair exactly if no way holds an entry of it. -/
theorem find_none_iff {k : SlotNo} {g : Generation} {c : CacheSet} :
    c.find k g = none ↔ ∀ w e, c.entry w = some e → ¬ (e.slot = k ∧ e.generation = g) := by
  constructor
  · intro h w e he hp
    unfold CacheSet.find at h
    cases w with
    | way0 =>
      have hm : entryMatches k g c.way0 = true := entryMatches_iff.2 ⟨e, he, hp⟩
      rw [if_pos hm] at h
      cases h
    | way1 =>
      have hm : entryMatches k g c.way1 = true := entryMatches_iff.2 ⟨e, he, hp⟩
      rw [if_pos hm] at h
      split at h <;> cases h
  · intro h
    cases hf : c.find k g with
    | none => rfl
    | some w =>
      obtain ⟨e, he, hp⟩ := find_some hf
      exact absurd hp (h w e he)

/-- The entry of a pair stands in a way of the pair's set. -/
theorem entryOf_some {k : SlotNo} {g : Generation} {s : State} {e : Entry} (h : s.entryOf k g = some e) :
    ∃ w, s.way (setOf k g) w = some e ∧ e.slot = k ∧ e.generation = g := by
  unfold State.entryOf at h
  split at h
  · next w hw =>
    obtain ⟨d, hd, hp⟩ := find_some hw
    rw [h] at hd
    cases hd
    exact ⟨w, h, hp⟩
  · cases h

/-- A pair has no entry exactly if no way of its set holds one. -/
theorem entryOf_none_iff {k : SlotNo} {g : Generation} {s : State} :
    s.entryOf k g = none ↔ ∀ w e, s.way (setOf k g) w = some e → ¬ (e.slot = k ∧ e.generation = g) := by
  refine Iff.trans ?_ (find_none_iff (c := s.cache[setOf k g]))
  unfold State.entryOf
  constructor
  · intro h
    split at h
    · next w hw =>
      obtain ⟨e, he, -⟩ := find_some hw
      rw [h] at he
      cases he
    · assumption
  · intro h
    rw [h]

/-- A pair has an entry exactly if a way of its set holds one. -/
theorem entryOf_isSome_iff {k : SlotNo} {g : Generation} {s : State} :
    (s.entryOf k g).isSome = true ↔ ∃ w e, s.way (setOf k g) w = some e ∧ e.slot = k ∧ e.generation = g := by
  rw [Option.isSome_iff_ne_none, ne_eq, entryOf_none_iff]
  push Not
  rfl

/-- With the entries in their places, an entry of a pair stands in one way only. -/
theorem placed_unique {s : State} (hp : s.entriesPlaced) {i j : Fin 4} {w v : Way} {e d : Entry}
    (he : s.way i w = some e) (hd : s.way j v = some d) (hs : e.slot = d.slot) (hg : e.generation = d.generation) :
    i = j ∧ w = v := by
  have hij : i = j := by rw [hp.1 i w e he, hp.1 j v d hd, hs, hg]
  subst hij
  refine ⟨rfl, ?_⟩
  cases w <;> cases v
  · rfl
  · exact absurd ⟨hs, hg⟩ (hp.2 i e d he hd)
  · exact absurd ⟨hs.symm, hg.symm⟩ (hp.2 i d e hd he)
  · rfl

/-! ## Changes of the cache entry by entry -/

/-- The cache has changed entry by entry: each one as a function says, or it is gone. -/
def State.waysBound (φ : Entry → Option Entry) (s t : State) : Prop := ∀ i w, t.way i w = (s.way i w).bind φ

/-- What an entry is after a pin of its pair has been given up by a context, if it held one (R122). -/
def Entry.afterRelease (c : Context) (e : Entry) : Option Entry :=
  if c.streaming && c.hasPair e.slot e.generation then e.unpin else some e

/-- The change keeps the pairs of the entries. -/
def keepsPair (φ : Entry → Option Entry) : Prop :=
  ∀ e d, φ e = some d → d.slot = e.slot ∧ d.generation = e.generation

/-- An entry with one pin fewer, or gone. -/
theorem unpin_some {e d : Entry} (h : e.unpin = some d) :
    d = { e with pins := e.pins - 1 } ∧ (e.flush = true → 2 ≤ e.pins) := by
  unfold Entry.unpin at h
  split at h
  · cases h
  · next hn =>
    cases h
    refine ⟨rfl, fun hf => ?_⟩
    simp only [hf, Bool.and_true, decide_eq_true_eq] at hn
    omega

/-- An entry goes with its last pin only. -/
theorem unpin_none {e : Entry} (h : e.unpin = none) : e.pins ≤ 1 := by
  unfold Entry.unpin at h
  split at h
  · next hp => simp only [Bool.and_eq_true, decide_eq_true_eq] at hp; exact hp.1
  · cases h

theorem afterRelease_keepsPair (c : Context) : keepsPair (Entry.afterRelease c) := by
  intro e d h
  unfold Entry.afterRelease at h
  split at h
  · rw [(unpin_some h).1]; exact ⟨rfl, rfl⟩
  · cases h; exact ⟨rfl, rfl⟩

/-- Releasing a pin, entry by entry (R122). -/
theorem way_unpin {s : State} (hp : s.entriesPlaced) (k : SlotNo) (g : Generation) :
    s.waysBound (fun e => if e.slot = k ∧ e.generation = g then e.unpin else some e) (s.unpin k g) := by
  have hkeep : ∀ i w, (∀ e, s.way i w = some e → ¬ (e.slot = k ∧ e.generation = g)) →
      s.way i w = (s.way i w).bind fun e => if e.slot = k ∧ e.generation = g then e.unpin else some e := by
    intro i w h
    cases he : s.way i w with
    | none => rfl
    | some e => simp [h e he]
  intro i w
  unfold State.unpin
  dsimp only
  split
  · next w₀ hw =>
    obtain ⟨e₀, he₀, hs₀, hg₀⟩ := find_some hw
    rw [way_putSet]
    by_cases hi : i = setOf k g
    · subst hi
      rw [if_pos rfl, CacheSet.entry_put]
      by_cases hw' : w = w₀
      · subst hw'
        have : s.way (setOf k g) w = some e₀ := he₀
        rw [if_pos rfl, he₀, this]
        simp [hs₀, hg₀]
      · rw [if_neg hw']
        refine hkeep _ _ fun e he hpair => hw' ?_
        exact (placed_unique hp he he₀ (hpair.1.trans hs₀.symm) (hpair.2.trans hg₀.symm)).2
    · rw [if_neg hi]
      exact hkeep _ _ fun e he hpair => hi ((hp.1 i w e he).trans (by rw [hpair.1, hpair.2]))
  · next hn =>
    refine hkeep _ _ fun e he hpair => ?_
    have hi : i = setOf k g := (hp.1 i w e he).trans (by rw [hpair.1, hpair.2])
    subst hi
    exact find_none_iff.1 hn w e he hpair

/-- Releasing a context's pin, entry by entry (R122). -/
theorem way_releasePin {s : State} (hp : s.entriesPlaced) (c : Context) :
    s.waysBound (Entry.afterRelease c) (s.releasePin c) := by
  intro i w
  unfold State.releasePin Entry.afterRelease
  cases hs : c.streaming with
  | false => simp
  | true =>
    cases hc : c.capture with
    | none => simp [Context.hasPair, hc]
    | some cap =>
      simp only [if_true, Bool.true_and, way_unpin hp cap.slot cap.generation i w]
      congr 1
      funext e
      simp only [hasPair_of_capture hc, eq_comm]

/-- Entries changed in place stay in their places. -/
theorem placed_bound {φ : Entry → Option Entry} (hk : keepsPair φ) {s t : State} (hp : s.entriesPlaced)
    (h : s.waysBound φ t) : t.entriesPlaced := by
  refine ⟨fun i w e he => ?_, fun i e d he hd hpair => ?_⟩
  · rw [h i w] at he
    obtain ⟨e₀, he₀, hφ⟩ := Option.bind_eq_some_iff.1 he
    rw [(hk e₀ e hφ).1, (hk e₀ e hφ).2]
    exact hp.1 i w e₀ he₀
  · rw [h i _] at he hd
    obtain ⟨e₀, he₀, hφ⟩ := Option.bind_eq_some_iff.1 he
    obtain ⟨d₀, hd₀, hψ⟩ := Option.bind_eq_some_iff.1 hd
    refine hp.2 i e₀ d₀ he₀ hd₀ ?_
    rw [← (hk e₀ e hφ).1, ← (hk e₀ e hφ).2, ← (hk d₀ d hψ).1, ← (hk d₀ d hψ).2]
    exact hpair

/-- A way that holds no entry holds none after. -/
theorem way_none_bound {φ : Entry → Option Entry} {s t : State} (h : s.waysBound φ t) {i : Fin 4} {w : Way}
    (hw : s.way i w = none) : t.way i w = none := by
  rw [h i w, hw]; rfl

/-- A pair without an entry has none after. -/
theorem entryOf_none_bound {φ : Entry → Option Entry} (hk : keepsPair φ) {s t : State} (h : s.waysBound φ t)
    {k : SlotNo} {g : Generation} (hn : s.entryOf k g = none) : t.entryOf k g = none := by
  rw [entryOf_none_iff] at *
  intro w e he hpair
  rw [h _ w] at he
  obtain ⟨e₀, he₀, hφ⟩ := Option.bind_eq_some_iff.1 he
  exact hn w e₀ he₀ ⟨(hk e₀ e hφ).1 ▸ hpair.1, (hk e₀ e hφ).2 ▸ hpair.2⟩

/-! ## The laws that read no slot -/

/-- The number of contexts of a pair in STREAM or HOLD (R122). -/
def State.pinners (k : SlotNo) (g : Generation) (s : State) : Nat :=
  s.contexts.countP fun c => c.streaming && c.hasPair k g

/-- What `State.expansionLaw` says without the slots. -/
def State.expansionPlaced (s : State) : Prop :=
  ∀ x, s.expander.current = some x →
    x.set = setOf x.slot x.generation ∧ s.way x.set x.way = none ∧
    (x.void = true → x.attached = []) ∧
    (x.void = false →
      s.entryOf x.slot x.generation = none ∧
      (∀ r ∈ s.expander.queue, ¬ (r.slot = x.slot ∧ r.generation = x.generation)) ∧
      s.waitsFor x.attached x.slot x.generation)

/-- What `State.expansionLaw` says of the slots. -/
def State.expansionKeyed (s : State) : Prop :=
  ∀ x, s.expander.current = some x → x.void = false →
    s.slots[x.slot].body = .loaded x.keys ∧ s.slots[x.slot].generation = x.generation

/-- The laws of the cache that read contexts, cache and expander only. -/
structure State.ledger (s : State) : Prop where
  captures : s.captureLaw
  placed : s.entriesPlaced
  counted : s.pinsCounted
  queued : s.queueLaw
  expanding : s.expansionPlaced
  waiting : s.waitersAttached

/-- The laws of the cache that read the slots too. -/
structure State.keyed (s : State) : Prop where
  entries : s.entriesKeyed
  expansion : s.expansionKeyed

theorem cacheLaws_iff {s : State} : s.cacheLaws ↔ s.ledger ∧ s.keyed ∧ s.settled := by
  constructor
  · rintro ⟨h1, h2, h3, h4, h5, h6, h7, h8⟩
    refine ⟨⟨h1, h2, h4, h5, fun x hx => ?_, h7⟩, ⟨h3, fun x hx hv => ?_⟩, h8⟩
    · obtain ⟨ha, hb, hc, hd⟩ := h6 x hx
      exact ⟨ha, hb, hc, fun hv => (hd hv).2.2⟩
    · obtain ⟨-, -, -, hd⟩ := h6 x hx
      exact ⟨(hd hv).1, (hd hv).2.1⟩
  · rintro ⟨⟨h1, h2, h4, h5, h6, h7⟩, ⟨h3, h9⟩, h8⟩
    refine ⟨h1, h2, h3, h4, h5, fun x hx => ?_, h7, h8⟩
    obtain ⟨ha, hb, hc, hd⟩ := h6 x hx
    exact ⟨ha, hb, hc, fun hv => ⟨(h9 x hx hv).1, (h9 x hx hv).2, hd hv⟩⟩

/-- The ledger reads contexts, cache and expander alone. -/
theorem ledger_congr {s t : State} (h1 : t.contexts = s.contexts) (h2 : t.cache = s.cache)
    (h3 : t.expander = s.expander) (h : s.ledger) : t.ledger := by
  obtain ⟨ha, hb, hc, hd, he, hf⟩ := h
  constructor <;>
    simpa only [State.captureLaw, State.entriesPlaced, State.pinsCounted, State.queueLaw, State.expansionPlaced,
      State.waitersAttached, State.waitsFor, State.way, State.entryOf, State.ctx?, h1, h2, h3]

/-! ## The parts, one at a time -/

/-- Records that follow those of a list that captures by the law do so too. -/
theorem captureLaw_of_origin {s t : State} (h : s.captureLaw) (ho : ∀ d ∈ t.contexts, ∃ c ∈ s.contexts, c.Follows d) :
    t.captureLaw := by
  intro d hd
  obtain ⟨c, hc, hf⟩ := ho d hd
  rw [hf.capture, hf.passage]
  exact h c hc

/-- A pinning context counts. -/
theorem pinners_pos {c : Context} {s : State} (hc : c ∈ s.contexts) (hs : c.streaming = true) {cap : Capture}
    (hcap : c.capture = some cap) : 0 < s.pinners cap.slot cap.generation := by
  unfold State.pinners
  rw [List.countP_pos_iff]
  exact ⟨c, hc, by rw [hs, (hasPair_of_capture hcap).2 ⟨rfl, rfl⟩]; rfl⟩

/-- Pins stay counted where each entry that is left has as many as its pair has pinning contexts, and an entry goes only where
its pair has none. -/
theorem pinsCounted_bound {φ : Entry → Option Entry} (hk : keepsPair φ) {s t : State} (h : s.waysBound φ t)
    (hφ : ∀ i w e d, s.way i w = some e → φ e = some d →
      d.pins = t.pinners e.slot e.generation ∧ (d.flush = true → d.pins ≠ 0))
    (hnone : ∀ i w e, s.way i w = some e → φ e = none → t.pinners e.slot e.generation = 0)
    (hsome : ∀ c ∈ t.contexts, ∀ cap, c.streaming = true → c.capture = some cap →
      (s.entryOf cap.slot cap.generation).isSome = true) : t.pinsCounted := by
  refine ⟨fun i w d hd => ?_, fun c hc cap hs hcap => ?_⟩
  · rw [h i w] at hd
    obtain ⟨e, he, hd⟩ := Option.bind_eq_some_iff.1 hd
    obtain ⟨h1, h2⟩ := hφ i w e d he hd
    rw [(hk e d hd).1, (hk e d hd).2]
    exact ⟨h1, h2⟩
  · obtain ⟨w, e, he, hes, heg⟩ := entryOf_isSome_iff.1 (hsome c hc cap hs hcap)
    cases hd : φ e with
    | none =>
      have := hnone _ w e he hd
      rw [hes, heg] at this
      exact absurd this (pinners_pos hc hs hcap).ne'
    | some d =>
      refine entryOf_isSome_iff.2 ⟨w, d, ?_, (hk e d hd).1.trans hes, (hk e d hd).2.trans heg⟩
      rw [h _ w, he]
      exact hd

/-- Who waits goes on waiting where the look-ups find what they found. -/
theorem waitsFor_of_ctx {attached : List CtxNo} {k : SlotNo} {g : Generation} {s t : State}
    (h : s.waitsFor attached k g)
    (hc : ∀ n ∈ attached, ∀ c, s.ctx? n = some c → c.state = .waitKey →
      ∃ d, t.ctx? n = some d ∧ d.state = .waitKey ∧ d.hasPair k g = c.hasPair k g) : t.waitsFor attached k g := by
  refine ⟨h.1, fun n hn => ?_⟩
  obtain ⟨c, h1, h2, h3⟩ := h.2 n hn
  obtain ⟨d, h4, h5, h6⟩ := hc n hn c h1 h2
  exact ⟨d, h4, h5, h6.trans h3⟩

/-- Only contexts in WAITKEY are attached. -/
theorem waitsFor_waiting {attached : List CtxNo} {k : SlotNo} {g : Generation} {s : State} (h : s.waitsFor attached k g)
    {n : CtxNo} (hn : n ∈ attached) {c : Context} (hc : s.ctx? n = some c) : c.state = .waitKey := by
  obtain ⟨d, h1, h2, -⟩ := h.2 n hn
  rw [hc] at h1
  cases h1
  exact h2

end Sys2Proof.Machine
end

