-- ==== Sys2Proof/Proofs/Ledger.lean ====
section
/-! SUPPORT. The ledger of cache, queue and expander under each change of a context, of the cache and of the expander
(R121 to R128). -/

namespace Sys2Proof.Machine

/-! ## A change within the phase -/

/-- Contexts changed within their phases keep the ledger. -/
theorem ledger_touched {g : Context → Context} {s t : State} (h : s.ledger)
    (hg : ∀ c ∈ s.contexts, c.Touched (g c)) (hc : t.contexts = s.contexts.map g) (hk : t.cache = s.cache)
    (hx : t.expander = s.expander) : t.ledger := by
  obtain ⟨hcap, hplaced, hcounted, hqueued, hexp, hwait⟩ := h
  have hway := way_congr hk
  have hentry : ∀ k g, t.entryOf k g = s.entryOf k g := fun k g => by simp only [State.entryOf, hk]
  have hctx := ctx?_map (fun c hc => (hg c hc).number) hc
  have hwf : ∀ {l k g}, s.waitsFor l k g → t.waitsFor l k g := by
    intro l k g hw
    refine waitsFor_of_ctx hw fun n _ c hn hs => ⟨_, by rw [hctx, hn]; rfl, ?_, ?_⟩
    · exact (hg c (ctx?_mem hn)).waiting.2 hs
    · exact (hg c (ctx?_mem hn)).hasPair k g
  have hpin : ∀ k g, t.pinners k g = s.pinners k g := by
    intro k g'
    unfold State.pinners
    rw [hc, List.countP_map]
    refine List.countP_congr fun c hc => ?_
    simp only [Function.comp, (hg c hc).streaming, (hg c hc).hasPair]
  refine ⟨captureLaw_of_origin hcap fun d hd => ?_, ?_, ⟨fun i w e he => ?_, fun d hd cap hs hcap => ?_⟩, ⟨?_, ?_⟩, ?_, ?_⟩
  · obtain ⟨c, hc', rfl⟩ := List.mem_map.1 (hc ▸ hd)
    exact ⟨c, hc', (hg c hc').toFollows⟩
  · exact ⟨fun i w e he => hplaced.1 i w e (hway i w ▸ he),
      fun i e d he hd => hplaced.2 i e d (hway i _ ▸ he) (hway i _ ▸ hd)⟩
  · have := hcounted.1 i w e (hway i w ▸ he)
    exact ⟨this.1.trans (hpin _ _).symm, this.2⟩
  · obtain ⟨c, hc', rfl⟩ := List.mem_map.1 (hc ▸ hd)
    rw [(hg c hc').streaming] at hs
    rw [(hg c hc').capture] at hcap
    rw [hentry]
    exact hcounted.2 c hc' cap hs hcap
  · rw [hx]; exact hqueued.1
  · rw [hx]
    intro r hr
    obtain ⟨h1, h2, h3⟩ := hqueued.2 r hr
    exact ⟨h1, hwf h2, (hentry _ _).trans h3⟩
  · intro x hx'
    rw [hx] at hx' ⊢
    obtain ⟨h1, h2, h3, h4⟩ := hexp x hx'
    refine ⟨h1, (hway _ _).trans h2, h3, fun hv => ?_⟩
    obtain ⟨h5, h6, h7⟩ := h4 hv
    exact ⟨(hentry _ _).trans h5, h6, hwf h7⟩
  · intro d hd hs
    obtain ⟨c, hc', rfl⟩ := List.mem_map.1 (hc ▸ hd)
    have ht := hg c hc'
    have hs' := ht.waiting.1 hs
    obtain ⟨hf, hw⟩ := hwait c hc' hs'
    rw [ht.capture, ht.number, hx]
    exact ⟨ht.fetch hs' hf, hw⟩

/-! ## A context leaves WAITKEY, STREAM and HOLD -/

/-- A request of the queue without a context is a request of the queue before, less the context. -/
theorem mem_detach {n : CtxNo} {x : Expander} {r : Request} :
    r ∈ (x.detach n).queue ↔ ∃ q ∈ x.queue, ¬ (n ∈ q.attached ∧ ∀ m ∈ q.attached, m = n) ∧
      r = { q with attached := q.attached.filter fun m => m ≠ n } := by
  rw [detach_eq]
  simp only [List.mem_filterMap]
  constructor
  · rintro ⟨q, hq, h⟩
    split at h
    · cases h
    · next hn => exact ⟨q, hq, hn, (Option.some.inj h).symm⟩
  · rintro ⟨q, hq, hn, rfl⟩
    exact ⟨q, hq, if_neg hn⟩

/-- The expansion in progress without a context. -/
theorem detach_current {n : CtxNo} {x : Expander} {y : Expansion} :
    (x.detach n).current = some y ↔
      ∃ e, x.current = some e ∧ y = { e with attached := e.attached.filter fun m => m ≠ n } := by
  rw [detach_eq]
  simp only [Option.map_eq_some_iff, eq_comm (a := y)]

/-- The pairs queued after a context is detached are among those queued before, in their order. -/
theorem detach_pairs_sublist (n : CtxNo) (x : Expander) :
    ((x.detach n).queue.map fun r => (r.slot, r.generation)).Sublist
      (x.queue.map fun r => (r.slot, r.generation)) := by
  rw [detach_eq]
  dsimp only
  induction x.queue with
  | nil => simp
  | cons r l ih =>
    rw [List.filterMap_cons]
    split
    · next h => exact ih.cons _
    · next h =>
      split at h
      · cases h
      · cases h
        exact ih.cons_cons _

/-- Who waits without a context that goes. -/
theorem waitsFor_detach {attached : List CtxNo} {k : SlotNo} {g : Generation} {n : CtxNo} {s t : State}
    (h : s.waitsFor attached k g) (hc : ∀ m, m ≠ n → t.ctx? m = s.ctx? m) :
    t.waitsFor (attached.filter fun m => m ≠ n) k g := by
  refine ⟨h.1.filter _, fun m hm => ?_⟩
  obtain ⟨hm, hne⟩ := List.mem_filter.1 hm
  rw [hc m (by simpa using hne)]
  exact h.2 m hm

/-- A context that leaves WAITKEY, STREAM and HOLD for good: its record goes or is changed, its pin is released, and it is taken
from queue and expansion (R90, R122, R123). -/
structure State.Leaves (n : CtxNo) (c : Context) (s t : State) : Prop where
  found : s.ctx? n = some c
  contexts : t.contexts = (s.dropCtx n).contexts ∨ ∃ f, c.Left (f c) ∧ t.contexts = (s.modCtx n f).contexts
  cache : t.cache = (s.releasePin c).cache
  expander : t.expander = s.expander.detach n

/-- The others are found as before. -/
theorem State.Leaves.ctx?_ne {n : CtxNo} {c : Context} {s t : State} (hs : s.contextLaws) (h : s.Leaves n c t) {m : CtxNo}
    (hm : m ≠ n) : t.ctx? m = s.ctx? m := by
  rcases h.contexts with hc | ⟨f, hf, hc⟩
  · rw [ctx?_congr hc, ctx?_dropCtx_ne hm]
  · have hg := modCtx_map_follows (R := fun c d => d.number = c.number) (fun _ => rfl) hs.2.1
      (f := f) (n := n) fun d hd => by rw [h.found] at hd; cases hd; exact hf.number
    rw [ctx?_map hg hc]
    cases hd : s.ctx? m with
    | none => rfl
    | some d => simp [ctx?_number hd, hm]

/-- What is left in the list: the others, and the record that has left, if it stays. -/
theorem State.Leaves.mem {n : CtxNo} {c : Context} {s t : State} (hs : s.contextLaws) (h : s.Leaves n c t) {d : Context}
    (hd : d ∈ t.contexts) : d ∈ (s.dropCtx n).contexts ∨ c.Left d := by
  rcases h.contexts with hc | ⟨f, hf, hc⟩
  · exact .inl (hc ▸ hd)
  · rw [hc, (modCtx_perm hs.2.1 h.found).mem_iff, List.mem_cons] at hd
    exact hd.symm.imp id fun (e : d = f c) => e ▸ hf

/-- The pinning contexts left: one less where the context held a pin of the pair. -/
theorem State.Leaves.pinners {n : CtxNo} {c : Context} {s t : State} (hs : s.contextLaws) (h : s.Leaves n c t) (k : SlotNo)
    (g : Generation) :
    s.pinners k g = t.pinners k g + if c.streaming && c.hasPair k g then 1 else 0 := by
  have hp := (contexts_perm hs.2.1 h.found).countP_eq fun c => c.streaming && c.hasPair k g
  have ht : t.pinners k g = (s.dropCtx n).contexts.countP fun c => c.streaming && c.hasPair k g := by
    unfold State.pinners
    rcases h.contexts with hc | ⟨f, hf, hc⟩
    · rw [hc]
    · rw [hc, (modCtx_perm hs.2.1 h.found).countP_eq, List.countP_cons]
      simp [hf.streaming]
  rw [ht, State.pinners, hp, List.countP_cons]

/-- A context that leaves keeps the ledger. -/
theorem ledger_leaves {n : CtxNo} {c : Context} {s t : State} (hs : s.contextLaws) (h : s.ledger) (hl : s.Leaves n c t) :
    t.ledger := by
  obtain ⟨hcap, hplaced, hcounted, hqueued, hexp, hwait⟩ := h
  have hway : s.waysBound (Entry.afterRelease c) t := fun i w => by
    rw [way_congr hl.cache]; exact way_releasePin hplaced c i w
  have hkeep := afterRelease_keepsPair c
  have hne := fun m (hm : m ≠ n) => hl.ctx?_ne hs hm
  have hother : ∀ d ∈ (s.dropCtx n).contexts, d ∈ s.contexts ∧ d.number ≠ n := fun d hd => by
    simpa [State.dropCtx] using hd
  refine ⟨captureLaw_of_origin hcap fun d hd => ?_, placed_bound hkeep hplaced hway, ?_, ⟨?_, ?_⟩, ?_, ?_⟩
  · rcases hl.mem hs hd with hd | hd
    · exact ⟨d, (hother d hd).1, .refl d⟩
    · exact ⟨c, ctx?_mem hl.found, hd.toFollows⟩
  · refine pinsCounted_bound hkeep hway (fun i w e d he hd => ?_) (fun i w e he hd => ?_) fun d hd cap hst hcap' => ?_
    · have hp := hl.pinners hs e.slot e.generation
      obtain ⟨h1, h2⟩ := hcounted.1 i w e he
      replace h1 : e.pins = s.pinners e.slot e.generation := h1
      unfold Entry.afterRelease at hd
      split at hd
      · next hc =>
        obtain ⟨rfl, hf⟩ := unpin_some hd
        simp only [hc, if_true] at hp
        exact ⟨by simp only; omega, fun hfl => by have := hf hfl; simp only; omega⟩
      · next hc =>
        cases hd
        simp only [hc, Bool.false_eq_true, if_false] at hp
        exact ⟨by omega, h2⟩
    · have hp := hl.pinners hs e.slot e.generation
      have h1 : e.pins = s.pinners e.slot e.generation := (hcounted.1 i w e he).1
      unfold Entry.afterRelease at hd
      split at hd
      · next hc =>
        have := unpin_none hd
        simp only [hc, if_true] at hp
        omega
      · cases hd
    · rcases hl.mem hs hd with hd | hd
      · exact hcounted.2 d (hother d hd).1 cap hst hcap'
      · rw [hd.streaming] at hst; cases hst
  · rw [hl.expander]
    exact hqueued.1.sublist (detach_pairs_sublist n _)
  · rw [hl.expander]
    intro r hr
    obtain ⟨q, hq, hn, rfl⟩ := mem_detach.1 hr
    obtain ⟨h1, h2, h3⟩ := hqueued.2 q hq
    refine ⟨fun hnil => hn ?_, waitsFor_detach h2 hne, entryOf_none_bound hkeep hway h3⟩
    have hall : ∀ m ∈ q.attached, m = n := by simpa [List.filter_eq_nil_iff] using hnil
    obtain ⟨m, hm⟩ := List.exists_mem_of_ne_nil _ h1
    exact ⟨hall m hm ▸ hm, hall⟩
  · intro y hy
    rw [hl.expander] at hy ⊢
    obtain ⟨x, hx, rfl⟩ := detach_current.1 hy
    obtain ⟨h1, h2, h3, h4⟩ := hexp x hx
    refine ⟨h1, way_none_bound hway h2, fun hv => by simp [h3 hv], fun hv => ?_⟩
    obtain ⟨h5, h6, h7⟩ := h4 hv
    refine ⟨entryOf_none_bound hkeep hway h5, fun r hr => ?_, waitsFor_detach h7 hne⟩
    obtain ⟨q, hq, -, rfl⟩ := mem_detach.1 hr
    exact h6 q hq
  · intro d hd hst
    rcases hl.mem hs hd with hd | hd
    · obtain ⟨hd, hdn⟩ := hother d hd
      obtain ⟨h1, cap, h2, h3⟩ := hwait d hd hst
      refine ⟨h1, cap, h2, ?_⟩
      rw [hl.expander]
      rcases h3 with ⟨q, hq, h4, h5, h6⟩ | ⟨x, hx, h4, h5, h6, h7⟩
      · refine .inl ⟨_, mem_detach.2 ⟨q, hq, fun hall => hdn (hall.2 _ h6), rfl⟩, h4, h5, ?_⟩
        simpa [hdn] using h6
      · refine .inr ⟨_, detach_current.2 ⟨x, hx, rfl⟩, h4, h5, h6, ?_⟩
        simpa [hdn] using h7
    · exact absurd hst hd.waiting

/-- A context that does not wait stands in no list of attached contexts, so that detaching it changes nothing. -/
theorem detach_of_not_waiting {n : CtxNo} {c : Context} {s : State} (h : s.ledger) (hc : s.ctx? n = some c)
    (hw : c.state ≠ .waitKey) : s.expander.detach n = s.expander := by
  have hfilter : ∀ {l : List CtxNo}, n ∉ l → l.filter (fun m => m ≠ n) = l := fun hn =>
    List.filter_eq_self.2 fun m hm => by simpa using fun e : m = n => hn (e ▸ hm)
  have hq : s.expander.queue.filterMap (Request.detach n) = s.expander.queue := by
    conv_rhs => rw [← List.filterMap_some (l := s.expander.queue)]
    refine List.filterMap_congr fun r hr => if_neg fun hn => ?_
    exact hw (waitsFor_waiting (h.queued.2 r hr).2.1 hn hc)
  have hx : (s.expander.current.map fun e => { e with attached := e.attached.filter fun m => m ≠ n }) =
      s.expander.current := by
    cases hcur : s.expander.current with
    | none => rfl
    | some x =>
      obtain ⟨-, -, h3, h4⟩ := h.expanding x hcur
      have hn : n ∉ x.attached := fun hn => by
        cases hv : x.void with
        | true => rw [h3 hv] at hn; cases hn
        | false => exact hw (waitsFor_waiting (h4 hv).2.2 hn hc)
      rw [Option.map_some, hfilter hn]
  rw [Expander.detach, hq, hx]

end Sys2Proof.Machine
end

