-- ==== Sys2Proof/Proofs/Attach.lean ====
section
/-! SUPPORT. The ledger under admissions, expansions, and what takes entries and requests away (R121 to R132). -/

namespace Sys2Proof.Machine

/-! ## Entries change or go while the contexts stand -/

/-- An entry may go while it has no pin, and one that stays keeps its pins. -/
theorem ledger_entries {φ : Entry → Option Entry} (hk : keepsPair φ) {s t : State} (h : s.ledger)
    (hway : s.waysBound φ t)
    (hφ : ∀ i w e d, s.way i w = some e → φ e = some d → d.pins = e.pins ∧ (d.flush = true → d.pins ≠ 0))
    (hnone : ∀ i w e, s.way i w = some e → φ e = none → e.pins = 0)
    (hc : t.contexts = s.contexts) (hx : t.expander = s.expander) : t.ledger := by
  obtain ⟨hcap, hplaced, hcounted, hqueued, hexp, hwait⟩ := h
  have hpin : ∀ k g, t.pinners k g = s.pinners k g := fun k g => by simp only [State.pinners, hc]
  have hwf : ∀ {l k g}, s.waitsFor l k g → t.waitsFor l k g := fun hw => by
    simpa only [State.waitsFor, State.ctx?, hc] using hw
  refine ⟨by simpa only [State.captureLaw, hc] using hcap, placed_bound hk hplaced hway, ?_, ⟨by rw [hx]; exact hqueued.1, ?_⟩,
    ?_, by simpa only [State.waitersAttached, hc, hx] using hwait⟩
  · refine pinsCounted_bound hk hway (fun i w e d he hd => ?_) (fun i w e he hd => ?_) (hc ▸ hcounted.2)
    · rw [hpin]
      obtain ⟨h1, h2⟩ := hφ i w e d he hd
      exact ⟨h1.trans (hcounted.1 i w e he).1, h2⟩
    · rw [hpin]
      exact (hcounted.1 i w e he).1.symm.trans (hnone i w e he hd)
  · rw [hx]
    intro r hr
    obtain ⟨h1, h2, h3⟩ := hqueued.2 r hr
    exact ⟨h1, hwf h2, entryOf_none_bound hk hway h3⟩
  · rw [State.expansionPlaced, hx]
    intro x hx'
    obtain ⟨h1, h2, h3, h4⟩ := hexp x hx'
    refine ⟨h1, way_none_bound hway h2, h3, fun hv => ?_⟩
    obtain ⟨h5, h6, h7⟩ := h4 hv
    exact ⟨entryOf_none_bound hk hway h5, h6, hwf h7⟩

/-! ## Requests removed, an expansion void -/

/-- Requests may go and an expansion become void where no context that waits is of their slots (R60, R131, R132). -/
theorem ledger_voided {p : Request → Bool} {q : Expansion → Bool} {s t : State} (h : s.ledger)
    (hw : ∀ c ∈ s.contexts, c.state = .waitKey → ∀ cap, c.capture = some cap →
      (∀ r : Request, r.slot = cap.slot → p r = true) ∧ ∀ x : Expansion, x.slot = cap.slot → q x = false)
    (hc : t.contexts = s.contexts) (hk : t.cache = s.cache)
    (hx : t.expander = ({ s.expander with queue := s.expander.queue.filter p } : Expander).voidWhere q) : t.ledger := by
  obtain ⟨hcap, hplaced, hcounted, hqueued, hexp, hwait⟩ := h
  have hway := way_congr hk
  have hentry : ∀ k g, t.entryOf k g = s.entryOf k g := fun k g => by simp only [State.entryOf, hk]
  have hwf : ∀ {l k g}, s.waitsFor l k g → t.waitsFor l k g := fun hw => by
    simpa only [State.waitsFor, State.ctx?, hc] using hw
  have hqueue : t.expander.queue = s.expander.queue.filter p := by rw [hx]; rfl
  have hcur : ∀ y, t.expander.current = some y →
      ∃ x, s.expander.current = some x ∧ y = if q x then { x with void := true } else x := fun y hy => by
    rw [hx] at hy
    obtain ⟨x, hx, rfl⟩ := Option.map_eq_some_iff.1 hy
    exact ⟨x, hx, rfl⟩
  refine ⟨by simpa only [State.captureLaw, hc] using hcap,
    by simpa only [State.entriesPlaced, hway] using hplaced, ?_, ⟨?_, ?_⟩, ?_, ?_⟩
  · simpa only [State.pinsCounted, hway, hentry, hc] using hcounted
  · rw [hqueue]
    exact hqueued.1.sublist (List.filter_sublist.map _)
  · rw [hqueue]
    intro r hr
    obtain ⟨h1, h2, h3⟩ := hqueued.2 r (List.mem_of_mem_filter hr)
    exact ⟨h1, hwf h2, (hentry _ _).trans h3⟩
  · intro y hy
    obtain ⟨x, hx, rfl⟩ := hcur y hy
    obtain ⟨h1, h2, h3, h4⟩ := hexp x hx
    have hnil : q x = true → x.attached = [] := fun hq => by
      by_contra hn
      obtain ⟨m, hm⟩ := List.exists_mem_of_ne_nil _ hn
      cases hv : x.void with
      | true => exact hn (h3 hv)
      | false =>
        obtain ⟨c, h5, h6, h7⟩ := (h4 hv).2.2.2 m hm
        obtain ⟨cap, h8, h9, -⟩ := hasPair_iff.1 h7
        rw [(hw c (ctx?_mem h5) h6 cap h8).2 x h9.symm] at hq
        cases hq
    split
    · next hq => exact ⟨h1, (hway _ _).trans h2, fun _ => hnil hq, fun hv => by cases hv⟩
    · refine ⟨h1, (hway _ _).trans h2, h3, fun hv => ?_⟩
      obtain ⟨h5, h6, h7⟩ := h4 hv
      refine ⟨(hentry _ _).trans h5, fun r hr => ?_, hwf h7⟩
      rw [hqueue] at hr
      exact h6 r (List.mem_of_mem_filter hr)
  · rw [State.waitersAttached, hc]
    intro c hc hs
    obtain ⟨h1, cap, h2, h3⟩ := hwait c hc hs
    obtain ⟨hp, hq⟩ := hw c hc hs cap h2
    refine ⟨h1, cap, h2, ?_⟩
    rcases h3 with ⟨r, hr, h4, h5, h6⟩ | ⟨x, hx', h4, h5, h6, h7⟩
    · exact .inl ⟨r, by rw [hqueue]; exact List.mem_filter.2 ⟨hr, hp r h4⟩, h4, h5, h6⟩
    · refine .inr ⟨x, ?_, h4, h5, h6, h7⟩
      rw [hx, Expander.voidWhere]
      simp [hx', hq x h5]

/-! ## Admission (R79, R80, R121, R123) -/

/-- A record found is found among records added at the tail. -/
theorem ctx?_added {c d : Context} {m : CtxNo} {s t : State} (hc : t.contexts = s.contexts ++ [c])
    (h : s.ctx? m = some d) : t.ctx? m = some d := by
  unfold State.ctx? at h ⊢
  rw [hc, List.find?_append, h]
  rfl

/-- Who waits goes on waiting when a context is added. -/
theorem waitsFor_added {c : Context} {l : List CtxNo} {k : SlotNo} {g : Generation} {s t : State}
    (hc : t.contexts = s.contexts ++ [c]) (h : s.waitsFor l k g) : t.waitsFor l k g :=
  waitsFor_of_ctx h fun _ _ d hd hs => ⟨d, ctx?_added hc hd, hs, rfl⟩

/-- What an entry is after one context more has pinned its pair (R121). -/
def Entry.afterPin (c : Context) (e : Entry) : Option Entry :=
  some (if c.hasPair e.slot e.generation then { e with pins := e.pins + 1 } else e)

theorem afterPin_keepsPair (c : Context) : keepsPair (Entry.afterPin c) := by
  intro e d h
  unfold Entry.afterPin at h
  split at h <;> · cases h; exact ⟨rfl, rfl⟩

/-- A hit pins the entry of the context's pair and no other (R121). -/
theorem way_pin {s : State} (hp : s.entriesPlaced) {c : Context} {cap : Capture} (hc : c.capture = some cap) {w : Way}
    (hw : s.cache[setOf cap.slot cap.generation].find cap.slot cap.generation = some w) {t : State}
    (ht : t.cache = (s.putSet (setOf cap.slot cap.generation) (s.cache[setOf cap.slot cap.generation].pin w)).cache) :
    s.waysBound (Entry.afterPin c) t := by
  obtain ⟨e₀, he₀, hs₀, hg₀⟩ := find_some hw
  have hkeep : ∀ i v, (∀ e, s.way i v = some e → ¬ (e.slot = cap.slot ∧ e.generation = cap.generation)) →
      s.way i v = (s.way i v).bind (Entry.afterPin c) := by
    intro i v h
    cases he : s.way i v with
    | none => rfl
    | some e =>
      have : ¬ (cap.slot = e.slot ∧ cap.generation = e.generation) := fun hn => h e he ⟨hn.1.symm, hn.2.symm⟩
      simp [Entry.afterPin, hasPair_of_capture hc, this]
  intro i v
  rw [way_congr ht, way_putSet]
  by_cases hi : i = setOf cap.slot cap.generation
  · subst hi
    have hent : (s.cache[setOf cap.slot cap.generation].pin w).entry v =
        (s.cache[setOf cap.slot cap.generation].put w
          ((s.cache[setOf cap.slot cap.generation].entry w).map fun e => { e with pins := e.pins + 1 })).entry v := by
      cases v <;> rfl
    rw [if_pos rfl, hent, CacheSet.entry_put]
    by_cases hv : v = w
    · subst hv
      have he : s.way (setOf cap.slot cap.generation) v = some e₀ := he₀
      rw [if_pos rfl, he₀, he]
      simp [Entry.afterPin, hasPair_of_capture hc, hs₀, hg₀]
    · rw [if_neg hv]
      refine hkeep _ _ fun e he hpair => hv ?_
      exact (placed_unique hp he he₀ (hpair.1.trans hs₀.symm) (hpair.2.trans hg₀.symm)).2
  · rw [if_neg hi]
    exact hkeep _ _ fun e he hpair => hi ((hp.1 i v e he).trans (by rw [hpair.1, hpair.2]))

/-- A context that joins in STREAM keeps the ledger: with no capture it changes nothing, with one it pins its entry. -/
theorem ledger_joined {c : Context} {s t : State} (h : s.ledger) (hst : c.state = .stream)
    (hcp : c.capture.isSome = true ↔ c.passage = .cipher)
    (hentry : ∀ cap, c.capture = some cap → (s.entryOf cap.slot cap.generation).isSome = true)
    (hc : t.contexts = s.contexts ++ [c]) (hway : s.waysBound (Entry.afterPin c) t) (hx : t.expander = s.expander) :
    t.ledger := by
  obtain ⟨hcap, hplaced, hcounted, hqueued, hexp, hwait⟩ := h
  have hkeep := afterPin_keepsPair c
  have hmem : ∀ d ∈ t.contexts, d ∈ s.contexts ∨ d = c := fun d hd => by
    rw [hc] at hd; simpa using hd
  have hpin : ∀ k g, t.pinners k g = s.pinners k g + if c.hasPair k g then 1 else 0 := fun k g => by
    simp [State.pinners, hc, List.countP_append, Context.streaming, hst]
  refine ⟨fun d hd => ?_, placed_bound hkeep hplaced hway, ?_, ⟨by rw [hx]; exact hqueued.1, ?_⟩, ?_, fun d hd hs => ?_⟩
  · rcases hmem d hd with hd | rfl
    · exact hcap d hd
    · exact hcp
  · refine pinsCounted_bound hkeep hway (fun i w e d he hd => ?_) (fun i w e _ hd => by cases hd) fun d hd cap hs hcap' => ?_
    · rw [hpin]
      obtain ⟨h1, h2⟩ := hcounted.1 i w e he
      replace h1 : e.pins = s.pinners e.slot e.generation := h1
      unfold Entry.afterPin at hd
      split at hd
      · next hp => cases hd; exact ⟨by simp [hp, h1], fun _ => by simp⟩
      · next hp => cases hd; exact ⟨by simp [hp, h1], h2⟩
    · rcases hmem d hd with hd | rfl
      · exact hcounted.2 d hd cap hs hcap'
      · exact hentry cap hcap'
  · rw [hx]
    intro r hr
    obtain ⟨h1, h2, h3⟩ := hqueued.2 r hr
    exact ⟨h1, waitsFor_added hc h2, entryOf_none_bound hkeep hway h3⟩
  · rw [State.expansionPlaced, hx]
    intro x hx'
    obtain ⟨h1, h2, h3, h4⟩ := hexp x hx'
    refine ⟨h1, way_none_bound hway h2, h3, fun hv => ?_⟩
    obtain ⟨h5, h6, h7⟩ := h4 hv
    exact ⟨entryOf_none_bound hkeep hway h5, h6, waitsFor_added hc h7⟩
  · rcases hmem d hd with hd | rfl
    · rw [hx]; exact hwait d hd hs
    · rw [hst] at hs; cases hs

/-- A list of attached contexts with a new one at its end. -/
theorem waitsFor_attached {c : Context} {l : List CtxNo} {k : SlotNo} {g : Generation} {s t : State}
    (hn : s.ctx? c.number = none) (hc : t.contexts = s.contexts ++ [c]) (hst : c.state = .waitKey)
    (hp : c.hasPair k g = true) (h : s.waitsFor l k g) : t.waitsFor (l ++ [c.number]) k g := by
  have hnew : c.number ∉ l := fun hm => by
    obtain ⟨d, hd, -⟩ := h.2 _ hm
    rw [hn] at hd
    cases hd
  refine ⟨?_, fun m hm => ?_⟩
  · rw [List.nodup_append]
    exact ⟨h.1, List.nodup_singleton _, fun a ha b hb hab => hnew (by rw [← List.mem_singleton.1 hb, ← hab]; exact ha)⟩
  · rcases List.mem_append.1 hm with hm | hm
    · exact (waitsFor_added hc h).2 m hm
    · rw [List.mem_singleton.1 hm]
      refine ⟨c, ?_, hst, hp⟩
      unfold State.ctx? at hn ⊢
      rw [hc, List.find?_append, hn]
      simp

/-- A request with one context more attached, if it is of the pair. -/
def Request.joined (n : CtxNo) (k : SlotNo) (g : Generation) (r : Request) : Request :=
  if r.slot = k ∧ r.generation = g then { r with attached := r.attached ++ [n] } else r

theorem joined_cases (n : CtxNo) (k : SlotNo) (g : Generation) (r : Request) :
    (r.slot = k ∧ r.generation = g ∧ r.joined n k g = { r with attached := r.attached ++ [n] }) ∨
      (¬ (r.slot = k ∧ r.generation = g) ∧ r.joined n k g = r) := by
  unfold Request.joined
  split
  · next h => exact .inl ⟨h.1, h.2, rfl⟩
  · next h => exact .inr ⟨h, rfl⟩

/-- What attaching does: the context joins the expansion of its pair, or the request queued for it, or a new request (R123). -/
theorem attach_cases (n : CtxNo) (k : SlotNo) (g : Generation) (x : Expander) :
    (∃ e, x.current = some e ∧ e.slot = k ∧ e.generation = g ∧ e.void = false ∧
      x.attach n k g = { x with current := some { e with attached := e.attached ++ [n] } }) ∨
    ((∀ e, x.current = some e → ¬ (e.slot = k ∧ e.generation = g ∧ e.void = false)) ∧
      (∃ r ∈ x.queue, r.slot = k ∧ r.generation = g) ∧
      x.attach n k g = { x with queue := x.queue.map (Request.joined n k g) }) ∨
    ((∀ e, x.current = some e → ¬ (e.slot = k ∧ e.generation = g ∧ e.void = false)) ∧
      (∀ r ∈ x.queue, ¬ (r.slot = k ∧ r.generation = g)) ∧
      x.attach n k g = { x with queue := x.queue ++ [{ slot := k, generation := g, attached := [n] }] }) := by
  have hq : (x.queue.any (fun r => r.slot == k && r.generation == g) = true ∧ ∃ r ∈ x.queue, r.slot = k ∧ r.generation = g) ∨
      (x.queue.any (fun r => r.slot == k && r.generation == g) = false ∧
        ∀ r ∈ x.queue, ¬ (r.slot = k ∧ r.generation = g)) := by
    cases h : x.queue.any fun r => r.slot == k && r.generation == g with
    | true => exact .inl ⟨rfl, by simpa using h⟩
    | false => exact .inr ⟨rfl, by simpa using h⟩
  have hm : (fun r : Request => if r.slot = k ∧ r.generation = g then { r with attached := r.attached ++ [n] } else r) =
      Request.joined n k g := rfl
  unfold Expander.attach
  rw [hm]
  cases hx : x.current with
  | none =>
    rcases hq with ⟨h1, h2⟩ | ⟨h1, h2⟩
    · exact .inr (.inl ⟨fun e he => absurd he (by simp), h2, by simp [h1]⟩)
    · exact .inr (.inr ⟨fun e he => absurd he (by simp), h2, by simp [h1]⟩)
  | some e =>
    by_cases he : e.slot = k ∧ e.generation = g ∧ e.void = false
    · exact .inl ⟨e, rfl, he.1, he.2.1, he.2.2, by simp [he]⟩
    · have hne : ∀ e', some e = some e' → ¬ (e'.slot = k ∧ e'.generation = g ∧ e'.void = false) :=
        fun e' he' => Option.some.inj he' ▸ he
      rcases hq with ⟨h1, h2⟩ | ⟨h1, h2⟩
      · exact .inr (.inl ⟨hne, h2, by simp [h1, he]⟩)
      · exact .inr (.inr ⟨hne, h2, by simp [h1, he]⟩)

/-- A CIPHER context joins in WAITKEY, its pair without an entry (R80, R123). What becomes of queue and expansion is not said here. -/
structure State.Joins (c : Context) (cap : Capture) (s t : State) : Prop where
  fresh : s.ctx? c.number = none
  waits : c.state = .waitKey
  fetch : c.fetchProgress = .notIssued
  cipher : c.passage = .cipher
  captured : c.capture = some cap
  missed : s.entryOf cap.slot cap.generation = none
  contexts : t.contexts = s.contexts ++ [c]
  cache : t.cache = s.cache

theorem State.Joins.mem {c : Context} {cap : Capture} {s t : State} (h : s.Joins c cap t) {d : Context}
    (hd : d ∈ t.contexts) : d ∈ s.contexts ∨ d = c := by
  rw [h.contexts] at hd
  simpa using hd

theorem State.Joins.entryOf {c : Context} {cap : Capture} {s t : State} (h : s.Joins c cap t) (k : SlotNo)
    (g : Generation) : t.entryOf k g = s.entryOf k g := by
  simp only [State.entryOf, h.cache]

/-- Capture, entries and pins stand: the new context holds no pin. -/
theorem State.Joins.counted {c : Context} {cap : Capture} {s t : State} (h : s.Joins c cap t) (hl : s.ledger) :
    t.captureLaw ∧ t.entriesPlaced ∧ t.pinsCounted := by
  have hway := way_congr h.cache
  have hpin : ∀ k g, t.pinners k g = s.pinners k g := fun k g => by
    simp [State.pinners, h.contexts, List.countP_append, Context.streaming, h.waits]
  refine ⟨fun d hd => ?_, by simpa only [State.entriesPlaced, hway] using hl.placed, fun i w e he => ?_,
    fun d hd cap' hs hcap' => ?_⟩
  · rcases h.mem hd with hd | rfl
    · exact hl.captures d hd
    · simp [h.captured, h.cipher]
  · obtain ⟨h1, h2⟩ := hl.counted.1 i w e (hway i w ▸ he)
    exact ⟨h1.trans (hpin _ _).symm, h2⟩
  · rw [h.entryOf]
    rcases h.mem hd with hd | rfl
    · exact hl.counted.2 d hd cap' hs hcap'
    · rw [streaming_of_waitKey h.waits] at hs; cases hs

/-- The new context waits at the end of the list it is attached to. -/
theorem State.Joins.waitsFor {c : Context} {cap : Capture} {s t : State} (h : s.Joins c cap t) {l : List CtxNo}
    {k : SlotNo} {g : Generation} (hk : k = cap.slot) (hg : g = cap.generation) (hl : s.waitsFor l k g) :
    t.waitsFor (l ++ [c.number]) k g :=
  waitsFor_attached h.fresh h.contexts h.waits ((hasPair_of_capture h.captured).2 ⟨hk.symm, hg.symm⟩) hl

/-- A request that stood, and still stands as it was, keeps its law. -/
theorem State.Joins.request {c : Context} {cap : Capture} {s t : State} (h : s.Joins c cap t) (hl : s.ledger) {r : Request}
    (hr : r ∈ s.expander.queue) :
    r.attached ≠ [] ∧ t.waitsFor r.attached r.slot r.generation ∧ t.entryOf r.slot r.generation = none := by
  obtain ⟨h1, h2, h3⟩ := hl.queued.2 r hr
  exact ⟨h1, waitsFor_added h.contexts h2, (h.entryOf _ _).trans h3⟩

/-- An expansion that stood keeps its law where every queued request is of a pair queued before, or of another pair. -/
theorem State.Joins.expansion {c : Context} {cap : Capture} {s t : State} (h : s.Joins c cap t) (hl : s.ledger)
    (hcur : t.expander.current = s.expander.current)
    (hq : ∀ x, s.expander.current = some x → x.void = false → ∀ q ∈ t.expander.queue,
      (∃ r ∈ s.expander.queue, q.slot = r.slot ∧ q.generation = r.generation) ∨
      ¬ (q.slot = x.slot ∧ q.generation = x.generation)) : t.expansionPlaced := by
  intro x hx
  rw [hcur] at hx
  obtain ⟨h1, h2, h3, h4⟩ := hl.expanding x hx
  refine ⟨h1, (way_congr h.cache _ _).trans h2, h3, fun hv => ?_⟩
  obtain ⟨h5, h6, h7⟩ := h4 hv
  refine ⟨(h.entryOf _ _).trans h5, fun q hq' => ?_, waitsFor_added h.contexts h7⟩
  rcases hq x hx hv q hq' with ⟨r, hr, h8, h9⟩ | hne
  · rw [h8, h9]; exact h6 r hr
  · exact hne

/-- The context joins the expansion in progress. -/
theorem ledger_joins_expansion {c : Context} {cap : Capture} {x : Expansion} {s t : State} (h : s.ledger)
    (hj : s.Joins c cap t) (hcur : s.expander.current = some x) (hs : x.slot = cap.slot) (hg : x.generation = cap.generation)
    (hv : x.void = false)
    (hx : t.expander = { s.expander with current := some { x with attached := x.attached ++ [c.number] } }) : t.ledger := by
  obtain ⟨hcap, hplaced, hcounted⟩ := hj.counted h
  refine ⟨hcap, hplaced, hcounted, ⟨by rw [hx]; exact h.queued.1, by rw [hx]; exact fun r hr => hj.request h hr⟩, ?_, ?_⟩
  · rw [State.expansionPlaced, hx]
    rintro y ⟨⟩
    obtain ⟨h1, h2, -, h4⟩ := h.expanding x hcur
    obtain ⟨h5, h6, h7⟩ := h4 hv
    refine ⟨h1, (way_congr hj.cache _ _).trans h2, fun hv' => absurd (hv.symm.trans hv') (by decide), fun _ => ?_⟩
    exact ⟨(hj.entryOf _ _).trans h5, h6, hj.waitsFor hs hg h7⟩
  · rw [State.waitersAttached, hx]
    intro d hd hst
    rcases hj.mem hd with hd | rfl
    · obtain ⟨h1, cap', h2, h3⟩ := h.waiting d hd hst
      refine ⟨h1, cap', h2, h3.imp id ?_⟩
      rintro ⟨y, hy, h4, h5, h6, h7⟩
      rw [hcur] at hy
      cases hy
      exact ⟨_, rfl, h4, h5, h6, List.mem_append_left _ h7⟩
    · exact ⟨hj.fetch, cap, hj.captured, .inr ⟨_, rfl, hv, hs, hg, by simp⟩⟩

/-- The context joins the request queued for its pair. -/
theorem ledger_joins_request {c : Context} {cap : Capture} {s t : State} (h : s.ledger) (hj : s.Joins c cap t)
    (hr : ∃ r ∈ s.expander.queue, r.slot = cap.slot ∧ r.generation = cap.generation)
    (hx : t.expander =
      { s.expander with queue := s.expander.queue.map (Request.joined c.number cap.slot cap.generation) }) : t.ledger := by
  obtain ⟨hcap, hplaced, hcounted⟩ := hj.counted h
  have hpair : ∀ r : Request, (r.joined c.number cap.slot cap.generation).slot = r.slot ∧
      (r.joined c.number cap.slot cap.generation).generation = r.generation := fun r => by
    rcases joined_cases c.number cap.slot cap.generation r with ⟨-, -, hq⟩ | ⟨-, hq⟩ <;> rw [hq] <;> exact ⟨rfl, rfl⟩
  refine ⟨hcap, hplaced, hcounted, ⟨?_, ?_⟩, hj.expansion h (by rw [hx]) ?_, ?_⟩
  · rw [hx, List.map_map, List.map_congr_left (g := fun r => (r.slot, r.generation))
      fun r _ => Prod.ext (hpair r).1 (hpair r).2]
    exact h.queued.1
  · rw [hx]
    intro q hq
    obtain ⟨r, hr, rfl⟩ := List.mem_map.1 hq
    obtain ⟨h1, h2, h3⟩ := hj.request h hr
    rcases joined_cases c.number cap.slot cap.generation r with ⟨hs, hg, hq⟩ | ⟨-, hq⟩ <;> rw [hq]
    · exact ⟨by simp, hj.waitsFor hs hg (h.queued.2 r hr).2.1, h3⟩
    · exact ⟨h1, h2, h3⟩
  · rw [hx]
    intro x _ _ q hq
    obtain ⟨r, hr, rfl⟩ := List.mem_map.1 hq
    exact .inl ⟨r, hr, hpair r⟩
  · rw [State.waitersAttached, hx]
    have hmem : ∀ r ∈ s.expander.queue, r.joined c.number cap.slot cap.generation ∈
        s.expander.queue.map (Request.joined c.number cap.slot cap.generation) := fun r hr => List.mem_map_of_mem hr
    intro d hd hst
    rcases hj.mem hd with hd | rfl
    · obtain ⟨h1, cap', h2, h3⟩ := h.waiting d hd hst
      refine ⟨h1, cap', h2, h3.imp ?_ id⟩
      rintro ⟨r, hr, h4, h5, h6⟩
      refine ⟨_, hmem r hr, (hpair r).1.trans h4, (hpair r).2.trans h5, ?_⟩
      rcases joined_cases c.number cap.slot cap.generation r with ⟨-, -, hq⟩ | ⟨-, hq⟩ <;> rw [hq]
      · exact List.mem_append_left _ h6
      · exact h6
    · obtain ⟨r, hr, h4, h5⟩ := hr
      refine ⟨hj.fetch, cap, hj.captured, .inl ⟨_, hmem r hr, (hpair r).1.trans h4, (hpair r).2.trans h5, ?_⟩⟩
      rcases joined_cases d.number cap.slot cap.generation r with ⟨-, -, hq⟩ | ⟨hne, -⟩
      · rw [hq]; simp
      · exact absurd ⟨h4, h5⟩ hne

/-- The context is attached to a new request at the tail. -/
theorem ledger_joins_new {c : Context} {cap : Capture} {s t : State} (h : s.ledger) (hj : s.Joins c cap t)
    (hr : ∀ r ∈ s.expander.queue, ¬ (r.slot = cap.slot ∧ r.generation = cap.generation))
    (hcur : ∀ x, s.expander.current = some x → ¬ (x.slot = cap.slot ∧ x.generation = cap.generation ∧ x.void = false))
    (hx : t.expander =
      { s.expander with
        queue := s.expander.queue ++ [{ slot := cap.slot, generation := cap.generation, attached := [c.number] }] }) :
    t.ledger := by
  obtain ⟨hcap, hplaced, hcounted⟩ := hj.counted h
  have hmem : ∀ q ∈ t.expander.queue, q ∈ s.expander.queue ∨
      q = { slot := cap.slot, generation := cap.generation, attached := [c.number] } := fun q hq => by
    rw [hx] at hq; simpa using hq
  refine ⟨hcap, hplaced, hcounted, ⟨?_, fun q hq => ?_⟩, hj.expansion h (by rw [hx]) fun x hx' hv q hq => ?_, ?_⟩
  · rw [hx, List.map_append, List.nodup_append]
    refine ⟨h.queued.1, List.nodup_singleton _, ?_⟩
    rintro a ha b hb rfl
    obtain ⟨r, hr', hra⟩ := List.mem_map.1 ha
    rw [List.map_singleton, List.mem_singleton] at hb
    exact hr r hr' (Prod.mk.inj (hra.trans hb))
  · rcases hmem q hq with hq | rfl
    · exact hj.request h hq
    · exact ⟨by simp, hj.waitsFor (l := []) rfl rfl ⟨List.nodup_nil, fun m hm => by cases hm⟩,
        (hj.entryOf _ _).trans hj.missed⟩
  · rcases hmem q hq with hq | rfl
    · exact .inl ⟨q, hq, rfl, rfl⟩
    · exact .inr fun hp => hcur x hx' ⟨hp.1.symm, hp.2.symm, hv⟩
  · rw [State.waitersAttached, hx]
    intro d hd hst
    rcases hj.mem hd with hd | rfl
    · obtain ⟨h1, cap', h2, h3⟩ := h.waiting d hd hst
      exact ⟨h1, cap', h2, h3.imp (fun ⟨r, hr', h4⟩ => ⟨r, List.mem_append_left _ hr', h4⟩) id⟩
    · exact ⟨hj.fetch, cap, hj.captured,
        .inl ⟨_, List.mem_append_right _ (List.mem_singleton_self _), rfl, rfl, by simp⟩⟩

/-- A context that joins in WAITKEY, attached, keeps the ledger (R80, R123). -/
theorem ledger_attached {c : Context} {cap : Capture} {s t : State} (h : s.ledger) (hj : s.Joins c cap t)
    (hx : t.expander = s.expander.attach c.number cap.slot cap.generation) : t.ledger := by
  rcases attach_cases c.number cap.slot cap.generation s.expander with
    ⟨x, hcur, hxs, hxg, hxv, hatt⟩ | ⟨-, hr, hatt⟩ | ⟨hcur, hr, hatt⟩
  · exact ledger_joins_expansion h hj hcur hxs hxg hxv (hx.trans hatt)
  · exact ledger_joins_request h hj hr (hx.trans hatt)
  · exact ledger_joins_new h hj hr hcur (hx.trans hatt)

end Sys2Proof.Machine
end

