-- ==== Sys2Proof/Proofs/Fills.lean ====
section
/-! SUPPORT. The ledger when an expansion starts, fills its way, or is discarded (R124 to R127). -/

namespace Sys2Proof.Machine

/-! ## The fill of an expansion (R127) -/

/-- What the fill writes into the target way. -/
def Expansion.entry (x : Expansion) : Entry :=
  { slot := x.slot, generation := x.generation, schedule := x.keys.schedule, pins := x.attached.length, flush := false }

/-- An expansion that is not void fills its way, and the contexts attached enter STREAM (R127). -/
structure State.Fills (x : Expansion) (s t : State) : Prop where
  current : s.expander.current = some x
  valid : x.void = false
  contexts : t.contexts = s.contexts.map (Context.released x.attached)
  ways : ∀ i w, t.way i w = if i = x.set ∧ w = x.way then some x.entry else s.way i w
  expander : t.expander = { s.expander with current := none }

/-- The release of a context: one attached that waits enters STREAM, any other stands. -/
theorem released_cases (l : List CtxNo) (c : Context) :
    (c.number ∈ l ∧ c.state = .waitKey ∧ c.released l = { c with state := .stream }) ∨
      (¬ (c.number ∈ l ∧ c.state = .waitKey) ∧ c.released l = c) := by
  unfold Context.released
  split
  · next h => exact .inl ⟨h.1, h.2, rfl⟩
  · next h => exact .inr ⟨h, rfl⟩

/-- A release changes the state alone. -/
theorem released_follows (l : List CtxNo) (c : Context) : c.Follows (c.released l) := by
  rcases released_cases l c with ⟨-, hs, h⟩ | ⟨-, h⟩ <;> rw [h]
  · exact ⟨rfl, rfl, rfl, rfl, rfl, id, fun _ => live_of_waitKey hs⟩
  · exact .refl c

/-- Contexts that count in one list as often as numbers stand in another. -/
theorem countP_number_mem {s : State} (hs : s.contextLaws) {l : List CtxNo} (hl : l.Nodup)
    (hc : ∀ n ∈ l, ∃ c, s.ctx? n = some c) : s.contexts.countP (fun c => decide (c.number ∈ l)) = l.length := by
  have hp : ((s.contexts.map fun c => c.number).filter (fun n => decide (n ∈ l))).Perm l := by
    refine (List.perm_ext_iff_of_nodup (hs.2.1.filter _) hl).2 fun n => ?_
    simp only [List.mem_filter, List.mem_map, decide_eq_true_eq]
    refine ⟨fun h => h.2, fun h => ⟨?_, h⟩⟩
    obtain ⟨c, hc⟩ := hc n h
    exact ⟨c, ctx?_mem hc, ctx?_number hc⟩
  rw [← hp.length_eq, ← List.countP_eq_length_filter, List.countP_map]
  rfl

section
variable {x : Expansion} {s t : State}

/-- What the ledger says of an expansion that is not void. -/
theorem ledger_valid (h : s.ledger) (hc : s.expander.current = some x) (hv : x.void = false) :
    x.set = setOf x.slot x.generation ∧ s.entryOf x.slot x.generation = none ∧
      (∀ r ∈ s.expander.queue, ¬ (r.slot = x.slot ∧ r.generation = x.generation)) ∧
      s.waitsFor x.attached x.slot x.generation := by
  obtain ⟨h1, -, -, h4⟩ := h.expanding x hc
  exact ⟨h1, h4 hv⟩

/-- A context attached to the expansion waits and has its pair. -/
theorem State.Fills.attached (hs : s.contextLaws) (h : s.ledger) (hf : s.Fills x t) {c : Context} (hc : c ∈ s.contexts)
    (hn : c.number ∈ x.attached) : c.state = .waitKey ∧ c.hasPair x.slot x.generation = true := by
  obtain ⟨-, -, -, -, hw⟩ := ledger_valid h hf.current hf.valid
  obtain ⟨d, hd, h1, h2⟩ := hw c.number hn
  rw [eq_of_mem_of_number hs.2.1 hc hd]
  exact ⟨h1, h2⟩

/-- After the fill the attached contexts stream besides those that did. -/
theorem State.Fills.streaming (hs : s.contextLaws) (h : s.ledger) (hf : s.Fills x t) {c : Context} (hc : c ∈ s.contexts) :
    (c.released x.attached).streaming = (c.streaming || decide (c.number ∈ x.attached)) := by
  rcases released_cases x.attached c with ⟨hn, -, hr⟩ | ⟨hn, hr⟩ <;> rw [hr]
  · simp [Context.streaming, hn]
  · have : c.number ∉ x.attached := fun hm => hn ⟨hm, (hf.attached hs h hc hm).1⟩
    simp [this]

/-- The pinning contexts of another pair are those before. -/
theorem State.Fills.pinners_ne (hs : s.contextLaws) (h : s.ledger) (hf : s.Fills x t) {k : SlotNo} {g : Generation}
    (hp : ¬ (k = x.slot ∧ g = x.generation)) : t.pinners k g = s.pinners k g := by
  unfold State.pinners
  rw [hf.contexts, List.countP_map]
  refine List.countP_congr fun c hc => ?_
  simp only [Function.comp, hf.streaming hs h hc, (released_follows x.attached c).hasPair]
  by_cases hn : c.number ∈ x.attached
  · obtain ⟨cap, hcap, h1, h2⟩ := hasPair_iff.1 (hf.attached hs h hc hn).2
    have : c.hasPair k g = false := by
      rw [← Bool.not_eq_true, hasPair_of_capture hcap]
      exact fun hk => hp ⟨hk.1.symm.trans h1, hk.2.symm.trans h2⟩
    simp [this]
  · simp [hn]

/-- The pinning contexts of the expansion's pair are those attached: before the fill there was none, for want of an entry. -/
theorem State.Fills.pinners_self (hs : s.contextLaws) (h : s.ledger) (hf : s.Fills x t) :
    t.pinners x.slot x.generation = x.attached.length := by
  obtain ⟨-, hnone, -, hw⟩ := ledger_valid h hf.current hf.valid
  rw [← countP_number_mem hs hw.1 fun n hn => (hw.2 n hn).imp fun _ hc => hc.1, State.pinners, hf.contexts,
    List.countP_map]
  refine List.countP_congr fun c hc => ?_
  simp only [Function.comp, hf.streaming hs h hc, (released_follows x.attached c).hasPair]
  by_cases hn : c.number ∈ x.attached
  · simp [hn, (hf.attached hs h hc hn).2]
  · have : ¬ (c.streaming = true ∧ c.hasPair x.slot x.generation = true) := fun ⟨h1, h2⟩ => by
      obtain ⟨cap, hcap, h3, h4⟩ := hasPair_iff.1 h2
      have := h.counted.2 c hc cap h1 hcap
      rw [h3, h4, hnone] at this
      cases this
    simpa [hn] using this

/-- An entry after the fill is the one filled in, or one that stood. -/
theorem State.Fills.way_cases (hf : s.Fills x t) {i : Fin 4} {w : Way} {e : Entry} (he : t.way i w = some e) :
    (i = x.set ∧ w = x.way ∧ e = x.entry) ∨ s.way i w = some e := by
  rw [hf.ways] at he
  split at he
  · next hi => exact .inl ⟨hi.1, hi.2, (Option.some.inj he).symm⟩
  · exact .inr he

/-- No entry that stood is of the expansion's pair. -/
theorem State.Fills.other (h : s.ledger) (hf : s.Fills x t) {i : Fin 4} {w : Way} {e : Entry} (he : s.way i w = some e) :
    ¬ (e.slot = x.slot ∧ e.generation = x.generation) := fun hp => by
  obtain ⟨-, hnone, -⟩ := ledger_valid h hf.current hf.valid
  refine entryOf_none_iff.1 hnone w e ?_ hp
  rw [← hp.1, ← hp.2, ← h.placed.1 i w e he]
  exact he

/-- A pair of another request or context keeps its entry, or its lack of one. -/
theorem State.Fills.entryOf_none (hf : s.Fills x t) {k : SlotNo} {g : Generation}
    (hp : ¬ (k = x.slot ∧ g = x.generation)) (hn : s.entryOf k g = none) : t.entryOf k g = none := by
  rw [entryOf_none_iff] at *
  intro w e he hpair
  rcases hf.way_cases he with ⟨-, -, rfl⟩ | he
  · exact hp ⟨hpair.1.symm, hpair.2.symm⟩
  · exact hn w e he hpair

/-- An entry that stood stands: the way filled was not valid. -/
theorem State.Fills.way_kept (h : s.ledger) (hf : s.Fills x t) {i : Fin 4} {w : Way} {e : Entry} (he : s.way i w = some e) :
    t.way i w = some e := by
  rw [hf.ways, if_neg, he]
  rintro ⟨rfl, rfl⟩
  obtain ⟨-, h2, -⟩ := h.expanding x hf.current
  rw [h2] at he
  cases he

/-- The fill keeps the ledger (R127). -/
theorem ledger_fills (hs : s.contextLaws) (h : s.ledger) (hf : s.Fills x t) : t.ledger := by
  obtain ⟨hset, hnone, hqne, hw⟩ := ledger_valid h hf.current hf.valid
  have hmem : ∀ d ∈ t.contexts, ∃ c ∈ s.contexts, d = c.released x.attached := fun d hd => by
    rw [hf.contexts] at hd
    obtain ⟨c, hc, rfl⟩ := List.mem_map.1 hd
    exact ⟨c, hc, rfl⟩
  have hq : t.expander.queue = s.expander.queue := by rw [hf.expander]
  refine ⟨captureLaw_of_origin h.captures fun d hd => ?_, ⟨fun i w e he => ?_, fun i e d he hd hp => ?_⟩,
    ⟨fun i w e he => ?_, fun d hd cap hst hcap => ?_⟩, ⟨by rw [hq]; exact h.queued.1, fun r hr => ?_⟩,
    fun y hy => (by rw [hf.expander] at hy; cases hy), fun d hd hst => ?_⟩
  · obtain ⟨c, hc, rfl⟩ := hmem d hd
    exact ⟨c, hc, released_follows _ c⟩
  · rcases hf.way_cases he with ⟨rfl, -, rfl⟩ | he
    · exact hset
    · exact h.placed.1 i w e he
  · rcases hf.way_cases he with ⟨-, hw0, rfl⟩ | he <;> rcases hf.way_cases hd with ⟨-, hw1, rfl⟩ | hd
    · rw [← hw0] at hw1; cases hw1
    · exact hf.other h hd ⟨hp.1.symm, hp.2.symm⟩
    · exact hf.other h he hp
    · exact h.placed.2 i e d he hd hp
  · rcases hf.way_cases he with ⟨-, -, rfl⟩ | he
    · exact ⟨(hf.pinners_self hs h).symm, fun hfl => by cases hfl⟩
    · obtain ⟨h1, h2⟩ := h.counted.1 i w e he
      exact ⟨h1.trans (hf.pinners_ne hs h (hf.other h he)).symm, h2⟩
  · obtain ⟨c, hc, rfl⟩ := hmem d hd
    rw [(released_follows _ c).capture] at hcap
    rw [hf.streaming hs h hc, Bool.or_eq_true, decide_eq_true_eq] at hst
    rw [entryOf_isSome_iff]
    rcases hst with hst | hn
    · obtain ⟨w, e, he, hp⟩ := entryOf_isSome_iff.1 (h.counted.2 c hc cap hst hcap)
      exact ⟨w, e, hf.way_kept h he, hp⟩
    · obtain ⟨h1, h2⟩ := (hasPair_of_capture hcap).1 (hf.attached hs h hc hn).2
      refine ⟨x.way, x.entry, ?_, h1.symm, h2.symm⟩
      rw [hf.ways, h1, h2, if_pos ⟨hset.symm, rfl⟩]
  · rw [hq] at hr
    obtain ⟨h1, h2, h3⟩ := h.queued.2 r hr
    refine ⟨h1, waitsFor_of_ctx h2 fun n hn c hc hst => ⟨c, ?_, hst, rfl⟩, hf.entryOf_none (hqne r hr) h3⟩
    rw [ctx?_map (fun c _ => (released_follows _ c).number) hf.contexts, hc, Option.map_some]
    rcases released_cases x.attached c with ⟨hx, -, -⟩ | ⟨-, hr'⟩
    · obtain ⟨d, hd, -, hp⟩ := h2.2 n hn
      rw [hc] at hd
      cases hd
      obtain ⟨cap, hcap, h4, h5⟩ := hasPair_iff.1 hp
      obtain ⟨h6, h7⟩ := (hasPair_of_capture hcap).1 (hf.attached hs h (ctx?_mem hc) hx).2
      exact absurd ⟨h4.symm.trans h6, h5.symm.trans h7⟩ (hqne r hr)
    · rw [hr']
  · obtain ⟨c, hc, rfl⟩ := hmem d hd
    rcases released_cases x.attached c with ⟨-, -, hr⟩ | ⟨hn, hr⟩ <;> rw [hr] at hst ⊢
    · cases hst
    · obtain ⟨h1, cap, h2, h3⟩ := h.waiting c hc hst
      refine ⟨h1, cap, h2, .inl ?_⟩
      rw [hq]
      rcases h3 with h3 | ⟨y, hy, -, -, -, h7⟩
      · exact h3
      · rw [hf.current] at hy
        cases hy
        exact absurd ⟨h7, hst⟩ hn

end

/-- A void expansion discarded keeps the ledger: no context is attached to it (R126, R127). -/
theorem ledger_discarded {x : Expansion} {s t : State} (h : s.ledger) (hcur : s.expander.current = some x)
    (hv : x.void = true) (hc : t.contexts = s.contexts) (hk : t.cache = s.cache)
    (hx : t.expander = { s.expander with current := none }) : t.ledger := by
  have hway := way_congr hk
  have hentry : ∀ k g, t.entryOf k g = s.entryOf k g := fun k g => by simp only [State.entryOf, hk]
  refine ⟨by simpa only [State.captureLaw, hc] using h.captures, by simpa only [State.entriesPlaced, hway] using h.placed,
    by simpa only [State.pinsCounted, hway, hentry, hc] using h.counted, ?_, fun y hy => (by rw [hx] at hy; cases hy), ?_⟩
  · simpa only [State.queueLaw, State.waitsFor, State.ctx?, hentry, hx, hc] using h.queued
  · rw [State.waitersAttached, hc, hx]
    intro c hc hs
    obtain ⟨h1, cap, h2, h3⟩ := h.waiting c hc hs
    refine ⟨h1, cap, h2, .inl ?_⟩
    rcases h3 with h3 | ⟨y, hy, h4, -⟩
    · exact h3
    · rw [hcur] at hy
      cases hy
      rw [hv] at h4
      cases h4

/-! ## The start of an expansion (R124, R125) -/

/-- What is left of an entry when the entry of a pair is invalidated. -/
def Entry.without (k : SlotNo) (g : Generation) (e : Entry) : Option Entry :=
  if e.slot = k ∧ e.generation = g then none else some e

/-- A way invalidated: its entry goes, and the others stand. -/
theorem way_invalidated {i : Fin 4} {w : Way} {s t : State} (hp : s.entriesPlaced)
    (h : ∀ j v, t.way j v = if j = i ∧ v = w then none else s.way j v) :
    ∃ φ, keepsPair φ ∧ s.waysBound φ t ∧ (∀ e d, φ e = some d → d = e) ∧
      ∀ j v e, s.way j v = some e → φ e = none → j = i ∧ v = w := by
  cases he : s.way i w with
  | none =>
    refine ⟨some, fun e d h => by cases h; exact ⟨rfl, rfl⟩, fun j v => ?_, fun e d h => (Option.some.inj h).symm,
      fun j v e _ h => by cases h⟩
    rw [h]
    split
    · next hj => rw [hj.1, hj.2, he]; rfl
    · cases s.way j v <;> rfl
  | some e₀ =>
    have hself : ∀ e d, Entry.without e₀.slot e₀.generation e = some d → d = e := fun e d hd => by
      unfold Entry.without at hd
      split at hd
      · cases hd
      · exact (Option.some.inj hd).symm
    have hgone : ∀ j v e, s.way j v = some e → Entry.without e₀.slot e₀.generation e = none → j = i ∧ v = w :=
      fun j v e hj hd => by
        unfold Entry.without at hd
        split at hd
        · next hpair => exact placed_unique hp hj he hpair.1 hpair.2
        · cases hd
    refine ⟨Entry.without e₀.slot e₀.generation, fun e d hd => by rw [hself e d hd]; exact ⟨rfl, rfl⟩, fun j v => ?_, hself, hgone⟩
    rw [h]
    split
    · next hj => rw [hj.1, hj.2, he]; simp [Entry.without]
    · next hj =>
      cases hv : s.way j v with
      | none => rfl
      | some e =>
        have : Entry.without e₀.slot e₀.generation e ≠ none := fun hd => hj (hgone j v e hv hd)
        obtain ⟨d, hd⟩ := Option.ne_none_iff_exists'.1 this
        rw [Option.bind_some, hd, hself e d hd]

/-- An expansion of a queued request starts, its target way not valid. -/
structure State.Starts (r : Request) (x : Expansion) (s t : State) : Prop where
  queued : r ∈ s.expander.queue
  idle : s.expander.current = none
  pair : x.slot = r.slot ∧ x.generation = r.generation
  attached : x.attached = r.attached
  valid : x.void = false
  set : x.set = setOf x.slot x.generation
  target : s.way x.set x.way = none
  contexts : t.contexts = s.contexts
  cache : t.cache = s.cache
  expander : t.expander = { queue := s.expander.queue.erase r, current := some x }

/-- The request leaves the queue for the expansion, and the ledger stands (R124, R125). -/
theorem ledger_starts {r : Request} {x : Expansion} {s t : State} (h : s.ledger) (hs : s.Starts r x t) : t.ledger := by
  have hway := way_congr hs.cache
  have hentry : ∀ k g, t.entryOf k g = s.entryOf k g := fun k g => by simp only [State.entryOf, hs.cache]
  have hwf : ∀ {l k g}, s.waitsFor l k g → t.waitsFor l k g := fun hw => by
    simpa only [State.waitsFor, State.ctx?, hs.contexts] using hw
  have hnodup := h.queued.1
  obtain ⟨-, hw, hnone⟩ := h.queued.2 r hs.queued
  have hpairs := (List.perm_cons_erase hs.queued).map fun r => (r.slot, r.generation)
  rw [hpairs.nodup_iff, List.map_cons, List.nodup_cons] at hnodup
  refine ⟨by simpa only [State.captureLaw, hs.contexts] using h.captures,
    by simpa only [State.entriesPlaced, hway] using h.placed,
    by simpa only [State.pinsCounted, hway, hentry, hs.contexts] using h.counted, ⟨?_, ?_⟩, ?_, ?_⟩
  · rw [hs.expander]
    exact hnodup.2
  · rw [hs.expander]
    intro q hq
    obtain ⟨h1, h2, h3⟩ := h.queued.2 q (List.mem_of_mem_erase hq)
    exact ⟨h1, hwf h2, (hentry _ _).trans h3⟩
  · rw [State.expansionPlaced, hs.expander]
    rintro y ⟨⟩
    refine ⟨hs.set, (hway _ _).trans hs.target, fun hv => (by rw [hs.valid] at hv; cases hv), fun _ => ?_⟩
    rw [hs.pair.1, hs.pair.2, hs.attached, hentry]
    refine ⟨hnone, fun q hq hp => hnodup.1 (List.mem_map.2 ⟨q, hq, ?_⟩), hwf hw⟩
    rw [hp.1, hp.2]
  · rw [State.waitersAttached, hs.contexts, hs.expander]
    intro c hc hst
    obtain ⟨h1, cap, h2, h3⟩ := h.waiting c hc hst
    refine ⟨h1, cap, h2, ?_⟩
    rcases h3 with ⟨q, hq, h4, h5, h6⟩ | ⟨y, hy, -⟩
    · by_cases hqr : q = r
      · refine .inr ⟨x, rfl, hs.valid, ?_, ?_, ?_⟩
        · rw [hs.pair.1, ← hqr, h4]
        · rw [hs.pair.2, ← hqr, h5]
        · rw [hs.attached, ← hqr]; exact h6
      · exact .inl ⟨q, (List.mem_erase_of_ne hqr).2 hq, h4, h5, h6⟩
    · rw [hs.idle] at hy; cases hy

/-- A victim way has no pins (R125). -/
theorem victim_unpinned {i : Fin 4} {w : Way} {s : State} (h : s.cache[i].victim = some w) {e : Entry}
    (he : s.way i w = some e) : e.pins = 0 := by
  rcases victim_victimWay h with ⟨h1, rfl⟩ | ⟨-, h1, rfl⟩ | ⟨d, -, -, -, h1, -, h2, -⟩
  · rw [h1] at he; cases he
  · rw [h1] at he; cases he
  · rw [h1] at he; cases he; exact h2

end Sys2Proof.Machine
end

