-- ==== Sys2Proof/Proofs/Changes.lean ====
section
/-! SUPPORT. What the shared operations do to contexts, as chains of five kinds of change (R73, R82, R85, R90, R107). -/

namespace Sys2Proof.Machine

/-! ## The kinds of change -/

/-- Two states with the same tables, device state, contexts, cache and expander: nothing has changed that the laws of tables,
contexts and cache read. -/
structure State.sameBooks (s t : State) : Prop where
  windows : t.decoder.windows = s.decoder.windows
  ranges : t.ranges = s.ranges
  slots : t.slots = s.slots
  device : t.contain.device = s.contain.device
  contexts : t.contexts = s.contexts
  cache : t.cache = s.cache
  expander : t.expander = s.expander

/-- One change of what belongs to contexts: none that a law reads, a record within its phase, a record that leaves WAITKEY, STREAM
and HOLD with its work discarded, one that leaves STREAM or HOLD with its pin, and a record freed. -/
inductive Change : State → State → Prop
  | idle {s t : State} (h : s.sameBooks t) : Change s t
  | touch {s : State} (n : CtxNo) (f : Context → Context) (h : s.contextLaws → ∀ c, s.ctx? n = some c → c.Touched (f c)) :
      Change s (s.modCtx n f)
  | withdraw {s : State} (n : CtxNo) (c : Context) (f : Context → Context) (hc : s.ctx? n = some c) (hf : c.Left (f c)) :
      Change s (((s.releasePin c).discardWork n).modCtx n f)
  | close {s : State} (n : CtxNo) (c : Context) (f : Context → Context) (hc : s.ctx? n = some c) (hw : c.state ≠ .waitKey)
      (hf : c.Left (f c)) : Change s ((s.releasePin c).modCtx n f)
  | free {s : State} (n : CtxNo) (c : Context) (hc : s.ctx? n = some c)
      (hw : c.state = .waitKey → c.fetchProgress ≠ .notIssued) : Change s ((s.releasePin c).dropCtx n)

/-- A chain of changes. -/
abbrev Changes : State → State → Prop := Relation.ReflTransGen Change

/-! ## What a change keeps -/

/-- No change touches a table or the device state. -/
theorem Change.tables {s t : State} (h : Change s t) :
    t.decoder.windows = s.decoder.windows ∧ t.ranges = s.ranges ∧ t.slots = s.slots ∧
      t.contain.device = s.contain.device := by
  cases h with
  | idle h => exact ⟨h.windows, h.ranges, h.slots, h.device⟩
  | touch n f _ => simp
  | withdraw n c f _ _ => simp
  | close n c f _ _ _ => simp
  | free n c _ _ => simp

/-- What a change makes of the list: each record follows its own, and some may go. -/
theorem Change.contexts {s t : State} (hs : s.contextLaws) (h : Change s t) :
    t.contextLaws ∧ ∀ d ∈ t.contexts, ∃ c ∈ s.contexts, c.Follows d := by
  have hmap : ∀ {u : State} {n : CtxNo} {f : Context → Context}, u.contexts = (s.modCtx n f).contexts →
      (∀ c, s.ctx? n = some c → c.Follows (f c)) → u.contextLaws ∧ ∀ d ∈ u.contexts, ∃ c ∈ s.contexts, c.Follows d := by
    intro u n f hu hf
    have hg := modCtx_map_follows (R := Context.Follows) .refl hs.2.1 hf
    refine ⟨contextLaws_map hs hg hu, fun d hd => ?_⟩
    rw [hu] at hd
    obtain ⟨c, hc, rfl⟩ := List.mem_map.1 hd
    exact ⟨c, hc, hg c hc⟩
  cases h with
  | idle h => exact ⟨(contextLaws_congr h.contexts).2 hs, fun d hd => ⟨d, h.contexts ▸ hd, .refl d⟩⟩
  | touch n f h => exact hmap rfl fun c hc => (h hs c hc).toFollows
  | withdraw n c f hc hf => exact hmap (n := n) (f := f) (by simp) fun d hd => by rw [hc] at hd; cases hd; exact hf.toFollows
  | close n c f hc _ hf => exact hmap (n := n) (f := f) (by simp) fun d hd => by rw [hc] at hd; cases hd; exact hf.toFollows
  | free n c _ _ =>
    have hsub : ((s.releasePin c).dropCtx n).contexts.Sublist s.contexts := by simp
    exact ⟨contextLaws_sublist hs hsub, fun d hd => ⟨d, hsub.subset hd, .refl d⟩⟩

/-- A change that is not idle nor within a phase is a leave, where the ledger holds. -/
theorem Change.leaves {s t : State} (hl : s.ledger) (h : Change s t) :
    s.sameBooks t ∨ (∃ n f, t = s.modCtx n f ∧ (s.contextLaws → ∀ c, s.ctx? n = some c → c.Touched (f c))) ∨ ∃ n c, s.Leaves n c t := by
  cases h with
  | idle h => exact .inl h
  | touch n f h => exact .inr (.inl ⟨n, f, rfl, h⟩)
  | withdraw n c f hc hf => exact .inr (.inr ⟨n, c, hc, .inr ⟨f, hf, by simp⟩, rfl, by simp⟩)
  | close n c f hc hw hf =>
    exact .inr (.inr ⟨n, c, hc, .inr ⟨f, hf, by simp⟩, rfl, by simp [detach_of_not_waiting hl hc hw]⟩)
  | free n c hc hw =>
    have hw' : c.state ≠ .waitKey := fun hs => hw hs (hl.waiting c (ctx?_mem hc) hs).1
    exact .inr (.inr ⟨n, c, hc, .inl (by simp), rfl, by simp [detach_of_not_waiting hl hc hw']⟩)

/-- A change keeps the ledger. -/
theorem Change.ledger {s t : State} (hs : s.contextLaws) (hl : s.ledger) (h : Change s t) : t.ledger := by
  rcases h.leaves hl with h | ⟨n, f, rfl, hf⟩ | ⟨n, c, h⟩
  · exact ledger_congr h.contexts h.cache h.expander hl
  · exact ledger_touched hl (modCtx_map_follows (R := Context.Touched) .refl hs.2.1 (hf hs)) rfl rfl rfl
  · exact ledger_leaves hs hl h

/-- What an entry is after changes of contexts: of the same pair, with the same schedule, and pinned only if it was. -/
structure Entry.Remains (e d : Entry) : Prop where
  slot : d.slot = e.slot
  generation : d.generation = e.generation
  schedule : d.schedule = e.schedule
  pins : d.pins ≠ 0 → e.pins ≠ 0

theorem Entry.Remains.refl (e : Entry) : e.Remains e := ⟨rfl, rfl, rfl, id⟩

/-- What an expansion is after changes of contexts: the same but for the contexts attached. -/
structure Expansion.Remains (x y : Expansion) : Prop where
  slot : y.slot = x.slot
  generation : y.generation = x.generation
  keys : y.keys = x.keys
  void : y.void = false → x.void = false

/-- A change makes no entry and no expansion. -/
theorem Change.remains {s t : State} (hl : s.ledger) (h : Change s t) :
    (∀ i w d, t.way i w = some d → ∃ e, s.way i w = some e ∧ e.Remains d) ∧
      ∀ y, t.expander.current = some y → ∃ x, s.expander.current = some x ∧ x.Remains y := by
  have hsame : ∀ {u : State}, u.cache = s.cache → u.expander = s.expander →
      (∀ i w d, u.way i w = some d → ∃ e, s.way i w = some e ∧ e.Remains d) ∧
      ∀ y, u.expander.current = some y → ∃ x, s.expander.current = some x ∧ x.Remains y := fun hc hx =>
    ⟨fun i w d hd => ⟨d, way_congr hc i w ▸ hd, .refl d⟩, fun y hy => ⟨y, hx ▸ hy, rfl, rfl, rfl, id⟩⟩
  rcases h.leaves hl with h | ⟨n, f, rfl, -⟩ | ⟨n, c, h⟩
  · exact hsame h.cache h.expander
  · exact hsame rfl rfl
  · refine ⟨fun i w d hd => ?_, fun y hy => ?_⟩
    · rw [way_congr h.cache, way_releasePin hl.placed c i w] at hd
      obtain ⟨e, he, hd⟩ := Option.bind_eq_some_iff.1 hd
      refine ⟨e, he, ?_⟩
      unfold Entry.afterRelease at hd
      split at hd
      · rw [(unpin_some hd).1]
        exact ⟨rfl, rfl, rfl, fun hp => by simp only at hp; omega⟩
      · cases hd; exact .refl d
    · rw [h.expander] at hy
      obtain ⟨x, hx, rfl⟩ := detach_current.1 hy
      exact ⟨x, hx, rfl, rfl, rfl, id⟩

section
variable {s t : State}

theorem Changes.tables (h : Changes s t) :
    t.decoder.windows = s.decoder.windows ∧ t.ranges = s.ranges ∧ t.slots = s.slots ∧
      t.contain.device = s.contain.device := by
  induction h with
  | refl => exact ⟨rfl, rfl, rfl, rfl⟩
  | tail _ h ih =>
    obtain ⟨h1, h2, h3, h4⟩ := h.tables
    exact ⟨h1.trans ih.1, h2.trans ih.2.1, h3.trans ih.2.2.1, h4.trans ih.2.2.2⟩

theorem Changes.contexts (hs : s.contextLaws) (h : Changes s t) :
    t.contextLaws ∧ ∀ d ∈ t.contexts, ∃ c ∈ s.contexts, c.Follows d := by
  induction h with
  | refl => exact ⟨hs, fun d hd => ⟨d, hd, .refl d⟩⟩
  | tail _ h ih =>
    obtain ⟨h1, h2⟩ := h.contexts ih.1
    refine ⟨h1, fun d hd => ?_⟩
    obtain ⟨c, hc, hcd⟩ := h2 d hd
    obtain ⟨b, hb, hbc⟩ := ih.2 c hc
    exact ⟨b, hb, hbc.trans hcd⟩

theorem Changes.ledger (hs : s.contextLaws) (hl : s.ledger) (h : Changes s t) : t.ledger := by
  induction h with
  | refl => exact hl
  | tail hu h ih => exact h.ledger (Changes.contexts hs hu).1 ih

theorem Changes.remains (hs : s.contextLaws) (hl : s.ledger) (h : Changes s t) :
    (∀ i w d, t.way i w = some d → ∃ e, s.way i w = some e ∧ e.Remains d) ∧
      ∀ y, t.expander.current = some y → ∃ x, s.expander.current = some x ∧ x.Remains y := by
  induction h with
  | refl => exact ⟨fun i w d hd => ⟨d, hd, .refl d⟩, fun y hy => ⟨y, hy, rfl, rfl, rfl, id⟩⟩
  | tail hu h ih =>
    obtain ⟨h1, h2⟩ := h.remains (Changes.ledger hs hl hu)
    refine ⟨fun i w d hd => ?_, fun y hy => ?_⟩
    · obtain ⟨e, he, hed⟩ := h1 i w d hd
      obtain ⟨b, hb, hbe⟩ := ih.1 i w e he
      exact ⟨b, hb, hed.slot.trans hbe.slot, hed.generation.trans hbe.generation, hed.schedule.trans hbe.schedule,
        fun hp => hbe.pins (hed.pins hp)⟩
    · obtain ⟨x, hx, hxy⟩ := h2 y hy
      obtain ⟨b, hb, hbx⟩ := ih.2 x hx
      exact ⟨b, hb, hxy.slot.trans hbx.slot, hxy.generation.trans hbx.generation, hxy.keys.trans hbx.keys,
        fun hv => hbx.void (hxy.void hv)⟩

end

/-! ## The shared operations -/

/-- A state with the same books is one change away. -/
theorem Changes.idle {s t : State} (h : s.sameBooks t) : Changes s t := .single (.idle h)

/-- A change of every record within its phase is one change. -/
theorem Changes.touch {s : State} {n : CtxNo} {f : Context → Context} (h : ∀ c : Context, c.Touched (f c)) :
    Changes s (s.modCtx n f) := .single (.touch n f fun _ c _ => h c)

/-- A change of a record's bookkeeping fields is within its phase. -/
theorem touched_timer (t : Option AnswerTimer) (c : Context) : c.Touched { c with timer := t } :=
  touched_of_state rfl rfl rfl rfl rfl id rfl fun _ => id

theorem touched_tweak (t : TweakState) (c : Context) : c.Touched { c with tweak := t } :=
  touched_of_state rfl rfl rfl rfl rfl id rfl fun _ => id

theorem touched_sent (c : Context) : c.Touched { c with completionSent := true } :=
  touched_of_state rfl rfl rfl rfl rfl (fun _ => rfl) rfl fun _ => id

theorem touched_passed (m : Nat) (c : Context) : c.Touched { c with passed := m } :=
  touched_of_state rfl rfl rfl rfl rfl id rfl fun _ => id

/-- An item handed changes the return path alone. -/
theorem hand_changes (x : ReturnItem) (s : State) : Changes s (s.hand x) := .idle ⟨rfl, rfl, rfl, rfl, rfl, rfl, rfl⟩

/-- An item driven changes the outputs alone. -/
theorem drive_changes (d : MediaDrive) (s : State) : Changes s (s.drive d) := .idle ⟨rfl, rfl, rfl, rfl, rfl, rfl, rfl⟩

/-- The media port is no law's. -/
theorem media_changes (m : MediaPort) (s : State) : Changes s { s with media := m } :=
  .idle ⟨rfl, rfl, rfl, rfl, rfl, rfl, rfl⟩

/-- The start of an action changes the outputs alone. -/
theorem start_changes (s : State) : Changes s s.start := .idle ⟨rfl, rfl, rfl, rfl, rfl, rfl, rfl⟩

/-- An item not taken changes the outputs alone. -/
theorem untaken_changes (s : State) : Changes s s.untaken := .idle ⟨rfl, rfl, rfl, rfl, rfl, rfl, rfl⟩

theorem handCompletion_changes (n : CtxNo) (s : State) : Changes s (s.handCompletion n) := by
  unfold State.handCompletion
  split
  · split
    · exact .refl
    · exact (hand_changes _ s).trans (Changes.touch touched_sent)
  · exact .refl

/-- After its completion is handed a record is as it was but for that. -/
theorem ctx?_handCompletion {n : CtxNo} {c : Context} {s : State} (h : s.ctx? n = some c) :
    (s.handCompletion n).ctx? n = some { c with completionSent := true } := by
  cases hs : c.completionSent with
  | true =>
    rw [handCompletion_sent h hs, h]
    cases c
    simp_all
  | false =>
    rw [handCompletion_unsent h hs]
    exact ctx?_modCtx (s := s.hand _) (f := fun c => { c with completionSent := true }) rfl h

/-- Freeing a context that does not wait for its key before its FETCH. -/
theorem free_changes {n : CtxNo} {s : State}
    (hw : ∀ c, s.ctx? n = some c → c.state = .waitKey → c.fetchProgress ≠ .notIssued) : Changes s (s.free n) := by
  unfold State.free
  split
  · next c hc => exact .single (.free n c hc (hw c hc))
  · exact .refl

theorem freeIfDone_changes (n : CtxNo) (s : State) : Changes s (s.freeIfDone n) := by
  unfold State.freeIfDone
  split
  · next c hc =>
    split
    · next hd =>
      refine free_changes fun d hcd hs => ?_
      rw [hc] at hcd
      cases hcd
      rw [hd.1] at hs
      cases hs
    · exact .refl
  · exact .refl

/-- Completing a context that does not wait for its key before its FETCH. -/
theorem complete_changes {n : CtxNo} {s : State}
    (hw : ∀ c, s.ctx? n = some c → c.state = .waitKey → c.fetchProgress ≠ .notIssued) : Changes s (s.complete n) := by
  refine (handCompletion_changes n s).trans (free_changes fun d hd hs => ?_)
  cases hc : s.ctx? n with
  | none =>
    have : s.handCompletion n = s := by simp [State.handCompletion, hc]
    rw [this, hc] at hd
    cases hd
  | some c =>
    rw [ctx?_handCompletion hc] at hd
    cases hd
    exact hw c hc hs

theorem finishDuty_changes (c : Context) (left : Nat) (s : State) : Changes s (s.finishDuty c left) := by
  have hend : ∀ u : State, Changes u ((u.handCompletion c.number).freeIfDone c.number) := fun u =>
    (handCompletion_changes _ u).trans (freeIfDone_changes _ _)
  unfold State.finishDuty
  split
  · dsimp only
    split
    · exact (hand_changes _ s).trans (hend _)
    · exact hend s
  · split
    · exact hend s
    · exact .idle ⟨rfl, rfl, rfl, rfl, rfl, rfl, rfl⟩

/-- A record cancelled has left. -/
theorem left_cancelled (code : Reply) (sends : Bool) (c : Context) : c.Left (c.cancelled code sends) :=
  ⟨⟨rfl, rfl, rfl, rfl, rfl, id, fun h => by cases h⟩, rfl, by simp [Context.cancelled]⟩

theorem enterCancel_changes (n : CtxNo) (code : Reply) (answered timed : Bool) (s : State) :
    Changes s (s.enterCancel n code answered timed) := by
  cases hc : s.ctx? n with
  | none => rw [enterCancel_none hc]
  | some c =>
    cases hl : c.live with
    | false => rw [enterCancel_not_live hc hl]
    | true =>
      rw [enterCancel_live hc hl]
      exact .trans (.single (.withdraw n c _ hc (left_cancelled _ _ c))) (finishDuty_changes _ _ _)

/-- Contexts cancelled one after the other. -/
theorem enterCancels_changes (code : Reply) (l : List Context) (s : State) :
    Changes s (l.foldl (fun s c => s.enterCancel c.number code false false) s) := by
  induction l generalizing s with
  | nil => exact .refl
  | cons c l ih => exact (enterCancel_changes c.number code false false s).trans (ih _)

theorem revoke_changes (p : Context → Bool) (code : Reply) (s : State) : Changes s (s.revoke p code) :=
  enterCancels_changes code _ s

theorem enterClose_changes (n : CtxNo) (s : State) : Changes s (s.enterClose n) := by
  unfold State.enterClose
  split
  · next c hc =>
    split
    · next hs =>
      have hw : c.state ≠ .waitKey := fun hw => by rw [streaming_of_waitKey hw] at hs; cases hs
      have hclose := Relation.ReflTransGen.single (Change.close n c (fun c => { c with state := .close, tweak := .absent }) hc hw
        ⟨⟨rfl, rfl, rfl, rfl, rfl, id, fun _ => live_of_streaming hs⟩, rfl, by simp⟩)
      dsimp only
      split
      · refine hclose.trans (complete_changes fun d hd hst => ?_)
        rw [ctx?_modCtx (s := s.releasePin c) (f := fun c => { c with state := .close, tweak := .absent }) rfl
          (by rw [ctx?_congr (s := s) (by simp)]; exact hc)] at hd
        cases hd
        cases hst
      · exact hclose
    · exact .refl
  · exact .refl

theorem driveUnit_changes (u : SlotUnit) (s : State) : Changes s (s.driveUnit u) := by
  unfold State.driveUnit
  split
  · have h : Changes s ((s.drive (.unit u.ctx (drivenBeat u.data u.enables))).modCtx u.ctx
        fun c => { c with passed := c.passed + 1 }) :=
      (drive_changes _ s).trans (Changes.touch fun c => touched_passed _ c)
    dsimp only
    split
    · exact h.trans ((drive_changes _ _).trans ((media_changes _ _).trans (enterClose_changes _ _)))
    · exact h
  · exact .refl

theorem enterSlot_changes (u : SlotUnit) (s : State) : Changes s (s.enterSlot u) := by
  unfold State.enterSlot
  split
  · exact driveUnit_changes u s
  · exact .idle ⟨rfl, rfl, rfl, rfl, rfl, rfl, rfl⟩

/-! ## What a revocation reaches -/

/-- No record of a number is live once it has entered CANCEL. -/
theorem enterCancel_dead {n : CtxNo} {code : Reply} {answered timed : Bool} {s : State} (hs : s.contextLaws) {d : Context}
    (hd : d ∈ (s.enterCancel n code answered timed).contexts) (hn : d.number = n) : d.live = false := by
  cases hc : s.ctx? n with
  | none =>
    rw [enterCancel_none hc] at hd
    rw [← hn, ctx?_of_mem hs.2.1 hd] at hc
    cases hc
  | some c =>
    cases hl : c.live with
    | false =>
      rw [enterCancel_not_live hc hl] at hd
      rw [eq_of_mem_of_number hs.2.1 hd (hn ▸ hc)]
      exact hl
    | true =>
      rw [enterCancel_live hc hl] at hd
      have hw := Change.withdraw n c (Context.cancelled code
        (timed || (if answered then decide (0 < c.pieces) || c.fetchProgress == .issued else s.outstanding c))) hc
        (left_cancelled _ _ c)
      obtain ⟨b, hb, hbd⟩ := (Changes.contexts (hw.contexts hs).1 (finishDuty_changes c _ _)).2 d hd
      have hbn : b.number = n := hbd.number.symm.trans hn
      have hbc : b ∈ (s.modCtx n (Context.cancelled code
        (timed || (if answered then decide (0 < c.pieces) || c.fetchProgress == .issued else s.outstanding c)))).contexts := by
        simpa using hb
      obtain ⟨a, -, rfl⟩ := List.mem_map.1 hbc
      by_contra hlive
      have := hbd.live (by simpa using hlive)
      split at hbn <;> split at this <;> simp_all [Context.cancelled, Context.live]

/-- A revocation leaves no live context that it was to reach. -/
theorem revoke_dead {p : Context → Bool} {code : Reply} {s : State} (hs : s.contextLaws)
    (hp : ∀ c d : Context, c.Follows d → d.live = true → p d = true → p c = true) {d : Context}
    (hd : d ∈ (s.revoke p code).contexts) (hl : d.live = true) : p d = false := by
  have hfold : ∀ (l : List Context) (u : State), u.contextLaws →
      ∀ d ∈ (l.foldl (fun s c => s.enterCancel c.number code false false) u).contexts, d.live = true →
        ∀ c ∈ l, d.number ≠ c.number := by
    intro l
    induction l with
    | nil => intro u _ d _ _ c hc; cases hc
    | cons a l ih =>
      intro u hu d hd hl c hc hn
      have hu' := (Changes.contexts hu (enterCancel_changes a.number code false false u)).1
      rcases List.mem_cons.1 hc with rfl | hc
      · obtain ⟨b, hb, hbd⟩ := (Changes.contexts hu' (enterCancels_changes code l _)).2 d hd
        have := enterCancel_dead hu hb (hbd.number.symm.trans hn)
        rw [hbd.live hl] at this
        cases this
      · exact ih _ hu' d hd hl c hc hn
  by_contra hpd
  rw [Bool.not_eq_false] at hpd
  obtain ⟨c, hc, hcd⟩ := (Changes.contexts hs (revoke_changes p code s)).2 d hd
  exact hfold (s.contexts.filter p) s hs d hd hl c (List.mem_filter.2 ⟨hc, hp c d hcd hl hpd⟩) hcd.number

end Sys2Proof.Machine
end

