-- ==== Sys2Proof/Proofs/Moves.lean ====
section
/-! SUPPORT. Every action as a chain of moves, and what each kind of move keeps: the laws of the tables, of key custody, and of
the cache (R11 to R132). -/

namespace Sys2Proof.Machine

/-! ## The kinds of move -/

/-- A context may be created: the list has room, its number is not in use, its claim is no other's (R72, R73). -/
structure State.Admissible (c : Context) (s : State) : Prop where
  room : s.contexts.length < 32
  fresh : s.ctx? c.number = none
  unclaimed : s.contexts.any (Context.claims c.mover c.tag) = false

/-- A record that may stand in the range table in place of another: the span and the binding stay, and it is open only if it was
or its bound slot is LOADED (R42, R44). -/
structure State.RangeKept (i : RangeNo) (r : Range) (s : State) : Prop where
  span : r.span = s.ranges[i].span
  binding : r.binding = s.ranges[i].binding
  opened : r.isOpen = true → s.ranges[i].isOpen = true ∨ s.bindingLoaded i = true

/-- A locked record that SET-RANGE may write: its span ends at or below 2^40 and meets no other (R40). -/
structure State.RangeFits (i : RangeNo) (r : Range) (s : State) : Prop where
  locked : r.isOpen = false
  fits : i ≠ 0 → ∃ sp, r.span = some sp ∧ sp.first.toNat + sp.count ≤ 2 ^ 40 ∧ s.spanOverlaps i sp = false

/-- The expander idle, as the completion of an expansion leaves it (R127). -/
def State.expanderIdle (s : State) : State := { s with expander := { s.expander with current := none } }

/-- The cache after FLUSH-SCHEDULES (R129). -/
def State.flushed (s : State) : State :=
  { s with cache := Vector.ofFn fun i =>
      { s.cache[i] with way0 := flushWay s.cache[i].way0, way1 := flushWay s.cache[i].way1 } }

/-- The expansion completes with a result to keep: not void, its slot LOADED at its generation (R127). -/
def State.fillsFor (x : Expansion) (s : State) : Prop :=
  x.void = false ∧ s.slots[x.slot].isLoaded = true ∧ s.slots[x.slot].generation = x.generation

/-- One move of the part, as the laws of tables, contexts and cache see it. Each is a named operation of the model. -/
inductive Move : State → State → Prop
  | change {s t : State} (h : Change s t) : Move s t
  | take {s : State} : Move s s.takeEligible
  | plain {s : State} (c : Context) (ha : s.Admissible c) (hst : c.state = .stream) (hc : c.capture = none)
      (hp : c.passage ≠ .cipher) : Move s (s.addContext c)
  | hit {s : State} (c : Context) (cap : Capture) (w : Way) (ha : s.Admissible c) (hst : c.state = .stream)
      (hc : c.capture = some cap) (hp : c.passage = .cipher) (he : s.entitled c)
      (hw : s.cache[setOf cap.slot cap.generation].find cap.slot cap.generation = some w) :
      Move s ((s.putSet (setOf cap.slot cap.generation) (s.cache[setOf cap.slot cap.generation].pin w)).addContext c)
  | miss {s : State} (c : Context) (cap : Capture) (ha : s.Admissible c) (hst : c.state = .waitKey)
      (hf : c.fetchProgress = .notIssued) (hc : c.capture = some cap) (hp : c.passage = .cipher) (he : s.entitled c)
      (hw : s.entryOf cap.slot cap.generation = none) :
      Move s ({ s with expander := s.expander.attach c.number cap.slot cap.generation }.addContext c)
  | fill {s : State} (x : Expansion) (hc : s.expander.current = some x) (hf : s.fillsFor x) : Move s (s.expanderIdle.fill x)
  | discard {s : State} (x : Expansion) (hc : s.expander.current = some x) (hf : ¬ s.fillsFor x) : Move s s.expanderIdle
  | scrub {s : State} (k : SlotNo) (keys : KeyPair) (cause : ScrubCause)
      (hb : s.slots[k].body = .loaded keys ∨ s.slots[k].body = .undefined keys) : Move s (s.scrub k keys cause)
  | contain {s : State} : Move s s.enterContained
  | erase {s : State} (k : SlotNo) (keys : KeyPair) (cause : ScrubCause) (hb : s.slots[k].body = .scrubbing keys cause) :
      Move s (s.eraseSlot k cause)
  | clear {s : State} : Move s s.abandonAll
  | recover {s : State} (hd : s.contain.device = .contained) : Move s s.recoverAll
  | load {s : State} (k : SlotNo) (p : KeyPair) (g : Generation) (hb : s.slots[k].body = .empty) (hp : p.dataKey ≠ p.tweakKey)
      (hg : g ≠ 0) : Move s (s.writeSlot k { s.slots[k] with body := .loaded p, generation := g })
  | blank {s : State} (k : SlotNo) (b : SlotBody) (hb : s.slots[k].body = .empty ∨ s.slots[k].body = .faulted)
      (hb' : b = .empty ∨ b = .faulted) : Move s (s.writeSlot k { s.slots[k] with body := b })
  | flush {s : State} : Move s s.flushed
  | device {s : State} (d : DeviceState) (hd : s.contain.device ≠ .service) :
      Move s { s with contain := { s.contain with device := d } }
  | ranges {s : State} (rs : Vector Range 16) (h : ∀ i : RangeNo, s.RangeKept i rs[i]) : Move s { s with ranges := rs }
  | setRange {s : State} (i : RangeNo) (r : Range) (h : s.RangeFits i r) : Move s (s.writeRange i r)
  | window {s : State} (i : WindowNo) (w : Window) (h : w.treatment.covers = false ∨ s.windowOverlaps i w = false) :
      Move s (s.writeWindow i w)
  | reset {s t : State} (h : State.reset.sameBooks t) : Move s t

/-- A chain of moves. -/
abbrev Moves : State → State → Prop := Relation.ReflTransGen Move

theorem Changes.moves {s t : State} (h : Changes s t) : Moves s t := by
  induction h with
  | refl => exact .refl
  | tail _ h ih => exact ih.tail (.change h)

theorem Move.moves {s t : State} (h : Move s t) : Moves s t := .single h

/-! ## Records written -/

/-- What a table holds after a record is written. -/
theorem getElem_set_fin {α : Type} {n : Nat} (v : Vector α n) (i j : Fin n) (a : α) :
    (v.set i a)[j] = if i = j then a else v[j] := by
  simp [Vector.getElem_set, Fin.ext_iff]

/-- A slot is LOADED exactly if its body says so. -/
theorem isLoaded_iff {r : Slot} : r.isLoaded = true ↔ ∃ keys, r.body = .loaded keys := by
  unfold Slot.isLoaded
  split <;> simp_all

/-- A slot whose body says anything else is not LOADED. -/
theorem isLoaded_of_body {r : Slot} (h : ∀ keys, r.body ≠ .loaded keys) : r.isLoaded = false := by
  rw [← Bool.not_eq_true, isLoaded_iff]
  exact fun ⟨keys, hk⟩ => h keys hk

/-! ## Key custody (R14, R53, R61, R97) -/

/-- A live CIPHER context is entitled to its key. -/
def State.custody (s : State) : Prop := ∀ c ∈ s.contexts, c.passage = .cipher → c.live = true → s.entitled c

/-- The right to a key reads the device state, the capture, and the captured slot. -/
theorem entitled_of_follows {c d : Context} {s t : State} (h : s.entitled c) (hd : c.capture = d.capture)
    (hdev : t.contain.device = s.contain.device)
    (hslot : ∀ cap, c.capture = some cap → s.slots[cap.slot].isLoaded = true → t.slots[cap.slot] = s.slots[cap.slot]) :
    t.entitled d := by
  obtain ⟨h1, cap, h2, h3, h4, h5⟩ := h
  exact ⟨hdev.trans h1, cap, hd ▸ h2, h3, by rw [hslot cap h2 h4]; exact h4, by rw [hslot cap h2 h4]; exact h5⟩

/-- Custody stands where every context follows one that stood, and no LOADED slot nor the device state changes. -/
theorem custody_of_origin {s t : State} (h : s.custody) (ho : ∀ d ∈ t.contexts, ∃ c ∈ s.contexts, c.Follows d)
    (hdev : t.contain.device = s.contain.device)
    (hslot : ∀ k : SlotNo, s.slots[k].isLoaded = true → t.slots[k] = s.slots[k]) : t.custody := by
  intro d hd hp hl
  obtain ⟨c, hc, hcd⟩ := ho d hd
  exact entitled_of_follows (h c hc (hcd.passage ▸ hp) (hcd.live hl)) hcd.capture.symm hdev fun cap _ => hslot cap.slot

/-- Contexts as they stood. -/
theorem origin_same {s t : State} (h : t.contexts = s.contexts) : ∀ d ∈ t.contexts, ∃ c ∈ s.contexts, c.Follows d :=
  fun d hd => ⟨d, h ▸ hd, .refl d⟩

/-- Outside SERVICE no CIPHER context is live. -/
theorem custody_outside_service {s : State} (h : s.custody) (hd : s.contain.device ≠ .service) {c : Context}
    (hc : c ∈ s.contexts) (hp : c.passage = .cipher) : c.live = false := by
  by_contra hl
  exact hd (h c hc hp (by simpa using hl)).1

/-- Custody stands where no CIPHER context is live. -/
theorem custody_of_dead {s : State} (h : ∀ c ∈ s.contexts, c.passage = .cipher → c.live = false) : s.custody :=
  fun c hc hp hl => by rw [h c hc hp] at hl; cases hl

/-- A state that keeps custody, with an entitled context more. -/
theorem custody_addContext {c : Context} {s : State} (h : s.custody) (hc : c.passage = .cipher → s.entitled c) :
    (s.addContext c).custody := by
  intro d hd hp hl
  rw [State.addContext_contexts, List.mem_append, List.mem_singleton] at hd
  rcases hd with hd | rfl
  · exact h d hd hp hl
  · exact hc hp

/-- A scrub, before its revocation: the slot written and the bound ranges locked (R60). -/
def State.scrubBegun (k : SlotNo) (keys : KeyPair) (cause : ScrubCause) (s : State) : State :=
  (s.writeSlot k { s.slots[k] with body := .scrubbing keys cause }).lockRanges fun r => r.binding == some k

/-- The code of a scrub's revocation (R61). -/
def ScrubCause.code : ScrubCause → Reply
  | .command => .revoked
  | .check => .fault

/-- A scrub, after its revocation. -/
def State.scrubRevoked (k : SlotNo) (keys : KeyPair) (cause : ScrubCause) (s : State) : State :=
  (s.scrubBegun k keys cause).revoke (Context.holds k) cause.code

theorem scrub_eq (k : SlotNo) (keys : KeyPair) (cause : ScrubCause) (s : State) :
    s.scrub k keys cause =
      { s.scrubRevoked k keys cause with expander := (s.scrubRevoked k keys cause).expander.afterScrub k } := by
  cases cause <;> rfl

/-- Containment, before its revocation (R162). -/
def State.containBegun (s : State) : State := { s with contain := { s.contain with device := .contained, dwell := some 50 } }

/-- Containment, after its revocation. -/
def State.containRevoked (s : State) : State := s.containBegun.revoke (fun c => c.live && c.passage == .cipher) .fault

theorem enterContained_eq (s : State) :
    s.enterContained =
      State.raise .contained { s.containRevoked with expander := s.containRevoked.expander.afterContainment } := rfl

/-- A holder of a slot is live and captured the slot. -/
theorem holds_iff {k : SlotNo} {c : Context} :
    c.holds k = true ↔ c.live = true ∧ ∃ cap, c.capture = some cap ∧ cap.slot = k := by
  unfold Context.holds
  cases c.capture <;> simp

theorem holds_of_follows {k : SlotNo} {c d : Context} (h : c.Follows d) (hd : d.holds k = true) : c.holds k = true := by
  rw [holds_iff] at *
  rw [← h.capture]
  exact ⟨h.live hd.1, hd.2⟩

/-- A scrub begun has touched no context. -/
theorem scrubBegun_contextLaws {s : State} (hs : s.contextLaws) (k : SlotNo) (keys : KeyPair) (cause : ScrubCause) :
    (s.scrubBegun k keys cause).contextLaws := (contextLaws_congr (s := s) rfl).2 hs

/-- A containment begun has touched no context. -/
theorem containBegun_contextLaws {s : State} (hs : s.contextLaws) : s.containBegun.contextLaws :=
  (contextLaws_congr (s := s) rfl).2 hs

/-- What the revocation of a scrub leaves: the tables of its beginning, contexts that follow those before, no holder. -/
theorem scrubRevoked_facts {s : State} (hs : s.contextLaws) (k : SlotNo) (keys : KeyPair) (cause : ScrubCause) :
    Changes (s.scrubBegun k keys cause) (s.scrubRevoked k keys cause) ∧
      ∀ d ∈ (s.scrubRevoked k keys cause).contexts, d.live = true → d.holds k = false :=
  ⟨revoke_changes _ _ _, fun _ hd hl => revoke_dead (scrubBegun_contextLaws hs k keys cause)
    (fun _ _ h _ => holds_of_follows h) hd hl⟩

/-- What the revocation of a containment leaves: no live CIPHER context. -/
theorem containRevoked_facts {s : State} (hs : s.contextLaws) :
    Changes s.containBegun s.containRevoked ∧
      ∀ d ∈ s.containRevoked.contexts, d.passage = .cipher → d.live = false := by
  refine ⟨revoke_changes _ _ _, fun d hd hp => ?_⟩
  by_contra hl
  rw [Bool.not_eq_false] at hl
  have := revoke_dead (containBegun_contextLaws hs)
    (fun c d h hl hp => ?_) hd hl
  · simp [hl, hp] at this
  · simp only [Bool.and_eq_true, beq_iff_eq] at hp ⊢
    exact ⟨h.live hl, h.passage ▸ hp.2⟩

/-- A move keeps the laws of the list of contexts. -/
theorem Move.contextLaws {s t : State} (hs : s.contextLaws) (h : Move s t) : t.contextLaws := by
  cases h with
  | change h => exact (h.contexts hs).1
  | take => exact (contextLaws_congr (by simp)).2 hs
  | plain c ha _ _ _ => exact contextLaws_addContext hs ha.room ha.fresh ha.unclaimed
  | hit c cap w ha _ _ _ _ _ => exact contextLaws_addContext (s := s.putSet _ _) hs ha.room ha.fresh ha.unclaimed
  | miss c cap ha _ _ _ _ _ _ =>
    exact contextLaws_addContext (s := { s with expander := _ }) hs ha.room ha.fresh ha.unclaimed
  | fill x _ _ => exact contextLaws_map hs (fun c _ => released_follows x.attached c) rfl
  | scrub k keys cause _ => rw [scrub_eq]; exact ((scrubRevoked_facts hs k keys cause).1.contexts (scrubBegun_contextLaws hs k keys cause)).1
  | contain => exact ((containRevoked_facts hs).1.contexts (containBegun_contextLaws hs)).1
  | erase k keys cause _ => cases cause <;> exact hs
  | clear => exact contextLaws_nil rfl
  | recover _ =>
    unfold State.recoverAll
    dsimp only
    split <;> exact hs
  | reset h => exact contextLaws_nil h.contexts
  | discard _ _ _ | load _ _ _ _ _ _ | blank _ _ _ _ | flush | device _ _ | ranges _ _ | setRange _ _ _ | window _ _ _ =>
    exact hs

/-- A move keeps custody. -/
theorem Move.custody {s t : State} (hs : s.contextLaws) (hk : s.custody) (h : Move s t) : t.custody := by
  have hwrite : ∀ (k : SlotNo) (r : Slot), s.slots[k].isLoaded = false → (s.writeSlot k r).custody := fun k r hl =>
    custody_of_origin hk (origin_same rfl) rfl fun j hj => by
      rw [State.writeSlot_slots, getElem_set_fin, if_neg]
      rintro rfl
      rw [hl] at hj
      cases hj
  cases h with
  | change h =>
    obtain ⟨-, -, hsl, hdev⟩ := h.tables
    exact custody_of_origin hk (h.contexts hs).2 hdev fun k _ => by rw [hsl]
  | take => exact custody_of_origin hk (origin_same (by simp)) (by simp) fun k _ => by simp
  | plain c _ _ _ hp => exact custody_addContext hk fun h => absurd h hp
  | hit c cap w _ _ _ _ he _ => exact custody_addContext (s := s.putSet _ _) hk fun _ => he
  | miss c cap _ _ _ _ _ he _ => exact custody_addContext (s := { s with expander := _ }) hk fun _ => he
  | fill x _ _ =>
    refine custody_of_origin hk (fun d hd => ?_) rfl fun k _ => rfl
    obtain ⟨c, hc, rfl⟩ := List.mem_map.1 hd
    exact ⟨c, hc, released_follows x.attached c⟩
  | scrub k keys cause _ =>
    obtain ⟨hch, hdead⟩ := scrubRevoked_facts hs k keys cause
    obtain ⟨-, -, hsl, hdev⟩ := hch.tables
    intro d hd hp hl
    rw [scrub_eq] at hd ⊢
    obtain ⟨c, hc, hcd⟩ := (hch.contexts (scrubBegun_contextLaws hs k keys cause)).2 d hd
    refine entitled_of_follows (hk c hc (hcd.passage ▸ hp) (hcd.live hl)) hcd.capture.symm hdev fun cap hcap _ => ?_
    have hne : ¬ k = cap.slot := fun e => by
      have := hdead d hd hl
      rw [holds_iff.2 ⟨hl, cap, hcd.capture.trans hcap, e.symm⟩] at this
      cases this
    change (s.scrubRevoked k keys cause).slots[cap.slot] = _
    rw [hsl]
    change (s.slots.set k _)[cap.slot] = _
    rw [getElem_set_fin, if_neg hne]
  | contain => exact custody_of_dead (containRevoked_facts hs).2
  | erase k keys cause hb =>
    have hl : s.slots[k].isLoaded = false := isLoaded_of_body fun _ h => by rw [hb] at h; cases h
    cases cause
    · exact hwrite k _ hl
    · exact hwrite k _ hl
  | clear => exact custody_of_dead fun c hc => by cases hc
  | recover hd =>
    have hdead := fun c hc hp => custody_outside_service hk (c := c) (by rw [hd]; decide) hc hp
    unfold State.recoverAll
    dsimp only
    split <;> exact custody_of_dead hdead
  | load k p g hb _ _ => exact hwrite k _ (isLoaded_of_body fun _ h => by rw [hb] at h; cases h)
  | blank k b hb _ => exact hwrite k _ (isLoaded_of_body fun _ h => by rcases hb with hb | hb <;> rw [hb] at h <;> cases h)
  | device d hd => exact custody_of_dead fun c hc hp => custody_outside_service hk hd hc hp
  | reset h => exact custody_of_dead fun c hc => by rw [h.contexts] at hc; cases hc
  | discard _ _ _ | flush | ranges _ _ | setRange _ _ _ | window _ _ _ => exact hk

/-- A move keeps key custody. -/
theorem Move.keyCustody {s t : State} (hk : s.keyCustody) (h : Move s t) : t.keyCustody :=
  ⟨h.contextLaws hk.1, h.custody hk.1 hk.2⟩

theorem Moves.keyCustody {s t : State} (hk : s.keyCustody) (h : Moves s t) : t.keyCustody := by
  induction h with
  | refl => exact hk
  | tail _ h ih => exact h.keyCustody ih

end Sys2Proof.Machine
end

