-- ==== Sys2Proof/Proofs/CacheMoves.lean ====
section
/-! SUPPORT. What each kind of move keeps of the laws of the cache (R2, R63, R119 to R132). -/

namespace Sys2Proof.Machine

/-! ## Contexts of a pair, and their slot -/

/-- A live context that captured is entitled to its key. -/
theorem ledger_entitled {s : State} (hk : s.custody) (hl : s.ledger) {c : Context} (hc : c ∈ s.contexts) (hlive : c.live = true)
    {cap : Capture} (hcap : c.capture = some cap) :
    s.contain.device = .service ∧ cap.generation ≠ 0 ∧ s.slots[cap.slot].isLoaded = true ∧
      s.slots[cap.slot].generation = cap.generation := by
  have hp := (hl.captures c hc).1 (by rw [hcap]; rfl)
  obtain ⟨h1, cap', h2, h3, h4, h5⟩ := hk c hc hp hlive
  rw [hcap] at h2
  cases h2
  exact ⟨h1, h3, h4, h5⟩

/-- The slot of a pair that some context waits for is LOADED at the generation. -/
theorem waitsFor_loaded {s : State} (hk : s.custody) (hl : s.ledger) {l : List CtxNo} {k : SlotNo} {g : Generation}
    (h : s.waitsFor l k g) (hne : l ≠ []) : s.slots[k].isLoaded = true ∧ s.slots[k].generation = g := by
  obtain ⟨n, hn⟩ := List.exists_mem_of_ne_nil _ hne
  obtain ⟨c, h1, h2, h3⟩ := h.2 n hn
  obtain ⟨cap, h4, rfl, rfl⟩ := hasPair_iff.1 h3
  exact (ledger_entitled hk hl (ctx?_mem h1) (live_of_waitKey h2) h4).2.2

/-- A pinned pair has a live context. -/
theorem exists_of_pinners {s : State} {k : SlotNo} {g : Generation} (h : s.pinners k g ≠ 0) :
    ∃ c ∈ s.contexts, c.live = true ∧ ∃ cap, c.capture = some cap ∧ cap.slot = k ∧ cap.generation = g := by
  obtain ⟨c, hc, hp⟩ := List.countP_pos_iff.1 (Nat.pos_of_ne_zero h)
  rw [Bool.and_eq_true] at hp
  exact ⟨c, hc, live_of_streaming hp.1, hasPair_iff.1 hp.2⟩

/-- An entry whose pair has no live context is not pinned. -/
theorem pins_zero {s : State} (hl : s.ledger) {i : Fin 4} {w : Way} {e : Entry} (he : s.way i w = some e)
    (h : ∀ c ∈ s.contexts, c.live = true → ∀ cap, c.capture = some cap → cap.slot ≠ e.slot) : e.pins = 0 := by
  by_contra hp
  have h1 : e.pins = s.pinners e.slot e.generation := (hl.counted.1 i w e he).1
  rw [h1] at hp
  obtain ⟨c, hc, hlive, cap, hcap, hs, -⟩ := exists_of_pinners hp
  exact h c hc hlive cap hcap hs

/-- Outside SERVICE no context that captured is live. -/
theorem captured_dead {s : State} (hk : s.custody) (hl : s.ledger) (hd : s.contain.device ≠ .service) {c : Context}
    (hc : c ∈ s.contexts) {cap : Capture} (hcap : c.capture = some cap) : c.live = false :=
  custody_outside_service hk hd hc ((hl.captures c hc).1 (by rw [hcap]; rfl))

/-! ## Entries kept and gone -/

/-- What an entry is after the entries that meet a condition are discarded. -/
def Entry.discarded (p : Entry → Bool) (e : Entry) : Option Entry := if p e then none else some e

theorem entry_discard (p : Entry → Bool) (c : CacheSet) (w : Way) :
    (c.discard p).entry w = (c.entry w).bind (Entry.discarded p) := by
  have h : ∀ o : Option Entry, (o.filter fun e => !p e) = o.bind (Entry.discarded p) := fun o => by
    cases o with
    | none => rfl
    | some e => cases hp : p e <;> simp [Entry.discarded, hp]
  cases w <;> exact h _

theorem discarded_some {p : Entry → Bool} {e d : Entry} (h : Entry.discarded p e = some d) : d = e ∧ p e = false := by
  unfold Entry.discarded at h
  split at h
  · cases h
  · next hp => exact ⟨(Option.some.inj h).symm, by simpa using hp⟩

/-- Entries discarded while they have no pins keep the ledger. -/
theorem ledger_discard {p : Entry → Bool} {s t : State} (h : s.ledger)
    (hk : t.cache = Vector.ofFn fun i => s.cache[i].discard p) (hc : t.contexts = s.contexts)
    (hx : t.expander = s.expander) (hp : ∀ i w e, s.way i w = some e → p e = true → e.pins = 0) : t.ledger := by
  refine ledger_entries (φ := Entry.discarded p) (fun e d hd => by rw [(discarded_some hd).1]; exact ⟨rfl, rfl⟩) h
    (fun i w => (way_ofFn hk i w).trans (entry_discard p _ w)) (fun i w e d he hd => ?_) (fun i w e he hd => ?_) hc hx
  · rw [(discarded_some hd).1]
    exact ⟨rfl, (h.counted.1 i w e he).2⟩
  · unfold Entry.discarded at hd
    split at hd
    · next hpe => exact hp i w e he hpe
    · cases hd

/-- What FLUSH-SCHEDULES makes of an entry (R129). -/
def Entry.flushed (e : Entry) : Option Entry := if e.pins = 0 then none else some { e with flush := true }

theorem way_flushed (s : State) : s.waysBound Entry.flushed s.flushed := fun i w => by
  rw [way_ofFn (t := s.flushed) rfl]
  cases w <;> rfl

theorem flushed_some {e d : Entry} (h : e.flushed = some d) : e.pins ≠ 0 ∧ d = { e with flush := true } := by
  unfold Entry.flushed at h
  split at h
  · cases h
  · next hp => exact ⟨hp, (Option.some.inj h).symm⟩

theorem ledger_flushed {s : State} (h : s.ledger) : s.flushed.ledger := by
  refine ledger_entries (φ := Entry.flushed) (fun e d hd => by rw [(flushed_some hd).2]; exact ⟨rfl, rfl⟩) h (way_flushed s)
    (fun i w e d he hd => ?_) (fun i w e he hd => ?_) rfl rfl
  · obtain ⟨hp, rfl⟩ := flushed_some hd
    exact ⟨rfl, fun _ => hp⟩
  · unfold Entry.flushed at hd
    split at hd
    · assumption
    · cases hd

/-- With no context, the ledger holds where entries stand unpinned in their places and nothing is queued or attached. -/
theorem ledger_empty {s : State} (hc : s.contexts = []) (hp : s.entriesPlaced)
    (he : ∀ i w e, s.way i w = some e → e.pins = 0 ∧ e.flush = false) (hq : s.expander.queue = [])
    (hx : ∀ x, s.expander.current = some x →
      x.set = setOf x.slot x.generation ∧ s.way x.set x.way = none ∧ x.attached = [] ∧
      (x.void = false → s.entryOf x.slot x.generation = none)) : s.ledger := by
  refine ⟨by simp [State.captureLaw, hc], hp, ⟨fun i w e h => ?_, by simp [hc]⟩, by simp [State.queueLaw, hq], fun x h => ?_,
    by simp [State.waitersAttached, hc]⟩
  · obtain ⟨h1, h2⟩ := he i w e h
    simp [hc, h1, h2]
  · obtain ⟨h1, h2, h3, h4⟩ := hx x h
    exact ⟨h1, h2, fun _ => h3, fun hv => ⟨h4 hv, by simp [hq], by simp [h3, State.waitsFor]⟩⟩

/-- What SEGMENT CLEAR makes of an entry (R130). -/
def Entry.afterClear (e : Entry) : Option Entry := if e.flush then none else some { e with pins := 0 }

theorem way_abandonAll (s : State) : s.waysBound Entry.afterClear s.abandonAll := fun i w => by
  rw [way_ofFn (t := s.abandonAll) rfl]
  have h : ∀ o : Option Entry, ((o.filter fun e => !e.flush).map fun e => { e with pins := 0 }) = o.bind Entry.afterClear :=
    fun o => by
      cases o with
      | none => rfl
      | some e => cases hf : e.flush <;> simp [Entry.afterClear, hf]
  cases w <;> exact h _

theorem afterClear_some {e d : Entry} (h : e.afterClear = some d) : e.flush = false ∧ d = { e with pins := 0 } := by
  unfold Entry.afterClear at h
  split at h
  · cases h
  · next hf => exact ⟨by simpa using hf, (Option.some.inj h).symm⟩

theorem ledger_abandonAll {s : State} (h : s.ledger) : s.abandonAll.ledger := by
  have hkeep : keepsPair Entry.afterClear := fun e d hd => by rw [(afterClear_some hd).2]; exact ⟨rfl, rfl⟩
  have hway := way_abandonAll s
  refine ledger_empty rfl (placed_bound hkeep h.placed hway) (fun i w d hd => ?_) rfl fun y hy => ?_
  · rw [hway i w] at hd
    obtain ⟨e, -, hd⟩ := Option.bind_eq_some_iff.1 hd
    obtain ⟨hf, rfl⟩ := afterClear_some hd
    exact ⟨rfl, hf⟩
  · obtain ⟨x, hx, rfl⟩ := Option.map_eq_some_iff.1 hy
    obtain ⟨h1, h2, -, h4⟩ := h.expanding x hx
    exact ⟨h1, way_none_bound hway h2, rfl, fun hv => entryOf_none_bound hkeep hway (h4 hv).1⟩

/-! ## The take (R124, R125) -/

/-- The cache with a way invalidated. -/
def State.invalidated (i : Fin 4) (w : Way) (s : State) : State := s.putSet i (s.cache[i].put w none)

/-- The expansion a request starts (R125). -/
def Request.expansion (w : Way) (keys : KeyPair) (r : Request) : Expansion :=
  { slot := r.slot, generation := r.generation, set := setOf r.slot r.generation, way := w, attached := r.attached, void := false,
    keys := keys }

/-- The take does nothing, or starts the expansion of an eligible queued request whose slot is LOADED. -/
theorem takeEligible_cases (s : State) :
    s.takeEligible = s ∨ ∃ r w keys, s.expander.current = none ∧ r ∈ s.expander.queue ∧
      s.cache[setOf r.slot r.generation].victim = some w ∧ s.slots[r.slot].body = .loaded keys ∧
      s.takeEligible = { s.invalidated (setOf r.slot r.generation) w with
        expander := { queue := s.expander.queue.erase r, current := some (r.expansion w keys) } } := by
  unfold State.takeEligible
  cases hx : s.expander.current with
  | some x => exact .inl rfl
  | none =>
    cases hr : s.oldestEligible with
    | none => exact .inl rfl
    | some r =>
      unfold State.startExpansion
      dsimp only
      split
      · next w keys hw hb => exact .inr ⟨r, w, keys, rfl, List.mem_of_find?_eq_some hr, hw, hb, rfl⟩
      · exact .inl rfl

theorem way_invalidated_eq (i j : Fin 4) (w v : Way) (s : State) :
    (s.invalidated i w).way j v = if j = i ∧ v = w then none else s.way j v := by
  rw [State.invalidated, way_putSet, CacheSet.entry_put]
  by_cases hj : j = i
  · subst hj
    by_cases hv : v = w <;> simp [hv, State.way]
  · simp [hj]

/-- A victim way invalidated keeps the ledger. -/
theorem ledger_invalidated {i : Fin 4} {w : Way} {s : State} (h : s.ledger) (hw : s.cache[i].victim = some w) :
    (s.invalidated i w).ledger := by
  obtain ⟨φ, hk, hway, hself, hgone⟩ := way_invalidated (t := s.invalidated i w) h.placed
    fun j v => way_invalidated_eq i j w v s
  refine ledger_entries hk h hway (fun j v e d he hd => ?_) (fun j v e he hd => ?_) rfl rfl
  · rw [hself e d hd]
    exact ⟨rfl, (h.counted.1 j v e he).2⟩
  · obtain ⟨rfl, rfl⟩ := hgone j v e he hd
    exact victim_unpinned hw he

theorem ledger_takeEligible {s : State} (h : s.ledger) : s.takeEligible.ledger := by
  rcases takeEligible_cases s with ht | ⟨r, w, keys, hx, hr, hw, -, ht⟩ <;> rw [ht]
  · exact h
  · refine ledger_starts (s := s.invalidated (setOf r.slot r.generation) w) (x := r.expansion w keys) (r := r)
      (ledger_invalidated h hw) ⟨hr, hx, ⟨rfl, rfl⟩, rfl, rfl, rfl, ?_, rfl, rfl, rfl⟩
    rw [way_invalidated_eq]
    exact if_pos ⟨rfl, rfl⟩

/-- Where key custody and the ledger hold, no eligible request stands before an idle expander after the take (R124). -/
theorem takeEligible_settles {s : State} (hk : s.custody) (hl : s.ledger) : s.takeEligible.settled := by
  cases hx : s.expander.current with
  | some x =>
    have : s.settled := .inl (by rw [hx]; rfl)
    rw [takeEligible_of_settled this]
    exact this
  | none =>
    cases hr : s.oldestEligible with
    | none =>
      have : s.settled := .inr hr
      rw [takeEligible_of_settled this]
      exact this
    | some r =>
      obtain ⟨h1, h2, -⟩ := hl.queued.2 r (List.mem_of_find?_eq_some hr)
      obtain ⟨keys, hb⟩ := isLoaded_iff.1 (waitsFor_loaded hk hl h2 h1).1
      obtain ⟨w, hw⟩ := Option.isSome_iff_exists.1 (show s.eligible r = true from
        List.find?_some (p := fun r => s.eligible r) hr)
      left
      unfold State.takeEligible State.startExpansion
      simp only [hx, hr]
      rw [hw, hb]
      rfl

/-! ## Entries, expansion and slots -/

/-- Equal slot numbers name one slot. -/
theorem getElem_slot (v : Vector Slot 32) {k j : SlotNo} (h : k = j) : v[k] = v[j] := by rw [h]

/-- The laws of keys stand where every entry, and every expansion that is not void, remains of one that stood, with its slot. -/
theorem keyed_remains {s t : State} (h : s.keyed)
    (hway : ∀ i w d, t.way i w = some d → ∃ e, s.way i w = some e ∧ e.Remains d ∧ t.slots[e.slot] = s.slots[e.slot])
    (hcur : ∀ y, t.expander.current = some y → y.void = false →
      ∃ x, s.expander.current = some x ∧ x.Remains y ∧ t.slots[x.slot] = s.slots[x.slot]) : t.keyed := by
  refine ⟨fun i w d hd => ?_, fun y hy hv => ?_⟩
  · obtain ⟨e, he, hr, hs⟩ := hway i w d hd
    rw [(getElem_slot t.slots hr.slot).trans hs, hr.generation, hr.schedule]
    obtain ⟨h1, h2, h3⟩ := h.entries i w e he
    exact ⟨h1, h2, fun hp => h3 (hr.pins hp)⟩
  · obtain ⟨x, hx, hr, hs⟩ := hcur y hy hv
    rw [(getElem_slot t.slots hr.slot).trans hs, hr.generation, hr.keys]
    exact h.expansion x hx (hr.void hv)

/-- The laws of keys stand where cache, expander and slots do. -/
theorem keyed_congr {s t : State} (h : s.keyed) (hk : t.cache = s.cache) (hx : t.expander = s.expander)
    (hs : t.slots = s.slots) : t.keyed :=
  keyed_remains h (fun i w d hd => ⟨d, way_congr hk i w ▸ hd, .refl d, by rw [hs]⟩)
    fun y hy _ => ⟨y, hx ▸ hy, ⟨rfl, rfl, rfl, id⟩, by rw [hs]⟩

/-- A slot that holds no keys has no entry and no expansion that is not void, so that it may be written (R57, R60, R64). -/
theorem keyed_writeSlot {s : State} (h : s.keyed) {k : SlotNo} {r : Slot}
    (hb : s.slots[k].body = .empty ∨ s.slots[k].body = .faulted) : (s.writeSlot k r).keyed := by
  have hslot : ∀ j : SlotNo, k ≠ j → (s.writeSlot k r).slots[j] = s.slots[j] := fun j hj => by
    rw [State.writeSlot_slots, getElem_set_fin, if_neg hj]
  refine keyed_remains h (fun i w d hd => ⟨d, hd, .refl d, hslot _ ?_⟩) fun y hy hv => ⟨y, hy, ⟨rfl, rfl, rfl, id⟩, hslot _ ?_⟩
  · rintro rfl
    obtain ⟨-, ⟨keys, -, hkeys⟩, -⟩ := h.entries i w d hd
    rcases hb with hb | hb <;> rw [hb] at hkeys <;> simp at hkeys
  · rintro rfl
    have := (h.expansion y hy hv).1
    rcases hb with hb | hb <;> rw [hb] at this <;> cases this

theorem keyed_takeEligible {s : State} (hk : s.custody) (hl : s.ledger) (h : s.keyed) : s.takeEligible.keyed := by
  rcases takeEligible_cases s with ht | ⟨r, w, keys, hx, hr, hw, hb, ht⟩ <;> rw [ht]
  · exact h
  · refine ⟨fun i v e he => ?_, ?_⟩
    · have he' : (s.invalidated (setOf r.slot r.generation) w).way i v = some e := he
      rw [way_invalidated_eq] at he'
      split at he'
      · cases he'
      · exact h.entries i v e he'
    · rintro y ⟨⟩ -
      obtain ⟨h1, h2, -⟩ := hl.queued.2 r hr
      exact ⟨hb, (waitsFor_loaded hk hl h2 h1).2⟩

/-- A hit's entry is pinned for a context entitled to its key. -/
theorem keyed_hit {s : State} (hl : s.ledger) (h : s.keyed) {c : Context} {cap : Capture} {w : Way}
    (hc : c.capture = some cap) (he : s.entitled c)
    (hw : s.cache[setOf cap.slot cap.generation].find cap.slot cap.generation = some w) :
    ((s.putSet (setOf cap.slot cap.generation) (s.cache[setOf cap.slot cap.generation].pin w)).addContext c).keyed := by
  have hway := way_pin hl.placed hc hw (t := (s.putSet _ (s.cache[setOf cap.slot cap.generation].pin w)).addContext c) rfl
  refine ⟨fun i v d hd => ?_, h.expansion⟩
  rw [hway i v] at hd
  obtain ⟨e, hs, hd⟩ := Option.bind_eq_some_iff.1 hd
  obtain ⟨h1, h2, h3⟩ := h.entries i v e hs
  unfold Entry.afterPin at hd
  split at hd
  · next hp =>
    cases hd
    refine ⟨h1, h2, fun _ => ?_⟩
    obtain ⟨-, cap', h4, -, h6, -⟩ := he
    obtain ⟨cap'', h7, h8, -⟩ := hasPair_iff.1 hp
    rw [h4] at h7
    cases h7
    exact h8 ▸ h6
  · cases hd
    exact ⟨h1, h2, h3⟩

/-- The fill of an expansion, in the terms of its law. -/
theorem fills_of_fillsFor {s : State} {x : Expansion} (hc : s.expander.current = some x) (hf : s.fillsFor x) :
    s.Fills x (s.expanderIdle.fill x) := by
  refine ⟨hc, hf.1, rfl, fun i w => ?_, rfl⟩
  have hset : (s.expanderIdle.fill x).way i w =
      (s.putSet x.set { s.cache[x.set].put x.way (some x.entry) with recent := x.way }).way i w := rfl
  have hent : ({ s.cache[x.set].put x.way (some x.entry) with recent := x.way } : CacheSet).entry w =
      (s.cache[x.set].put x.way (some x.entry)).entry w := by cases w <;> rfl
  rw [hset, way_putSet, hent, CacheSet.entry_put]
  by_cases hi : i = x.set
  · subst hi
    by_cases hw : w = x.way <;> simp [hw, State.way]
  · simp [hi]

theorem keyed_fill {s : State} (h : s.keyed) {x : Expansion} (hc : s.expander.current = some x) (hf : s.fillsFor x) :
    (s.expanderIdle.fill x).keyed := by
  refine ⟨fun i w e he => ?_, fun y hy => by cases hy⟩
  rcases (fills_of_fillsFor hc hf).way_cases he with ⟨-, -, rfl⟩ | he
  · obtain ⟨h1, h2⟩ := h.expansion x hc hf.1
    exact ⟨h2, ⟨x.keys, rfl, .inl h1⟩, fun _ => hf.2.1⟩
  · exact h.entries i w e he

/-! ## Scrub and containment (R60, R61, R131, R162) -/

section
variable {s : State} {k : SlotNo} {keys : KeyPair} {cause : ScrubCause}

theorem ledger_scrub (hs : s.contextLaws) (hl : s.ledger) : (s.scrub k keys cause).ledger := by
  obtain ⟨hch, hdead⟩ := scrubRevoked_facts hs k keys cause
  have hbegun : (s.scrubBegun k keys cause).ledger := ledger_congr (s := s) rfl rfl rfl hl
  have hrev := hch.ledger (scrubBegun_contextLaws hs k keys cause) hbegun
  rw [scrub_eq]
  generalize s.scrubRevoked k keys cause = u at hdead hrev ⊢
  refine ledger_voided (p := fun r => r.slot ≠ k) (q := fun e => e.slot == k) hrev (fun c hc hst cap hcap => ?_) rfl rfl rfl
  have hne : cap.slot ≠ k := fun e => by
    have := hdead c hc (live_of_waitKey hst)
    rw [holds_iff.2 ⟨live_of_waitKey hst, cap, hcap, e⟩] at this
    cases this
  exact ⟨fun r hr => by simpa [hr] using hne, fun x hx => by simpa [hx] using hne⟩

/-- A scrub leaves no pinned entry of its slot. -/
theorem scrub_unpinned (hs : s.contextLaws) (hl : s.ledger) {i : Fin 4} {w : Way} {d : Entry}
    (hd : (s.scrub k keys cause).way i w = some d) (hk : d.slot = k) : d.pins = 0 := by
  have hdead := (scrubRevoked_facts hs k keys cause).2
  have hscrub : (s.scrub k keys cause).ledger := ledger_scrub hs hl
  refine pins_zero hscrub hd fun c hc hlive cap hcap hcs => ?_
  rw [scrub_eq] at hc
  have := hdead c hc hlive
  rw [holds_iff.2 ⟨hlive, cap, hcap, hcs.trans hk⟩] at this
  cases this

/-- The slots after a scrub: the slot scrubbed is SCRUBBING, and the others stand (R60). -/
theorem scrub_slots (hs : s.contextLaws) :
    (s.scrub k keys cause).slots = s.slots.set k (Slot.sealed k { s.slots[k] with body := .scrubbing keys cause }) := by
  rw [scrub_eq]
  exact (scrubRevoked_facts hs k keys cause).1.tables.2.2.1

theorem scrub_slot_other (hs : s.contextLaws) {j : SlotNo} (hj : k ≠ j) : (s.scrub k keys cause).slots[j] = s.slots[j] := by
  rw [scrub_slots hs, getElem_set_fin, if_neg hj]

theorem scrub_slot_self (hs : s.contextLaws) : (s.scrub k keys cause).slots[k].body = .scrubbing keys cause ∧
    (s.scrub k keys cause).slots[k].generation = s.slots[k].generation := by
  have h : (s.scrub k keys cause).slots[k] = Slot.sealed k { s.slots[k] with body := .scrubbing keys cause } := by
    rw [scrub_slots hs, getElem_set_fin, if_pos rfl]
  rw [h]
  exact ⟨rfl, rfl⟩

/-- What a scrub has done to entries, expansion and slots, and that they stay keyed by the keys being erased (R63, R127). -/
theorem keyed_of_scrubbing {u : State} (h : s.keyed)
    (hb : s.slots[k].body = .loaded keys ∨ s.slots[k].body = .undefined keys)
    (hother : ∀ j : SlotNo, k ≠ j → u.slots[j] = s.slots[j])
    (hself : u.slots[k].body = .scrubbing keys cause ∧ u.slots[k].generation = s.slots[k].generation)
    (hways : ∀ i w d, u.way i w = some d → (∃ e, s.way i w = some e ∧ e.Remains d) ∧ (d.slot = k → d.pins = 0))
    (hcurs : ∀ y, u.expander.current = some y → y.void = false →
      y.slot ≠ k ∧ ∃ x, s.expander.current = some x ∧ x.Remains y) : u.keyed := by
  refine ⟨fun i w d hd => ?_, fun y hy hv => ?_⟩
  · obtain ⟨⟨e, he, hr⟩, hzero⟩ := hways i w d hd
    obtain ⟨h1, ⟨ks, h2, h3⟩, h4⟩ := h.entries i w e he
    by_cases hk : k = d.slot
    · rw [getElem_slot s.slots (hr.slot.symm.trans hk.symm)] at h1 h3
      rw [getElem_slot u.slots hk.symm, hself.1, hself.2, hr.generation, hr.schedule]
      refine ⟨h1, ⟨ks, h2, .inr ⟨cause, ?_⟩⟩, fun hp => absurd (hzero hk.symm) hp⟩
      rcases hb with hb | hb <;> rw [hb] at h3 <;> rcases h3 with h3 | ⟨_, h3⟩ <;> cases h3
      rfl
    · rw [(hother _ hk).trans (getElem_slot s.slots hr.slot), hr.generation, hr.schedule]
      exact ⟨h1, ⟨ks, h2, h3⟩, fun hp => h4 (hr.pins hp)⟩
  · obtain ⟨hk, x, hx, hr⟩ := hcurs y hy hv
    rw [(hother _ (Ne.symm hk)).trans (getElem_slot s.slots hr.slot), hr.generation, hr.keys]
    exact h.expansion x hx (hr.void hv)

/-- An expansion that stands after a scrub and is not void is of another slot (R127). -/
theorem scrub_expansion {y : Expansion} (hy : (s.scrub k keys cause).expander.current = some y) (hv : y.void = false) :
    y.slot ≠ k ∧ (s.scrubRevoked k keys cause).expander.current = some y := by
  rw [scrub_eq] at hy
  generalize s.scrubRevoked k keys cause = u at hy ⊢
  simp only [Expander.afterScrub, Expander.voidWhere] at hy
  rw [Option.map_eq_some_iff] at hy
  obtain ⟨z, hz, rfl⟩ := hy
  by_cases hzk : z.slot = k
  · simp [hzk] at hv
  · simp [hzk, hz]

theorem scrubBegun_ledger (hl : s.ledger) : (s.scrubBegun k keys cause).ledger := ledger_congr (s := s) rfl rfl rfl hl

theorem scrubBegun_way : ∀ i w, (s.scrubBegun k keys cause).way i w = s.way i w := way_congr rfl

theorem scrubBegun_current : (s.scrubBegun k keys cause).expander.current = s.expander.current := rfl

/-- A scrub makes no entry. -/
theorem scrub_ways (hs : s.contextLaws) (hl : s.ledger) {i : Fin 4} {w : Way} {d : Entry}
    (hd : (s.scrub k keys cause).way i w = some d) : ∃ e, s.way i w = some e ∧ e.Remains d := by
  obtain ⟨hch, -⟩ := scrubRevoked_facts hs k keys cause
  rw [scrub_eq] at hd
  obtain ⟨e, he, hr⟩ := (hch.remains (scrubBegun_contextLaws hs k keys cause) (scrubBegun_ledger hl)).1 i w d hd
  exact ⟨e, (scrubBegun_way i w).symm.trans he, hr⟩

/-- A scrub begins no expansion. -/
theorem scrub_current (hs : s.contextLaws) (hl : s.ledger) {y : Expansion}
    (hy : (s.scrub k keys cause).expander.current = some y) (hv : y.void = false) :
    y.slot ≠ k ∧ ∃ x, s.expander.current = some x ∧ x.Remains y := by
  obtain ⟨hch, -⟩ := scrubRevoked_facts hs k keys cause
  obtain ⟨hk, hz⟩ := scrub_expansion hy hv
  obtain ⟨x, hx, hr⟩ := (hch.remains (scrubBegun_contextLaws hs k keys cause) (scrubBegun_ledger hl)).2 y hz
  exact ⟨hk, x, scrubBegun_current.symm.trans hx, hr⟩

theorem keyed_scrub (hs : s.contextLaws) (hl : s.ledger) (h : s.keyed)
    (hb : s.slots[k].body = .loaded keys ∨ s.slots[k].body = .undefined keys) : (s.scrub k keys cause).keyed :=
  keyed_of_scrubbing h hb (fun _ => scrub_slot_other hs) (scrub_slot_self hs)
    (fun _ _ _ hd => ⟨scrub_ways hs hl hd, scrub_unpinned hs hl hd⟩) fun _ => scrub_current hs hl

theorem ledger_contained (hs : s.contextLaws) (hl : s.ledger) : s.enterContained.ledger := by
  obtain ⟨hch, hdead⟩ := containRevoked_facts hs
  have hrev : s.containRevoked.ledger :=
    hch.ledger (containBegun_contextLaws hs) (ledger_congr (s := s) rfl rfl rfl hl)
  rw [enterContained_eq]
  refine ledger_voided (p := fun _ => false) (q := fun _ => true) hrev (fun c hc hst cap hcap => ?_) rfl rfl ?_
  · have := hdead c hc ((hrev.captures c hc).1 (by rw [hcap]; rfl))
    rw [live_of_waitKey hst] at this
    cases this
  · simp [Expander.afterContainment]

theorem keyed_contained (hs : s.contextLaws) (hl : s.ledger) (h : s.keyed) : s.enterContained.keyed := by
  obtain ⟨hch, -⟩ := containRevoked_facts hs
  obtain ⟨hways, -⟩ := hch.remains (containBegun_contextLaws hs) (ledger_congr (s := s) rfl rfl rfl hl)
  rw [enterContained_eq]
  refine keyed_remains h (fun i w d hd => ?_) fun y hy hv => ?_
  · obtain ⟨e, he, hr⟩ := hways i w d hd
    refine ⟨e, he, hr, ?_⟩
    change s.containRevoked.slots[e.slot] = _
    rw [hch.tables.2.2.1]
    rfl
  · obtain ⟨z, -, rfl⟩ := Option.map_eq_some_iff.1 hy
    cases hv

end

/-! ## Every move -/

/-- What RECOVER leaves of books: no entry, an expansion void, the queue as it was (R69, R132, R165). -/
theorem recoverAll_books (s : State) :
    s.recoverAll.contexts = s.contexts ∧ s.recoverAll.cache = (Vector.ofFn fun i => s.cache[i].discard fun _ => true) ∧
      s.recoverAll.expander = s.expander.voidWhere (fun _ => true) ∧
      s.recoverAll.slots = (Vector.ofFn fun k => s.slots[k].recovered k) ∧
      s.recoverAll.ranges = (Vector.ofFn fun i => s.ranges[i].recovered i) ∧ s.recoverAll.decoder = s.decoder := by
  unfold State.recoverAll
  dsimp only
  split <;> exact ⟨rfl, rfl, rfl, rfl, rfl, rfl⟩

/-- A cache with every entry discarded holds none. -/
theorem way_discardAll {s t : State} (h : t.cache = Vector.ofFn fun i => s.cache[i].discard fun _ => true) (i : Fin 4) (w : Way) :
    t.way i w = none := by
  rw [way_ofFn h, entry_discard]
  cases s.cache[i].entry w <;> rfl

theorem ledger_recoverAll {s : State} (hk : s.custody) (hl : s.ledger) (hd : s.contain.device = .contained) :
    s.recoverAll.ledger := by
  obtain ⟨h1, h2, h3, -⟩ := recoverAll_books s
  have hdead : ∀ c ∈ s.contexts, ∀ cap, c.capture = some cap → c.live = false := fun c hc cap hcap =>
    captured_dead hk hl (by rw [hd]; decide) hc hcap
  have hu : ({ s with cache := s.recoverAll.cache } : State).ledger :=
    ledger_discard (p := fun _ => true) hl h2 rfl rfl fun i w e he _ => pins_zero hl he fun c hc hlive cap hcap => by
      rw [hdead c hc cap hcap] at hlive; cases hlive
  refine ledger_voided (p := fun _ => true) (q := fun _ => true) hu (fun c hc hst cap hcap => ?_) h1 rfl ?_
  · have := hdead c hc cap hcap
    rw [live_of_waitKey hst] at this
    cases this
  · rw [h3, List.filter_true]

/-- A slot under erasure has no live context of its own. -/
theorem scrubbing_dead {s : State} (hk : s.custody) (hl : s.ledger) {k : SlotNo} {keys : KeyPair} {cause : ScrubCause}
    (hb : s.slots[k].body = .scrubbing keys cause) {c : Context} (hc : c ∈ s.contexts) (hlive : c.live = true) {cap : Capture}
    (hcap : c.capture = some cap) : cap.slot ≠ k := by
  rintro rfl
  have := (ledger_entitled hk hl hc hlive hcap).2.2.1
  rw [isLoaded_of_body fun _ h => by rw [hb] at h; cases h] at this
  cases this

/-- What the end of an erasure leaves of books (R63). -/
theorem eraseSlot_books (k : SlotNo) (cause : ScrubCause) (s : State) :
    (s.eraseSlot k cause).contexts = s.contexts ∧
      (s.eraseSlot k cause).cache = (Vector.ofFn fun i => s.cache[i].discard fun e => e.slot == k) ∧
      (s.eraseSlot k cause).expander = s.expander ∧ (s.eraseSlot k cause).decoder = s.decoder ∧
      (s.eraseSlot k cause).ranges = s.ranges ∧
      ∃ b, (b = .empty ∨ b = .faulted) ∧ (s.eraseSlot k cause).slots = s.slots.set k (Slot.sealed k { s.slots[k] with body := b }) := by
  cases cause
  · exact ⟨rfl, rfl, rfl, rfl, rfl, .empty, .inl rfl, rfl⟩
  · exact ⟨rfl, rfl, rfl, rfl, rfl, .faulted, .inr rfl, rfl⟩

/-- A move keeps the laws of the cache that read no slot. -/
theorem Move.ledger {s t : State} (hk : s.keyCustody) (hl : s.ledger) (hy : s.keyed) (h : Move s t) : t.ledger := by
  obtain ⟨hs, hk⟩ := hk
  cases h with
  | change h => exact h.ledger hs hl
  | take => exact ledger_takeEligible hl
  | plain c ha hst hc hp =>
    have hpair : ∀ k g, c.hasPair k g = false := fun k g => by simp [Context.hasPair, hc]
    refine ledger_joined hl hst (by simp [hc, hp]) (fun cap hcap => by rw [hc] at hcap; cases hcap) rfl (fun i w => ?_) rfl
    change s.way i w = _
    cases s.way i w <;> simp [Entry.afterPin, hpair]
  | hit c cap w ha hst hc hp he hw =>
    refine ledger_joined hl hst (by simp [hc, hp]) (fun cap' hcap' => ?_) rfl (way_pin hl.placed hc hw rfl) rfl
    rw [hc] at hcap'
    cases hcap'
    obtain ⟨e, he, hpair⟩ := find_some hw
    exact entryOf_isSome_iff.2 ⟨w, e, he, hpair⟩
  | miss c cap ha hst hf hc hp he hw => exact ledger_attached hl ⟨ha.fresh, hst, hf, hp, hc, hw, rfl, rfl⟩ rfl
  | fill x hc hf => exact ledger_fills hs hl (fills_of_fillsFor hc hf)
  | discard x hc hf =>
    refine ledger_discarded hl hc ?_ rfl rfl rfl
    by_contra hv
    rw [Bool.not_eq_true] at hv
    obtain ⟨h1, h2⟩ := hy.expansion x hc hv
    exact hf ⟨hv, isLoaded_iff.2 ⟨_, h1⟩, h2⟩
  | scrub k keys cause _ => exact ledger_scrub hs hl
  | contain => exact ledger_contained hs hl
  | erase k keys cause hb =>
    obtain ⟨h1, h2, h3, -⟩ := eraseSlot_books k cause s
    refine ledger_discard hl h2 h1 h3 fun i w e he hek => pins_zero hl he fun c hc hlive cap hcap => ?_
    rw [eq_of_beq hek]
    exact scrubbing_dead hk hl hb hc hlive hcap
  | clear => exact ledger_abandonAll hl
  | recover hd => exact ledger_recoverAll hk hl hd
  | flush => exact ledger_flushed hl
  | reset h =>
    have hnone : ∀ i w, t.way i w = none := fun i w => by
      rw [way_congr h.cache, way_ofFn (t := State.reset) rfl]
      cases w <;> rfl
    refine ledger_empty h.contexts ⟨fun i w e he => ?_, fun i e d he => ?_⟩ (fun i w e he => ?_) ?_ fun x hx => ?_
    · rw [hnone] at he; cases he
    · rw [hnone] at he; cases he
    · rw [hnone] at he; cases he
    · rw [h.expander]; rfl
    · rw [h.expander] at hx; cases hx
  | load _ _ _ _ _ _ | blank _ _ _ _ | device _ _ | ranges _ _ | setRange _ _ _ | window _ _ _ =>
    exact ledger_congr (s := s) rfl rfl rfl hl

/-- A move keeps the laws of the cache that read the slots. -/
theorem Move.keyed {s t : State} (hk : s.keyCustody) (hl : s.ledger) (hy : s.keyed) (h : Move s t) : t.keyed := by
  obtain ⟨hs, hk⟩ := hk
  cases h with
  | change h =>
    obtain ⟨hway, hcur⟩ := h.remains hl
    have hsl := h.tables.2.2.1
    refine keyed_remains hy (fun i w d hd => ?_) fun y hy _ => ?_
    · obtain ⟨e, he, hr⟩ := hway i w d hd
      exact ⟨e, he, hr, by rw [hsl]⟩
    · obtain ⟨x, hx, hr⟩ := hcur y hy
      exact ⟨x, hx, hr, by rw [hsl]⟩
  | take => exact keyed_takeEligible hk hl hy
  | hit c cap w _ _ hc _ he hw => exact keyed_hit hl hy hc he hw
  | miss c cap _ _ _ _ _ _ _ =>
    refine ⟨hy.entries, fun y hx hv => ?_⟩
    rcases attach_cases c.number cap.slot cap.generation s.expander with
      ⟨x, hcur, -, -, -, hatt⟩ | ⟨-, -, hatt⟩ | ⟨-, -, hatt⟩
    · change (s.expander.attach c.number cap.slot cap.generation).current = some y at hx
      rw [hatt] at hx
      cases hx
      exact hy.expansion x hcur hv
    · change (s.expander.attach c.number cap.slot cap.generation).current = some y at hx
      rw [hatt] at hx
      exact hy.expansion y hx hv
    · change (s.expander.attach c.number cap.slot cap.generation).current = some y at hx
      rw [hatt] at hx
      exact hy.expansion y hx hv
  | fill x hc hf => exact keyed_fill hy hc hf
  | discard x _ _ => exact ⟨hy.entries, fun y hx => by cases hx⟩
  | scrub k keys cause hb => exact keyed_scrub hs hl hy hb
  | contain => exact keyed_contained hs hl hy
  | erase k keys cause hb =>
    obtain ⟨-, h2, h3, -, -, b, -, hsl⟩ := eraseSlot_books k cause s
    have hslot : ∀ j : SlotNo, k ≠ j → (s.eraseSlot k cause).slots[j] = s.slots[j] := fun j hj => by
      rw [hsl, getElem_set_fin, if_neg hj]
    refine keyed_remains hy (fun i w d hd => ?_) fun y hx hv => ?_
    · rw [way_ofFn h2, entry_discard] at hd
      obtain ⟨e, he, hd⟩ := Option.bind_eq_some_iff.1 hd
      obtain ⟨rfl, hek⟩ := discarded_some hd
      exact ⟨d, he, .refl d, hslot _ fun e => by simp [e] at hek⟩
    · rw [h3] at hx
      refine ⟨y, hx, ⟨rfl, rfl, rfl, id⟩, hslot _ ?_⟩
      rintro rfl
      have := (hy.expansion y hx hv).1
      rw [hb] at this
      cases this
  | clear =>
    refine keyed_remains hy (fun i w d hd => ?_) fun y hx hv => ?_
    · rw [way_abandonAll s i w] at hd
      obtain ⟨e, he, hd⟩ := Option.bind_eq_some_iff.1 hd
      obtain ⟨-, rfl⟩ := afterClear_some hd
      exact ⟨e, he, ⟨rfl, rfl, rfl, fun hp => absurd rfl hp⟩, rfl⟩
    · obtain ⟨x, hcur, rfl⟩ := Option.map_eq_some_iff.1 hx
      exact ⟨x, hcur, ⟨rfl, rfl, rfl, id⟩, rfl⟩
  | recover hd =>
    obtain ⟨-, h2, h3, -⟩ := recoverAll_books s
    refine ⟨fun i w d hd => ?_, fun y hx hv => ?_⟩
    · rw [way_discardAll h2] at hd; cases hd
    · rw [h3] at hx
      obtain ⟨x, -, rfl⟩ := Option.map_eq_some_iff.1 hx
      cases hv
  | flush =>
    refine keyed_remains hy (fun i w d hd => ?_) fun y hx _ => ⟨y, hx, ⟨rfl, rfl, rfl, id⟩, rfl⟩
    rw [way_flushed s i w] at hd
    obtain ⟨e, he, hd⟩ := Option.bind_eq_some_iff.1 hd
    obtain ⟨-, rfl⟩ := flushed_some hd
    exact ⟨e, he, ⟨rfl, rfl, rfl, id⟩, rfl⟩
  | load k p g hb _ _ => exact keyed_writeSlot hy (.inl hb)
  | blank k b hb _ => exact keyed_writeSlot hy hb
  | reset h =>
    refine ⟨fun i w e he => ?_, fun x hx => by rw [h.expander] at hx; cases hx⟩
    rw [way_congr h.cache, way_ofFn (t := State.reset) rfl] at he
    cases w <;> cases he
  | plain _ _ _ _ _ | device _ _ | ranges _ _ | setRange _ _ _ | window _ _ _ => exact keyed_congr (s := s) hy rfl rfl rfl

/-- Moves keep custody, ledger and keys together. -/
theorem Moves.books {s t : State} (hk : s.keyCustody) (hl : s.ledger) (hy : s.keyed) (h : Moves s t) :
    t.keyCustody ∧ t.ledger ∧ t.keyed := by
  induction h with
  | refl => exact ⟨hk, hl, hy⟩
  | tail _ h ih => exact ⟨h.keyCustody ih.1, h.ledger ih.1 ih.2.1 ih.2.2, h.keyed ih.1 ih.2.1 ih.2.2⟩

end Sys2Proof.Machine
end

