-- ==== Sys2Proof/Proofs/Tables.lean ====
section
/-! SUPPORT. What each kind of move keeps of the laws of the three tables (R11, R22, R34, R40, R44, R54). -/

namespace Sys2Proof.Machine

variable {s t : State}

/-! ## Windows (R22) -/

theorem windowsApart_congr (h : t.decoder.windows = s.decoder.windows) (hs : s.windowsApart) : t.windowsApart := by
  unfold State.windowsApart
  rw [h]
  exact hs

/-- Two windows that share an address meet. -/
theorem meets_of_covers {a b : Window} {u : UnitAddr} (ha : a.covers u = true) (hb : b.covers u = true) : a.meets b = true := by
  simp only [Window.covers, Window.meets, Bool.and_eq_true, decide_eq_true_eq] at *
  exact ⟨⟨ha.1.1, hb.1.1⟩, by omega⟩

/-- A record for a window that covers an address is refused if another window covers it (R22). -/
theorem windowOverlaps_of_covers {i j : WindowNo} (hj : j ≠ i) {w : Window} {u : UnitAddr} (hw : w.covers u = true)
    (h : s.decoder.windows[j].covers u = true) : s.windowOverlaps i w = true := by
  unfold State.windowOverlaps
  rw [List.any_eq_true]
  exact ⟨j, List.mem_finRange j, by rw [meets_of_covers hw h, Bool.and_true, bne_iff_ne]; exact hj⟩

theorem windowsApart_writeWindow (hs : s.windowsApart) {i : WindowNo} {w : Window}
    (h : w.treatment.covers = false ∨ s.windowOverlaps i w = false) : (s.writeWindow i w).windowsApart := by
  have hnew : ∀ {j : WindowNo} {u : UnitAddr}, j ≠ i → w.covers u = true → s.decoder.windows[j].covers u = false := by
    intro j u hj hw
    by_contra hc
    rw [Bool.not_eq_false] at hc
    rcases h with h | h
    · simp [Window.covers, h] at hw
    · rw [windowOverlaps_of_covers hj hw hc] at h
      cases h
  have hget : ∀ j : WindowNo, (s.writeWindow i w).decoder.windows[j] = if i = j then w.sealed i else s.decoder.windows[j] :=
    fun j => getElem_set_fin _ i j _
  intro j k u hj hk
  rw [hget] at hj hk
  split at hj <;> split at hk
  · next h1 h2 => exact h1.symm.trans h2
  · next _ h2 => rw [hnew (Ne.symm h2) hj] at hk; cases hk
  · next h1 _ => rw [hnew (Ne.symm h1) hk] at hj; cases hj
  · exact hs j k u hj hk

/-! ## Ranges (R34, R40) -/

/-- The spans stay, or become the span of no sectors. -/
theorem rangesApart_of_spans (hs : s.rangesApart)
    (h : ∀ i : RangeNo, t.ranges[i].span = s.ranges[i].span ∨ t.ranges[i].span = some { first := 0, count := 0 }) :
    t.rangesApart := by
  have hcov : ∀ (i : RangeNo) (n : Sector), t.ranges[i].covers n = true → s.ranges[i].covers n = true := by
    intro i n hi
    rcases h i with h | h
    · rwa [Range.covers, h] at hi
    · rw [Range.covers, h] at hi; cases hi
  refine ⟨fun i j n hi hj h1 h2 => hs.1 i j n hi hj (hcov i n h1) (hcov j n h2), fun i hi sp hsp => ?_⟩
  rcases h i with h | h <;> rw [h] at hsp
  · exact hs.2 i hi sp hsp
  · cases hsp; decide

theorem rangesApart_congr (h : t.ranges = s.ranges) (hs : s.rangesApart) : t.rangesApart :=
  rangesApart_of_spans hs fun i => .inl (by rw [h])

/-- A span that covers a sector number meets another that covers it. -/
theorem spanOverlaps_of_covers {i j : RangeNo} (hj : j ≠ i) (hj' : j ≠ 0) {r : Range} {sp : Span} (hr : r.span = some sp)
    {n : Sector} (h1 : r.covers n = true) (h2 : s.ranges[j].covers n = true) : s.spanOverlaps i sp = true := by
  unfold State.spanOverlaps
  rw [List.any_eq_true]
  refine ⟨j, List.mem_finRange j, ?_⟩
  unfold Range.covers at h1 h2
  rw [hr] at h1
  cases ho : s.ranges[j].span with
  | none => rw [ho] at h2; cases h2
  | some o =>
    rw [ho] at h2
    simp only [Bool.and_eq_true, decide_eq_true_eq, Span.meets, bne_iff_ne] at h1 h2 ⊢
    exact ⟨⟨hj, hj'⟩, ⟨⟨h1.1.1, h2.1.1⟩, by omega⟩, by omega⟩

theorem rangesApart_writeRange (hs : s.rangesApart) {i : RangeNo} {r : Range} (h : s.RangeFits i r) :
    (s.writeRange i r).rangesApart := by
  have hget : ∀ j : RangeNo, (s.writeRange i r).ranges[j] = if i = j then r.sealed i else s.ranges[j] :=
    fun j => getElem_set_fin _ i j _
  have hnew : ∀ {j : RangeNo} {n : Sector}, i ≠ 0 → j ≠ 0 → j ≠ i → r.covers n = true → s.ranges[j].covers n = false := by
    intro j n hi hj hji hr
    obtain ⟨sp, hsp, -, hno⟩ := h.fits hi
    by_contra hc
    rw [Bool.not_eq_false] at hc
    rw [spanOverlaps_of_covers hji hj hsp hr hc] at hno
    cases hno
  refine ⟨fun j k n hj0 hk0 hj hk => ?_, fun j hj0 sp hsp => ?_⟩
  · rw [hget] at hj hk
    split at hj <;> split at hk
    · next h1 h2 => exact h1.symm.trans h2
    · next h1 h2 => rw [hnew (h1 ▸ hj0) hk0 (Ne.symm h2) hj] at hk; cases hk
    · next h1 h2 => rw [hnew (h2 ▸ hk0) hj0 (Ne.symm h1) hk] at hj; cases hj
    · exact hs.1 j k n hj0 hk0 hj hk
  · rw [hget] at hsp
    split at hsp
    · next hij =>
      obtain ⟨sp', hsp', hle, -⟩ := h.fits (hij ▸ hj0)
      cases hsp'.symm.trans hsp
      exact hle
    · exact hs.2 j hj0 sp hsp

/-! ## Open ranges and slots (R11, R44, R54) -/

/-- No range is opened but one whose slot is LOADED, and the slots of the open ones stand. -/
theorem openRangesKeyed_of (hs : s.openRangesKeyed) (h : ∀ i : RangeNo, t.ranges[i].isOpen = true →
      t.ranges[i].binding = s.ranges[i].binding ∧ (s.ranges[i].isOpen = true ∨ s.bindingLoaded i = true) ∧
        ∀ k, s.ranges[i].binding = some k → s.slots[k].isLoaded = true → t.slots[k].isLoaded = true) :
    t.openRangesKeyed := by
  intro i hi
  obtain ⟨hb, ho, hl⟩ := h i hi
  have hkey : ∃ k, s.ranges[i].binding = some k ∧ s.slots[k].isLoaded = true := by
    rcases ho with ho | ho
    · exact hs i ho
    · unfold State.bindingLoaded at ho
      split at ho
      · next k hk => exact ⟨k, hk, ho⟩
      · cases ho
  obtain ⟨k, hk, hkl⟩ := hkey
  exact ⟨k, hb.trans hk, hl k hk hkl⟩

theorem openRangesKeyed_congr (hr : t.ranges = s.ranges) (hk : t.slots = s.slots) (hs : s.openRangesKeyed) :
    t.openRangesKeyed := openRangesKeyed_of hs fun i hi => by rw [hr] at hi ⊢; rw [hk]; exact ⟨rfl, .inl hi, fun _ _ h => h⟩

/-- A slot that is not LOADED is written: no open range is bound to it. -/
theorem openRangesKeyed_set (hr : t.ranges = s.ranges) {k : SlotNo} {r : Slot} (hk : t.slots = s.slots.set k r)
    (hn : s.slots[k].isLoaded = false) (hs : s.openRangesKeyed) : t.openRangesKeyed := by
  refine openRangesKeyed_of hs fun i hi => ?_
  rw [hr] at hi ⊢
  refine ⟨rfl, .inl hi, fun j _ hj => ?_⟩
  rw [hk, getElem_set_fin, if_neg]
  · exact hj
  · rintro rfl
    rw [hn] at hj
    cases hj

theorem keysApart_congr (h : t.slots = s.slots) (hs : s.keysApart) : t.keysApart := by
  unfold State.keysApart
  rw [h]
  exact hs

/-- A slot is written with two different keys and a generation that is not 0, or with no keys to use. -/
theorem keysApart_set {k : SlotNo} {r : Slot} (h : t.slots = s.slots.set k r)
    (hr : ∀ p, r.body = .loaded p → p.dataKey ≠ p.tweakKey ∧ r.generation ≠ 0) (hs : s.keysApart) : t.keysApart := by
  have hget : ∀ j : SlotNo, t.slots[j] = if k = j then r else s.slots[j] := fun j => by rw [h, getElem_set_fin]
  intro j p hp
  rw [hget] at hp ⊢
  split at hp
  · next e => rw [if_pos e]; exact hr p hp
  · next e => rw [if_neg e]; exact hs j p hp

/-- Nothing of the tables is touched. -/
theorem tableLaws_congr (hw : t.decoder.windows = s.decoder.windows) (hr : t.ranges = s.ranges) (hk : t.slots = s.slots)
    (hs : s.tableLaws) : t.tableLaws :=
  ⟨windowsApart_congr hw hs.1, rangesApart_congr hr hs.2.1, openRangesKeyed_congr hr hk hs.2.2.1, keysApart_congr hk hs.2.2.2⟩

/-! ## Locked ranges (R44, R47) -/

theorem lock_span (i : RangeNo) (r : Range) : (r.lock i).span = r.span := by
  unfold Range.lock
  split <;> rfl

theorem lock_closed (i : RangeNo) (r : Range) : (r.lock i).isOpen = false := by
  unfold Range.lock
  split
  · rfl
  · next h => rwa [Bool.not_eq_true] at h

theorem lockRanges_get (p : Range → Bool) (s : State) (i : RangeNo) :
    (s.lockRanges p).ranges[i] = if p s.ranges[i] then s.ranges[i].lock i else s.ranges[i] := by
  simp [State.lockRanges]

/-- A scrub keeps the table laws: the slot's ranges are locked before its keys go (R60). -/
theorem tableLaws_scrubBegun (k : SlotNo) (keys : KeyPair) (cause : ScrubCause) (hs : s.tableLaws) :
    (s.scrubBegun k keys cause).tableLaws := by
  obtain ⟨hw, hr, ho, hk⟩ := hs
  have hget : ∀ i : RangeNo, (s.scrubBegun k keys cause).ranges[i] =
      if s.ranges[i].binding == some k then s.ranges[i].lock i else s.ranges[i] := fun i => lockRanges_get _ _ i
  refine ⟨windowsApart_congr (s := s) rfl hw, rangesApart_of_spans hr fun i => .inl ?_, openRangesKeyed_of ho fun i hi => ?_,
    keysApart_set (s := s) rfl (fun p hp => by cases hp) hk⟩
  · rw [hget]
    split
    · exact lock_span i _
    · rfl
  · rw [hget] at hi ⊢
    split at hi
    · rw [lock_closed] at hi; cases hi
    · next hb =>
      rw [if_neg hb]
      refine ⟨rfl, .inl hi, fun j hj hl => ?_⟩
      have hkj : k ≠ j := by rintro rfl; exact hb (beq_iff_eq.2 hj)
      change (s.slots.set k _)[j].isLoaded = true
      rw [getElem_set_fin, if_neg hkj]
      exact hl

theorem tableLaws_recoverAll (hs : s.tableLaws) : s.recoverAll.tableLaws := by
  obtain ⟨-, -, -, hk, hr, hd⟩ := recoverAll_books s
  have hrange : ∀ i : RangeNo, s.recoverAll.ranges[i] = s.ranges[i].recovered i := fun i => by rw [hr]; simp
  have hslot : ∀ k : SlotNo, s.recoverAll.slots[k] = s.slots[k].recovered k := fun k => by rw [hk]; simp
  refine ⟨windowsApart_congr (by rw [hd]) hs.1, rangesApart_of_spans hs.2.1 fun i => ?_, fun i hi => ?_, fun k p hp => ?_⟩
  · rw [hrange]
    change (if s.ranges[i].state = .faulted ∧ i ≠ 0 then some { first := 0, count := 0 } else s.ranges[i].span) = _ ∨
      (if s.ranges[i].state = .faulted ∧ i ≠ 0 then some { first := 0, count := 0 } else s.ranges[i].span) = _
    split
    · exact .inr rfl
    · exact .inl rfl
  · rw [hrange] at hi; cases hi
  · rw [hslot] at hp; cases hp

/-- The reset state meets the table laws: only window 0 covers addresses, no range a sector, and no slot is LOADED. -/
theorem tableLaws_reset : State.reset.tableLaws := by
  have hw : ∀ i : WindowNo, State.reset.decoder.windows[i] = (Window.preset i).sealed i := fun i => by simp [State.reset]
  have hr : ∀ i : RangeNo, State.reset.ranges[i] = (Range.preset i).sealed i := fun i => by simp [State.reset]
  have hk : ∀ k : SlotNo, State.reset.slots[k] = Slot.preset.sealed k := fun k => by simp [State.reset]
  have hw0 : ∀ {i : WindowNo} {a : UnitAddr}, State.reset.decoder.windows[i].covers a = true → i = 0 := fun {i a} h => by
    by_contra hi
    rw [hw] at h
    simp [Window.covers, Window.sealed, Window.preset, hi, Treatment.covers] at h
  refine ⟨fun i j a hi hj => ?_, ⟨fun i j n hi _ h _ => ?_, fun i hi sp hsp => ?_⟩, fun i hi => ?_, fun k p hp => ?_⟩
  · exact (hw0 hi).trans (hw0 hj).symm
  · rw [hr] at h; simp [Range.covers, Range.sealed, Range.preset, hi] at h
  · rw [hr] at hsp
    cases (show sp = { first := 0, count := 0 } by simpa [Range.sealed, Range.preset, hi] using hsp.symm)
    decide
  · rw [hr] at hi; cases hi
  · rw [hk] at hp; cases hp

theorem tableLaws_writeRange (hs : s.tableLaws) {i : RangeNo} {r : Range} (h : s.RangeFits i r) : (s.writeRange i r).tableLaws := by
  obtain ⟨hw, hr, ho, hk⟩ := hs
  refine ⟨windowsApart_congr (s := s) rfl hw, rangesApart_writeRange hr h, openRangesKeyed_of ho fun j hj => ?_,
    keysApart_congr (s := s) rfl hk⟩
  have hget : (s.writeRange i r).ranges[j] = if i = j then r.sealed i else s.ranges[j] := getElem_set_fin _ i j _
  rw [hget] at hj ⊢
  split at hj
  · exact absurd (h.locked.symm.trans hj) (by decide)
  · next hij => rw [if_neg hij]; exact ⟨rfl, .inl hj, fun _ _ h => h⟩

theorem tableLaws_ranges (hs : s.tableLaws) {rs : Vector Range 16} (h : ∀ i : RangeNo, s.RangeKept i rs[i]) :
    ({ s with ranges := rs } : State).tableLaws := by
  obtain ⟨hw, hr, ho, hk⟩ := hs
  exact ⟨windowsApart_congr (s := s) rfl hw, rangesApart_of_spans hr fun i => .inl (h i).span,
    openRangesKeyed_of ho fun i hi => ⟨(h i).binding, (h i).opened hi, fun _ _ h => h⟩, keysApart_congr (s := s) rfl hk⟩

/-- A slot that is not LOADED is written with keys that may stand, or with none. -/
theorem tableLaws_writeSlot (hs : s.tableLaws) {k : SlotNo} {r : Slot} (hn : s.slots[k].isLoaded = false)
    (hr : ∀ p, r.body = .loaded p → p.dataKey ≠ p.tweakKey ∧ r.generation ≠ 0) : (s.writeSlot k r).tableLaws :=
  ⟨windowsApart_congr (s := s) rfl hs.1, rangesApart_congr (s := s) rfl hs.2.1,
    openRangesKeyed_set (s := s) rfl rfl hn hs.2.2.1, keysApart_set (s := s) rfl hr hs.2.2.2⟩

/-! ## Every move -/

/-- A move keeps the table laws. -/
theorem Move.tableLaws (hs : s.tableLaws) (h : Move s t) : t.tableLaws := by
  cases h with
  | change h =>
    obtain ⟨hw, hr, hk, -⟩ := h.tables
    exact tableLaws_congr hw hr hk hs
  | take => exact tableLaws_congr (by simp) (by simp) (by simp) hs
  | plain | hit | miss | fill | discard | clear | flush | device => exact tableLaws_congr (s := s) rfl rfl rfl hs
  | scrub k keys cause _ =>
    obtain ⟨hw, hr, hk, -⟩ := (revoke_changes (Context.holds k) cause.code (s.scrubBegun k keys cause)).tables
    rw [scrub_eq]
    exact tableLaws_congr hw hr hk (tableLaws_scrubBegun k keys cause hs)
  | contain =>
    obtain ⟨hw, hr, hk, -⟩ := (revoke_changes (fun c => c.live && c.passage == .cipher) .fault s.containBegun).tables
    rw [enterContained_eq]
    exact tableLaws_congr hw hr hk (tableLaws_congr (s := s) rfl rfl rfl hs)
  | erase k keys cause hb =>
    obtain ⟨-, -, -, hd, hr, b, hb', hk⟩ := eraseSlot_books k cause s
    refine ⟨windowsApart_congr (by rw [hd]) hs.1, rangesApart_congr hr hs.2.1, openRangesKeyed_set hr hk ?_ hs.2.2.1,
      keysApart_set hk (fun p hp => ?_) hs.2.2.2⟩
    · exact isLoaded_of_body fun _ h => by rw [hb] at h; cases h
    · rcases hb' with rfl | rfl <;> cases hp
  | recover _ => exact tableLaws_recoverAll hs
  | load k p g hb hp hg =>
    refine tableLaws_writeSlot hs (isLoaded_of_body fun _ h => by rw [hb] at h; cases h) fun q hq => ?_
    cases hq
    exact ⟨hp, hg⟩
  | blank k b hb hb' =>
    refine tableLaws_writeSlot hs (isLoaded_of_body fun _ h => ?_) fun q hq => ?_
    · rcases hb with hb | hb <;> rw [hb] at h <;> cases h
    · rcases hb' with rfl | rfl <;> cases hq
  | ranges rs h => exact tableLaws_ranges hs h
  | setRange i r h => exact tableLaws_writeRange hs h
  | window i w h =>
    exact ⟨windowsApart_writeWindow hs.1 h, rangesApart_congr (s := s) rfl hs.2.1,
      openRangesKeyed_congr (s := s) rfl rfl hs.2.2.1, keysApart_congr (s := s) rfl hs.2.2.2⟩
  | reset h => exact tableLaws_congr h.windows h.ranges h.slots tableLaws_reset

theorem Moves.tableLaws (hs : s.tableLaws) (h : Moves s t) : t.tableLaws := by
  induction h with
  | refl => exact hs
  | tail _ h ih => exact h.tableLaws ih

end Sys2Proof.Machine
end

