-- ==== Sys2Proof/Proofs/Quiet.lean ====
section
/-! SUPPORT. Steps as chains of moves that leave the expander settled; the quiet changes, which touch neither cache nor expander
(R124). -/

namespace Sys2Proof.Machine

/-! ## Chains of moves that settle (R124) -/

/-- A chain of moves at whose end, where the laws held and no request stood to be taken, again none stands. -/
def State.Acts (s t : State) : Prop := Moves s t ∧ (s.keyCustody → s.ledger → s.keyed → s.settled → t.settled)

/-- An outcome that is reached by such a chain, or is no next state. -/
def State.Leads (s : State) (o : Host.Outcome State Fault Refusal) : Prop := ∀ t, o = .next t → s.Acts t

@[simp] theorem leads_next {s t : State} : s.Leads (.next t) ↔ s.Acts t :=
  ⟨fun h => h t rfl, fun h u hu => by cases hu; exact h⟩

theorem State.Acts.refl (s : State) : s.Acts s := ⟨.refl, fun _ _ _ h => h⟩

theorem State.Acts.trans {s t u : State} (h : s.Acts t) (h' : t.Acts u) : s.Acts u := by
  refine ⟨h.1.trans h'.1, fun hk hl hy hs => ?_⟩
  obtain ⟨hk', hl', hy'⟩ := h.1.books hk hl hy
  exact h'.2 hk' hl' hy' (h.2 hk hl hy hs)

/-- What ends with the expander's take leaves nothing to take. -/
theorem State.Acts.taken {s t : State} (h : Moves s t) : s.Acts t.takeEligible :=
  ⟨h.tail .take, fun hk hl hy _ => takeEligible_settles (h.keyCustody hk).2 (h.books hk hl hy).2.1⟩

/-- Moves that leave cache and expander as they were leave nothing to take. -/
theorem State.Acts.of_moves {s t : State} (h : Moves s t) (hc : t.cache = s.cache) (hx : t.expander = s.expander) : s.Acts t :=
  ⟨h, fun _ _ _ => (settled_congr hc hx).2⟩

/-- Moves that leave the queue empty leave nothing to take. -/
theorem State.Acts.of_queue {s t : State} (h : Moves s t)
    (hq : s.keyCustody → s.ledger → s.keyed → t.expander.queue = []) : s.Acts t :=
  ⟨h, fun hk hl hy _ => .inr (by rw [State.oldestEligible, hq hk hl hy]; rfl)⟩

theorem State.Leads.of_acts {s t : State} {o : Host.Outcome State Fault Refusal} (h : s.Acts t) (h' : t.Leads o) : s.Leads o :=
  fun u hu => h.trans (h' u hu)

/-! ## Quiet changes -/

/-- Changes of contexts that touch neither the cache nor the expander. -/
structure State.Quiet (s t : State) : Prop where
  changes : Changes s t
  cache : t.cache = s.cache
  expander : t.expander = s.expander

theorem State.Quiet.trans {s t u : State} (h : s.Quiet t) (h' : t.Quiet u) : s.Quiet u :=
  ⟨h.changes.trans h'.changes, h'.cache.trans h.cache, h'.expander.trans h.expander⟩

theorem State.Quiet.refl (s : State) : s.Quiet s := ⟨.refl, rfl, rfl⟩

theorem State.Quiet.acts {s t : State} (h : s.Quiet t) : s.Acts t := .of_moves h.changes.moves h.cache h.expander

/-- A quiet change and then changes of contexts, with the take after them. -/
theorem State.Quiet.taken {s t u : State} (h : s.Quiet t) (h' : Changes t u) : s.Acts u.takeEligible :=
  .taken (Changes.moves (h.changes.trans h'))

theorem State.sameBooks.quiet {s t : State} (h : s.sameBooks t) : s.Quiet t := ⟨Changes.idle h, h.cache, h.expander⟩

/-- An outcome with the same books. -/
theorem leads_idle {s t : State} (h : s.sameBooks t) : s.Leads (.next t) := leads_next.2 h.quiet.acts

theorem State.Quiet.same {s t u : State} (h : s.Quiet t) (h' : t.sameBooks u) : s.Quiet u := h.trans h'.quiet

theorem touch_quiet {s : State} {n : CtxNo} {f : Context → Context}
    (h : s.contextLaws → ∀ c, s.ctx? n = some c → c.Touched (f c)) : s.Quiet (s.modCtx n f) := ⟨.single (.touch n f h), rfl, rfl⟩

/-- A bookkeeping field of a record is changed. -/
theorem touched_quiet {s : State} {n : CtxNo} {f : Context → Context} (h : ∀ c : Context, c.Touched (f c)) :
    s.Quiet (s.modCtx n f) := touch_quiet fun _ c _ => h c

section
variable (s : State)

theorem start_quiet : s.Quiet s.start := State.sameBooks.quiet ⟨rfl, rfl, rfl, rfl, rfl, rfl, rfl⟩
theorem untaken_quiet : s.Quiet s.untaken := State.sameBooks.quiet ⟨rfl, rfl, rfl, rfl, rfl, rfl, rfl⟩
theorem drive_quiet (d : MediaDrive) : s.Quiet (s.drive d) := State.sameBooks.quiet ⟨rfl, rfl, rfl, rfl, rfl, rfl, rfl⟩
theorem hand_quiet (x : ReturnItem) : s.Quiet (s.hand x) := State.sameBooks.quiet ⟨rfl, rfl, rfl, rfl, rfl, rfl, rfl⟩
theorem media_quiet (m : MediaPort) : s.Quiet { s with media := m } := State.sameBooks.quiet ⟨rfl, rfl, rfl, rfl, rfl, rfl, rfl⟩
theorem intake_quiet (i : Intake) : s.Quiet { s with intake := i } := State.sameBooks.quiet ⟨rfl, rfl, rfl, rfl, rfl, rfl, rfl⟩
theorem engines_quiet (e : Engines) : s.Quiet { s with engines := e } := State.sameBooks.quiet ⟨rfl, rfl, rfl, rfl, rfl, rfl, rfl⟩
theorem hold_quiet (h : Option Hold) : s.Quiet { s with hold := h } := State.sameBooks.quiet ⟨rfl, rfl, rfl, rfl, rfl, rfl, rfl⟩
theorem marks_quiet (m : Marks) : s.Quiet { s with marks := m } := State.sameBooks.quiet ⟨rfl, rfl, rfl, rfl, rfl, rfl, rfl⟩
theorem markFull_quiet : s.Quiet s.markFull := State.sameBooks.quiet (by constructor <;> simp [State.markFull])
theorem answerHeader_quiet (a : HeaderAnswer) : s.Quiet (s.answerHeader a) := State.sameBooks.quiet (by constructor <;> simp)
theorem countParity_quiet : s.Quiet s.countParity := State.sameBooks.quiet (by constructor <;> simp)
theorem countTimeout_quiet : s.Quiet s.countTimeout := State.sameBooks.quiet (by constructor <;> simp)
theorem countRawIgnored_quiet : s.Quiet s.countRawIgnored := State.sameBooks.quiet (by constructor <;> simp)
theorem raise_quiet (e : Event) : s.Quiet (State.raise e s) := State.sameBooks.quiet (by constructor <;> simp)

theorem logFault_quiet (k : FaultKind) (c : Option Context) (e : Option TableEntry) (t : Option KnownAnswerTest) :
    s.Quiet (s.logFault k c e t) := State.sameBooks.quiet (by constructor <;> simp)

end

/-! ## Completions and freeing without a pin -/

theorem handCompletion_quiet (n : CtxNo) (s : State) : s.Quiet (s.handCompletion n) := by
  unfold State.handCompletion
  split
  · split
    · exact .refl s
    · exact (hand_quiet s _).trans (touched_quiet touched_sent)
  · exact .refl s

/-- A context that holds no pin is freed. -/
theorem free_quiet {n : CtxNo} {s : State}
    (hw : ∀ c, s.ctx? n = some c → c.state = .waitKey → c.fetchProgress ≠ .notIssued)
    (hp : ∀ c, s.ctx? n = some c → c.streaming = false ∨ c.capture = none) : s.Quiet (s.free n) := by
  refine ⟨free_changes hw, ?_, by cases hc : s.ctx? n <;> simp [State.free, hc]⟩
  cases hc : s.ctx? n with
  | none => simp [State.free, hc]
  | some c =>
    rw [free_eq hc]
    rcases hp c hc with h | h
    · rw [releasePin_of_not_streaming h]; rfl
    · rw [releasePin_of_no_capture h]; rfl

theorem freeIfDone_quiet (n : CtxNo) (s : State) : s.Quiet (s.freeIfDone n) := by
  unfold State.freeIfDone
  split
  · next c hc =>
    split
    · next hd =>
      refine free_quiet (fun d hd' hs => ?_) fun d hd' => .inl ?_ <;> cases hc.symm.trans hd'
      · rw [hd.1] at hs; cases hs
      · simp [Context.streaming, hd.1]
    · exact .refl s
  · exact .refl s

/-- A context that holds no pin completes. -/
theorem complete_quiet {n : CtxNo} {c : Context} {s : State} (hc : s.ctx? n = some c)
    (hw : c.state = .waitKey → c.fetchProgress ≠ .notIssued) (hp : c.streaming = false ∨ c.capture = none) :
    s.Quiet (s.complete n) := by
  refine (handCompletion_quiet n s).trans (free_quiet (fun d hd => ?_) fun d hd => ?_) <;>
    cases (ctx?_handCompletion hc).symm.trans hd
  · exact hw
  · exact hp

end Sys2Proof.Machine
end

