-- ==== Sys2Proof/Proofs/Ports.lean ====
section
/-! SUPPORT. The actions of the controller port, the return path and the media port's requests as chains of moves (R83 to R113,
R134 to R140). -/

namespace Sys2Proof.Machine

/-- A record that stays in STREAM or HOLD is changed within its phase. -/
theorem touched_of_streaming {c d : Context} (hn : d.number = c.number) (hm : d.mover = c.mover) (ht : d.tag = c.tag)
    (hp : d.passage = c.passage) (hc : d.capture = c.capture) (hs : c.completionSent = true → d.completionSent = true)
    (h1 : c.streaming = true) (h2 : d.streaming = true) : c.Touched d where
  number := hn
  mover := hm
  tag := ht
  passage := hp
  capture := hc
  sent := hs
  live := fun _ => live_of_streaming h1
  streaming := h2.trans h1.symm
  waiting := by
    constructor <;> intro h
    · rw [streaming_of_waitKey h] at h2; cases h2
    · rw [streaming_of_waitKey h] at h1; cases h1
  fetch := fun h => by rw [streaming_of_waitKey h] at h1; cases h1

/-- A record found after a change of records of its number is what the change makes of the one found before. -/
theorem ctx?_modCtx_some {n : CtxNo} {f : Context → Context} (hf : ∀ c : Context, (f c).number = c.number) {s : State}
    {d : Context} (h : (s.modCtx n f).ctx? n = some d) : ∃ c, s.ctx? n = some c ∧ f c = d := by
  cases hc : s.ctx? n with
  | none =>
    rw [ctx?_map (g := fun c => if c.number = n then f c else c) (fun c _ => by split <;> simp [hf]) rfl, hc] at h
    cases h
  | some c =>
    rw [ctx?_modCtx (hf c) hc] at h
    cases h
    exact ⟨c, rfl, rfl⟩

/-! ## The controller port (R83, R86, R100, R113, R134) -/

theorem advanceIntake_quiet (c : Context) (taken : Nat) (s : State) : s.Quiet (s.advanceIntake c taken) := intake_quiet s _

theorem dropBeat_quiet (left : Nat) (owner : Option CtxNo) (s : State) : s.Quiet (s.dropBeat left owner) := by
  unfold State.dropBeat
  split
  · dsimp only
    split
    · next n => exact (intake_quiet s .header).trans ((handCompletion_quiet n _).trans (freeIfDone_quiet n _))
    · exact intake_quiet s _
  · exact intake_quiet s _

theorem drainBeat_changes (c : Context) (taken : Nat) (s : State) : Changes s (s.drainBeat c taken) := by
  have h := (advanceIntake_quiet c taken s).changes
  unfold State.drainBeat
  dsimp only
  split
  · exact h.trans (enterCancel_changes _ _ _ _ _)
  · exact h

theorem touched_parityFailed (sends : Bool) (c : Context) : c.Touched (Context.parityFailed sends c) :=
  touched_of_state rfl rfl rfl rfl rfl id rfl fun _ => id

theorem upstreamParity_changes (c : Context) (taken : Nat) (s : State) : Changes s (s.upstreamParity c taken) := by
  unfold State.upstreamParity
  dsimp only
  refine Relation.ReflTransGen.trans (media_quiet s (s.media.abandon c.number)).changes ?_
  generalize ({ s with media := s.media.abandon c.number } : State) = u
  have h := (touched_quiet (s := u) (n := c.number) (touched_parityFailed (u.outstanding c))).trans
    ((countParity_quiet _).trans (logFault_quiet _ .parityUp (some c) none none))
  split
  · exact h.changes.trans (enterCancel_changes _ _ _ _ _)
  · exact h.changes

theorem endPiece_quiet (n : CtxNo) (s : State) : s.Quiet (s.endPiece n) := by
  unfold State.endPiece
  split
  · exact (drive_quiet s _).trans (media_quiet _ _)
  · exact .refl s

theorem endPiece_contexts (n : CtxNo) (s : State) : (s.endPiece n).contexts = s.contexts := by
  unfold State.endPiece
  split <;> rfl

theorem beginHold_quiet {c : Context} {s : State} (hc : s.ctx? c.number = some c) (hst : c.state = .stream) (index : Nat)
    (b : Beat) : s.Quiet (s.beginHold c index b) := by
  unfold State.beginHold
  dsimp only
  refine (endPiece_quiet c.number s).trans ?_
  have hc' : (s.endPiece c.number).ctx? c.number = some c := by rw [ctx?_congr (endPiece_contexts _ s)]; exact hc
  generalize s.endPiece c.number = u at hc' ⊢
  refine State.Quiet.same (t := u.modCtx c.number fun c => { c with state := .hold, timer := timerStart .accept })
    (touch_quiet fun _ d hd => ?_) ⟨rfl, rfl, rfl, rfl, rfl, rfl, rfl⟩
  cases hc'.symm.trans hd
  exact touched_of_streaming rfl rfl rfl rfl rfl id (by simp [Context.streaming, hst]) rfl

theorem takeBeat_changes {c : Context} {s : State} (hc : s.ctx? c.number = some c) (hst : c.state = .stream) (taken : Nat)
    (b : Beat) : Changes s (s.takeBeat c taken b) := by
  unfold State.takeBeat
  dsimp only
  refine Relation.ReflTransGen.trans (advanceIntake_quiet c taken s).changes ?_
  have hc' : (s.advanceIntake c taken).ctx? c.number = some c := hc
  generalize s.advanceIntake c taken = u at hc' ⊢
  split
  · exact upstreamParity_changes _ _ _
  · split
    · split
      · exact (beginHold_quiet hc' hst _ _).changes
      · exact (engines_quiet u _).changes
    · exact enterSlot_changes _ _

theorem leads_storeBeat (b : Beat) (s : State) : s.Leads (execStoreBeat b s) := by
  unfold execStoreBeat
  split
  · next n taken _ =>
    split
    · next c hc =>
      have hc' : s.start.ctx? c.number = some c := by rw [ctx?_number hc]; exact hc
      split
      · exact leads_next.2 ((start_quiet s).taken (drainBeat_changes _ _ _))
      · split
        · next h => exact leads_next.2 ((start_quiet s).taken (takeBeat_changes hc' h.1 _ _))
        · exact leads_next.2 (untaken_quiet s).acts
    · exact leads_next.2 (untaken_quiet s).acts
  · exact leads_next.2 ((start_quiet s).trans (dropBeat_quiet _ _ _)).acts
  · exact leads_next.2 (untaken_quiet s).acts

theorem leads_beatDropped (s : State) : s.Leads (execBeatDropped s) := by
  unfold execBeatDropped
  split
  · exact leads_next.2 ((start_quiet s).trans (dropBeat_quiet _ _ _)).acts
  · split
    · split
      · exact leads_next.2 ((start_quiet s).taken (drainBeat_changes _ _ _))
      · exact leads_next.2 (untaken_quiet s).acts
    · exact leads_next.2 (untaken_quiet s).acts
  · exact leads_next.2 (untaken_quiet s).acts

theorem leads_returnPathDelivery (s : State) : s.Leads (execReturnPathDelivery s) := by
  unfold execReturnPathDelivery
  split
  · exact leads_next.2 (untaken_quiet s).acts
  · exact leads_idle ⟨rfl, rfl, rfl, rfl, rfl, rfl, rfl⟩

/-! ## The engines (R4, R7, R12 to R15, R139, R140) -/

theorem keepTweak_quiet (n : CtxNo) (t : Block) (s : State) : s.Quiet (s.keepTweak n t) :=
  (touched_quiet fun c => touched_tweak _ c).trans (marks_quiet _ _)

theorem leads_sectorTweak (n : CtxNo) (s : State) : s.Leads (execSectorTweak n s) := by
  have hu := leads_next.2 (untaken_quiet s).acts
  unfold execSectorTweak
  split
  · split
    · split
      · split
        · dsimp only
          split
          · exact leads_next.2 ((start_quiet s).trans (keepTweak_quiet _ _ _)).acts
          · exact leads_next.2 ((start_quiet s).trans (touched_quiet fun c => touched_tweak _ c)).acts
        · exact hu
      · exact hu
    · exact hu
  · exact hu

theorem leads_catchUp (n : CtxNo) (s : State) : s.Leads (execCatchUp n s) := by
  have hu := leads_next.2 (untaken_quiet s).acts
  unfold execCatchUp
  split
  · split
    · exact leads_next.2 ((start_quiet s).trans (keepTweak_quiet _ _ _)).acts
    · exact hu
  · exact hu

theorem startTimer_quiet (n : CtxNo) (p : TimerPhase) (s : State) : s.Quiet (s.startTimer n p) :=
  touched_quiet fun c => touched_timer _ c

theorem stopTimer_quiet (n : CtxNo) (s : State) : s.Quiet (s.stopTimer n) := touched_quiet fun c => touched_timer _ c

theorem tryRelease_quiet (s : State) : s.Quiet s.tryRelease := by
  unfold State.tryRelease
  split
  · next h _ =>
    split
    · exact State.Quiet.same (t := s.startTimer h.ctx .accept) (startTimer_quiet _ _ s) ⟨rfl, rfl, rfl, rfl, rfl, rfl, rfl⟩
    · exact .refl s
  · exact .refl s

theorem mergedPassed_quiet (x : Block) (s : State) : s.Quiet (s.mergedPassed x) :=
  (hold_quiet s _).trans (tryRelease_quiet _)

theorem advanceTweak_quiet (n : CtxNo) (t : Block) (s : State) : s.Quiet (s.advanceTweak n t) :=
  touched_quiet fun c => touched_tweak _ c

theorem clearOutbound_quiet (s : State) : s.Quiet s.clearOutbound := engines_quiet s _

theorem clearInbound_quiet (s : State) : s.Quiet s.clearInbound := engines_quiet s _

/-- Entry to CONTAINED leaves the queue empty (R131, R162). -/
theorem enterContained_queue (s : State) : s.enterContained.expander.queue = [] := by
  rw [enterContained_eq, State.raise_expander]
  simp [Expander.afterContainment, Expander.voidWhere]

/-- Quiet changes and then containment. -/
theorem contained_acts {s t : State} (h : s.Quiet t) : s.Acts t.enterContained :=
  .of_queue ((Changes.moves h.changes).tail .contain) fun _ _ _ => enterContained_queue t

theorem leads_outboundVerify (d : Block) (s : State) : s.Leads (execOutboundVerify d s) := by
  have hu := leads_next.2 (untaken_quiet s).acts
  have hclear : s.Quiet s.start.clearOutbound := (start_quiet s).trans (clearOutbound_quiet _)
  unfold execOutboundVerify
  split
  · split
    · split
      · dsimp only
        split
        · split
          · exact leads_next.2 (hclear.trans ((advanceTweak_quiet _ _ _).trans (mergedPassed_quiet _ _))).acts
          · split
            · exact leads_next.2 ((hclear.trans (advanceTweak_quiet _ _ _)).taken (enterSlot_changes _ _))
            · exact hu
        · exact leads_next.2 (contained_acts (hclear.trans (logFault_quiet _ _ _ _ _)))
      · exact hu
    · exact leads_next.2 hclear.acts
  · exact hu

/-- A unit handed upstream: the fetch may complete. -/
theorem deliverUnit_changes {c : Context} {s : State}
    (hw : ∀ d, s.ctx? c.number = some d → d.state = .waitKey → d.fetchProgress ≠ .notIssued) (x : Block) :
    Changes s (s.deliverUnit c x) := by
  unfold State.deliverUnit
  dsimp only
  have h : s.Quiet (((s.hand (.data c.mover c.tag x)).modCtx c.number fun c => { c with passed := c.passed + 1 }).markFull) :=
    (hand_quiet s _).trans ((touched_quiet fun c => touched_passed _ c).trans (markFull_quiet _))
  split
  · refine h.changes.trans (complete_changes fun d hd => ?_)
    obtain ⟨e, he, rfl⟩ := ctx?_modCtx_some (f := fun c : Context => { c with passed := c.passed + 1 }) (fun _ => rfl)
      (s := s.hand (.data c.mover c.tag x)) hd
    exact hw e he
  · exact h.changes

end Sys2Proof.Machine
end

