-- ==== Sys2Proof/Proofs/MediaPort.lean ====
section
/-! SUPPORT. The actions of the inbound engine, the issue arbiter and the media port as chains of moves (R82 to R115, R138 to
R141). -/

namespace Sys2Proof.Machine

theorem leads_untaken (s : State) : s.Leads (.next s.untaken) := leads_next.2 (untaken_quiet s).acts

theorem leads_start (s : State) : s.Leads (.next s.start) := leads_next.2 (start_quiet s).acts

/-- A context in STREAM or HOLD does not wait for its key. -/
theorem not_waitKey_of_streaming {c : Context} (h : c.streaming = true) : c.state ≠ .waitKey := fun hw => by
  rw [streaming_of_waitKey hw] at h
  cases h

theorem leads_inboundDecipher (s : State) : s.Leads (execInboundDecipher s) := by
  have hclear : s.Quiet s.start.clearInbound := (start_quiet s).trans (clearInbound_quiet _)
  unfold execInboundDecipher
  split
  · next j _ =>
    split
    · next c hc =>
      split
      · next hst =>
        split
        · next sch t _ =>
          dsimp only
          split
          · split
            · exact leads_next.2 (hclear.trans (engines_quiet _ _)).acts
            · exact leads_next.2 hclear.acts
          · refine leads_next.2 ((hclear.trans (advanceTweak_quiet j.ctx t _)).taken (deliverUnit_changes (fun d hd => ?_) _))
            rw [ctx?_number hc] at hd
            obtain ⟨e, he, rfl⟩ := ctx?_modCtx_some (f := fun c : Context => { c with tweak := .kept (double t) }) (fun _ => rfl)
              (s := s.start.clearInbound) hd
            cases hc.symm.trans he
            exact fun hw => absurd hw (not_waitKey_of_streaming hst)
        · exact leads_untaken s
      · exact leads_next.2 hclear.acts
    · exact leads_next.2 hclear.acts
  · exact leads_untaken s

/-! ## The issue arbiter (R105 to R107, R112) -/

/-- What the arbiter grants a FETCH is in STREAM. -/
theorem granted_fetch {s : State} {c : Context} (h : s.granted = some (c, .fetch)) : c ∈ s.contexts ∧ c.state = .stream := by
  unfold State.granted at h
  split at h
  · obtain ⟨d, hd, hr⟩ := List.exists_of_findSome?_eq_some h
    obtain ⟨r, hr, he⟩ := Option.map_eq_some_iff.1 hr
    cases he
    refine ⟨hd, ?_⟩
    unfold State.readyRequest at hr
    split at hr
    · cases hr
    · split at hr
      · next h => exact h.1
      · split at hr <;> cases hr
  · cases h

theorem leads_fetchIssue (s : State) : s.Leads (execFetchIssue s) := by
  unfold execFetchIssue
  split
  · next c hg =>
    obtain ⟨hc, hst⟩ := granted_fetch hg
    refine leads_next.2 ((start_quiet s).trans ((drive_quiet _ _).trans (touch_quiet fun hs d hd => ?_))).acts
    cases (ctx?_of_mem (s := s.start.drive (.fetch c.number c.addr c.length)) hs.2.1 hc).symm.trans hd
    exact touched_of_state rfl rfl rfl rfl rfl id rfl fun hw => by rw [hst] at hw; cases hw
  · exact leads_untaken s

theorem issuePiece_quiet (c : Context) (u : SlotUnit) (s : State) : s.Quiet (s.issuePiece c u) := by
  unfold State.issuePiece
  dsimp only
  refine (drive_quiet s _).trans ((touched_quiet fun _ => ?_).trans (media_quiet _ _))
  exact touched_of_state rfl rfl rfl rfl rfl id rfl fun _ => id

theorem issueCancel_quiet (c : Context) (s : State) : s.Quiet (s.issueCancel c) := by
  unfold State.issueCancel
  refine (drive_quiet s _).trans (touched_quiet fun _ => ?_)
  exact touched_of_state rfl rfl rfl rfl rfl id rfl fun _ => id

theorem leads_pieceIssue (s : State) : s.Leads (execPieceIssue s) := by
  unfold execPieceIssue
  split
  · exact leads_next.2 ((start_quiet s).trans (issuePiece_quiet _ _ _)).acts
  · exact leads_untaken s

theorem leads_cancelIssue (s : State) : s.Leads (execCancelIssue s) := by
  unfold execCancelIssue
  split
  · exact leads_next.2 ((start_quiet s).trans (issueCancel_quiet _ _)).acts
  · exact leads_untaken s

/-! ## ACCEPT (R104, R107, R138, R140) -/

theorem arrival_some {n : CtxNo} {s : State} {c : Context} (h : s.arrival n = .takenBy c) : s.ctx? n = some c := by
  unfold State.arrival at h
  repeat' split at h
  all_goals cases h
  all_goals assumption

/-- What the port takes is for a live context of the number. -/
theorem liveArrival_some {n : CtxNo} {s : State} {c : Context} (h : s.liveArrival n = .takenBy c) :
    s.ctx? n = some c ∧ c.live = true := by
  unfold State.liveArrival at h
  split at h
  · next d hd =>
    split at h
    · next hl => cases h; exact ⟨arrival_some hd, hl⟩
    · cases h
  · next hn => exact absurd h (hn c)

/-- What becomes of an arrival leads on if every taking of it does. -/
theorem leads_onArrival {n : CtxNo} {s : State} {f : Context → Host.Outcome State Fault Refusal}
    (h : ∀ c, s.ctx? n = some c → c.live = true → s.Leads (f c)) : s.Leads (s.onArrival n f) := by
  unfold State.onArrival
  split
  · exact leads_untaken s
  · exact leads_start s
  · next c hc => exact h c (liveArrival_some hc).1 (liveArrival_some hc).2

theorem acceptPiece_changes (n : CtxNo) (s : State) : Changes s (s.acceptPiece n) := by
  unfold State.acceptPiece
  dsimp only
  refine Relation.ReflTransGen.trans (stopTimer_quiet n s).changes ?_
  split
  · exact (media_changes _ _).trans (driveUnit_changes _ _)
  · exact media_changes _ _

theorem acceptRelease_quiet (n : CtxNo) (s : State) : s.Quiet (s.acceptRelease n) := by
  unfold State.acceptRelease
  split
  · refine (drive_quiet s _).trans ((touched_quiet fun _ => ?_).trans (media_quiet _ _))
    exact touched_of_state rfl rfl rfl rfl rfl id rfl fun _ => id
  · exact .refl s

/-- The ACCEPT of a RELEASE-STORE leaves its context's phase. -/
theorem ctx?_acceptRelease {n : CtxNo} {c : Context} {s : State} (hc : s.ctx? n = some c) :
    ∃ d, (s.acceptRelease n).ctx? n = some d ∧ d.state = c.state := by
  unfold State.acceptRelease
  split
  · next u _ =>
    exact ⟨_, ctx?_modCtx (s := s.drive (.unit n (drivenBeat u.data u.enables)))
      (f := fun c : Context => { c with passed := c.passed + 1, timer := timerStart .done }) rfl hc, rfl⟩
  · exact ⟨c, hc, rfl⟩

theorem leads_accept (n : CtxNo) (kind : MediaRequest) (s : State) : s.Leads (execAccept n kind s) := by
  have ht : ∀ p, s.Leads (.next (s.start.startTimer n p)) := fun p =>
    leads_next.2 ((start_quiet s).trans (startTimer_quiet n p _)).acts
  refine leads_onArrival fun c _ _ => ?_
  cases kind with
  | fetch => dsimp only; split <;> [exact ht _; exact leads_start s]
  | store =>
    dsimp only
    split
    · exact leads_next.2 ((start_quiet s).taken (acceptPiece_changes n _))
    · exact leads_start s
  | holdFetch =>
    dsimp only
    split
    · split <;> [exact ht _; exact leads_start s]
    · exact leads_start s
  | releaseStore =>
    dsimp only
    split
    · exact leads_next.2 ((start_quiet s).trans (acceptRelease_quiet n _)).acts
    · exact leads_start s
  | cancel => exact leads_start s

/-! ## Returned units (R82, R106, R114, R138) -/

theorem downstreamParity_changes (c : Context) (s : State) : Changes s (s.downstreamParity c) :=
  ((countParity_quiet s).trans (logFault_quiet _ _ _ _ _)).changes.trans (enterCancel_changes _ _ _ _ _)

theorem unitWaits_quiet (n : CtxNo) (s : State) : s.Quiet (s.unitWaits n) :=
  (untaken_quiet s).trans (touched_quiet fun _ => touched_of_state rfl rfl rfl rfl rfl id rfl fun _ => id)

theorem unitDropped_quiet (n : CtxNo) (s : State) : s.Quiet (s.unitDropped n) :=
  (start_quiet s).trans (touched_quiet fun _ => touched_of_state rfl rfl rfl rfl rfl id rfl fun _ => id)

theorem loadInbound_quiet (j : InboundJob) (s : State) : s.Quiet (s.loadInbound j) :=
  State.sameBooks.quiet ⟨rfl, rfl, rfl, rfl, rfl, rfl, rfl⟩

/-- A unit handed upstream for a context that captured nothing. -/
theorem deliverUnit_quiet {c d : Context} {s : State} (hd : s.ctx? c.number = some d)
    (hw : d.state = .waitKey → d.fetchProgress ≠ .notIssued) (hp : d.capture = none) (x : Block) :
    s.Quiet (s.deliverUnit c x) := by
  unfold State.deliverUnit
  dsimp only
  have h : s.Quiet (((s.hand (.data c.mover c.tag x)).modCtx c.number fun c => { c with passed := c.passed + 1 }).markFull) :=
    (hand_quiet s _).trans ((touched_quiet fun c => touched_passed _ c).trans (markFull_quiet _))
  split
  · refine h.trans (complete_quiet (c := { d with passed := d.passed + 1 }) ?_ hw (.inr hp))
    exact ctx?_modCtx (s := s.hand (.data c.mover c.tag x)) (f := fun c : Context => { c with passed := c.passed + 1 }) rfl hd
  · exact h

/-- A fetch's unit taken: handed on at once, or given to the engine. -/
theorem takeFetchUnit_acts {c : Context} {s : State} (hc : s.ctx? c.number = some c) (hf : c.fetchProgress = .issued)
    (u : ReturnedUnit) : s.Acts (s.takeFetchUnit c u) := by
  let f : Context → Context := fun c =>
    { c with expected := c.expected + 1, timer := timerStart (if c.expected + 1 < c.length then .unit else .done) }
  have h : s.Quiet (s.modCtx c.number f) := touched_quiet fun c => touched_of_state rfl rfl rfl rfl rfl id rfl fun _ => id
  have hd : (s.modCtx c.number f).ctx? c.number = some (f c) := ctx?_modCtx rfl hc
  unfold State.takeFetchUnit
  dsimp only
  split
  · exact (h.trans ((loadInbound_quiet _ _).trans (markFull_quiet _))).acts
  · next hp =>
    have hw : ∀ d, (s.modCtx c.number f).ctx? c.number = some d → d.state = .waitKey → d.fetchProgress ≠ .notIssued := by
      intro d hd' _
      cases hd.symm.trans hd'
      change c.fetchProgress ≠ _
      rw [hf]
      decide
    refine ⟨Changes.moves (h.changes.trans (deliverUnit_changes hw _)), fun _ hl _ => ?_⟩
    have hcap : c.capture = none := by
      by_contra hn
      exact hp ((hl.captures c (ctx?_mem hc)).1 (Option.isSome_iff_ne_none.2 hn))
    have hq := h.trans (deliverUnit_quiet (c := c) hd (hw _ hd) hcap u.data)
    exact (settled_congr hq.cache hq.expander).2

theorem leads_fetchUnit (n : CtxNo) (u : ReturnedUnit) (s : State) : s.Leads (execFetchUnit n u s) := by
  refine leads_onArrival fun c hc _ => ?_
  split
  · next hf =>
    split
    · exact leads_next.2 (unitWaits_quiet n s).acts
    · split
      · exact leads_next.2 (unitDropped_quiet n s).acts
      · split
        · have hc' : s.start.ctx? c.number = some c := by rw [ctx?_number hc]; exact hc
          exact leads_next.2 ((start_quiet s).acts.trans (takeFetchUnit_acts hc' hf.2 u))
        · exact leads_next.2 ((start_quiet s).taken (downstreamParity_changes c _))
  · exact leads_start s

theorem leads_holdFetchUnit (n : CtxNo) (u : ReturnedUnit) (s : State) : s.Leads (execHoldFetchUnit n u s) := by
  refine leads_onArrival fun c _ _ => ?_
  split
  · split
    · split
      · exact leads_next.2 (unitWaits_quiet n s).acts
      · split
        · exact leads_next.2 ((start_quiet s).trans ((hold_quiet _ _).trans ((startTimer_quiet n .done _).trans
            (loadInbound_quiet _ _)))).acts
        · exact leads_next.2 ((start_quiet s).taken (downstreamParity_changes c _))
    · exact leads_start s
  · exact leads_start s

/-! ## DONE (R82, R85, R138, R140) -/

/-- The DONE of an issued FETCH is within its context's phase. -/
theorem withDone_quiet {n : CtxNo} {c : Context} {s : State} (hc : s.ctx? n = some c) (hf : c.fetchProgress = .issued) :
    s.Quiet (s.modCtx n Context.withDone) := touch_quiet fun _ d hd => by
  cases hc.symm.trans hd
  exact touched_of_state rfl rfl rfl rfl rfl id rfl fun _ hn => by rw [hf] at hn; cases hn

theorem leads_fetchDone (n : CtxNo) (s : State) : s.Leads (execFetchDone n s) := by
  refine leads_onArrival fun c hc _ => ?_
  split
  · next hf =>
    have h : s.Quiet (s.start.modCtx n Context.withDone) := (start_quiet s).trans (withDone_quiet (c := c) hc hf.2)
    dsimp only
    split
    · exact leads_next.2 (h.taken (enterCancel_changes _ _ _ _ _))
    · split
      · refine leads_next.2 (h.taken (complete_changes fun d hd _ => ?_))
        obtain ⟨e, -, rfl⟩ := ctx?_modCtx_some (s := s.start) (f := Context.withDone) (fun _ => rfl) hd
        simp [Context.withDone]
      · exact leads_next.2 h.acts
  · exact leads_start s

theorem pieceAnswered_quiet (n : CtxNo) (s : State) : s.Quiet (s.modCtx n Context.pieceAnswered) :=
  touched_quiet fun _ => touched_of_state rfl rfl rfl rfl rfl id rfl fun _ => id

theorem leads_pieceDone (n : CtxNo) (s : State) : s.Leads (execPieceDone n s) := by
  refine leads_onArrival fun c hc _ => ?_
  split
  · have h : s.Quiet (s.start.modCtx n Context.pieceAnswered) := (start_quiet s).trans (pieceAnswered_quiet n _)
    dsimp only
    split
    · next hst =>
      refine leads_next.2 (h.trans (complete_quiet (c := c.pieceAnswered) (ctx?_modCtx (s := s.start) rfl hc) (fun hw => ?_)
        (.inl ?_))).acts
      · exact absurd (hst.1.symm.trans hw) (by decide)
      · simp [Context.streaming, Context.pieceAnswered, hst.1]
    · exact leads_next.2 h.acts
  · exact leads_start s

/-- A hold that is the context's is of a context in HOLD. -/
theorem holdOf_some {c : Context} {h : Hold} {s : State} (hh : s.holdOf c = some h) : c.state = .hold ∧ h.ctx = c.number := by
  unfold State.holdOf at hh
  split at hh
  · next hst => exact ⟨hst, by simpa using (Option.filter_eq_some_iff.1 hh).2⟩
  · cases hh

theorem leads_holdFetchDone (n : CtxNo) (s : State) : s.Leads (execHoldFetchDone n s) := by
  refine leads_onArrival fun c _ _ => ?_
  split
  · split
    · exact leads_start s
    · split
      · exact leads_next.2 ((start_quiet s).taken (enterCancel_changes _ _ _ _ _))
      · exact leads_next.2 ((start_quiet s).trans ((hold_quiet _ _).trans ((stopTimer_quiet n _).trans (tryRelease_quiet _)))).acts
  · exact leads_start s

theorem endHold_changes {h : Hold} {c d : Context} {s : State} (hd : s.ctx? h.ctx = some d) (hst : d.state = .hold) :
    Changes s (s.endHold h c) := by
  have hq : s.Quiet (({ s with hold := none } : State).stopTimer h.ctx) := (hold_quiet s none).trans (stopTimer_quiet h.ctx _)
  unfold State.endHold
  dsimp only
  split
  · exact hq.changes.trans (enterClose_changes _ _)
  · refine Relation.ReflTransGen.trans hq.changes (touch_quiet fun _ e he => ?_).changes
    cases (ctx?_modCtx (s := { s with hold := none }) (f := fun c : Context => { c with timer := none }) rfl hd).symm.trans he
    exact touched_of_streaming rfl rfl rfl rfl rfl id (by simp [Context.streaming, hst]) rfl

theorem leads_releaseStoreDone (n : CtxNo) (s : State) : s.Leads (execReleaseStoreDone n s) := by
  refine leads_onArrival fun c hc _ => ?_
  split
  · next h hh =>
    obtain ⟨hst, hn⟩ := holdOf_some hh
    rw [ctx?_number hc] at hn
    split
    · dsimp only
      split
      · refine leads_next.2 (((start_quiet s).trans (acceptRelease_quiet n _)).taken ?_)
        obtain ⟨d, hd, hds⟩ := ctx?_acceptRelease (s := s.start) hc
        exact endHold_changes (hn ▸ hd) (hds.trans hst)
      · exact leads_next.2 ((start_quiet s).taken (endHold_changes (s := s.start) (hn ▸ hc) hst))
    · exact leads_start s
  · exact leads_start s

/-! ## ERROR and the answer to a CANCEL (R108, R112, R141) -/

theorem answerCancel_quiet (n : CtxNo) (s : State) : s.Quiet (s.answerCancel n) := by
  unfold State.answerCancel
  refine (touched_quiet fun _ => ?_).trans (freeIfDone_quiet n _)
  exact touched_of_state rfl rfl rfl rfl rfl id rfl fun _ => id

theorem leads_cancelArrival (n : CtxNo) (s : State) : s.Leads (s.cancelArrival n) := by
  unfold State.cancelArrival
  split
  · exact leads_untaken s
  · exact leads_start s
  · split
    · exact leads_next.2 ((start_quiet s).trans (answerCancel_quiet n _)).acts
    · exact leads_start s

theorem errorInStream_changes (c : Context) (s : State) : Changes s (s.errorInStream c) := by
  have h : s.Quiet (s.modCtx c.number fun c => { c with code := c.code.orElse .media, timer := none }) :=
    touched_quiet fun _ => touched_of_state rfl rfl rfl rfl rfl id rfl fun _ => id
  have hcancel : ∀ v : State, s.Quiet v → Changes s (if v.beatsLeft c = 0 then v.enterCancel c.number .media false false else v) :=
    fun v hv => by
      split
      · exact hv.changes.trans (enterCancel_changes _ _ _ _ _)
      · exact hv.changes
  refine hcancel _ (h.same ?_)
  exact ⟨rfl, rfl, rfl, rfl, rfl, rfl, rfl⟩

theorem leads_mediaError (n : CtxNo) (kind : MediaRequest) (s : State) : s.Leads (execMediaError n kind s) := by
  have hcancel : ∀ answered, s.Leads (.next (s.start.enterCancel n .media answered false).takeEligible) := fun _ =>
    leads_next.2 ((start_quiet s).taken (enterCancel_changes _ _ _ _ _))
  unfold execMediaError
  cases kind with
  | cancel => exact leads_cancelArrival n s
  | fetch =>
    refine leads_onArrival fun c hc _ => ?_
    split
    · next hf =>
      refine leads_next.2 (((start_quiet s).trans (touch_quiet fun _ d hd => ?_)).taken (enterCancel_changes _ _ _ _ _))
      cases (show s.ctx? n = some d from hd).symm.trans hc
      exact touched_of_state rfl rfl rfl rfl rfl id rfl fun _ hn => by rw [hf.2] at hn; cases hn
    · exact leads_start s
  | store =>
    refine leads_onArrival fun c _ _ => ?_
    have h : s.Quiet (s.start.modCtx n Context.pieceAnswered) := (start_quiet s).trans (pieceAnswered_quiet n _)
    split
    · dsimp only
      split
      · exact leads_next.2 (h.taken (errorInStream_changes c _))
      · exact leads_next.2 (h.taken (enterCancel_changes _ _ _ _ _))
    · exact leads_start s
  | holdFetch =>
    refine leads_onArrival fun c _ _ => ?_
    split
    · split <;> [exact leads_start s; exact hcancel true]
    · exact leads_start s
  | releaseStore =>
    refine leads_onArrival fun c _ _ => ?_
    split
    · split <;> [exact hcancel true; exact leads_start s]
    · exact leads_start s

theorem leads_unroutableArrival (s : State) : s.Leads (execUnroutableArrival s) := by
  unfold execUnroutableArrival
  split
  · exact leads_start s
  · split
    · exact leads_untaken s
    · exact leads_next.2 ((start_quiet s).trans ((countParity_quiet _).trans (logFault_quiet _ _ _ _ _))).acts

end Sys2Proof.Machine
end

