-- ==== Sys2Proof/Proofs/Admission.lean ====
section
/-! SUPPORT. Admission, the expander, the key link's commands, the monitor, resets and timers as chains of moves (R39 to R47, R57 to
R69, R79, R110, R124 to R132, R146 to R168). -/

namespace Sys2Proof.Machine

/-! ## Admission (R39, R72, R79, R121, R123) -/

/-- What a ruling that admits has found: a capture of a LOADED slot at its generation while the device is in SERVICE, or a
passage that needs none. -/
def State.mayAdmit (p : Passage) (cap : Option Capture) (s : State) : Prop :=
  match cap with
  | some cap => s.contain.device = .service ∧ cap.generation ≠ 0 ∧ s.slots[cap.slot].isLoaded = true ∧
      s.slots[cap.slot].generation = cap.generation
  | none => p ≠ .cipher

theorem captureRuling_admits {f : HeaderFields} {w v : WindowNo} {i : RangeNo} {b d : Bool} {s : State} {p : Passage}
    {cap : Option Capture} (hd : s.contain.device = .service) (h : s.captureRuling f w i b = .admitted p v cap d) :
    s.mayAdmit p cap := by
  unfold State.captureRuling at h
  split at h
  · split at h
    · next hk => cases h; exact ⟨hd, hk.2, hk.1, rfl⟩
    · cases h
  · cases h

theorem cipherRuling_admits {f : HeaderFields} {w v : WindowNo} {b d : Bool} {s : State} {p : Passage} {cap : Option Capture}
    (h : s.cipherRuling f w b = .admitted p v cap d) : s.mayAdmit p cap := by
  unfold State.cipherRuling at h
  split at h
  · cases h
  · next hd =>
    rw [ne_eq, not_not] at hd
    split at h
    · cases h
    · split at h
      · cases h
      · split at h
        · cases h
        · cases h
        · cases h
        · exact captureRuling_admits hd h
        · exact captureRuling_admits hd h

theorem windowRuling_admits {f : HeaderFields} {v : WindowNo} {d : Bool} {s : State} {p : Passage} {cap : Option Capture}
    (h : s.windowRuling f = .admitted p v cap d) : s.mayAdmit p cap := by
  unfold State.windowRuling at h
  split at h
  · cases h
  · dsimp only at h
    split at h
    · cases h
    · split at h
      · cases h
      · split at h
        · cases h
        · split at h
          · cases h; exact fun h => by cases h
          · split at h
            · split at h
              · cases h; exact fun h => by cases h
              · exact cipherRuling_admits h
            · exact cipherRuling_admits h

/-- A header is admitted only with room in the list, a number free and its claim no other's (R72, R74). -/
theorem ruling_admits {h : Header} {v : WindowNo} {d : Bool} {s : State} {p : Passage} {cap : Option Capture}
    (hr : s.ruling h = .admitted p v cap d) : s.contexts.length < 32 ∧
      s.contexts.any (Context.claims (readHeader h).mover (readHeader h).tag) = false ∧ s.mayAdmit p cap := by
  unfold State.ruling at hr
  split at hr
  · cases hr
  · split at hr
    · cases hr
    · split at hr
      · cases hr
      · next hroom =>
        rw [not_or, not_or, Nat.not_le, Bool.not_eq_true] at hroom
        exact ⟨hroom.1, hroom.2.2, windowRuling_admits hr⟩

theorem lowestFree_some {n : CtxNo} {s : State} (h : s.lowestFree = some n) : s.ctx? n = none := by
  have := List.find?_some h
  unfold State.ctx?
  rw [List.find?_eq_none]
  intro c hc hn
  simp only [Bool.not_eq_true', List.any_eq_false] at this
  exact this c hc (by simpa using hn)

/-- A record that may stand takes a range's place. -/
theorem setKept_moves {i : RangeNo} {r : Range} {s : State} (h : s.RangeKept i r) :
    Moves s { s with ranges := s.ranges.set i r } :=
  Move.moves (.ranges _ fun j => by
    rw [getElem_set_fin]
    split
    · next e => subst e; exact h
    · exact ⟨rfl, rfl, .inl⟩)

theorem restartIdle_moves (i : RangeNo) (s : State) : Moves s (s.restartIdle i) := by
  unfold State.restartIdle
  split
  · exact .refl
  · exact setKept_moves ⟨rfl, rfl, .inl⟩

theorem restartIdle_same (i : RangeNo) (s : State) :
    (s.restartIdle i).contexts = s.contexts ∧ (s.restartIdle i).contain = s.contain ∧ (s.restartIdle i).slots = s.slots ∧
      (s.restartIdle i).cache = s.cache ∧ (s.restartIdle i).expander = s.expander := by
  unfold State.restartIdle
  split <;> exact ⟨rfl, rfl, rfl, rfl, rfl⟩

theorem admitCipher_moves {n : CtxNo} {f : HeaderFields} {w : WindowNo} {cap : Capture} {s : State} (hn : s.ctx? n = none)
    (hlen : s.contexts.length < 32) (hclaim : s.contexts.any (Context.claims f.mover f.tag) = false)
    (hadm : s.mayAdmit .cipher (some cap)) : Moves s (s.admitCipher n f w cap) := by
  obtain ⟨hctx, hcon, hslots, -⟩ := restartIdle_same cap.range s
  refine (restartIdle_moves cap.range s).trans ?_
  unfold State.admitCipher
  dsimp only
  generalize s.restartIdle cap.range = u at *
  have hroom : ∀ st, u.Admissible (newContext n f .cipher w (some cap) st) := fun st =>
    ⟨by rw [hctx]; exact hlen, by rw [ctx?_congr hctx]; exact hn, by rw [hctx]; exact hclaim⟩
  have hent : ∀ st, u.entitled (newContext n f .cipher w (some cap) st) := fun st => by
    obtain ⟨h1, h2, h3, h4⟩ := hadm
    exact ⟨by rw [hcon]; exact h1, cap, rfl, h2, by rw [hslots]; exact h3, by rw [hslots]; exact h4⟩
  split
  · next v hv => exact Move.moves (.hit _ cap v (hroom _) rfl rfl rfl (hent _) hv)
  · next hv => exact Move.moves (.miss _ cap (hroom _) rfl rfl rfl rfl (hent _) (by unfold State.entryOf; rw [hv]))

theorem noteDegrade_quiet (b : Bool) (s : State) : s.Quiet (s.noteDegrade b) := by
  unfold State.noteDegrade
  split
  · exact countRawIgnored_quiet s
  · exact .refl s

theorem noteDegrade_same (b : Bool) (s : State) :
    (s.noteDegrade b).contexts = s.contexts ∧ (s.noteDegrade b).contain = s.contain ∧ (s.noteDegrade b).slots = s.slots := by
  unfold State.noteDegrade
  split <;> simp

theorem refuseRequest_quiet (f : HeaderFields) (code : Reply) (s : State) : s.Quiet (s.refuseRequest f code) := by
  have hanswer : s.Quiet (if code = .parity then (s.answerHeader (.refuse code)).countParity else s.answerHeader (.refuse code)) := by
    split
    · exact (answerHeader_quiet s _).trans (countParity_quiet _)
    · exact answerHeader_quiet s _
  unfold State.refuseRequest
  dsimp only
  split
  · split
    · next hc => rw [if_pos hc] at hanswer; exact hanswer
    · next hc => rw [if_neg hc] at hanswer; exact hanswer.trans (hand_quiet _ _)
  · exact hanswer.trans (intake_quiet _ _)

theorem leads_requestHeader (h : Header) (s : State) : s.Leads (execRequestHeader h s) := by
  unfold execRequestHeader
  split
  · split
    · exact leads_next.2 ((start_quiet s).trans ((noteDegrade_quiet _ _).trans (refuseRequest_quiet _ _ _))).acts
    · next p w cap d hr =>
      obtain ⟨hlen, hclaim, hadm⟩ := ruling_admits hr
      obtain ⟨h1, h2, h3⟩ := noteDegrade_same d s.start
      have hq : s.Quiet ((s.start.noteDegrade d).answerHeader .admitted) :=
        (start_quiet s).trans ((noteDegrade_quiet d _).trans (answerHeader_quiet _ _))
      unfold State.admitRequest
      split
      · next n cap hn =>
        refine leads_next.2 (.taken (hq.changes.moves.trans (admitCipher_moves ?_ ?_ ?_ ?_)))
        · exact lowestFree_some hn
        · simpa [h1] using hlen
        · simpa [h1] using hclaim
        · simpa [State.mayAdmit, h2, h3] using hadm
      · next n hn =>
        refine leads_next.2 (hq.acts.trans (.of_moves (Move.moves (.plain _ ⟨?_, ?_, ?_⟩ rfl rfl hadm)) rfl rfl))
        · simpa [h1] using hlen
        · exact lowestFree_some hn
        · simpa [h1, newContext] using hclaim
      · exact leads_next.2 ((start_quiet s).trans (noteDegrade_quiet d _)).acts
  · exact leads_untaken s

/-! ## The expander and the end of an erasure (R63, R124 to R127) -/

theorem leads_expansionStart (s : State) : s.Leads (execExpansionStart s) := by
  unfold execExpansionStart
  split
  · next r hx hr =>
    split
    · have ht : s.start.startExpansion r = s.start.takeEligible := by
        have hr' : s.start.oldestEligible = some r := hr
        unfold State.takeEligible
        rw [hr', State.start_expander, hx]
      rw [ht]
      exact leads_next.2 (.taken (start_quiet s).changes.moves)
    · exact leads_untaken s
  · exact leads_untaken s

theorem leads_expansionCompletion (s : State) : s.Leads (execExpansionCompletion s) := by
  unfold execExpansionCompletion
  split
  · next e he =>
    dsimp only
    split
    · next hf => exact leads_next.2 (.taken ((start_quiet s).changes.moves.tail (.fill (s := s.start) e he hf)))
    · next hf => exact leads_next.2 (.taken ((start_quiet s).changes.moves.tail (.discard (s := s.start) e he hf)))
  · exact leads_untaken s

theorem leads_erasureCompletion (k : SlotNo) (s : State) : s.Leads (execErasureCompletion k s) := by
  unfold execErasureCompletion
  split
  · next keys cause hb => exact leads_next.2 (.taken ((start_quiet s).changes.moves.tail (.erase (s := s.start) k keys cause hb)))
  · exact leads_untaken s

end Sys2Proof.Machine
end

