-- ==== Sys2Proof/Proofs/Commands.lean ====
section
/-! SUPPORT. The key link's commands as chains of moves (R22, R40 to R43, R57 to R60, R129, R161, R165, R172 to R177). -/

namespace Sys2Proof.Machine

/-! ## What leaves nothing to take -/

/-- Outside SERVICE nothing is queued. -/
theorem queue_nil_outside_service {s : State} (hk : s.custody) (hl : s.ledger) (hd : s.contain.device ≠ .service) :
    s.expander.queue = [] := by
  by_contra hq
  obtain ⟨r, hr⟩ := List.exists_mem_of_ne_nil _ hq
  obtain ⟨hne, hw, -⟩ := hl.queued.2 r hr
  obtain ⟨n, hn⟩ := List.exists_mem_of_ne_nil _ hne
  obtain ⟨c, hc, hst, hp⟩ := hw.2 n hn
  obtain ⟨cap, hcap, -, -⟩ := hasPair_iff.1 hp
  have := captured_dead hk hl hd (ctx?_mem hc) hcap
  rw [live_of_waitKey hst] at this
  cases this

/-- FLUSH-SCHEDULES takes no set's last unpinned way nor frees one (R124, R129). -/
theorem fullyPinned_flushed {s : State} (i : Fin 4) : s.flushed.fullyPinned i ↔ s.fullyPinned i := by
  refine forall_congr' fun w => ⟨fun ⟨d, hd, hp⟩ => ?_, fun ⟨e, he, hp⟩ => ?_⟩
  · rw [way_flushed s i w] at hd
    obtain ⟨e, he, hf⟩ := Option.bind_eq_some_iff.1 hd
    exact ⟨e, he, (flushed_some hf).1⟩
  · refine ⟨{ e with flush := true }, ?_, hp⟩
    rw [way_flushed s i w, he]
    simp [Entry.flushed, hp]

theorem settled_flushed {s : State} (h : s.settled) : s.flushed.settled := by
  refine h.imp id fun h => ?_
  rw [State.oldestEligible, List.find?_eq_none] at h ⊢
  intro r hr
  rw [eligible_iff, fullyPinned_flushed, ← eligible_iff]
  exact h r hr

/-! ## The key table and the cache (R57 to R60, R129) -/

theorem nextGeneration_ne_zero (g : Generation) : nextGeneration g ≠ 0 := by
  revert g
  unfold nextGeneration
  decide

theorem ownLoadKey_acts (slot : Byte) (d t : Key) (s : State) : s.Acts (s.ownLoadKey slot d t).1 := by
  unfold State.ownLoadKey
  split
  · exact .refl s
  · split
    · exact .refl s
    · next k _ =>
      split
      · exact .refl s
      · next hb =>
        split
        · exact .refl s
        · next hne => exact .of_moves (Move.moves (.load k _ _ (not_not.1 hb) hne (nextGeneration_ne_zero _))) rfl rfl

theorem ownScrubKey_acts (slot : Byte) (s : State) : s.Acts (s.ownScrubKey slot).1 := by
  unfold State.ownScrubKey
  split
  · exact .refl s
  · split
    · exact .refl s
    · next k _ =>
      split
      · next keys hb => exact .taken (Move.moves (.scrub k keys .command (.inl hb)))
      · next keys hb => exact .taken (Move.moves (.scrub k keys .command (.inr hb)))
      · exact .refl s
      · exact .refl s
      · next hb => exact .of_moves (Move.moves (.blank k .empty (.inr hb) (.inl rfl))) rfl rfl

theorem ownFlush_acts (s : State) : s.Acts s.ownFlush.1 := by
  unfold State.ownFlush
  split
  · exact .refl s
  · exact ⟨Move.moves .flush, fun _ _ _ => settled_flushed⟩

/-! ## The range table (R40 to R43) -/

theorem lock_binding (i : RangeNo) (r : Range) : (r.lock i).binding = r.binding := by
  unfold Range.lock
  split <;> rfl

/-- A range locked may stand. -/
theorem rangeKept_lock (i : RangeNo) (s : State) : s.RangeKept i (s.ranges[i].lock i) :=
  ⟨lock_span i _, lock_binding i _, fun h => by rw [lock_closed] at h; cases h⟩

theorem lockRanges_moves (p : Range → Bool) (s : State) : Moves s (s.lockRanges p) :=
  Move.moves (.ranges _ fun i => by
    have h := lockRanges_get p s i
    unfold State.lockRanges at h
    rw [h]
    split
    · exact rangeKept_lock i s
    · exact ⟨rfl, rfl, .inl⟩)

theorem ownSetRange_acts (index : Byte) (first : Sector) (count : BitVec 48) (binding lock : Byte) (idle : BitVec 24) (s : State) :
    s.Acts (s.ownSetRange index first count binding lock idle).1 := by
  unfold State.ownSetRange
  split
  · exact .refl s
  · split
    · exact .refl s
    · next i _ =>
      split
      · exact .refl s
      · split
        · exact .refl s
        · next hsize =>
          split
          · dsimp only
            split
            · exact .refl s
            · next hover =>
              refine .of_moves (Move.moves (.setRange i _ ⟨rfl, fun hi => ⟨_, if_neg hi, ?_, ?_⟩⟩)) rfl rfl
              · exact Nat.not_lt.1 fun h => hsize ⟨hi, h⟩
              · exact Bool.eq_false_iff.2 fun h => hover ⟨hi, h⟩
          · exact .refl s

theorem ownOpenRange_acts (index mode : Byte) (s : State) : s.Acts (s.ownOpenRange index mode).1 := by
  unfold State.ownOpenRange
  split
  · exact .refl s
  · split
    · exact .refl s
    · next i _ =>
      split
      · exact .refl s
      · next st _ =>
        split
        · exact .refl s
        · split
          · exact .refl s
          · next hb => exact .of_moves (setKept_moves ⟨rfl, rfl, fun _ => .inr (Bool.not_eq_false _ ▸ hb)⟩) rfl rfl

theorem ownLockRange_acts (index : Byte) (s : State) : s.Acts (s.ownLockRange index).1 := by
  unfold State.ownLockRange
  split
  · exact .refl s
  · split
    · exact .refl s
    · next i _ => exact .of_moves (setKept_moves (rangeKept_lock i s)) rfl rfl

/-! ## The window decoder (R22, R30, R31) -/

theorem ownSetWindow_acts (index treatment : Byte) (first last : BitVec 32) (direction : Byte) (movers relocation : MoverSet)
    (s : State) : s.Acts (s.ownSetWindow index treatment first last direction movers relocation).1 := by
  unfold State.ownSetWindow
  split
  · exact .refl s
  · split
    · exact .refl s
    · split
      · exact .refl s
      · next i _ =>
        split
        · exact .refl s
        · exact .of_moves (Move.moves (.window i _ (.inl rfl))) rfl rfl
        · exact .refl s
        · split
          · exact .refl s
          · dsimp only
            split
            · exact .refl s
            · next ho => exact .of_moves (Move.moves (.window i _ (.inr (Bool.not_eq_true _ ▸ ho)))) rfl rfl

/-! ## Device, presence, events (R153 to R182) -/

theorem ownGo_acts (s : State) : s.Acts s.ownGo.1 := by
  unfold State.ownGo
  split
  · next hd => exact .of_moves (Move.moves (.device .service (by rw [hd]; decide))) rfl rfl
  · exact .refl s

theorem ownRecover_acts (s : State) : s.Acts s.ownRecover.1 := by
  unfold State.ownRecover
  split
  · exact .refl s
  · next hd =>
    split
    · exact .refl s
    · refine .of_queue (Move.moves (.recover (not_not.1 hd))) fun hk hl _ => ?_
      rw [(recoverAll_books s).2.2.1]
      exact queue_nil_outside_service hk.2 hl (by rw [not_not.1 hd]; decide)

theorem ownArmPresence_acts (n : BitVec 16) (s : State) : s.Acts (s.ownArmPresence n).1 := by
  unfold State.ownArmPresence
  split
  · exact .refl s
  · split
    · exact .refl s
    · refine State.Quiet.acts (State.sameBooks.quiet ?_)
      exact ⟨rfl, rfl, rfl, rfl, rfl, rfl, rfl⟩

theorem ownRenew_acts (s : State) : s.Acts s.ownRenew.1 := by
  unfold State.ownRenew
  split
  · exact .refl s
  · split
    · refine State.Quiet.acts (State.sameBooks.quiet ?_)
      exact ⟨rfl, rfl, rfl, rfl, rfl, rfl, rfl⟩
    · exact .refl s

/-- The same books, whatever the answer. -/
theorem State.sameBooks.acts {s t : State} (h : s.sameBooks t) : s.Acts t := h.quiet.acts

theorem ownReadFault_acts (s : State) : s.Acts (s.ownReadFault).1 := by
  unfold State.ownReadFault
  split <;> exact State.sameBooks.acts (by constructor <;> rfl)

theorem ownReadAbort_acts (s : State) : s.Acts (s.ownReadAbort).1 := by
  unfold State.ownReadAbort
  split <;> exact State.sameBooks.acts (by constructor <;> rfl)

theorem ownFreeze_acts (s : State) : s.Acts (s.ownFreeze).1 := by
  unfold State.ownFreeze
  split <;> exact State.sameBooks.acts (by constructor <;> rfl)

theorem ownClearFault_acts (s : State) : s.Acts (s.ownClearFault).1 := by
  unfold State.ownClearFault
  split <;> exact State.sameBooks.acts (by constructor <;> rfl)

theorem ownClearTallies_acts (s : State) : s.Acts (s.ownClearTallies).1 := by
  unfold State.ownClearTallies
  split <;> exact State.sameBooks.acts (by constructor <;> rfl)

theorem ownSetLimit_acts (n : BitVec 48) (s : State) : s.Acts (s.ownSetLimit n).1 := by
  unfold State.ownSetLimit
  repeat' split
  all_goals exact State.sameBooks.acts (by constructor <;> rfl)

theorem ownSetAlert_acts (e : BitVec 16) (s : State) : s.Acts (s.ownSetAlert e).1 := by
  unfold State.ownSetAlert
  repeat' split
  all_goals exact State.sameBooks.acts (by constructor <;> rfl)

theorem ownClearEvents_acts (e : BitVec 16) (s : State) : s.Acts (s.ownClearEvents e).1 := by
  unfold State.ownClearEvents
  repeat' split
  all_goals exact State.sameBooks.acts (by constructor <;> rfl)

/-- Every command's owner leads on by moves that settle (R177). -/
theorem owner_acts (c : LinkCommand) (s : State) : s.Acts (c.owner s).1 := by
  cases c with
  | status => exact .refl s
  | readFault => exact ownReadFault_acts s
  | readAbort => exact ownReadAbort_acts s
  | loadKey => exact ownLoadKey_acts _ _ _ s
  | scrubKey => exact ownScrubKey_acts _ s
  | flushSchedules => exact ownFlush_acts s
  | setRange => exact ownSetRange_acts _ _ _ _ _ _ s
  | openRange => exact ownOpenRange_acts _ _ s
  | lockRange => exact ownLockRange_acts _ s
  | setWindow => exact ownSetWindow_acts _ _ _ _ _ _ _ s
  | setLimit => exact ownSetLimit_acts _ s
  | freeze => exact ownFreeze_acts s
  | go => exact ownGo_acts s
  | recover => exact ownRecover_acts s
  | armPresence => exact ownArmPresence_acts _ s
  | renew => exact ownRenew_acts s
  | setAlert => exact ownSetAlert_acts _ s
  | clearEvents => exact ownClearEvents_acts _ s
  | clearFault => exact ownClearFault_acts s
  | clearTallies => exact ownClearTallies_acts s

/-! ## Command and read periods (R172 to R176) -/

theorem respond_quiet (a : Answer) (s : State) : s.Quiet (s.respond a) :=
  State.sameBooks.quiet ⟨rfl, rfl, rfl, rfl, rfl, rfl, rfl⟩

theorem link_quiet (l : ResponseBuffer) (s : State) : s.Quiet { s with link := l } :=
  State.sameBooks.quiet ⟨rfl, rfl, rfl, rfl, rfl, rfl, rfl⟩

theorem judged_acts (b : Bool) (c : LinkCommand) (s : State) : s.Acts (s.judged b c.owner) := by
  unfold State.judged
  split
  · exact (respond_quiet _ s).acts
  · exact (owner_acts c s).trans (respond_quiet _ _).acts

theorem judgeBytes_acts (bytes : List Byte) (n : Nat) (s : State) : s.Acts (s.judgeBytes bytes n) := by
  unfold State.judgeBytes
  split
  · exact (respond_quiet _ s).acts
  · exact judged_acts _ _ s

theorem commandEnds_acts {n : Nat} {judge : State → State} (h : ∀ u : State, u.Acts (judge u)) (s : State) :
    s.Acts (s.commandEnds n judge) := by
  have hs : s.Quiet (s.start.driveKdo (List.replicate n (some true))) :=
    State.sameBooks.quiet ⟨rfl, rfl, rfl, rfl, rfl, rfl, rfl⟩
  unfold State.commandEnds
  dsimp only
  split
  · exact hs.acts.trans (h _)
  · exact (hs.trans (link_quiet _ _)).acts
  · exact (hs.trans (link_quiet _ _)).acts

theorem leads_linkRow (c : LinkCommand) (s : State) : s.Leads (linkRow c c.owner s) :=
  leads_next.2 (commandEnds_acts (fun u => judged_acts _ c u) s)

theorem readEnds_quiet (n : Nat) (s : State) : s.Quiet (s.readEnds n) := by
  unfold State.readEnds
  split
  · exact State.sameBooks.quiet ⟨rfl, rfl, rfl, rfl, rfl, rfl, rfl⟩
  · exact State.sameBooks.quiet ⟨rfl, rfl, rfl, rfl, rfl, rfl, rfl⟩
  · dsimp only
    split <;> exact State.sameBooks.quiet ⟨rfl, rfl, rfl, rfl, rfl, rfl, rfl⟩

theorem leads_commandPeriod (first rest : List Bool) (s : State) : s.Leads (execCommandPeriod first rest s) := by
  unfold execCommandPeriod
  dsimp only
  split
  · exact leads_untaken s
  · split
    · exact leads_next.2 ((start_quiet s).trans (readEnds_quiet _ _)).acts
    · exact leads_next.2 (commandEnds_acts (fun u => judgeBytes_acts _ _ u) s)

theorem leads_readPeriod (n : Nat) (s : State) : s.Leads (execReadPeriod n s) := by
  unfold execReadPeriod
  split
  · exact leads_untaken s
  · exact leads_next.2 ((start_quiet s).trans (readEnds_quiet _ _)).acts

theorem leads_preparationEnd (s : State) : s.Leads (execPreparationEnd s) := by
  unfold execPreparationEnd
  split
  · exact leads_idle ⟨rfl, rfl, rfl, rfl, rfl, rfl, rfl⟩
  · exact leads_untaken s

end Sys2Proof.Machine
end

