-- ==== Sys2Proof/Proofs/Steps.lean ====
section
/-! SUPPORT. The monitor, resets, timers and the fine tick as chains of moves, and with them every step (R32, R46, R64, R95 to R96,
R110 to R112, R117, R130, R146 to R168). -/

namespace Sys2Proof.Machine

/-! ## The monitor (R32, R46, R64, R167) -/

theorem reportMismatch_quiet (t : Table) (n : Nat) (s : State) : s.Quiet (s.reportMismatch t n) :=
  (raise_quiet s _).trans (logFault_quiet _ _ _ _ _)

/-- A record marked FAULTED may stand. -/
theorem rangeKept_faulted (i : RangeNo) (s : State) :
    s.RangeKept i (Range.sealed i { s.ranges[i] with state := .faulted, idleRemaining := none }) :=
  ⟨rfl, rfl, fun h => by cases h⟩

theorem windowMismatch_moves (i : WindowNo) (s : State) : Moves s (s.windowMismatch i) := by
  have h : Moves s ((s.reportMismatch .window i.val).writeWindow i { s.decoder.windows[i] with treatment := .faulted }) :=
    (reportMismatch_quiet _ _ s).changes.moves.tail (.window i _ (.inl rfl))
  unfold State.windowMismatch
  dsimp only
  split
  · split
    · refine h.trans (State.Quiet.changes (State.sameBooks.quiet ?_)).moves
      constructor <;> simp [State.restartDwell]
    · exact h.tail .contain
  · exact h

theorem rangeMismatch_moves (i : RangeNo) (s : State) : Moves s (s.rangeMismatch i) := by
  have hr : (s.reportMismatch .range i.val).ranges = s.ranges := by simp [State.reportMismatch]
  have hk := rangeKept_faulted i (s.reportMismatch .range i.val)
  simp only [hr] at hk
  exact (reportMismatch_quiet _ _ s).changes.moves.trans (setKept_moves hk)

theorem slotMismatch_moves (k : SlotNo) (s : State) : Moves s (s.slotMismatch k) := by
  have h := (reportMismatch_quiet .key k.val s).changes.moves
  have hk : (s.reportMismatch .key k.val).slots = s.slots := by simp [State.reportMismatch]
  unfold State.slotMismatch
  dsimp only
  generalize s.reportMismatch .key k.val = u at h hk ⊢
  simp only [← hk]
  split
  · next keys hb => exact h.tail (.scrub k keys .check (.inl hb))
  · next keys hb => exact h.tail (.scrub k keys .check (.inr hb))
  · next hb => exact h.tail (.blank k .faulted (.inl hb) (.inr rfl))
  · next hb => exact h.tail (.blank k .faulted (.inr hb) (.inr rfl))
  · exact .refl

theorem visit_moves (cursor : Fin 56) (s : State) : Moves s (s.visit cursor) := by
  unfold State.visit
  split
  · dsimp only
    split
    · exact .refl
    · exact windowMismatch_moves _ s
  · split
    · dsimp only
      split
      · exact rangeMismatch_moves _ s
      · exact .refl
    · dsimp only
      split
      · exact slotMismatch_moves _ s
      · exact .refl

theorem monitorTick_acts (s : State) : s.Acts s.monitorTick := by
  unfold State.monitorTick
  split
  · refine .taken ((visit_moves s.contain.cursor s).trans (State.Quiet.changes (State.sameBooks.quiet ?_)).moves)
    exact ⟨rfl, rfl, rfl, rfl, rfl, rfl, rfl⟩
  · exact .refl s

theorem leads_tableMonitorVisit (s : State) : s.Leads (execTableMonitorVisit s) := by
  unfold execTableMonitorVisit
  split
  · exact leads_next.2 ((start_quiet s).acts.trans (monitorTick_acts _))
  · exact leads_untaken s

/-! ## Resets, the self-test and the controller clear (R95, R117, R118, R130, R160) -/

theorem leads_powerOnReset (b : Bool) (s : State) : s.Leads (execPowerOnReset b s) :=
  leads_next.2 (.of_queue (Move.moves (.reset ⟨rfl, rfl, rfl, rfl, rfl, rfl, rfl⟩)) fun _ _ _ => rfl)

theorem passSelfTest_acts {s : State} (hd : s.contain.device = .selfTest) : s.Acts s.passSelfTest := by
  have h : s.Acts { s with contain := { s.contain with device := .config } } :=
    .of_moves (Move.moves (.device .config (by rw [hd]; decide))) rfl rfl
  exact h.trans (raise_quiet _ _).acts

theorem leads_selfTestEnd (f : Option KnownAnswerTest) (s : State) : s.Leads (execSelfTestEnd f s) := by
  unfold execSelfTestEnd
  split
  · next hd =>
    split
    · exact leads_next.2 ((start_quiet s).acts.trans (passSelfTest_acts hd.1))
    · exact leads_next.2 (contained_acts ((start_quiet s).trans (logFault_quiet _ _ _ _ _)))
  · exact leads_untaken s

theorem abandonAll_acts (s : State) : s.Acts s.start.abandonAll :=
  .of_queue ((start_quiet s).changes.moves.tail .clear) fun _ _ _ => rfl

theorem leads_segmentClear (s : State) : s.Leads (execSegmentClear s) := by
  unfold execSegmentClear
  split
  · exact leads_untaken s
  · split
    · exact leads_next.2 (abandonAll_acts s)
    · refine leads_next.2 ((abandonAll_acts s).trans (State.sameBooks.acts ?_))
      constructor <;> simp

theorem leads_segmentClearDeasserted (s : State) : s.Leads (execSegmentClearDeasserted s) := by
  unfold execSegmentClearDeasserted
  split
  · exact leads_idle ⟨rfl, rfl, rfl, rfl, rfl, rfl, rfl⟩
  · exact leads_untaken s

/-! ## Answer timers (R110 to R112) -/

theorem expireAnswer_changes (c : Context) (s : State) : Changes s (s.expireAnswer c) := by
  have h : s.Quiet (if c.state = .hold then s.countTimeout.logFault .mediaTimeout (some c) none none else s.countTimeout) := by
    split
    · exact (countTimeout_quiet s).trans (logFault_quiet _ _ _ _ _)
    · exact countTimeout_quiet s
  exact h.changes.trans (enterCancel_changes _ _ _ _ _)

theorem strand_changes {c : Context} {s : State} (hc : s.ctx? c.number = some c) : Changes s (s.strand c) := by
  have h : Changes s ((((s.logFault .cancelTimeout (some c) none none).releasePin c).discardWork c.number).modCtx c.number
      fun c => { c with state := .stranded, timer := none, tweak := .absent }) := by
    refine Relation.ReflTransGen.tail (logFault_quiet s _ _ _ _).changes (.withdraw c.number c _ ?_ ?_)
    · rw [ctx?_congr (s := s) (by simp)]; exact hc
    · exact ⟨⟨rfl, rfl, rfl, rfl, rfl, id, fun h => by cases h⟩, rfl, by simp⟩
  unfold State.strand
  dsimp only
  split
  · exact h
  · exact h.trans (intake_quiet _ _).changes

theorem answerTimeout_changes {c : Context} {s : State} (hc : s.ctx? c.number = some c) : Changes s (s.answerTimeout c) := by
  unfold State.answerTimeout
  split
  · exact strand_changes hc
  · exact expireAnswer_changes c s

theorem noteAnswer_quiet (n : CtxNo) (s : State) : s.Quiet (s.noteAnswer n) := marks_quiet s _

theorem leads_answerTimerExpiry (n : CtxNo) (s : State) : s.Leads (execAnswerTimerExpiry n s) := by
  unfold execAnswerTimerExpiry
  split
  · split
    · exact leads_next.2 (((start_quiet s).trans (noteAnswer_quiet n _)).taken (expireAnswer_changes _ _))
    · exact leads_untaken s
  · exact leads_untaken s

theorem leads_cancelTimeout (n : CtxNo) (s : State) : s.Leads (execCancelTimeout n s) := by
  unfold execCancelTimeout
  split
  · next c hc =>
    split
    · refine leads_next.2 (((start_quiet s).trans (noteAnswer_quiet n _)).taken (strand_changes ?_))
      rw [ctx?_number hc]
      exact hc
    · exact leads_untaken s
  · exact leads_untaken s

theorem tickAnswer_acts (n : CtxNo) (s : State) : s.Acts (s.tickAnswer n) := by
  unfold State.tickAnswer
  split
  · next c hc =>
    split
    · split
      · exact .taken (Changes.moves (answerTimeout_changes (by rw [ctx?_number hc]; exact hc)))
      · exact (touched_quiet fun c => touched_timer _ c).acts
    · exact .refl s
  · exact .refl s

theorem answerTicks_acts (s : State) : s.Acts s.answerTicks := by
  unfold State.answerTicks
  generalize (s.contexts.filter fun c => s.countsTick c).map (fun c => c.number) = l
  induction l generalizing s with
  | nil => exact .refl s
  | cons n l ih => exact (tickAnswer_acts n s).trans (ih _)

/-! ## The coarse tick (R148, R149, R152, R155, R164) -/

theorem expireIdle_acts (i : RangeNo) (s : State) : s.Acts (s.expireIdle i) := by
  have h : s.Acts (s.writeRange i { s.ranges[i] with state := .locked, idleRemaining := none }) :=
    .of_moves (setKept_moves ⟨rfl, rfl, fun h => by cases h⟩) rfl rfl
  refine h.trans (State.sameBooks.acts ?_)
  exact ⟨rfl, rfl, rfl, rfl, rfl, rfl, rfl⟩

theorem leads_idleExpiry (i : RangeNo) (s : State) : s.Leads (execIdleExpiry i s) := by
  unfold execIdleExpiry
  split
  · exact leads_next.2 (((start_quiet s).trans (marks_quiet _ _)).acts.trans (expireIdle_acts i _))
  · exact leads_untaken s

theorem time_quiet (m : Timebase) (s : State) : s.Quiet { s with time := m } :=
  State.sameBooks.quiet ⟨rfl, rfl, rfl, rfl, rfl, rfl, rfl⟩

theorem lapsePresence_acts (s : State) : s.Acts s.lapsePresence := by
  have h : s.Acts (s.lockRanges fun r => r.lockOnAbsence) := .of_moves (lockRanges_moves _ s) rfl rfl
  unfold State.lapsePresence
  dsimp only
  generalize s.lockRanges (fun r => r.lockOnAbsence) = u at h ⊢
  exact h.trans ((time_quiet _ u).trans (raise_quiet _ _)).acts

theorem leads_presenceLapse (s : State) : s.Leads (execPresenceLapse s) := by
  unfold execPresenceLapse
  split
  · split
    · exact leads_next.2 (((start_quiet s).trans (marks_quiet _ _)).acts.trans (lapsePresence_acts _))
    · exact leads_untaken s
  · exact leads_untaken s

theorem leads_dwellEnd (s : State) : s.Leads (execDwellEnd s) := by
  unfold execDwellEnd
  split
  · split
    · exact leads_idle ⟨rfl, rfl, rfl, rfl, rfl, rfl, rfl⟩
    · exact leads_untaken s
  · exact leads_untaken s

theorem tickIdle_acts (i : RangeNo) (s : State) : s.Acts (s.tickIdle i) := by
  unfold State.tickIdle
  split
  · split
    · split
      · exact expireIdle_acts i s
      · exact .of_moves (setKept_moves ⟨rfl, rfl, .inl⟩) rfl rfl
    · exact .refl s
  · exact .refl s

theorem idleTicks_acts (s : State) : s.Acts s.idleTicks := by
  unfold State.idleTicks
  generalize List.finRange 16 = l
  induction l generalizing s with
  | nil => exact .refl s
  | cons i l ih => exact (tickIdle_acts i s).trans (ih _)

theorem presenceTick_acts (s : State) : s.Acts s.presenceTick := by
  unfold State.presenceTick
  split
  · split
    · exact .refl s
    · split
      · exact lapsePresence_acts s
      · exact State.sameBooks.acts ⟨rfl, rfl, rfl, rfl, rfl, rfl, rfl⟩
  · exact .refl s

theorem dwellTick_acts (s : State) : s.Acts s.dwellTick := by
  unfold State.dwellTick
  split
  · split
    · exact .refl s
    · exact State.sameBooks.acts ⟨rfl, rfl, rfl, rfl, rfl, rfl, rfl⟩
  · exact .refl s

theorem coarseTick_acts (s : State) : s.Acts s.coarseTick := by
  have hticks : s.Acts (if Config.tickOrder s.choices then s.idleTicks.presenceTick else s.presenceTick.idleTicks) := by
    split
    · exact (idleTicks_acts s).trans (presenceTick_acts _)
    · exact (presenceTick_acts s).trans (idleTicks_acts _)
  refine (hticks.trans (dwellTick_acts _)).trans (State.sameBooks.acts ?_)
  exact ⟨rfl, rfl, rfl, rfl, rfl, rfl, rfl⟩

theorem coarsePart_acts (s : State) : s.Acts s.coarsePart := by
  unfold State.coarsePart
  split
  · refine (coarseTick_acts s).trans (State.sameBooks.acts ?_)
    exact ⟨rfl, rfl, rfl, rfl, rfl, rfl, rfl⟩
  · exact State.sameBooks.acts ⟨rfl, rfl, rfl, rfl, rfl, rfl, rfl⟩

theorem fineTick_acts (s : State) : s.Acts s.fineTick := by
  have hticks : s.Acts (if Config.tickOrder s.start.choices then s.start.answerTicks.monitorTick else s.start.monitorTick.answerTicks) := by
    split
    · exact (start_quiet s).acts.trans ((answerTicks_acts _).trans (monitorTick_acts _))
    · exact (start_quiet s).acts.trans ((monitorTick_acts _).trans (answerTicks_acts _))
  unfold State.fineTick
  dsimp only
  generalize (if Config.tickOrder s.start.choices then s.start.answerTicks.monitorTick else s.start.monitorTick.answerTicks) = u
    at hticks ⊢
  refine hticks.trans (State.Acts.trans (t := { u with choices := u.choices + 1 }) (State.sameBooks.acts ?_)
    ((coarsePart_acts _).trans (marks_quiet _ _).acts))
  exact ⟨rfl, rfl, rfl, rfl, rfl, rfl, rfl⟩

/-! ## Every step -/

theorem leads_exec (i : Instr) (s : State) : s.Leads (exec i s) := by
  cases i with
  | powerOnReset => exact leads_powerOnReset _ s
  | selfTestEnd => exact leads_selfTestEnd _ s
  | segmentClear => exact leads_segmentClear s
  | segmentClearDeasserted => exact leads_segmentClearDeasserted s
  | requestHeader => exact leads_requestHeader _ s
  | storeBeat => exact leads_storeBeat _ s
  | beatDropped => exact leads_beatDropped s
  | returnPathDelivery => exact leads_returnPathDelivery s
  | sectorTweak => exact leads_sectorTweak _ s
  | catchUp => exact leads_catchUp _ s
  | outboundVerify => exact leads_outboundVerify _ s
  | inboundDecipher => exact leads_inboundDecipher s
  | fetchIssue => exact leads_fetchIssue s
  | pieceIssue => exact leads_pieceIssue s
  | cancelIssue => exact leads_cancelIssue s
  | accept => exact leads_accept _ _ s
  | fetchUnit => exact leads_fetchUnit _ _ s
  | holdFetchUnit => exact leads_holdFetchUnit _ _ s
  | fetchDone => exact leads_fetchDone _ s
  | pieceDone => exact leads_pieceDone _ s
  | holdFetchDone => exact leads_holdFetchDone _ s
  | releaseStoreDone => exact leads_releaseStoreDone _ s
  | mediaError => exact leads_mediaError _ _ s
  | cancelAnswer => exact leads_cancelArrival _ s
  | unroutableArrival => exact leads_unroutableArrival s
  | answerTimerExpiry => exact leads_answerTimerExpiry _ s
  | cancelTimeout => exact leads_cancelTimeout _ s
  | expansionStart => exact leads_expansionStart s
  | expansionCompletion => exact leads_expansionCompletion s
  | erasureCompletion => exact leads_erasureCompletion _ s
  | tableMonitorVisit => exact leads_tableMonitorVisit s
  | idleExpiry => exact leads_idleExpiry _ s
  | presenceLapse => exact leads_presenceLapse s
  | dwellEnd => exact leads_dwellEnd s
  | commandPeriod => exact leads_commandPeriod _ _ s
  | preparationEnd => exact leads_preparationEnd s
  | readPeriod => exact leads_readPeriod _ s
  | status => exact leads_linkRow .status s
  | readFault => exact leads_linkRow .readFault s
  | readAbort => exact leads_linkRow .readAbort s
  | loadKey slot d t => exact leads_linkRow (.loadKey slot d t) s
  | scrubKey slot => exact leads_linkRow (.scrubKey slot) s
  | flushSchedules => exact leads_linkRow .flushSchedules s
  | setRange i f c b l t => exact leads_linkRow (.setRange i f c b l t) s
  | openRange i m => exact leads_linkRow (.openRange i m) s
  | lockRange i => exact leads_linkRow (.lockRange i) s
  | setWindow i t f l d m r => exact leads_linkRow (.setWindow i t f l d m r) s
  | setLimit n => exact leads_linkRow (.setLimit n) s
  | freeze => exact leads_linkRow .freeze s
  | go => exact leads_linkRow .go s
  | recover => exact leads_linkRow .recover s
  | armPresence n => exact leads_linkRow (.armPresence n) s
  | renew => exact leads_linkRow .renew s
  | setAlert e => exact leads_linkRow (.setAlert e) s
  | clearEvents e => exact leads_linkRow (.clearEvents e) s
  | clearFault => exact leads_linkRow .clearFault s
  | clearTallies => exact leads_linkRow .clearTallies s

/-- Every step is a chain of moves that settles. -/
theorem step_acts {s t : State} (h : step s = .next t) : s.Acts t := by
  unfold step at h
  split at h
  · cases h
    exact fineTick_acts s
  · next c rest _ =>
    have hp : s.Acts { s with pending := rest } := State.sameBooks.acts ⟨rfl, rfl, rfl, rfl, rfl, rfl, rfl⟩
    exact hp.trans (leads_exec c _ t h)

/-! ## The obligations -/

/-- Settles O54: every step is a chain of moves, and each kind of move keeps the laws of the tables. -/
theorem everyStepKeepsTableLaws : Obligations.every_step_keeps_table_laws := by
  unfold Obligations.every_step_keeps_table_laws
  exact fun s t hs h => (step_acts h).1.tableLaws hs

/-- Settles O57: every step is a chain of moves, and each kind of move keeps key custody. -/
theorem everyStepKeepsKeyCustody : Obligations.every_step_keeps_key_custody := by
  unfold Obligations.every_step_keeps_key_custody
  exact fun s t hs h => (step_acts h).1.keyCustody hs

/-- Settles O58: every step is a chain of moves that keep the ledger of pins and waiting contexts and the keys of entries, and at
its end no eligible request stands before an idle expander. -/
theorem everyStepKeepsCacheLaws : Obligations.every_step_keeps_cache_laws := by
  unfold Obligations.every_step_keeps_cache_laws
  intro s t hk hs h
  obtain ⟨hl, hy, hset⟩ := cacheLaws_iff.1 hs
  obtain ⟨hm, hsettles⟩ := step_acts h
  obtain ⟨-, hl', hy'⟩ := hm.books hk hl hy
  exact cacheLaws_iff.2 ⟨hl', hy', hsettles hk hl hy hset⟩

end Sys2Proof.Machine
end

