-- ==== Sys2Proof/Proofs/Tweaks.lean ====
section
/-! SUPPORT. The tweaks kept, and LOAD-KEY (R4, R6, R7, R11, R54, R57). -/

namespace Sys2Proof.Machine

/-! ## SECTOR_TWEAK and CATCH_UP (R4, R6, R7) -/

/-- A context's tweak kept: its record alone changes, and a mark (R7). -/
theorem keepTweak_result {n : CtxNo} {c : Context} {s : State} (hc : s.ctx? n = some c) (b : Block) :
    (s.keepTweak n b).ctx? n = some { c with tweak := .kept b } ∧ s.othersKept n (s.keepTweak n b) :=
  ⟨ctx?_modCtx (f := fun c : Context => { c with tweak := .kept b }) rfl hc,
    othersKept_modCtx (f := fun c : Context => { c with tweak := .kept b }) fun _ => rfl⟩

/-- SECTOR_TWEAK for a streaming context with its entry, while no tweak is there (R4). -/
theorem execSectorTweak_ready {n : CtxNo} {c : Context} {cap : Capture} {e : Entry} {s : State} (hc : s.ctx? n = some c)
    (hcap : c.capture = some cap) (hst : c.streaming = true) (hd : s.contain.device = .service)
    (he : s.entryOf cap.slot cap.generation = some e) (ht : c.tweak = .absent) :
    execSectorTweak n s =
      if cap.offset = 0 then .next (s.start.keepTweak n (e.schedule.sectorTweak cap.sector))
      else .next (s.start.modCtx n fun c => { c with tweak := .catchingUp (e.schedule.sectorTweak cap.sector) }) := by
  simp only [execSectorTweak, hc, hcap, ht, hd, he, hst, if_true]

/-- CATCH_UP for a context that is catching up (R7). -/
theorem execCatchUp_ready {n : CtxNo} {c : Context} {cap : Capture} {t0 : Block} {s : State} (hc : s.ctx? n = some c)
    (hcap : c.capture = some cap) (hd : s.contain.device = .service) (ht : c.tweak = .catchingUp t0) :
    execCatchUp n s = .next (s.start.keepTweak n (doubled cap.offset.toNat t0)) := by
  simp only [execCatchUp, hc, hcap, ht, hd]

/-- Settles O8: by the offset, and by the iterated doubling. -/
theorem tweaksAreKept : Obligations.tweaks_are_kept := by
  unfold Obligations.tweaks_are_kept
  refine ⟨fun n c cap e s hc hcap hst hd he ht => ?_, fun n c cap t0 s hc hcap hd ht => ?_⟩
  · have hexec : exec (.sectorTweak n) s = _ := execSectorTweak_ready hc hcap hst hd he ht
    rw [hexec]
    by_cases ho : cap.offset = 0
    · rw [if_pos ho, if_pos ho]
      obtain ⟨h1, h2⟩ := keepTweak_result (s := s.start) hc (e.schedule.sectorTweak cap.sector)
      exact ⟨_, rfl, h1, h2, rfl⟩
    · rw [if_neg ho, if_neg ho]
      exact ⟨_, rfl, ctx?_modCtx (s := s.start)
        (f := fun c : Context => { c with tweak := .catchingUp (e.schedule.sectorTweak cap.sector) }) rfl hc,
        othersKept_modCtx (s := s.start)
          (f := fun c : Context => { c with tweak := .catchingUp (e.schedule.sectorTweak cap.sector) }) fun _ => rfl, rfl⟩
  · have hexec : exec (.catchUp n) s = _ := execCatchUp_ready hc hcap hd ht
    obtain ⟨h1, h2⟩ := keepTweak_result (s := s.start) hc (doubled cap.offset.toNat t0)
    exact ⟨_, hexec, doubled_eq_iterate cap.offset.toNat t0 ▸ h1, h2, rfl⟩

/-! ## LOAD-KEY (R11, R54, R57) -/

theorem slotIndex_none {b : Byte} (h : 32 ≤ b.toNat) : slotIndex b = none := by
  unfold slotIndex
  rw [dif_neg (by omega)]

theorem slotIndex_some {b : Byte} {k : SlotNo} (h : b.toNat = k.val) : slotIndex b = some k := by
  unfold slotIndex
  rw [dif_pos (by omega)]
  exact congrArg some (Fin.ext h)

/-- LOAD-KEY's frame holds a slot and two keys. -/
theorem loadKey_frame_length (b : Byte) (d t : Key) : (LinkCommand.loadKey b d t).frame.length = 69 := by
  rw [frame_length]
  simp [LinkCommand.payload]

section
variable {b : Byte} {d t : Key} {k : SlotNo} {s : State}

theorem ownLoadKey_contained (hd : s.contain.device = .contained) : s.ownLoadKey b d t = (s, .refused .state) := by
  simp [State.ownLoadKey, hd]

theorem ownLoadKey_badIndex (hd : s.contain.device ≠ .selfTest) (hd' : s.contain.device ≠ .contained) (hb : 32 ≤ b.toNat) :
    s.ownLoadKey b d t = (s, .refused .badIndex) := by
  simp [State.ownLoadKey, hd, hd', slotIndex_none hb]

theorem ownLoadKey_occupied (hd : s.contain.device ≠ .selfTest) (hd' : s.contain.device ≠ .contained) (hb : b.toNat = k.val)
    (ho : s.slots[k].body ≠ .empty) : s.ownLoadKey b d t = (s, .refused .occupied) := by
  unfold State.ownLoadKey
  rw [if_neg (not_or.2 ⟨hd, hd'⟩), slotIndex_some hb]
  exact if_pos ho

theorem ownLoadKey_keysEqual (hd : s.contain.device ≠ .selfTest) (hd' : s.contain.device ≠ .contained) (hb : b.toNat = k.val)
    (he : s.slots[k].body = .empty) (hk : d = t) : s.ownLoadKey b d t = (s, .refused .keysEqual) := by
  unfold State.ownLoadKey
  rw [if_neg (not_or.2 ⟨hd, hd'⟩), slotIndex_some hb]
  exact (if_neg (not_not.2 he)).trans (if_pos hk)

theorem ownLoadKey_fills (hd : s.contain.device ≠ .selfTest) (hd' : s.contain.device ≠ .contained) (hb : b.toNat = k.val)
    (he : s.slots[k].body = .empty) (hk : d ≠ t) :
    s.ownLoadKey b d t = (s.writeSlot k { s.slots[k] with
      body := .loaded { dataKey := d, tweakKey := t }, generation := nextGeneration s.slots[k].generation },
      .done [nextGeneration s.slots[k].generation]) := by
  unfold State.ownLoadKey
  rw [if_neg (not_or.2 ⟨hd, hd'⟩), slotIndex_some hb]
  exact (if_neg (not_not.2 he)).trans (if_neg hk)

end

/-- Settles O39: the checks in their order, and the record written. -/
theorem loadKeyFillsSlot : Obligations.load_key_fills_slot := by
  unfold Obligations.load_key_fills_slot
  intro b d t s hl
  have hlen := loadKey_frame_length b d t
  have hanswer : ∀ {u : State} {a : Answer}, s.contain.device ≠ .selfTest →
      (s.heard 69).ownLoadKey b d t = (u.heard 69, a) → exec (.loadKey b d t) s = .next (u.answered 69 a) :=
    fun hd ho => linkRow_answers hl (.inl hd) hlen ho
  have hopen : s.contain.device = .config ∨ s.contain.device = .service →
      s.contain.device ≠ .selfTest ∧ s.contain.device ≠ .contained := by
    rintro (h | h) <;> rw [h] <;> decide
  refine ⟨fun hd => ?_, fun hd hb => ?_, fun k hd hb => ?_⟩
  · exact hanswer (by rw [hd]; decide) (ownLoadKey_contained (s := s.heard 69) hd)
  · obtain ⟨h1, h2⟩ := hopen hd
    exact hanswer h1 (ownLoadKey_badIndex (s := s.heard 69) h1 h2 hb)
  · obtain ⟨h1, h2⟩ := hopen hd
    refine ⟨fun ho => ?_, fun he hk => ?_, fun g hg he hk => ?_⟩
    · exact hanswer h1 (ownLoadKey_occupied (s := s.heard 69) h1 h2 hb ho)
    · exact hanswer h1 (ownLoadKey_keysEqual (s := s.heard 69) h1 h2 hb he hk)
    · obtain rfl : g = nextGeneration s.slots[k].generation := hg
      refine ⟨_, hanswer (u := s.writeSlot k _) h1 (ownLoadKey_fills (s := s.heard 69) h1 h2 hb he hk), ?_, fun j hj => ?_, rfl⟩
      · exact (getElem_set_fin _ k k _).trans (if_pos rfl)
      · exact (getElem_set_fin _ k j _).trans (if_neg (Ne.symm hj))

end Sys2Proof.Machine
end

