-- ==== Sys2Proof/Proofs/Engines.lean ====
section
/-! SUPPORT. The engines' units: a sound unit past the checker, and a unit deciphered (R8 to R14, R82, R107, R139, R140). -/

namespace Sys2Proof.Machine

/-! ## What an engine sees (R8, R122) -/

/-- The engine of a ready context uses its pair's schedule and its kept tweak. -/
theorem engineView_ready {c : Context} {p : KeyPair} {tw : Block} {s : State} (h : s.engineReady c p tw) :
    s.engineView c = some (p.schedule, tw) := by
  obtain ⟨hd, hst, ht, cap, e, hcap, he, hs⟩ := h
  simp [State.engineView, hd, hst, ht, hcap, he, hs]

section
variable {j : OutboundJob} {c : Context} {p : KeyPair} {tw d : Block} {s : State}

/-- A result that passes the checker goes on (R12, R13). -/
theorem execOutboundVerify_passed (hj : s.engines.outbound = some j) (hc : s.ctx? j.ctx = some c) (h : s.engineReady c p tw)
    (hd : p.schedule.decipher tw (p.schedule.encipher tw j.data ^^^ d) = j.data) :
    execOutboundVerify d s =
      if j.merged then
        .next ((s.start.clearOutbound.advanceTweak j.ctx tw).mergedPassed (p.schedule.encipher tw j.data ^^^ d))
      else if s.slotAccepts j.ctx then
        .next ((s.start.clearOutbound.advanceTweak j.ctx tw).enterSlot
          { ctx := j.ctx, index := j.index, data := p.schedule.encipher tw j.data ^^^ d, enables := j.enables }).takeEligible
      else .next s.untaken := by
  simp only [execOutboundVerify, hj, hc, engineView_ready h, hd, if_true]

/-- A result that does not pass is discarded, logged, and contains the device (R13, R162). -/
theorem execOutboundVerify_failed (hj : s.engines.outbound = some j) (hc : s.ctx? j.ctx = some c) (h : s.engineReady c p tw)
    (hd : p.schedule.decipher tw (p.schedule.encipher tw j.data ^^^ d) ≠ j.data) :
    execOutboundVerify d s = .next (s.start.clearOutbound.logFault .engine (some c) none none).enterContained := by
  simp only [execOutboundVerify, hj, hc, engineView_ready h, hd, if_false]

end

/-! ## Records of the context served -/

/-- The kept tweak advances in the context's record alone (R8). -/
theorem ctx?_advanceTweak {n : CtxNo} {c : Context} {s : State} (hc : s.ctx? n = some c) (b : Block) :
    (s.advanceTweak n b).ctx? n = some { c with tweak := .kept (double b) } :=
  ctx?_modCtx (f := fun c : Context => { c with tweak := .kept (double b) }) rfl hc

theorem othersKept_advanceTweak (n : CtxNo) (b : Block) (s : State) : s.othersKept n (s.advanceTweak n b) :=
  othersKept_modCtx (f := fun c : Context => { c with tweak := .kept (double b) }) fun _ => rfl

/-- One unit more has been passed. -/
def State.countPassed (n : CtxNo) (s : State) : State := s.modCtx n fun c => { c with passed := c.passed + 1 }

theorem ctx?_countPassed {n : CtxNo} {c : Context} {s : State} (hc : s.ctx? n = some c) :
    (s.countPassed n).ctx? n = some { c with passed := c.passed + 1 } :=
  ctx?_modCtx (f := fun c : Context => { c with passed := c.passed + 1 }) rfl hc

theorem othersKept_countPassed (n : CtxNo) (s : State) : s.othersKept n (s.countPassed n) :=
  othersKept_modCtx (f := fun c : Context => { c with passed := c.passed + 1 }) fun _ => rfl

/-! ## A unit to the media port (R83, R107) -/

/-- A unit that is not its store's last is driven and counted (R107). -/
theorem driveUnit_before {u : SlotUnit} {c : Context} {s : State} (hc : s.ctx? u.ctx = some c) (hi : u.index + 1 ≠ c.length) :
    s.driveUnit u = (s.drive (.unit u.ctx (drivenBeat u.data u.enables))).countPassed u.ctx := by
  unfold State.driveUnit
  rw [hc]
  exact if_neg hi

/-- The state in which a store's last unit has been driven and counted and its piece ended (R107). -/
def State.pieceEnded (u : SlotUnit) (s : State) : State :=
  { ((s.drive (.unit u.ctx (drivenBeat u.data u.enables))).countPassed u.ctx).drive (.endMark u.ctx) with
    media := { s.media with path := .free } }

/-- What the end of a piece changes (R107). -/
theorem pieceEnded_frame (u : SlotUnit) (s : State) :
    s.pieceEnded u = { s with
      contexts := (s.pieceEnded u).contexts
      media := { s.media with path := .free }
      out := { s.out with media := s.out.media ++
        [MediaDrive.driven (.unit u.ctx (drivenBeat u.data u.enables)), MediaDrive.driven (.endMark u.ctx)] } } := by
  rw [List.append_cons]
  rfl

/-- A store's last unit is driven and counted, its piece is ended, and it enters CLOSE (R83, R107). -/
theorem driveUnit_last {u : SlotUnit} {c : Context} {s : State} (hc : s.ctx? u.ctx = some c) (hi : u.index + 1 = c.length) :
    s.driveUnit u = (s.pieceEnded u).enterClose u.ctx := by
  unfold State.driveUnit
  rw [hc]
  exact if_pos hi

/-- With a piece outstanding, entry to CLOSE releases the pin and drops the tweak (R17, R83). -/
theorem enterClose_outstanding {n : CtxNo} {c : Context} {s : State} (hc : s.ctx? n = some c) (hst : c.streaming = true)
    (hp : 0 < c.pieces) :
    s.enterClose n = (s.releasePin c).modCtx n fun c => { c with state := .close, tweak := .absent } := by
  unfold State.enterClose
  rw [hc]
  exact (if_pos hst).trans (if_neg (Nat.pos_iff_ne_zero.1 hp))

/-- A pin released in a state with the same cache and expander, and then the take: what a statement calls released. -/
theorem released_of_congr {c d : Context} {s u t : State} (hs : d.state = c.state) (hc : d.capture = c.capture)
    (hk : u.cache = s.cache) (hx : u.expander = s.expander) (hl : u.slots = s.slots)
    (hk' : t.cache = (u.releasePin d).cache) (hx' : t.expander = u.expander) (hl' : t.slots = u.slots) :
    s.released c t.takeEligible := by
  obtain ⟨x, h⟩ := releasePin_frame c s
  refine ⟨s.releasePin c, releasePin_pinReleased c s, by rw [h], took_congr (takeEligible_took t) ?_ ?_ ?_ rfl rfl⟩
  · rw [hk', releasePin_congr hs hc hk]
  · rw [hx', hx, State.releasePin_expander]
  · rw [hl', hl, State.releasePin_slots]

/-- Entry to CLOSE and the take: the record's end, the pin, and all that changes (R17, R83, R122, R124). -/
theorem enterClose_taken {n : CtxNo} {c d : Context} {s u : State} (hu : u.ctx? n = some d) (hst : d.streaming = true)
    (hp : 0 < d.pieces) (hs : d.state = c.state) (hc : d.capture = c.capture) (hk : u.cache = s.cache)
    (hx : u.expander = s.expander) (hl : u.slots = s.slots) :
    (u.enterClose n).takeEligible.ctx? n = some { d with state := .close, tweak := .absent } ∧
      u.othersKept n (u.enterClose n).takeEligible ∧ s.released c (u.enterClose n).takeEligible ∧
      (u.enterClose n).takeEligible =
        { u with
          contexts := (u.enterClose n).takeEligible.contexts
          cache := (u.enterClose n).takeEligible.cache
          expander := (u.enterClose n).takeEligible.expander } := by
  rw [enterClose_outstanding hu hst hp]
  refine ⟨?_, ?_, ?_, ?_⟩
  · rw [ctx?_congr (State.takeEligible_contexts _)]
    exact ctx?_modCtx (f := fun c : Context => { c with state := .close, tweak := .absent }) rfl
      ((ctx?_congr (State.releasePin_contexts d u)).trans hu)
  · refine othersKept_trans (othersKept_of_eq (State.releasePin_contexts d u)) (othersKept_trans
      (othersKept_modCtx (f := fun c : Context => { c with state := .close, tweak := .absent }) fun _ => rfl)
      (othersKept_of_eq (State.takeEligible_contexts _)))
  · exact released_of_congr hs hc hk hx hl rfl (by simp) (by simp)
  · obtain ⟨x, hx⟩ := releasePin_frame d u
    rw [hx]
    obtain ⟨y, z, h⟩ := takeEligible_frame (({ u with cache := x } : State).modCtx n
      fun c => { c with state := .close, tweak := .absent })
    rw [h]
    rfl

/-! ## A verified unit -/

section
variable {u : SlotUnit} {c : Context} {tw : Block} {s : State}

/-- The state in which the checker hands a unit on: the engine free, the tweak advanced. -/
def State.verified (n : CtxNo) (tw : Block) (s : State) : State := s.start.clearOutbound.advanceTweak n tw

theorem ctx?_verified {n : CtxNo} (hc : s.ctx? n = some c) :
    (s.verified n tw).ctx? n = some { c with tweak := .kept (double tw) } := ctx?_advanceTweak (s := s.start.clearOutbound) hc tw

theorem othersKept_verified (n : CtxNo) (tw : Block) (s : State) : s.othersKept n (s.verified n tw) :=
  othersKept_advanceTweak n tw s.start.clearOutbound

/-- A verified unit waits in the empty store slot (R107). -/
theorem verified_waits (hc : s.ctx? u.ctx = some c) (hpath : s.media.path = .free) (hset : s.settled) :
    ∃ t, ((s.verified u.ctx tw).enterSlot u).takeEligible = t ∧
      t.ctx? u.ctx = some { c with tweak := .kept (double tw) } ∧ s.othersKept u.ctx t ∧
      t = { s with
        contexts := t.contexts
        engines := { s.engines with outbound := none }
        media := { s.media with slot := some u }
        out := Outputs.quiet } := by
  have hp : (s.verified u.ctx tw).media.path ≠ .piece u.ctx true := by
    rw [show (s.verified u.ctx tw).media.path = s.media.path from rfl, hpath]
    exact fun h => by cases h
  have hs : (s.verified u.ctx tw).enterSlot u = { s.verified u.ctx tw with media := { s.media with slot := some u } } :=
    if_neg hp
  refine ⟨_, (congrArg _ hs).trans (takeEligible_of_settled ?_), ctx?_verified hc, othersKept_verified u.ctx tw s, rfl⟩
  exact (settled_congr (s := s) rfl rfl).2 hset

/-- A verified unit before the last is driven into the open piece (R107). -/
theorem verified_driven (hc : s.ctx? u.ctx = some c) (hpath : s.media.path = .piece u.ctx true) (hi : u.index + 1 < c.length)
    (hset : s.settled) :
    ∃ t, ((s.verified u.ctx tw).enterSlot u).takeEligible = t ∧
      t.ctx? u.ctx = some { c with tweak := .kept (double tw), passed := c.passed + 1 } ∧ s.othersKept u.ctx t ∧
      t = { s with
        contexts := t.contexts
        engines := { s.engines with outbound := none }
        out := { Outputs.quiet with media := [MediaDrive.driven (.unit u.ctx (drivenBeat u.data u.enables))] } } := by
  have hs : (s.verified u.ctx tw).enterSlot u =
      ((s.verified u.ctx tw).drive (.unit u.ctx (drivenBeat u.data u.enables))).countPassed u.ctx :=
    (if_pos hpath).trans (driveUnit_before (ctx?_verified hc) (Nat.ne_of_lt hi))
  refine ⟨_, (congrArg _ hs).trans (takeEligible_of_settled ?_),
    ctx?_countPassed (s := (s.verified u.ctx tw).drive _) (ctx?_verified hc), ?_, rfl⟩
  · exact (settled_congr (s := s) rfl rfl).2 hset
  · exact othersKept_trans (othersKept_verified u.ctx tw s) (othersKept_countPassed u.ctx _)

theorem ctx?_pieceEnded (hc : s.ctx? u.ctx = some c) :
    (s.pieceEnded u).ctx? u.ctx = some { c with passed := c.passed + 1 } :=
  ctx?_countPassed (s := s.drive (.unit u.ctx (drivenBeat u.data u.enables))) hc

theorem othersKept_pieceEnded (u : SlotUnit) (s : State) : s.othersKept u.ctx (s.pieceEnded u) :=
  othersKept_countPassed u.ctx (s.drive (.unit u.ctx (drivenBeat u.data u.enables)))

/-- A verified unit that is its store's last is driven, ends the piece and takes the store to CLOSE (R83, R107, R122). -/
theorem verified_last (hc : s.ctx? u.ctx = some c) (hst : c.streaming = true) (hpath : s.media.path = .piece u.ctx true)
    (hi : u.index + 1 = c.length) (hp : 0 < c.pieces) :
    ∃ t, ((s.verified u.ctx tw).enterSlot u).takeEligible = t ∧
      t.ctx? u.ctx = some { c with tweak := .absent, passed := c.passed + 1, state := .close } ∧ s.othersKept u.ctx t ∧
      s.released c t ∧
      t = { s with
        contexts := t.contexts
        engines := { s.engines with outbound := none }
        media := { s.media with path := .free }
        cache := t.cache
        expander := t.expander
        out := { Outputs.quiet with
          media := [MediaDrive.driven (.unit u.ctx (drivenBeat u.data u.enables)), MediaDrive.driven (.endMark u.ctx)] } } := by
  have hv : (s.verified u.ctx tw).ctx? u.ctx = some { c with tweak := .kept (double tw) } := ctx?_verified hc
  have hs : (s.verified u.ctx tw).enterSlot u = ((s.verified u.ctx tw).pieceEnded u).enterClose u.ctx :=
    (if_pos hpath).trans (driveUnit_last hv hi)
  have hframe : (s.verified u.ctx tw).pieceEnded u = { s with
      contexts := ((s.verified u.ctx tw).pieceEnded u).contexts
      engines := { s.engines with outbound := none }
      media := { s.media with path := .free }
      out := { Outputs.quiet with
        media := [MediaDrive.driven (.unit u.ctx (drivenBeat u.data u.enables)), MediaDrive.driven (.endMark u.ctx)] } } :=
    pieceEnded_frame u _
  have hctx := ctx?_pieceEnded hv
  have hothers := othersKept_trans (othersKept_verified u.ctx tw s) (othersKept_pieceEnded u _)
  rw [hs]
  generalize (s.verified u.ctx tw).pieceEnded u = v at hframe hctx hothers ⊢
  obtain ⟨h1, h2, h3, h4⟩ := enterClose_taken (s := s) (c := c) hctx hst hp rfl rfl (by rw [hframe]) (by rw [hframe]) (by rw [hframe])
  generalize (v.enterClose u.ctx).takeEligible = t at h1 h2 h3 h4 ⊢
  refine ⟨t, rfl, h1, othersKept_trans hothers h2, h3, h4.trans ?_⟩
  rw [hframe]

end

end Sys2Proof.Machine
end

