-- ==== Sys2Proof/Proofs/Units.lean ====
section
/-! SUPPORT. The merged unit, and a unit deciphered, with the statements of the two engines (R8 to R14, R82, R139, R140). -/

namespace Sys2Proof.Machine

/-! ## The merged unit (R139, R140) -/

/-- Before the DONE of the HOLD-FETCH the merged unit is only kept (R140). -/
theorem mergedPassed_waiting {h : Hold} {s : State} (hh : s.hold = some h) (hf : h.fetchAnswered = false) (y : Block) :
    s.mergedPassed y = { s with hold := some { h with merged := some y } } := by
  simp [State.mergedPassed, State.tryRelease, hh, hf]

/-- After it the RELEASE-STORE is issued with the merged unit, and its ACCEPT timed (R140). -/
theorem mergedPassed_answered {h : Hold} {s : State} (hh : s.hold = some h) (hf : h.fetchAnswered = true) (y : Block) :
    s.mergedPassed y =
      { s with
        contexts := (s.startTimer h.ctx .accept).contexts
        hold := some { h with merged := some y, phase := .release }
        media := { s.media with
          slot := some { ctx := h.ctx, index := h.index, data := y, enables := allLanes }, path := .release h.ctx }
        out := { s.out with media := s.out.media ++ [MediaDrive.driven (.releaseStore h.ctx h.addr)] } } := by
  simp [State.mergedPassed, State.tryRelease, hh, hf, State.startTimer, State.drive, State.modCtx]

section
variable {n : CtxNo} {h : Hold} {c : Context} {tw y : Block} {s : State}

/-- What the checker's pass changes before the unit is placed. -/
theorem verified_frame (n : CtxNo) (tw : Block) (s : State) :
    s.verified n tw = { s with
      contexts := (s.verified n tw).contexts
      engines := { s.engines with outbound := none }
      out := Outputs.quiet } := rfl

/-- A merged unit past the checker before the DONE of the HOLD-FETCH is kept (R140). -/
theorem verified_merged_waiting (hc : s.ctx? n = some c) (hh : s.hold = some h) (hf : h.fetchAnswered = false) :
    ∃ t, (s.verified n tw).mergedPassed y = t ∧ t.ctx? n = some { c with tweak := .kept (double tw) } ∧ s.othersKept n t ∧
      t = { s with
        contexts := t.contexts
        engines := { s.engines with outbound := none }
        hold := some { h with merged := some y }
        out := Outputs.quiet } :=
  ⟨_, mergedPassed_waiting (s := s.verified n tw) hh hf y, ctx?_verified hc, othersKept_verified n tw s, rfl⟩

/-- After it the RELEASE-STORE is issued, and its ACCEPT timed (R140). -/
theorem verified_merged_answered (hc : s.ctx? n = some c) (hh : s.hold = some h) (hn : h.ctx = n) (hf : h.fetchAnswered = true) :
    ∃ t, (s.verified n tw).mergedPassed y = t ∧
      t.ctx? n = some { c with tweak := .kept (double tw), timer := some { phase := .accept, remaining := 128 } } ∧
      s.othersKept n t ∧
      t = { s with
        contexts := t.contexts
        engines := { s.engines with outbound := none }
        hold := some { h with merged := some y, phase := .release }
        media := { s.media with
          slot := some { ctx := n, index := h.index, data := y, enables := 0xFFFF }, path := .release n }
        out := { Outputs.quiet with media := [MediaDrive.driven (.releaseStore n h.addr)] } } := by
  subst hn
  have hv : (s.verified h.ctx tw).ctx? h.ctx = _ := ctx?_verified hc
  have ho := othersKept_verified h.ctx tw s
  have hframe := verified_frame h.ctx tw s
  have hhv : (s.verified h.ctx tw).hold = some h := hh
  generalize s.verified h.ctx tw = v at hv ho hframe hhv ⊢
  refine ⟨_, mergedPassed_answered hhv hf y, ?_, ?_, ?_⟩
  · exact ctx?_modCtx (f := fun c : Context => { c with timer := timerStart .accept }) rfl hv
  · exact othersKept_trans ho (othersKept_modCtx (f := fun c : Context => { c with timer := timerStart .accept }) fun _ => rfl)
  · dsimp only
    generalize (v.startTimer h.ctx .accept).contexts = l
    rw [hframe]
    rfl

end

/-- Settles O21: past the checker the unit is placed by case. -/
theorem soundUnitPassesChecker : Obligations.sound_unit_passes_checker := by
  unfold Obligations.sound_unit_passes_checker
  intro j c p tw y s hj hc hready hy
  have hzero : ∀ x : Block, x ^^^ 0 = x := fun x => by simp
  have hy' : p.schedule.encipher tw j.data ^^^ 0 = y := by rw [hzero, hy]; rfl
  have hexec : exec (.outboundVerify 0) s = _ := execOutboundVerify_passed (d := 0) hj hc hready (by
    rw [hzero, decipher_encipher])
  rw [hexec, hy']
  have hplaced : j.merged = false → s.slotAccepts j.ctx = true →
      (if j.merged then .next ((s.start.clearOutbound.advanceTweak j.ctx tw).mergedPassed y)
        else if s.slotAccepts j.ctx then
          .next ((s.start.clearOutbound.advanceTweak j.ctx tw).enterSlot
            { ctx := j.ctx, index := j.index, data := y, enables := j.enables }).takeEligible
        else (.next s.untaken : Host.Outcome State Fault Refusal)) =
      .next ((s.verified j.ctx tw).enterSlot
        { ctx := j.ctx, index := j.index, data := y, enables := j.enables }).takeEligible := fun hm ha => by
    rw [hm, ha]
    rfl
  refine ⟨fun hm hslot hpath hset => ?_, fun hm hpath hi hset => ?_, fun hm hpath hi hp => ?_, fun h hm hh hn => ?_⟩
  · rw [hplaced hm (by simp [State.slotAccepts, hslot, hpath, RequestPath.owner])]
    obtain ⟨t, rfl, ht⟩ := verified_waits (u := { ctx := j.ctx, index := j.index, data := y, enables := j.enables })
      (tw := tw) hc hpath hset
    exact ⟨_, rfl, ht⟩
  · rw [hplaced hm (by simp [State.slotAccepts, hpath])]
    obtain ⟨t, rfl, ht⟩ := verified_driven (u := { ctx := j.ctx, index := j.index, data := y, enables := j.enables })
      (tw := tw) hc hpath hi hset
    exact ⟨_, rfl, ht⟩
  · rw [hplaced hm (by simp [State.slotAccepts, hpath])]
    obtain ⟨t, rfl, ht⟩ := verified_last (u := { ctx := j.ctx, index := j.index, data := y, enables := j.enables })
      (tw := tw) hc hready.2.1 hpath hi hp
    exact ⟨_, rfl, ht⟩
  · rw [if_pos hm]
    by_cases hf : h.fetchAnswered = true
    · obtain ⟨t, ht, h1, h2, h3⟩ := verified_merged_answered (tw := tw) (y := y) hc hh hn hf
      simp only [if_pos hf]
      exact ⟨t, congrArg _ ht, h1, h2, h3⟩
    · obtain ⟨t, ht, h1, h2, h3⟩ := verified_merged_waiting (tw := tw) (y := y) hc hh (Bool.not_eq_true _ ▸ hf)
      simp only [if_neg hf]
      exact ⟨t, congrArg _ ht, h1, h2, h3⟩

/-! ## The inbound engine (R10, R14, R82, R139) -/

section
variable {n : CtxNo} {y : Block} {c : Context} {p : KeyPair} {tw x : Block} {s : State}

/-- A fetch's unit deciphered is handed upstream, and the tweak advances (R8, R10, R14). -/
theorem execInboundDecipher_fetch (hj : s.engines.inbound = some { ctx := n, data := y, forHold := false })
    (hc : s.ctx? n = some c) (h : s.engineReady c p tw) :
    execInboundDecipher s =
      .next ((s.start.clearInbound.advanceTweak n tw).deliverUnit c (p.schedule.decipher tw y)).takeEligible := by
  simp [execInboundDecipher, hj, hc, h.2.1, engineView_ready h]

/-- A hold's unit deciphered goes to the merge (R139). -/
theorem execInboundDecipher_hold {h : Hold} (hj : s.engines.inbound = some { ctx := n, data := y, forHold := true })
    (hc : s.ctx? n = some c) (hready : s.engineReady c p tw) (hh : s.hold = some h) :
    execInboundDecipher s = .next (s.start.clearInbound.presentMerged h (p.schedule.decipher tw y)) := by
  simp [execInboundDecipher, hj, hc, hready.2.1, engineView_ready hready, hh]

/-- The state in which a fetch's unit has been handed upstream: the engine free, the tweak advanced, the unit counted. -/
def State.delivered (c : Context) (tw x : Block) (s : State) : State :=
  (((s.start.clearInbound.advanceTweak c.number tw).hand (.data c.mover c.tag x)).countPassed c.number).markFull

theorem ctx?_delivered (hc : s.ctx? c.number = some c) :
    (s.delivered c tw x).ctx? c.number = some { c with tweak := .kept (double tw), passed := c.passed + 1 } :=
  ctx?_countPassed (s := (s.start.clearInbound.advanceTweak c.number tw).hand (.data c.mover c.tag x))
    (ctx?_advanceTweak (s := s.start.clearInbound) hc tw)

theorem othersKept_delivered (c : Context) (tw x : Block) (s : State) : s.othersKept c.number (s.delivered c tw x) :=
  othersKept_trans (othersKept_advanceTweak c.number tw s.start.clearInbound)
    (othersKept_countPassed c.number ((s.start.clearInbound.advanceTweak c.number tw).hand (.data c.mover c.tag x)))

theorem delivered_frame (c : Context) (tw x : Block) (s : State) :
    s.delivered c tw x = { s with
      contexts := (s.delivered c tw x).contexts
      engines := { s.engines with inbound := none }
      returnPath := s.returnPath ++ [.data c.mover c.tag x]
      marks := (s.delivered c tw x).marks
      out := Outputs.quiet } := by
  unfold State.delivered
  have h : ∀ u : State, u.markFull = { u with marks := u.markFull.marks } := fun _ => rfl
  rw [h]
  rfl

/-- A fetch's unit handed before the last, or before its DONE, leaves the fetch in its stream (R82). -/
theorem deliverUnit_before (h : ¬ (c.passed + 1 = c.length ∧ c.doneSeen = true)) :
    (s.start.clearInbound.advanceTweak c.number tw).deliverUnit c x = s.delivered c tw x := if_neg h

/-- A fetch's last unit, after its DONE, is followed by the completion (R82). -/
theorem deliverUnit_last (h : c.passed + 1 = c.length ∧ c.doneSeen = true) :
    (s.start.clearInbound.advanceTweak c.number tw).deliverUnit c x = (s.delivered c tw x).complete c.number := if_pos h

end

/-- A context's completion hands it, drops the record and releases the pin (R82, R85). -/
theorem complete_frame {n : CtxNo} {d : Context} {u : State} (hu : u.ctx? n = some d) (hsent : d.completionSent = false) :
    (u.complete n).ctx? n = none ∧ u.othersKept n (u.complete n) ∧
      u.complete n = { u with
        contexts := (u.complete n).contexts
        returnPath := u.returnPath ++ [.completion d.mover d.tag d.code]
        cache := (u.releasePin d).cache } := by
  rw [complete_eq hu hsent]
  refine ⟨ctx?_dropCtx n _, ?_, rfl⟩
  exact othersKept_trans (t := (u.hand (.completion d.mover d.tag d.code)).modCtx n fun c => { c with completionSent := true })
    (othersKept_modCtx (s := u.hand (.completion d.mover d.tag d.code))
      (f := fun c : Context => { c with completionSent := true }) fun _ => rfl) (othersKept_dropCtx n _)

/-- A completion and the take: the context gone, its pin released, and all that changes (R82, R122, R124). -/
theorem complete_taken {n : CtxNo} {c d : Context} {s u : State} (hu : u.ctx? n = some d) (hsent : d.completionSent = false)
    (hs : d.state = c.state) (hc : d.capture = c.capture) (hk : u.cache = s.cache) (hx : u.expander = s.expander)
    (hl : u.slots = s.slots) :
    ∃ t, (u.complete n).takeEligible = t ∧ t.ctx? n = none ∧ u.othersKept n t ∧ s.released c t ∧
      t = { u with
        contexts := t.contexts
        returnPath := u.returnPath ++ [.completion d.mover d.tag d.code]
        cache := t.cache
        expander := t.expander } := by
  obtain ⟨h1, h2, h3⟩ := complete_frame hu hsent
  generalize u.complete n = v at h1 h2 h3 ⊢
  refine ⟨_, rfl, ?_, ?_, released_of_congr hs hc hk hx hl ?_ ?_ ?_, ?_⟩
  · rw [ctx?_congr (State.takeEligible_contexts v)]
    exact h1
  · exact othersKept_trans h2 (othersKept_of_eq (State.takeEligible_contexts v))
  · rw [h3]
  · rw [h3]
  · rw [h3]
  · obtain ⟨y, z, h⟩ := takeEligible_frame v
    rw [h]
    dsimp only
    rw [h3]

/-- Settles O23: the unit is handed before the last, handed as the last, or merged. -/
theorem inboundUnitIsDeciphered : Obligations.inbound_unit_is_deciphered := by
  unfold Obligations.inbound_unit_is_deciphered
  intro n y c p tw s hc hready
  obtain rfl := ctx?_number hc
  refine ⟨fun hj hlast hset => ?_, fun hj hlen hdone hsent => ?_, fun h hj hh => ?_⟩
  · have hexec : exec .inboundDecipher s = _ := execInboundDecipher_fetch hj hc hready
    rw [hexec, deliverUnit_before hlast]
    refine ⟨_, congrArg _ (takeEligible_of_settled ?_), ctx?_delivered hc, othersKept_delivered c tw _ s, delivered_frame c tw _ s⟩
    exact (settled_congr (s := s) rfl rfl).2 hset
  · have hexec : exec .inboundDecipher s = _ := execInboundDecipher_fetch hj hc hready
    rw [hexec, deliverUnit_last ⟨hlen, hdone⟩]
    have hframe := delivered_frame c tw (p.schedule.decipher tw y) s
    have hctx : (s.delivered c tw (p.schedule.decipher tw y)).ctx? c.number = _ := ctx?_delivered hc
    have hothers := othersKept_delivered c tw (p.schedule.decipher tw y) s
    rw [show p.schedule.decipher tw y = blockPermutationInv p.dataKey (y ^^^ tw) ^^^ tw from rfl] at *
    generalize blockPermutationInv p.dataKey (y ^^^ tw) ^^^ tw = x at *
    generalize s.delivered c tw x = u at hframe hctx hothers ⊢
    obtain ⟨t, ht, h1, h2, h3, h4⟩ := complete_taken (s := s) (c := c) hctx hsent rfl rfl (by rw [hframe]) (by rw [hframe])
      (by rw [hframe])
    refine ⟨t, congrArg _ ht, h1, othersKept_trans hothers h2, h3, h4.trans ?_⟩
    rw [show t.marks = u.marks by rw [h4], hframe]
    simp only [List.append_assoc]
    rfl
  · have hexec : exec .inboundDecipher s = _ := execInboundDecipher_hold hj hc hready hh
    exact ⟨_, h.merge (p.schedule.decipher tw y), hexec, fun i hi => byteAt_ofBytes _ hi, rfl⟩

end Sys2Proof.Machine
end

