-- ==== Sys2Proof/Proofs/Containment.lean ====
section
/-! SUPPORT. A disturbed unit: what containment leaves of contexts and ports, record by record (R13, R90, R91, R162). -/

namespace Sys2Proof.Machine

/-! ## The end of a context's duty (R88, R91, R92) -/

/-- What the end of a context's duty leaves: the other records; of the number's own record the phase and the code, if it stays;
items join the return path and nothing joins the media port or the engines. -/
structure State.Finishes (n : CtxNo) (s t : State) : Prop where
  others : s.othersKept n t
  ends : ∀ b ∈ t.contexts, ∃ a ∈ s.contexts, a.number = b.number ∧ b.state = a.state ∧ b.code = a.code
  returned : s.returnPath <+: t.returnPath
  slot : ∀ u, t.media.slot = some u → s.media.slot = some u
  outbound : s.engines.outbound = none → t.engines.outbound = none

section
variable {n : CtxNo} {s t u : State}

theorem State.Finishes.refl (n : CtxNo) (s : State) : s.Finishes n s :=
  ⟨rfl, fun b hb => ⟨b, hb, rfl, rfl, rfl⟩, List.prefix_rfl, fun _ => id, id⟩

theorem State.Finishes.trans (h : s.Finishes n t) (h' : t.Finishes n u) : s.Finishes n u where
  others := othersKept_trans h.others h'.others
  ends := fun b hb => by
    obtain ⟨a, ha, hn, hs, hc⟩ := h'.ends b hb
    obtain ⟨a', ha', hn', hs', hc'⟩ := h.ends a ha
    exact ⟨a', ha', hn'.trans hn, hs.trans hs', hc.trans hc'⟩
  returned := h.returned.trans h'.returned
  slot := fun v hv => h.slot v (h'.slot v hv)
  outbound := fun ho => h'.outbound (h.outbound ho)

/-- A state with the same contexts, engines and media port, and a longer return path. -/
theorem finishes_of_same (hc : t.contexts = s.contexts) (hr : s.returnPath <+: t.returnPath) (hm : t.media = s.media)
    (he : t.engines = s.engines) : s.Finishes n t :=
  ⟨othersKept_of_eq hc, fun b hb => ⟨b, hc ▸ hb, rfl, rfl, rfl⟩, hr, fun _ hu => hm ▸ hu, fun ho => by rw [he]; exact ho⟩

theorem hand_finishes (x : ReturnItem) (s : State) : s.Finishes n (s.hand x) :=
  finishes_of_same rfl ⟨[x], rfl⟩ rfl rfl

theorem handCompletion_finishes (n : CtxNo) (s : State) : s.Finishes n (s.handCompletion n) := by
  unfold State.handCompletion
  split
  · split
    · exact .refl n s
    · next c _ _ =>
      refine (hand_finishes (.completion c.mover c.tag c.code) s).trans ⟨othersKept_modCtx fun _ => rfl, fun b hb => ?_,
        List.prefix_rfl, fun _ => id, id⟩
      obtain ⟨a, ha, rfl⟩ := List.mem_map.1 hb
      exact ⟨a, ha, by split <;> exact ⟨rfl, rfl, rfl⟩⟩
  · exact .refl n s

theorem freeIfDone_finishes (n : CtxNo) (s : State) : s.Finishes n (s.freeIfDone n) := by
  unfold State.freeIfDone
  split
  · next c hc =>
    split
    · rw [free_eq hc]
      refine ⟨othersKept_trans (othersKept_of_eq (State.releasePin_contexts c s)) (othersKept_dropCtx n _), fun b hb => ?_, ?_, ?_, ?_⟩
      · have hsub : ((s.releasePin c).dropCtx n).contexts.Sublist s.contexts := by simp
        exact ⟨b, hsub.subset hb, rfl, rfl, rfl⟩
      · simp
      · simp
      · simp
    · exact .refl n s
  · exact .refl n s

theorem finishDuty_finishes (c : Context) (left : Nat) (s : State) : s.Finishes c.number (s.finishDuty c left) := by
  have hend : ∀ u : State, u.Finishes c.number ((u.handCompletion c.number).freeIfDone c.number) := fun u =>
    (handCompletion_finishes _ u).trans (freeIfDone_finishes _ _)
  unfold State.finishDuty
  split
  · dsimp only
    split
    · exact (hand_finishes _ s).trans (hend _)
    · exact hend s
  · split
    · exact hend s
    · exact finishes_of_same rfl List.prefix_rfl rfl rfl

end

/-! ## A context withdrawn (R87, R90) -/

/-- What an entry to CANCEL leaves: the other records; the number's own record, if it was live and stays, in CANCEL with the code
unless it had one; a longer return path, and nothing new in the media port or the engines. -/
structure State.Cancels (n : CtxNo) (code : Reply) (s t : State) : Prop where
  others : s.othersKept n t
  ends : ∀ a b, s.ctx? n = some a → a.live = true → b ∈ t.contexts → b.number = n →
    b.state = .cancel ∧ b.code = a.code.orElse code
  returned : s.returnPath <+: t.returnPath
  slot : ∀ u, t.media.slot = some u → s.media.slot = some u
  outbound : s.engines.outbound = none → t.engines.outbound = none

/-- A context's work discarded and its record cancelled, before its duty is finished (R17, R90). -/
def State.cancelBegun (c : Context) (code : Reply) (sends : Bool) (s : State) : State :=
  ((s.releasePin c).discardWork c.number).modCtx c.number (Context.cancelled code sends)

theorem cancelBegun_contexts (c : Context) (code : Reply) (sends : Bool) (s : State) :
    (s.cancelBegun c code sends).contexts = s.contexts.map fun d => if d.number = c.number then d.cancelled code sends else d := by
  simp [State.cancelBegun, State.modCtx]

theorem cancelBegun_cancels {c : Context} {s : State} (hs : s.contextLaws) (hc : s.ctx? c.number = some c) (code : Reply)
    (sends : Bool) : s.Cancels c.number code (s.cancelBegun c code sends) where
  others := othersKept_trans (t := (s.releasePin c).discardWork c.number) (othersKept_of_eq (by simp))
    (othersKept_modCtx fun _ => rfl)
  ends := fun a b ha _ hb hn => by
    cases hc.symm.trans ha
    rw [cancelBegun_contexts] at hb
    obtain ⟨d, hd, rfl⟩ := List.mem_map.1 hb
    have hdn : d.number = c.number := by
      split at hn
      · assumption
      · exact hn
    rw [if_pos hdn, eq_of_mem_of_number hs.2.1 hd (hdn ▸ hc)]
    exact ⟨rfl, rfl⟩
  returned := by simp [State.cancelBegun]
  slot := fun u hu => by
    have hm : (s.cancelBegun c code sends).media = s.media.abandon c.number := by simp [State.cancelBegun]
    rw [hm] at hu
    exact (Option.filter_eq_some_iff.1 hu).1
  outbound := fun ho => by
    have he : (s.cancelBegun c code sends).engines = s.engines.discardUnits c.number := by simp [State.cancelBegun]
    rw [he]
    exact (congrArg (Option.filter _) ho).trans rfl

theorem State.Cancels.finishes {n : CtxNo} {code : Reply} {s t u : State} (h : s.Cancels n code t) (h' : t.Finishes n u) :
    s.Cancels n code u where
  others := othersKept_trans h.others h'.others
  ends := fun a b ha hl hb hn => by
    obtain ⟨b', hb', hn', hs, hc⟩ := h'.ends b hb
    rw [hs, hc]
    exact h.ends a b' ha hl hb' (hn'.trans hn)
  returned := h.returned.trans h'.returned
  slot := fun v hv => h.slot v (h'.slot v hv)
  outbound := fun ho => h'.outbound (h.outbound ho)

theorem enterCancel_cancels (n : CtxNo) (code : Reply) (answered timed : Bool) (s : State) (hs : s.contextLaws) :
    s.Cancels n code (s.enterCancel n code answered timed) := by
  have hsame : (∀ a, s.ctx? n = some a → a.live = false) → s.Cancels n code s := fun h =>
    ⟨rfl, fun a b ha hl => (by rw [h a ha] at hl; cases hl), List.prefix_rfl, fun _ => id, id⟩
  cases hc : s.ctx? n with
  | none =>
    rw [enterCancel_none hc]
    exact hsame fun a ha => by rw [hc] at ha; cases ha
  | some c =>
    cases hl : c.live with
    | false =>
      rw [enterCancel_not_live hc hl]
      exact hsame fun a ha => by cases hc.symm.trans ha; exact hl
    | true =>
      rw [enterCancel_live hc hl]
      obtain rfl := ctx?_number hc
      exact (cancelBegun_cancels hs hc code _).finishes (finishDuty_finishes c _ _)

/-! ## A revocation (R61, R97, R162) -/

section
variable {s t u : State} {code : Reply}

/-- The others' records are found as they were. -/
theorem ctx?_of_othersKept {n m : CtxNo} (h : s.othersKept n t) (hm : m ≠ n) : t.ctx? m = s.ctx? m := by
  have hfind : ∀ l : List Context, (l.filter fun c => c.number ≠ n).find? (fun c => c.number == m) =
      l.find? fun c => c.number == m := by
    intro l
    rw [List.find?_filter]
    congr 1
    funext c
    by_cases hc : c.number = m <;> simp [hc, hm]
  unfold State.ctx?
  rw [← hfind t.contexts, h, hfind]

/-- What entries to CANCEL, one after the other, leave. -/
structure State.CancelsAll (l : List Context) (code : Reply) (s t : State) : Prop where
  others : (t.contexts.filter fun b => b.number ∉ l.map Context.number) =
    s.contexts.filter fun b => b.number ∉ l.map Context.number
  ends : ∀ c ∈ l, ∀ a b, s.ctx? c.number = some a → a.live = true → b ∈ t.contexts → b.number = c.number →
    b.state = .cancel ∧ b.code = a.code.orElse code
  returned : s.returnPath <+: t.returnPath
  slot : ∀ u, t.media.slot = some u → s.media.slot = some u
  outbound : s.engines.outbound = none → t.engines.outbound = none

theorem enterCancels_cancelsAll (code : Reply) (l : List Context) (hl : (l.map Context.number).Nodup) (s : State)
    (hs : s.contextLaws) :
    s.CancelsAll l code (l.foldl (fun s c => s.enterCancel c.number code false false) s) := by
  induction l generalizing s with
  | nil => exact ⟨rfl, fun c hc => (by cases hc), List.prefix_rfl, fun _ => id, id⟩
  | cons c l ih =>
    obtain ⟨hc, hl⟩ := List.nodup_cons.1 hl
    have h1 := enterCancel_cancels c.number code false false s hs
    have h2 := ih hl _ (Changes.contexts hs (enterCancel_changes c.number code false false s)).1
    rw [List.foldl_cons]
    generalize s.enterCancel c.number code false false = v at h1 h2 ⊢
    generalize l.foldl (fun s c => s.enterCancel c.number code false false) v = t at h2 ⊢
    refine ⟨?_, fun d hd a b ha hlive hb hn => ?_, h1.returned.trans h2.returned, fun u hu => h1.slot u (h2.slot u hu),
      fun ho => h2.outbound (h1.outbound ho)⟩
    · have hsplit : ∀ k : List Context, (k.filter fun b => b.number ∉ (c :: l).map Context.number) =
          (k.filter fun b => b.number ∉ l.map Context.number).filter fun b => b.number ≠ c.number := fun k => by
        rw [List.filter_filter]
        congr 1
        funext b
        simp
      have hswap : ∀ k : List Context, ((k.filter fun b => b.number ∉ l.map Context.number).filter fun b => b.number ≠ c.number) =
          (k.filter fun b => b.number ≠ c.number).filter fun b => b.number ∉ l.map Context.number := fun k => by
        rw [List.filter_filter, List.filter_filter]
        congr 1
        funext b
        exact Bool.and_comm _ _
      rw [hsplit, hsplit, h2.others, hswap, hswap, h1.others]
    · rcases List.mem_cons.1 hd with rfl | hd
      · have hb' : b ∈ v.contexts := by
          have hmem : b ∈ t.contexts.filter fun b => b.number ∉ l.map Context.number :=
            List.mem_filter.2 ⟨hb, decide_eq_true (hn ▸ hc)⟩
          rw [h2.others] at hmem
          exact (List.mem_filter.1 hmem).1
        exact h1.ends a b ha hlive hb' hn
      · have hne : d.number ≠ c.number := fun e => hc (e ▸ List.mem_map_of_mem hd)
        exact h2.ends d hd a b ((ctx?_of_othersKept h1.others hne).trans ha) hlive hb hn

end

/-! ## Containment (R162) -/

section
variable {s : State}

/-- The contexts that containment withdraws (R162). -/
def State.ciphers (s : State) : List Context := s.contexts.filter fun c => c.live && c.passage == .cipher

/-- Containment withdraws the live CIPHER contexts one after the other. -/
theorem containRevoked_cancelsAll (hs : s.contextLaws) : s.CancelsAll s.ciphers .fault s.containRevoked := by
  have hnodup : (s.ciphers.map Context.number).Nodup := hs.2.1.sublist (List.filter_sublist.map _)
  obtain ⟨h1, h2, h3, h4, h5⟩ := enterCancels_cancelsAll .fault s.ciphers hnodup s.containBegun (containBegun_contextLaws hs)
  exact ⟨h1, h2, h3, h4, h5⟩

/-- A record is a CIPHER one's exactly if its number was. -/
theorem containRevoked_origin (hs : s.contextLaws) {b : Context} (hb : b ∈ s.containRevoked.contexts) :
    ∃ a ∈ s.contexts, s.ctx? b.number = some a ∧ b.passage = a.passage := by
  obtain ⟨a, ha, hab⟩ := ((containRevoked_facts hs).1.contexts (containBegun_contextLaws hs)).2 b hb
  exact ⟨a, ha, hab.number ▸ ctx?_of_mem hs.2.1 ha, hab.passage⟩

/-- Every CIPHER context that was live is in CANCEL, with FAULT where it had no code, or gone (R87, R162). -/
theorem containRevoked_ends (hs : s.contextLaws) {a b : Context} (hb : b ∈ s.containRevoked.contexts)
    (hp : b.passage = .cipher) (ha : a ∈ s.contexts) (hn : a.number = b.number) (hl : a.live = true) :
    b.state = .cancel ∧ b.code = a.code.orElse .fault := by
  obtain ⟨a', -, ha', hp'⟩ := containRevoked_origin hs hb
  have haa : a' = a := by
    rw [← hn, ctx?_of_mem hs.2.1 ha] at ha'
    exact (Option.some.inj ha').symm
  subst haa
  have hmem : a' ∈ s.ciphers := List.mem_filter.2 ⟨ha, by simp [hl, ← hp', hp]⟩
  exact (containRevoked_cancelsAll hs).ends a' hmem a' b (hn ▸ ha') hl hb hn.symm

/-- The contexts of other passages stand as they were (R162). -/
theorem containRevoked_others (hs : s.contextLaws) :
    s.containRevoked.contexts.filter (fun b => b.passage ≠ .cipher) = s.contexts.filter (fun b => b.passage ≠ .cipher) := by
  have hnum : ∀ {a : Context}, a ∈ s.contexts → a.passage ≠ .cipher → a.number ∉ s.ciphers.map Context.number := by
    intro a ha hp hmem
    obtain ⟨c, hc, hn⟩ := List.mem_map.1 hmem
    obtain ⟨hc, hcp⟩ := List.mem_filter.1 hc
    rw [Bool.and_eq_true, beq_iff_eq] at hcp
    have := eq_of_mem_of_number hs.2.1 ha (hn ▸ ctx?_of_mem hs.2.1 hc)
    rw [this] at hp
    exact hp hcp.2
  have hsub : ∀ l : List Context, (∀ b ∈ l, b.passage ≠ .cipher → b.number ∉ s.ciphers.map Context.number) →
      l.filter (fun b => b.passage ≠ .cipher) =
        (l.filter fun b => b.number ∉ s.ciphers.map Context.number).filter fun b => b.passage ≠ .cipher := by
    intro l h
    rw [List.filter_filter]
    refine List.filter_congr fun b hb => ?_
    by_cases hp : b.passage = .cipher
    · simp [hp]
    · simp [hp, h b hb hp]
  rw [hsub s.contexts fun a => hnum, hsub s.containRevoked.contexts fun b hb hp => ?_, (containRevoked_cancelsAll hs).others]
  obtain ⟨a, ha, hab, hpass⟩ := containRevoked_origin hs hb
  rw [← ctx?_number hab]
  exact hnum ha (hpass ▸ hp)

/-- What containment leaves of tables, timers, logs and outputs (R162). -/
theorem enterContained_frame (s : State) :
    s.enterContained.contain = { s.contain with device := .contained, dwell := some 50 } ∧
      s.enterContained.faults = s.faults ∧ s.enterContained.decoder = s.decoder ∧ s.enterContained.ranges = s.ranges ∧
      s.enterContained.slots = s.slots ∧ s.enterContained.abort = s.abort ∧ s.enterContained.time = s.time ∧
      s.enterContained.link = s.link ∧ s.enterContained.tallies = s.tallies ∧ s.enterContained.out = s.out ∧
      s.enterContained.events = .follow (s.pendingWith .contained) s.events.enables := by
  obtain ⟨h1, h2, h3, h4, h5, h6, h7, -, h9, h10, h11, h12, -⟩ :=
    (sameButWork_iff _ _).1 (revoke_sameButWork (fun c => c.live && c.passage == .cipher) .fault s.containBegun)
  rw [enterContained_eq]
  refine ⟨h1, h2, h3, h4, h5, h6, h7, h9, h11, h12, ?_⟩
  exact congrArg (fun e : EventUnit => EventUnit.follow (e.pending ||| Event.contained.bit) e.enables) h10

end

/-- An expansion that stands in containment is void (R131, R162). -/
theorem enterContained_void {s : State} {x : Expansion} (hx : s.enterContained.expander.current = some x) : x.void = true := by
  rw [enterContained_eq, State.raise_expander] at hx
  obtain ⟨e, -, rfl⟩ := Option.map_eq_some_iff.1 hx
  rfl

/-- Settles O22: the checker finds every disturbance, and containment withdraws the CIPHER contexts. -/
theorem disturbedUnitContainsDevice : Obligations.disturbed_unit_contains_device := by
  unfold Obligations.disturbed_unit_contains_device
  intro j c p tw d s hs hj hc hready hd
  have hexec : exec (.outboundVerify d) s = _ := execOutboundVerify_failed hj hc hready (decipher_disturbed hd)
  have hdev := hready.1
  have hlaws : (s.start.clearOutbound.logFault .engine (some c) none none).contextLaws := (contextLaws_congr (s := s) (by simp)).2 hs
  have hlog : (s.start.clearOutbound.logFault .engine (some c) none none).faults =
      s.faults.add (faultRecord .engine s.contain.device (some c) none none) := rfl
  rw [hexec]
  obtain ⟨h1, h2, h3, h4, h5, h6, h7, h8, h9, h10, h11⟩ :=
    enterContained_frame (s.start.clearOutbound.logFault .engine (some c) none none)
  have hall := containRevoked_cancelsAll hlaws
  refine ⟨_, rfl, h1, ?_, fun b hb hp => ⟨?_, fun a ha hn hl => ?_⟩, ?_, hall.returned, enterContained_queue _,
    fun _ => enterContained_void, hall.outbound rfl, hall.slot, congrArg Outputs.media h10, h11, h3, h4, h5, h7, h6, h9, h8⟩
  · rw [h2, hlog, hdev]
    rfl
  · exact (containRevoked_facts hlaws).2 b hb hp
  · exact containRevoked_ends hlaws hb hp ha hn hl
  · exact containRevoked_others hlaws

end Sys2Proof.Machine
end

