-- ==== Sys2Proof/Proofs/RangeFrame.lean ====
section
/-! SUPPORT. The actions that write no range record: the contexts' shared operations, the ports, the engines, the expander and the
controller clear (R82 to R145). -/

namespace Sys2Proof.Machine

/-! ## The shared operations -/

/-- Changes of contexts write no range. -/
theorem Changes.ranges {s t : State} (h : Changes s t) : t.ranges = s.ranges := h.tables.2.1

/-- A quiet change writes no range. -/
theorem State.Quiet.ranges {s t : State} (h : s.Quiet t) : t.ranges = s.ranges := h.changes.ranges

/-- What changes work alone writes no range. -/
theorem State.sameButWork.ranges {s t : State} (h : s.sameButWork t) : t.ranges = s.ranges := by
  obtain ⟨-, -, -, hr, -⟩ := (sameButWork_iff s t).1 h
  exact hr

section
variable (n : CtxNo) (c : Context) (s : State)

@[simp] theorem complete_ranges : (s.complete n).ranges = s.ranges :=
  (sameButWork_trans (handCompletion_sameButWork n s) (free_sameButWork n _)).ranges
@[simp] theorem enterCancel_ranges (code : Reply) (answered timed : Bool) :
    (s.enterCancel n code answered timed).ranges = s.ranges := (enterCancel_sameButWork n code answered timed s).ranges
@[simp] theorem enterClose_ranges : (s.enterClose n).ranges = s.ranges := (enterClose_sameButWork n s).ranges
@[simp] theorem enterSlot_ranges (u : SlotUnit) : (s.enterSlot u).ranges = s.ranges := (enterSlot_changes u s).ranges
@[simp] theorem enterContained_ranges : s.enterContained.ranges = s.ranges := by
  rw [enterContained_eq, State.raise_ranges]
  exact (revoke_sameButWork _ _ s.containBegun).ranges

@[simp] theorem dropBeat_ranges (left : Nat) (owner : Option CtxNo) : (s.dropBeat left owner).ranges = s.ranges :=
  (dropBeat_quiet left owner s).ranges
@[simp] theorem drainBeat_ranges (taken : Nat) : (s.drainBeat c taken).ranges = s.ranges := (drainBeat_changes c taken s).ranges
@[simp] theorem upstreamParity_ranges (taken : Nat) : (s.upstreamParity c taken).ranges = s.ranges :=
  (upstreamParity_changes c taken s).ranges
@[simp] theorem beginHold_ranges (i : Nat) (b : Beat) : (s.beginHold c i b).ranges = s.ranges := (endPiece_quiet c.number s).ranges
@[simp] theorem takeBeat_ranges (taken : Nat) (b : Beat) : (s.takeBeat c taken b).ranges = s.ranges := by
  have h : (s.advanceIntake c taken).ranges = s.ranges := rfl
  unfold State.takeBeat
  dsimp only
  split
  · rw [upstreamParity_ranges, h]
  · split
    · split
      · rw [beginHold_ranges, h]
      · rfl
    · rw [enterSlot_ranges, h]

@[simp] theorem keepTweak_ranges (t : Block) : (s.keepTweak n t).ranges = s.ranges := rfl
@[simp] theorem advanceTweak_ranges (t : Block) : (s.advanceTweak n t).ranges = s.ranges := rfl
@[simp] theorem startTimer_ranges (p : TimerPhase) : (s.startTimer n p).ranges = s.ranges := rfl
@[simp] theorem stopTimer_ranges : (s.stopTimer n).ranges = s.ranges := rfl
@[simp] theorem tryRelease_ranges : s.tryRelease.ranges = s.ranges := (tryRelease_quiet s).ranges
@[simp] theorem mergedPassed_ranges (x : Block) : (s.mergedPassed x).ranges = s.ranges := (mergedPassed_quiet x s).ranges
@[simp] theorem presentMerged_ranges (h : Hold) (x : Block) : (s.presentMerged h x).ranges = s.ranges := rfl
@[simp] theorem deliverUnit_ranges (x : Block) : (s.deliverUnit c x).ranges = s.ranges := by
  unfold State.deliverUnit
  dsimp only
  split
  · rw [complete_ranges]; rfl
  · rfl

@[simp] theorem acceptPiece_ranges : (s.acceptPiece n).ranges = s.ranges := (acceptPiece_changes n s).ranges
@[simp] theorem acceptRelease_ranges : (s.acceptRelease n).ranges = s.ranges := (acceptRelease_quiet n s).ranges
@[simp] theorem downstreamParity_ranges : (s.downstreamParity c).ranges = s.ranges := (downstreamParity_changes c s).ranges
@[simp] theorem loadInbound_ranges (j : InboundJob) : (s.loadInbound j).ranges = s.ranges := rfl
@[simp] theorem takeFetchUnit_ranges (u : ReturnedUnit) : (s.takeFetchUnit c u).ranges = s.ranges := by
  unfold State.takeFetchUnit
  dsimp only
  split
  · rfl
  · rw [deliverUnit_ranges]; rfl
@[simp] theorem endHold_ranges (h : Hold) : (s.endHold h c).ranges = s.ranges := by
  unfold State.endHold
  dsimp only
  split
  · rw [enterClose_ranges]; rfl
  · rfl
@[simp] theorem errorInStream_ranges : (s.errorInStream c).ranges = s.ranges := (errorInStream_changes c s).ranges
@[simp] theorem answerCancel_ranges : (s.answerCancel n).ranges = s.ranges := (answerCancel_quiet n s).ranges

@[simp] theorem expireAnswer_ranges : (s.expireAnswer c).ranges = s.ranges := (expireAnswer_changes c s).ranges
@[simp] theorem strand_ranges : (s.strand c).ranges = s.ranges := by
  unfold State.strand
  dsimp only
  split <;> simp

@[simp] theorem startExpansion_ranges (r : Request) : (s.startExpansion r).ranges = s.ranges := by
  obtain ⟨x, y, h⟩ := startExpansion_frame r s
  rw [h]
@[simp] theorem fill_ranges (x : Expansion) : (s.fill x).ranges = s.ranges := rfl
@[simp] theorem eraseSlot_ranges (k : SlotNo) (cause : ScrubCause) : (s.eraseSlot k cause).ranges = s.ranges := by
  obtain ⟨-, -, -, -, hr, -⟩ := eraseSlot_books k cause s
  exact hr

end

/-! ## The actions -/

/-- Every next state of an outcome has the ranges of the state before. -/
def State.KeepsRanges (s : State) (o : Host.Outcome State Fault Refusal) : Prop := ∀ t, o = .next t → t.ranges = s.ranges

@[simp] theorem keepsRanges_next {s t : State} : s.KeepsRanges (.next t) ↔ t.ranges = s.ranges :=
  ⟨fun h => h t rfl, fun h u hu => by cases hu; exact h⟩

/-- An arrival writes no range if no taking of it does. -/
theorem keepsRanges_onArrival {n : CtxNo} {s : State} {f : Context → Host.Outcome State Fault Refusal}
    (h : ∀ c, s.KeepsRanges (f c)) : s.KeepsRanges (s.onArrival n f) := by
  unfold State.onArrival
  split
  · simp
  · simp
  · next c _ => exact h c

theorem keepsRanges_cancelArrival (n : CtxNo) (s : State) : s.KeepsRanges (s.cancelArrival n) := by
  unfold State.cancelArrival
  repeat' split
  all_goals simp

/-- The commands that may write a range record: reset, admission (the idle timer), the monitor, the timers of ranges and of
presence, and the key link's command periods. -/
def mayWriteRange : Instr → Bool
  | .powerOnReset _ | .requestHeader _ | .tableMonitorVisit | .idleExpiry _ | .presenceLapse | .commandPeriod _ _
  | .status | .readFault | .readAbort | .loadKey _ _ _ | .scrubKey _ | .flushSchedules | .setRange _ _ _ _ _ _ | .openRange _ _
  | .lockRange _ | .setWindow _ _ _ _ _ _ _ | .setLimit _ | .freeze | .go | .recover | .armPresence _ | .renew | .setAlert _
  | .clearEvents _ | .clearFault | .clearTallies => true
  | _ => false

section
variable (s : State)

theorem keepsRanges_selfTestEnd (f : Option KnownAnswerTest) : s.KeepsRanges (execSelfTestEnd f s) := by
  unfold execSelfTestEnd
  repeat' split
  all_goals simp [State.passSelfTest, State.failSelfTest]

theorem keepsRanges_segmentClear : s.KeepsRanges (execSegmentClear s) := by
  unfold execSegmentClear
  repeat' split
  all_goals simp [State.abandonAll]

theorem keepsRanges_segmentClearDeasserted : s.KeepsRanges (execSegmentClearDeasserted s) := by
  unfold execSegmentClearDeasserted
  split <;> simp

theorem keepsRanges_storeBeat (b : Beat) : s.KeepsRanges (execStoreBeat b s) := by
  unfold execStoreBeat
  repeat' split
  all_goals simp

theorem keepsRanges_beatDropped : s.KeepsRanges (execBeatDropped s) := by
  unfold execBeatDropped
  repeat' split
  all_goals simp

theorem keepsRanges_returnPathDelivery : s.KeepsRanges (execReturnPathDelivery s) := by
  unfold execReturnPathDelivery
  split <;> simp

theorem keepsRanges_sectorTweak (n : CtxNo) : s.KeepsRanges (execSectorTweak n s) := by
  unfold execSectorTweak
  dsimp only
  repeat' split
  all_goals simp

theorem keepsRanges_catchUp (n : CtxNo) : s.KeepsRanges (execCatchUp n s) := by
  unfold execCatchUp
  repeat' split
  all_goals simp

theorem keepsRanges_outboundVerify (d : Block) : s.KeepsRanges (execOutboundVerify d s) := by
  unfold execOutboundVerify
  dsimp only
  repeat' split
  all_goals simp

theorem keepsRanges_inboundDecipher : s.KeepsRanges (execInboundDecipher s) := by
  unfold execInboundDecipher
  dsimp only
  repeat' split
  all_goals simp

theorem keepsRanges_fetchIssue : s.KeepsRanges (execFetchIssue s) := by
  unfold execFetchIssue
  split <;> simp [State.issueFetch]

theorem keepsRanges_pieceIssue : s.KeepsRanges (execPieceIssue s) := by
  unfold execPieceIssue
  split <;> simp [State.issuePiece]

theorem keepsRanges_cancelIssue : s.KeepsRanges (execCancelIssue s) := by
  unfold execCancelIssue
  split <;> simp [State.issueCancel]

theorem keepsRanges_accept (n : CtxNo) (kind : MediaRequest) : s.KeepsRanges (execAccept n kind s) := by
  refine keepsRanges_onArrival fun c => ?_
  cases kind <;> dsimp only
  all_goals repeat' split
  all_goals simp

theorem keepsRanges_fetchUnit (n : CtxNo) (u : ReturnedUnit) : s.KeepsRanges (execFetchUnit n u s) := by
  refine keepsRanges_onArrival fun c => ?_
  repeat' split
  all_goals simp

theorem keepsRanges_holdFetchUnit (n : CtxNo) (u : ReturnedUnit) : s.KeepsRanges (execHoldFetchUnit n u s) := by
  refine keepsRanges_onArrival fun c => ?_
  repeat' split
  all_goals simp

theorem keepsRanges_fetchDone (n : CtxNo) : s.KeepsRanges (execFetchDone n s) := by
  refine keepsRanges_onArrival fun c => ?_
  dsimp only
  repeat' split
  all_goals simp

theorem keepsRanges_pieceDone (n : CtxNo) : s.KeepsRanges (execPieceDone n s) := by
  refine keepsRanges_onArrival fun c => ?_
  dsimp only
  repeat' split
  all_goals simp

theorem keepsRanges_holdFetchDone (n : CtxNo) : s.KeepsRanges (execHoldFetchDone n s) := by
  refine keepsRanges_onArrival fun c => ?_
  repeat' split
  all_goals simp

theorem keepsRanges_releaseStoreDone (n : CtxNo) : s.KeepsRanges (execReleaseStoreDone n s) := by
  refine keepsRanges_onArrival fun c => ?_
  dsimp only
  repeat' split
  all_goals simp

theorem keepsRanges_mediaError (n : CtxNo) (kind : MediaRequest) : s.KeepsRanges (execMediaError n kind s) := by
  cases kind with
  | cancel => exact keepsRanges_cancelArrival n s
  | store =>
    refine keepsRanges_onArrival fun c => ?_
    dsimp only
    repeat' split
    all_goals simp
  | fetch | holdFetch | releaseStore =>
    refine keepsRanges_onArrival fun c => ?_
    repeat' split
    all_goals simp

theorem keepsRanges_unroutableArrival : s.KeepsRanges (execUnroutableArrival s) := by
  unfold execUnroutableArrival
  repeat' split
  all_goals simp

theorem keepsRanges_answerTimerExpiry (n : CtxNo) : s.KeepsRanges (execAnswerTimerExpiry n s) := by
  unfold execAnswerTimerExpiry
  repeat' split
  all_goals simp

theorem keepsRanges_cancelTimeout (n : CtxNo) : s.KeepsRanges (execCancelTimeout n s) := by
  unfold execCancelTimeout
  repeat' split
  all_goals simp

theorem keepsRanges_expansionStart : s.KeepsRanges (execExpansionStart s) := by
  unfold execExpansionStart
  repeat' split
  all_goals simp

theorem keepsRanges_expansionCompletion : s.KeepsRanges (execExpansionCompletion s) := by
  unfold execExpansionCompletion
  dsimp only
  repeat' split
  all_goals simp

theorem keepsRanges_erasureCompletion (k : SlotNo) : s.KeepsRanges (execErasureCompletion k s) := by
  unfold execErasureCompletion
  split <;> simp

theorem keepsRanges_dwellEnd : s.KeepsRanges (execDwellEnd s) := by
  unfold execDwellEnd
  repeat' split
  all_goals simp

theorem keepsRanges_preparationEnd : s.KeepsRanges (execPreparationEnd s) := by
  unfold execPreparationEnd
  split <;> simp

@[simp] theorem readEnds_ranges (n : Nat) : (s.readEnds n).ranges = s.ranges := (readEnds_quiet n s).ranges

theorem keepsRanges_readPeriod (n : Nat) : s.KeepsRanges (execReadPeriod n s) := by
  unfold execReadPeriod
  split <;> simp

/-- A command of the others writes no range. -/
theorem exec_ranges {c : Instr} (h : mayWriteRange c = false) : s.KeepsRanges (exec c s) := by
  cases c with
  | selfTestEnd f => exact keepsRanges_selfTestEnd s f
  | segmentClear => exact keepsRanges_segmentClear s
  | segmentClearDeasserted => exact keepsRanges_segmentClearDeasserted s
  | storeBeat b => exact keepsRanges_storeBeat s b
  | beatDropped => exact keepsRanges_beatDropped s
  | returnPathDelivery => exact keepsRanges_returnPathDelivery s
  | sectorTweak n => exact keepsRanges_sectorTweak s n
  | catchUp n => exact keepsRanges_catchUp s n
  | outboundVerify d => exact keepsRanges_outboundVerify s d
  | inboundDecipher => exact keepsRanges_inboundDecipher s
  | fetchIssue => exact keepsRanges_fetchIssue s
  | pieceIssue => exact keepsRanges_pieceIssue s
  | cancelIssue => exact keepsRanges_cancelIssue s
  | accept n k => exact keepsRanges_accept s n k
  | fetchUnit n u => exact keepsRanges_fetchUnit s n u
  | holdFetchUnit n u => exact keepsRanges_holdFetchUnit s n u
  | fetchDone n => exact keepsRanges_fetchDone s n
  | pieceDone n => exact keepsRanges_pieceDone s n
  | holdFetchDone n => exact keepsRanges_holdFetchDone s n
  | releaseStoreDone n => exact keepsRanges_releaseStoreDone s n
  | mediaError n k => exact keepsRanges_mediaError s n k
  | cancelAnswer n _ => exact keepsRanges_cancelArrival n s
  | unroutableArrival => exact keepsRanges_unroutableArrival s
  | answerTimerExpiry n => exact keepsRanges_answerTimerExpiry s n
  | cancelTimeout n => exact keepsRanges_cancelTimeout s n
  | expansionStart => exact keepsRanges_expansionStart s
  | expansionCompletion => exact keepsRanges_expansionCompletion s
  | erasureCompletion k => exact keepsRanges_erasureCompletion s k
  | dwellEnd => exact keepsRanges_dwellEnd s
  | preparationEnd => exact keepsRanges_preparationEnd s
  | readPeriod n => exact keepsRanges_readPeriod s n
  | _ => cases h

end

end Sys2Proof.Machine
end

