-- ==== Sys2Proof/Proofs/CheckWords.lean ====
section
/-! SUPPORT. Check words: every write of a record seals it, and what changes without a write is not covered by one (R18, R35, R55,
R168). The windows and the slots go by the kinds of move; the ranges go action by action, as a move does not say what it writes
of one. -/

namespace Sys2Proof.Machine

/-! ## Windows and slots (R18, R55) -/

/-- Every window's check word is that of its fields (R18). -/
def State.windowsFresh (s : State) : Prop :=
  ∀ i : WindowNo, s.decoder.windows[i].check = Config.windowCheck (s.decoder.windows[i].fields i)

/-- Every slot's check word is that of its fields, and no stored state is outside the four (R55, R64). -/
def State.slotsFresh (s : State) : Prop :=
  ∀ k : SlotNo, s.slots[k].check = Config.slotCheck (s.slots[k].fields k) ∧ ∀ keys, s.slots[k].body ≠ .undefined keys

/-- Every range's check word is that of its fields (R35). -/
def State.rangesFresh (s : State) : Prop := ∀ i : RangeNo, s.ranges[i].check = Config.rangeCheck (s.ranges[i].fields i)

section
variable {s t : State}

theorem checksFresh_iff : s.checksFresh ↔ s.windowsFresh ∧ s.rangesFresh ∧ s.slotsFresh := Iff.rfl

theorem windowsFresh_congr (h : t.decoder.windows = s.decoder.windows) (hs : s.windowsFresh) : t.windowsFresh := by
  unfold State.windowsFresh
  rw [h]
  exact hs

theorem slotsFresh_congr (h : t.slots = s.slots) (hs : s.slotsFresh) : t.slotsFresh := by
  unfold State.slotsFresh
  rw [h]
  exact hs

theorem windowsFresh_writeWindow (hs : s.windowsFresh) (i : WindowNo) (w : Window) : (s.writeWindow i w).windowsFresh := by
  intro j
  have hget : (s.writeWindow i w).decoder.windows[j] = if i = j then w.sealed i else s.decoder.windows[j] :=
    getElem_set_fin _ i j _
  rw [hget]
  split
  · next hij => subst hij; rfl
  · exact hs j

/-- A slot is written with a body that is one of the four. -/
theorem slotsFresh_set {k : SlotNo} {r : Slot} (h : t.slots = s.slots.set k (r.sealed k)) (hr : ∀ keys, r.body ≠ .undefined keys)
    (hs : s.slotsFresh) : t.slotsFresh := by
  intro j
  rw [h, getElem_set_fin]
  split
  · next hkj => subst hkj; exact ⟨rfl, hr⟩
  · exact hs j

theorem windowsFresh_reset : State.reset.windowsFresh := fun i => by
  have h : State.reset.decoder.windows[i] = (Window.preset i).sealed i := by simp [State.reset]
  rw [h]
  rfl

theorem slotsFresh_reset : State.reset.slotsFresh := fun k => by
  have h : State.reset.slots[k] = Slot.preset.sealed k := by simp [State.reset]
  rw [h]
  exact ⟨rfl, fun _ hb => by cases hb⟩

/-- A move writes a window sealed, or none. -/
theorem Move.windowsFresh (hs : s.windowsFresh) (h : Move s t) : t.windowsFresh := by
  cases h with
  | change h => exact windowsFresh_congr h.tables.1 hs
  | take => exact windowsFresh_congr (by simp) hs
  | plain | hit | miss | fill | discard | clear | load | blank | flush | device | ranges | setRange =>
    exact windowsFresh_congr (s := s) rfl hs
  | scrub k keys cause _ =>
    rw [scrub_eq]
    exact windowsFresh_congr (revoke_changes (Context.holds k) cause.code (s.scrubBegun k keys cause)).tables.1 hs
  | contain =>
    rw [enterContained_eq]
    exact windowsFresh_congr (revoke_changes (fun c => c.live && c.passage == .cipher) .fault s.containBegun).tables.1 hs
  | erase k keys cause _ =>
    obtain ⟨-, -, -, hd, -⟩ := eraseSlot_books k cause s
    exact windowsFresh_congr (by rw [hd]) hs
  | recover _ =>
    obtain ⟨-, -, -, -, -, hd⟩ := recoverAll_books s
    exact windowsFresh_congr (by rw [hd]) hs
  | window i w _ => exact windowsFresh_writeWindow hs i w
  | reset h => exact windowsFresh_congr h.windows windowsFresh_reset

/-- A move writes a slot sealed, in one of the four states, or none. -/
theorem Move.slotsFresh (hs : s.slotsFresh) (h : Move s t) : t.slotsFresh := by
  cases h with
  | change h => exact slotsFresh_congr h.tables.2.2.1 hs
  | take => exact slotsFresh_congr (by simp) hs
  | plain | hit | miss | fill | discard | clear | flush | device | ranges | setRange | window =>
    exact slotsFresh_congr (s := s) rfl hs
  | scrub k keys cause _ =>
    have hbegun : (s.scrubBegun k keys cause).slotsFresh := slotsFresh_set (s := s) rfl (fun _ h => by cases h) hs
    rw [scrub_eq]
    exact slotsFresh_congr (revoke_changes (Context.holds k) cause.code (s.scrubBegun k keys cause)).tables.2.2.1 hbegun
  | contain =>
    rw [enterContained_eq]
    exact slotsFresh_congr (revoke_changes (fun c => c.live && c.passage == .cipher) .fault s.containBegun).tables.2.2.1 hs
  | erase k keys cause _ =>
    obtain ⟨-, -, -, -, -, b, hb, hk⟩ := eraseSlot_books k cause s
    exact slotsFresh_set hk (fun _ h => by rcases hb with rfl | rfl <;> cases h) hs
  | recover _ =>
    obtain ⟨-, -, -, hk, -⟩ := recoverAll_books s
    intro k
    have hget : s.recoverAll.slots[k] = s.slots[k].recovered k := by rw [hk]; simp
    rw [hget]
    exact ⟨rfl, fun _ h => by cases h⟩
  | load k p g _ _ _ => exact slotsFresh_set (s := s) rfl (fun _ h => by cases h) hs
  | blank k b _ hb => exact slotsFresh_set (s := s) rfl (fun _ h => by rcases hb with rfl | rfl <;> cases h) hs
  | reset h => exact slotsFresh_congr h.slots slotsFresh_reset

theorem Moves.windowsFresh (hs : s.windowsFresh) (h : Moves s t) : t.windowsFresh := by
  induction h with
  | refl => exact hs
  | tail _ h ih => exact h.windowsFresh ih

theorem Moves.slotsFresh (hs : s.slotsFresh) (h : Moves s t) : t.slotsFresh := by
  induction h with
  | refl => exact hs
  | tail _ h ih => exact h.slotsFresh ih

/-! ## Ranges: the operations that write them (R35) -/

theorem rangesFresh_congr (h : t.ranges = s.ranges) (hs : s.rangesFresh) : t.rangesFresh := by
  unfold State.rangesFresh
  rw [h]
  exact hs

/-- One record is put that carries its own check word. -/
theorem rangesFresh_set {i : RangeNo} {r : Range} (h : t.ranges = s.ranges.set i r)
    (hr : r.check = Config.rangeCheck (r.fields i)) (hs : s.rangesFresh) : t.rangesFresh := by
  intro j
  rw [h, getElem_set_fin]
  split
  · next hij => subst hij; exact hr
  · exact hs j

/-- The remaining count of an idle timer is not among the fields a check word covers (R34). -/
theorem rangesFresh_setIdle {i : RangeNo} {n : Option Nat} (h : t.ranges = s.ranges.set i { s.ranges[i] with idleRemaining := n })
    (hs : s.rangesFresh) : t.rangesFresh := rangesFresh_set h (hs i) hs

theorem rangesFresh_writeRange (hs : s.rangesFresh) (i : RangeNo) (r : Range) : (s.writeRange i r).rangesFresh :=
  rangesFresh_set (s := s) rfl rfl hs

theorem lock_check {i : RangeNo} {r : Range} (hr : r.check = Config.rangeCheck (r.fields i)) :
    (r.lock i).check = Config.rangeCheck ((r.lock i).fields i) := by
  unfold Range.lock
  split
  · rfl
  · exact hr

theorem rangesFresh_lockRanges (hs : s.rangesFresh) (p : Range → Bool) : (s.lockRanges p).rangesFresh := by
  intro i
  rw [lockRanges_get]
  split
  · exact lock_check (hs i)
  · exact hs i

theorem rangesFresh_reset : State.reset.rangesFresh := fun i => by
  have h : State.reset.ranges[i] = (Range.preset i).sealed i := by simp [State.reset]
  rw [h]
  rfl

theorem rangesFresh_recoverAll (s : State) : s.recoverAll.rangesFresh := fun i => by
  obtain ⟨-, -, -, -, hr, -⟩ := recoverAll_books s
  have h : s.recoverAll.ranges[i] = s.ranges[i].recovered i := by rw [hr]; simp
  rw [h]
  rfl

theorem rangesFresh_scrub (hs : s.rangesFresh) (k : SlotNo) (keys : KeyPair) (cause : ScrubCause) :
    (s.scrub k keys cause).rangesFresh := by
  have hbegun : (s.scrubBegun k keys cause).rangesFresh :=
    rangesFresh_lockRanges (s := s.writeSlot k { s.slots[k] with body := .scrubbing keys cause }) hs _
  rw [scrub_eq]
  exact rangesFresh_congr (revoke_changes (Context.holds k) cause.code (s.scrubBegun k keys cause)).ranges hbegun

/-! ## Ranges: admission (R39, R148) -/

theorem rangesFresh_restartIdle (hs : s.rangesFresh) (i : RangeNo) : (s.restartIdle i).rangesFresh := by
  unfold State.restartIdle
  split
  · exact hs
  · exact rangesFresh_setIdle (s := s) rfl hs

theorem admitCipher_ranges (n : CtxNo) (f : HeaderFields) (w : WindowNo) (cap : Capture) (s : State) :
    (s.admitCipher n f w cap).ranges = (s.restartIdle cap.range).ranges := by
  unfold State.admitCipher
  dsimp only
  split <;> simp

@[simp] theorem noteDegrade_ranges (b : Bool) (s : State) : (s.noteDegrade b).ranges = s.ranges := (noteDegrade_quiet b s).ranges

theorem rangesFresh_requestHeader (h : Header) (hs : s.rangesFresh) (ht : execRequestHeader h s = .next t) : t.rangesFresh := by
  unfold execRequestHeader at ht
  split at ht
  · split at ht
    · cases ht
      exact rangesFresh_congr (by rw [(refuseRequest_quiet _ _ _).ranges, noteDegrade_ranges]; rfl) hs
    · next p w cap d _ =>
      cases ht
      have hu : ((s.start.noteDegrade d).answerHeader .admitted).rangesFresh := rangesFresh_congr (s := s) (by simp) hs
      unfold State.admitRequest
      split
      · next cap _ _ =>
        refine rangesFresh_congr ?_ (rangesFresh_restartIdle hu cap.range)
        rw [State.takeEligible_ranges, admitCipher_ranges]
      · exact hu
      · exact rangesFresh_congr (s := s) (by simp) hs
  · cases ht
    exact hs

/-! ## Ranges: the monitor (R46, R168) -/

theorem windowMismatch_ranges (i : WindowNo) (s : State) : (s.windowMismatch i).ranges = s.ranges := by
  unfold State.windowMismatch
  dsimp only
  repeat' split
  all_goals simp [State.restartDwell, State.reportMismatch]

theorem rangesFresh_slotMismatch (hs : s.rangesFresh) (k : SlotNo) : (s.slotMismatch k).rangesFresh := by
  have hu : (s.reportMismatch .key k.val).rangesFresh := rangesFresh_congr (reportMismatch_quiet _ _ s).ranges hs
  unfold State.slotMismatch
  dsimp only
  split
  · exact rangesFresh_scrub hu k _ _
  · exact rangesFresh_scrub hu k _ _
  · exact hu
  · exact hu
  · exact hs

theorem rangesFresh_visit (hs : s.rangesFresh) (cursor : Fin 56) : (s.visit cursor).rangesFresh := by
  unfold State.visit
  split
  · dsimp only
    split
    · exact hs
    · exact rangesFresh_congr (windowMismatch_ranges _ s) hs
  · split
    · dsimp only
      split
      · exact rangesFresh_writeRange (rangesFresh_congr (reportMismatch_quiet _ _ s).ranges hs) _ _
      · exact hs
    · dsimp only
      split
      · exact rangesFresh_slotMismatch hs _
      · exact hs

theorem rangesFresh_monitorTick (hs : s.rangesFresh) : s.monitorTick.rangesFresh := by
  unfold State.monitorTick
  split
  · exact rangesFresh_congr (by simp) (rangesFresh_visit hs s.contain.cursor)
  · exact hs

theorem rangesFresh_tableMonitorVisit (hs : s.rangesFresh) (ht : execTableMonitorVisit s = .next t) : t.rangesFresh := by
  unfold execTableMonitorVisit at ht
  split at ht <;> cases ht
  · exact rangesFresh_monitorTick (s := s.start) hs
  · exact hs

/-! ## Ranges: timers and ticks (R45, R110, R148, R149, R155) -/

theorem rangesFresh_expireIdle (hs : s.rangesFresh) (i : RangeNo) : (s.expireIdle i).rangesFresh :=
  rangesFresh_writeRange hs i { s.ranges[i] with state := .locked, idleRemaining := none }

theorem rangesFresh_idleExpiry (i : RangeNo) (hs : s.rangesFresh) (ht : execIdleExpiry i s = .next t) : t.rangesFresh := by
  unfold execIdleExpiry at ht
  split at ht <;> cases ht
  · exact rangesFresh_expireIdle (rangesFresh_congr (s := s) rfl hs) i
  · exact hs

theorem rangesFresh_lapsePresence (hs : s.rangesFresh) : s.lapsePresence.rangesFresh := rangesFresh_lockRanges hs _

theorem rangesFresh_presenceLapse (hs : s.rangesFresh) (ht : execPresenceLapse s = .next t) : t.rangesFresh := by
  unfold execPresenceLapse at ht
  split at ht
  · split at ht <;> cases ht
    · exact rangesFresh_lapsePresence (rangesFresh_congr (s := s) rfl hs)
    · exact hs
  · cases ht
    exact hs

theorem tickAnswer_ranges (n : CtxNo) (s : State) : (s.tickAnswer n).ranges = s.ranges := by
  unfold State.tickAnswer State.answerTimeout
  repeat' split
  all_goals simp

theorem answerTicks_ranges (s : State) : s.answerTicks.ranges = s.ranges := by
  unfold State.answerTicks
  generalize (s.contexts.filter fun c => s.countsTick c).map (fun c => c.number) = l
  induction l generalizing s with
  | nil => rfl
  | cons n l ih => exact (ih _).trans (tickAnswer_ranges n s)

theorem rangesFresh_tickIdle (hs : s.rangesFresh) (i : RangeNo) : (s.tickIdle i).rangesFresh := by
  unfold State.tickIdle
  split
  · split
    · split
      · exact rangesFresh_expireIdle hs i
      · exact rangesFresh_setIdle (s := s) rfl hs
    · exact hs
  · exact hs

theorem rangesFresh_idleTicks (hs : s.rangesFresh) : s.idleTicks.rangesFresh := by
  unfold State.idleTicks
  generalize List.finRange 16 = l
  induction l generalizing s with
  | nil => exact hs
  | cons i l ih => exact ih (rangesFresh_tickIdle hs i)

theorem rangesFresh_presenceTick (hs : s.rangesFresh) : s.presenceTick.rangesFresh := by
  unfold State.presenceTick
  split
  · split
    · exact hs
    · split
      · exact rangesFresh_lapsePresence hs
      · exact hs
  · exact hs

theorem dwellTick_ranges (s : State) : s.dwellTick.ranges = s.ranges := by
  unfold State.dwellTick
  repeat' split
  all_goals rfl

theorem rangesFresh_coarsePart (hs : s.rangesFresh) : s.coarsePart.rangesFresh := by
  have hticks : (if Config.tickOrder s.choices then s.idleTicks.presenceTick else s.presenceTick.idleTicks).rangesFresh := by
    split
    · exact rangesFresh_presenceTick (rangesFresh_idleTicks hs)
    · exact rangesFresh_idleTicks (rangesFresh_presenceTick hs)
  unfold State.coarsePart
  split
  · exact rangesFresh_congr (dwellTick_ranges _) hticks
  · exact hs

theorem rangesFresh_fineTick (hs : s.rangesFresh) : s.fineTick.rangesFresh := by
  have hticks : (if Config.tickOrder s.start.choices then s.start.answerTicks.monitorTick
      else s.start.monitorTick.answerTicks).rangesFresh := by
    split
    · exact rangesFresh_monitorTick (rangesFresh_congr (answerTicks_ranges s.start) hs)
    · exact rangesFresh_congr (answerTicks_ranges _) (rangesFresh_monitorTick (s := s.start) hs)
  unfold State.fineTick
  dsimp only
  exact rangesFresh_congr rfl (rangesFresh_coarsePart (rangesFresh_congr rfl hticks))

/-! ## Ranges: the key link (R40 to R43, R47, R60) -/

theorem rangesFresh_ownSetRange (hs : s.rangesFresh) (index : Byte) (first : Sector) (count : BitVec 48)
    (binding lock : Byte) (idle : BitVec 24) : (s.ownSetRange index first count binding lock idle).1.rangesFresh := by
  unfold State.ownSetRange
  split
  · exact hs
  · split
    · exact hs
    · split
      · exact hs
      · split
        · exact hs
        · split
          · dsimp only
            split
            · exact hs
            · exact rangesFresh_writeRange hs _ _
          · exact hs

theorem rangesFresh_ownOpenRange (hs : s.rangesFresh) (index mode : Byte) : (s.ownOpenRange index mode).1.rangesFresh := by
  unfold State.ownOpenRange
  split
  · exact hs
  · split
    · exact hs
    · split
      · exact hs
      · split
        · exact hs
        · split
          · exact hs
          · exact rangesFresh_set (s := s) rfl rfl hs

theorem rangesFresh_ownLockRange (hs : s.rangesFresh) (index : Byte) : (s.ownLockRange index).1.rangesFresh := by
  unfold State.ownLockRange
  split
  · exact hs
  · split
    · exact hs
    · next i _ => exact rangesFresh_set (s := s) rfl (lock_check (hs i)) hs

theorem rangesFresh_ownScrubKey (hs : s.rangesFresh) (slot : Byte) : (s.ownScrubKey slot).1.rangesFresh := by
  unfold State.ownScrubKey
  split
  · exact hs
  · split
    · exact hs
    · split
      · exact rangesFresh_congr (State.takeEligible_ranges _) (rangesFresh_scrub hs _ _ .command)
      · exact rangesFresh_congr (State.takeEligible_ranges _) (rangesFresh_scrub hs _ _ .command)
      · exact hs
      · exact hs
      · exact hs

theorem rangesFresh_ownRecover (hs : s.rangesFresh) : s.ownRecover.1.rangesFresh := by
  unfold State.ownRecover
  split
  · exact hs
  · split
    · exact hs
    · exact rangesFresh_recoverAll s

/-- The commands of the key link whose owner writes a range record: those of the range table, SCRUB-KEY and RECOVER. -/
def LinkCommand.writesRange : LinkCommand → Bool
  | .setRange _ _ _ _ _ _ | .openRange _ _ | .lockRange _ | .scrubKey _ | .recover => true
  | _ => false

/-- The owner of any other command writes no range. -/
theorem owner_ranges {c : LinkCommand} (h : c.writesRange = false) (s : State) : (c.owner s).1.ranges = s.ranges := by
  cases c with
  | setRange | openRange | lockRange | scrubKey | recover => cases h
  | status => rfl
  | readFault | readAbort | loadKey | flushSchedules | setWindow | setLimit | freeze | go | armPresence | renew | setAlert
  | clearEvents | clearFault | clearTallies =>
    simp only [LinkCommand.owner, State.ownReadFault, State.ownReadAbort, State.ownLoadKey, State.ownFlush, State.ownSetWindow,
      State.ownSetLimit, State.ownFreeze, State.ownGo, State.ownArmPresence, State.ownRenew, State.ownSetAlert,
      State.ownClearEvents, State.ownClearFault, State.ownClearTallies]
    repeat' split
    all_goals rfl

theorem rangesFresh_owner (c : LinkCommand) (hs : s.rangesFresh) : (c.owner s).1.rangesFresh := by
  cases h : c.writesRange with
  | false => exact rangesFresh_congr (owner_ranges h s) hs
  | true =>
    cases c with
    | setRange => exact rangesFresh_ownSetRange hs _ _ _ _ _ _
    | openRange => exact rangesFresh_ownOpenRange hs _ _
    | lockRange => exact rangesFresh_ownLockRange hs _
    | scrubKey => exact rangesFresh_ownScrubKey hs _
    | recover => exact rangesFresh_ownRecover hs
    | _ => cases h

theorem rangesFresh_judged (b : Bool) (c : LinkCommand) (hs : s.rangesFresh) : (s.judged b c.owner).rangesFresh := by
  unfold State.judged
  split
  · exact hs
  · exact rangesFresh_owner c hs

theorem rangesFresh_judgeBytes (bytes : List Byte) (n : Nat) (hs : s.rangesFresh) : (s.judgeBytes bytes n).rangesFresh := by
  unfold State.judgeBytes
  split
  · exact hs
  · next c _ => exact rangesFresh_judged _ c hs

theorem rangesFresh_commandEnds {n : Nat} {judge : State → State}
    (h : ∀ u : State, u.rangesFresh → (judge u).rangesFresh) (hs : s.rangesFresh) : (s.commandEnds n judge).rangesFresh := by
  unfold State.commandEnds
  dsimp only
  split
  · exact h _ hs
  · exact hs
  · exact hs

theorem rangesFresh_linkRow (c : LinkCommand) (hs : s.rangesFresh) (ht : linkRow c c.owner s = .next t) : t.rangesFresh := by
  cases ht
  exact rangesFresh_commandEnds (fun u hu => rangesFresh_judged _ c hu) hs

theorem rangesFresh_commandPeriod (first rest : List Bool) (hs : s.rangesFresh)
    (ht : execCommandPeriod first rest s = .next t) : t.rangesFresh := by
  unfold execCommandPeriod at ht
  dsimp only at ht
  split at ht
  · cases ht
    exact hs
  · split at ht <;> cases ht
    · exact rangesFresh_congr (readEnds_ranges s.start _) hs
    · exact rangesFresh_commandEnds (fun u hu => rangesFresh_judgeBytes _ _ hu) hs

/-! ## Every step -/

/-- A command that may write a range record writes none but sealed. -/
theorem rangesFresh_exec (c : Instr) (hs : s.rangesFresh) (ht : exec c s = .next t) : t.rangesFresh := by
  cases h : mayWriteRange c with
  | false => exact rangesFresh_congr (exec_ranges s h t ht) hs
  | true =>
    cases c with
    | powerOnReset => cases ht; exact rangesFresh_reset
    | requestHeader => exact rangesFresh_requestHeader _ hs ht
    | tableMonitorVisit => exact rangesFresh_tableMonitorVisit hs ht
    | idleExpiry => exact rangesFresh_idleExpiry _ hs ht
    | presenceLapse => exact rangesFresh_presenceLapse hs ht
    | commandPeriod => exact rangesFresh_commandPeriod _ _ hs ht
    | status => exact rangesFresh_linkRow .status hs ht
    | readFault => exact rangesFresh_linkRow .readFault hs ht
    | readAbort => exact rangesFresh_linkRow .readAbort hs ht
    | loadKey slot d t => exact rangesFresh_linkRow (.loadKey slot d t) hs ht
    | scrubKey slot => exact rangesFresh_linkRow (.scrubKey slot) hs ht
    | flushSchedules => exact rangesFresh_linkRow .flushSchedules hs ht
    | setRange i f c b l t => exact rangesFresh_linkRow (.setRange i f c b l t) hs ht
    | openRange i m => exact rangesFresh_linkRow (.openRange i m) hs ht
    | lockRange i => exact rangesFresh_linkRow (.lockRange i) hs ht
    | setWindow i t f l d m r => exact rangesFresh_linkRow (.setWindow i t f l d m r) hs ht
    | setLimit n => exact rangesFresh_linkRow (.setLimit n) hs ht
    | freeze => exact rangesFresh_linkRow .freeze hs ht
    | go => exact rangesFresh_linkRow .go hs ht
    | recover => exact rangesFresh_linkRow .recover hs ht
    | armPresence n => exact rangesFresh_linkRow (.armPresence n) hs ht
    | renew => exact rangesFresh_linkRow .renew hs ht
    | setAlert e => exact rangesFresh_linkRow (.setAlert e) hs ht
    | clearEvents e => exact rangesFresh_linkRow (.clearEvents e) hs ht
    | clearFault => exact rangesFresh_linkRow .clearFault hs ht
    | clearTallies => exact rangesFresh_linkRow .clearTallies hs ht
    | _ => cases h

theorem rangesFresh_step (hs : s.rangesFresh) (ht : step s = .next t) : t.rangesFresh := by
  unfold step at ht
  split at ht
  · cases ht
    exact rangesFresh_fineTick hs
  · next c rest _ => exact rangesFresh_exec c (rangesFresh_congr (t := { s with pending := rest }) rfl hs) ht

end

/-- Settles O55: every step is a chain of moves, which write windows and slots sealed, and of range records it changes the idle
count or writes the record sealed. -/
theorem everyStepKeepsChecksFresh : Obligations.every_step_keeps_checks_fresh := by
  unfold Obligations.every_step_keeps_checks_fresh
  intro s t hs h
  obtain ⟨hw, hr, hk⟩ := checksFresh_iff.1 hs
  have hm := (step_acts h).1
  exact checksFresh_iff.2 ⟨hm.windowsFresh hw, rangesFresh_step hr h, hm.slotsFresh hk⟩

end Sys2Proof.Machine
end

