-- ==== Sys2Proof/Proofs/Reset.lean ====
section
/-! SUPPORT. The state after power-on reset: its presets, and the laws it meets (R19, R36, R56, R72, R118 to R120, R152, R164, R171,
R181). -/

namespace Sys2Proof.Machine

/-! ## The records at reset (R19, R36, R56, R120) -/

@[simp] theorem reset_window (i : WindowNo) : State.reset.decoder.windows[i] = (Window.preset i).sealed i := by simp [State.reset]

@[simp] theorem reset_range (i : RangeNo) : State.reset.ranges[i] = (Range.preset i).sealed i := by simp [State.reset]

@[simp] theorem reset_slot (k : SlotNo) : State.reset.slots[k] = Slot.preset.sealed k := by simp [State.reset]

@[simp] theorem reset_cache (i : Fin 4) : State.reset.cache[i] = { way0 := none, way1 := none, recent := .way1 } := by
  simp [State.reset]

/-- No entry is valid at reset (R120). -/
theorem reset_way (i : Fin 4) (w : Way) : State.reset.way i w = none := by
  unfold State.way
  rw [reset_cache]
  cases w <;> rfl

/-- Window 0 is preset CLEAR for fetches, the others EMPTY (R19). -/
theorem reset_window_fields (i : WindowNo) :
    State.reset.decoder.windows[i].treatment = (if i = 0 then .clear else .empty) ∧
      State.reset.decoder.windows[i].first = 0 ∧
      State.reset.decoder.windows[i].last = (if i = 0 then 0x000FFFF else 0) ∧
      State.reset.decoder.windows[i].direction = (if i = 0 then .fetchOnly else .both) ∧
      State.reset.decoder.windows[i].movers = (if i = 0 then 0xFF else 0) ∧
      State.reset.decoder.windows[i].relocation = 0 := by
  rw [reset_window]
  unfold Window.sealed Window.preset
  split <;> exact ⟨rfl, rfl, rfl, rfl, rfl, rfl⟩

/-- Every range is preset LOCKED, unbound and, but for range 0, without sectors (R36). -/
theorem reset_range_fields (i : RangeNo) :
    State.reset.ranges[i].span = (if i = 0 then none else some { first := 0, count := 0 }) ∧
      State.reset.ranges[i].binding = none ∧ State.reset.ranges[i].state = .locked ∧
      State.reset.ranges[i].lockOnAbsence = true ∧ State.reset.ranges[i].idleInterval = 0 ∧
      State.reset.ranges[i].idleRemaining = none := by
  rw [reset_range]
  exact ⟨rfl, rfl, rfl, rfl, rfl, rfl⟩

/-- Every slot is preset EMPTY at generation 0 (R56). -/
theorem reset_slot_fields (k : SlotNo) : State.reset.slots[k].body = .empty ∧ State.reset.slots[k].generation = 0 := by
  rw [reset_slot]
  exact ⟨rfl, rfl⟩

/-- Way 1 is preset the most recently used of every set (R120). -/
theorem reset_recent (i : Fin 4) : State.reset.cache[i].recent = .way1 := by rw [reset_cache]

/-! ## The laws at reset -/

theorem checksFresh_atReset : State.reset.checksFresh :=
  checksFresh_iff.2 ⟨windowsFresh_reset, rangesFresh_reset, slotsFresh_reset⟩

/-- No timer runs, nothing is counted, and ALERT_N is high (R148, R152, R164, R171, R181, R183). -/
theorem timerLaws_reset : State.reset.timerLaws := by
  refine ⟨fun n hn => (by cases hn), fun n m hp => (by cases hp), fun i => ?_,
    ⟨Nat.zero_le _, Nat.zero_le _, Nat.zero_le _, Nat.zero_le _, by simp [State.reset]⟩,
    follow_alertLow State.reset.events.pending State.reset.events.enables⟩
  rw [reset_range]
  exact ⟨Nat.zero_le _, fun n hn => by cases hn⟩

/-- No context stands (R72). -/
theorem keyCustody_reset : State.reset.keyCustody := ⟨contextLaws_nil rfl, fun c hc => by cases hc⟩

/-- No entry is valid, nothing is queued, and the expander is idle (R120, R123, R126). -/
theorem cacheLaws_reset : State.reset.cacheLaws := by
  have hnone : ∀ {i w e}, State.reset.way i w ≠ some e := fun {i w e} h => by rw [reset_way] at h; cases h
  have hledger : State.reset.ledger :=
    ledger_empty rfl ⟨fun i w e he => absurd he hnone, fun i e d he => absurd he hnone⟩ (fun i w e he => absurd he hnone) rfl
      fun x hx => by cases hx
  have hkeyed : State.reset.keyed := ⟨fun i w e he => absurd he hnone, fun x hx => by cases hx⟩
  exact cacheLaws_iff.2 ⟨hledger, hkeyed, .inr rfl⟩

/-- Settles O53: each law at reset. -/
theorem lawsHoldAtReset : Obligations.laws_hold_at_reset := by
  unfold Obligations.laws_hold_at_reset
  exact ⟨tableLaws_reset, checksFresh_atReset, timerLaws_reset, keyCustody_reset, cacheLaws_reset⟩

/-- Settles O9: but for the clear pin, the cursor of free choices and the queue, the next state is the reset state. -/
theorem powerOnResetPresets : Obligations.power_on_reset_presets := by
  unfold Obligations.power_on_reset_presets
  intro clear s
  exact ⟨_, rfl, rfl, rfl, reset_window_fields, rfl, rfl, reset_range_fields, reset_slot_fields, checksFresh_atReset, rfl, rfl,
    reset_way, reset_recent, rfl, rfl, rfl, rfl, rfl, rfl, rfl, rfl, rfl, rfl, rfl⟩

end Sys2Proof.Machine
end

