-- ==== Sys2Proof/Proofs/DeviceCommands.lean ====
section
/-! SUPPORT. FREEZE, GO, the dwell's end and RECOVER (R31, R47, R69, R132, R157, R161, R164, R165). -/

namespace Sys2Proof.Machine

/-! ## FREEZE and GO (R31, R161) -/

theorem freeze_frame_length : LinkCommand.freeze.frame.length = 4 := frame_length _
theorem go_frame_length : LinkCommand.go.frame.length = 4 := frame_length _
theorem recover_frame_length : LinkCommand.recover.frame.length = 4 := frame_length _

section
variable {s : State}

theorem ownFreeze_sets (hd : s.contain.device ≠ .selfTest) :
    s.ownFreeze = ({ s with decoder := { s.decoder with frozen := true } }, .done []) := if_neg hd

theorem ownGo_serves (hd : s.contain.device = .config) :
    s.ownGo = ({ s with contain := { s.contain with device := .service } }, .done []) := if_pos hd

theorem ownGo_refused (hd : s.contain.device ≠ .config) : s.ownGo = (s, .refused .state) := if_neg hd

/-- A command that its owner refuses STATE wherever the device is not in SELF-TEST is refused STATE there too, by the link. -/
theorem linkRow_refusedState {c : LinkCommand} {owner : State → State × Answer} {n : Nat} (hl : s.link = .empty)
    (hc : (c == .status) = false) (hn : c.frame.length = n)
    (ho : s.contain.device ≠ .selfTest → owner (s.heard n) = (s.heard n, .refused .state)) :
    linkRow c owner s = .next (s.answered n (.refused .state)) := by
  by_cases hd : s.contain.device = .selfTest
  · rw [linkRow_selfTest hl hd hc, hn]
  · exact linkRow_answers hl (.inl hd) hn (ho hd)

/-! ## The dwell's end (R146, R164) -/

theorem execDwellEnd_ends {n : Nat} (hw : s.contain.dwell = some n) (hn : n ≤ 1) (hp : s.time.coarsePhase ≤ 1)
    (hm : s.marks.tickedDwell = false) :
    execDwellEnd s = .next { s.start with
      contain := { s.contain with dwell := none }, marks := { s.marks with tickedDwell := true } } := by
  unfold execDwellEnd
  rw [hw]
  exact if_pos ⟨decide_eq_true hp, hm, hn⟩

theorem execDwellEnd_untaken {n : Nat} (hw : s.contain.dwell = some n)
    (h : 2 ≤ n ∨ 2 ≤ s.time.coarsePhase ∨ s.marks.tickedDwell = true) : execDwellEnd s = .next s.untaken := by
  unfold execDwellEnd
  rw [hw]
  refine if_neg ?_
  rintro ⟨hp, hm, hn⟩
  have hp : s.time.coarsePhase ≤ 1 := of_decide_eq_true hp
  rcases h with h | h | h
  · omega
  · omega
  · rw [hm] at h; cases h

/-! ## RECOVER (R165) -/

theorem ownRecover_refused (hd : s.contain.device ≠ .contained) : s.ownRecover = (s, .refused .state) := if_pos hd

theorem ownRecover_dwells {n : Nat} (hd : s.contain.device = .contained) (hw : s.contain.dwell = some n) :
    s.ownRecover = (s, .refused .dwell) := by
  simp [State.ownRecover, hd, hw]

theorem ownRecover_recovers (hd : s.contain.device = .contained) (hw : s.contain.dwell = none) :
    s.ownRecover = (s.recoverAll, .accepted) := by
  simp [State.ownRecover, hd, hw]

/-- What RECOVER does to every block, but for the event (R165). -/
def State.recovered (s : State) : State :=
  { s with
    expander := s.expander.voidWhere fun _ => true
    cache := Vector.ofFn fun i => s.cache[i].discard fun _ => true
    slots := Vector.ofFn fun k => s.slots[k].recovered k
    ranges := Vector.ofFn fun i => s.ranges[i].recovered i
    time := { s.time with presence := .idle }
    contain := { s.contain with dwell := none, device := .selfTest } }

theorem recoverAll_eq (s : State) :
    s.recoverAll = if (List.finRange 32).any (fun (k : SlotNo) => s.slots[k].scrubbingByCommand) then
      State.raise .scrubbed s.recovered else s.recovered := rfl

/-- RECOVER reads and writes nothing of what a frame heard has driven. -/
theorem recoverAll_heard (n : Nat) (s : State) : (s.heard n).recoverAll = s.recoverAll.heard n := by
  rw [recoverAll_eq s, apply_ite (State.heard n)]
  rfl

/-- A scrub by command runs in some slot exactly if the model's search finds one (R69). -/
theorem any_scrubbingByCommand :
    ((List.finRange 32).any fun (k : SlotNo) => s.slots[k].scrubbingByCommand) = true ↔
      ∃ (k : SlotNo) (keys : KeyPair), s.slots[k].body = .scrubbing keys .command := by
  have hslot : ∀ r : Slot, r.scrubbingByCommand = true ↔ ∃ keys, r.body = .scrubbing keys .command := fun r => by
    unfold Slot.scrubbingByCommand
    split <;> simp_all
  rw [List.any_eq_true]
  exact ⟨fun ⟨k, _, hk⟩ => ⟨k, (hslot _).1 hk⟩, fun ⟨k, hk⟩ => ⟨k, List.mem_finRange k, (hslot _).2 hk⟩⟩

/-- RECOVER raises SCRUBBED for a scrub by command that it ends, and nothing otherwise (R69). -/
theorem recoverAll_events (s : State) :
    ((∃ (k : SlotNo) (keys : KeyPair), s.slots[k].body = .scrubbing keys .command) →
      s.recoverAll.events = .follow (s.pendingWith .scrubbed) s.events.enables) ∧
    ((∀ (k : SlotNo) (keys : KeyPair), s.slots[k].body ≠ .scrubbing keys .command) → s.recoverAll.events = s.events) := by
  rw [recoverAll_eq]
  refine ⟨fun h => ?_, fun h => ?_⟩
  · rw [if_pos (any_scrubbingByCommand.2 h)]
    rfl
  · have hn : ¬ ((List.finRange 32).any fun (k : SlotNo) => s.slots[k].scrubbingByCommand) = true := fun hn => by
      obtain ⟨k, keys, hk⟩ := any_scrubbingByCommand.1 hn
      exact h k keys hk
    rw [if_neg hn]
    rfl

/-- What RECOVER changes is slots, ranges, cache, events, the expansion's void mark, presence and the device (R165). -/
theorem recoverAll_frame (s : State) :
    s.recoverAll = { s with
      slots := s.recoverAll.slots, ranges := s.recoverAll.ranges, cache := s.recoverAll.cache, events := s.recoverAll.events
      expander := s.expander.voidWhere fun _ => true
      time := { s.time with presence := .idle }
      contain := { s.contain with dwell := none, device := .selfTest } } := by
  rw [recoverAll_eq]
  split <;> rfl

end

/-- Settles O51: each command by its device state, and RECOVER record by record. -/
theorem deviceStateCommands : Obligations.device_state_commands := by
  unfold Obligations.device_state_commands
  refine ⟨fun s hl hd => ?_, fun s hl => ⟨fun hd => ?_, fun hd => ?_⟩, fun n s hw => ⟨fun hn hp hm => ?_, fun h => ?_⟩,
    fun s hl => ⟨fun hd => ?_, fun n hd hw => ?_, fun hd hw => ?_⟩⟩
  · exact linkRow_answers (t := { s with decoder := { s.decoder with frozen := true } }) hl (.inl hd) freeze_frame_length
      (ownFreeze_sets (s := s.heard 4) hd)
  · exact linkRow_answers (t := { s with contain := { s.contain with device := .service } }) hl
      (.inl (by rw [hd]; decide)) go_frame_length (ownGo_serves (s := s.heard 4) hd)
  · exact linkRow_refusedState hl rfl go_frame_length fun _ => ownGo_refused (s := s.heard 4) hd
  · exact execDwellEnd_ends hw hn hp hm
  · exact execDwellEnd_untaken hw h
  · exact linkRow_refusedState hl rfl recover_frame_length fun _ => ownRecover_refused (s := s.heard 4) hd
  · exact linkRow_answers hl (.inl (by rw [hd]; decide)) recover_frame_length (ownRecover_dwells (s := s.heard 4) hd hw)
  · obtain ⟨-, hcache, -, hslots, hranges, -⟩ := recoverAll_books s
    obtain ⟨hraised, hquiet⟩ := recoverAll_events s
    have hdone : (s.heard 4).ownRecover = (s.recoverAll.heard 4, .accepted) := by
      rw [ownRecover_recovers (s := s.heard 4) hd hw, recoverAll_heard]
    refine ⟨s.recoverAll, linkRow_answers hl (.inl (by rw [hd]; decide)) recover_frame_length hdone, fun k => ?_, fun i => ?_,
      way_discardAll hcache, fun i => ?_, hraised, hquiet, ?_⟩
    · unfold State.slotIs
      rw [hslots]
      simp [Slot.recovered]
    · unfold State.rangeIs
      rw [hranges]
      simp [Range.recovered]
    · rw [hcache]
      simp [CacheSet.discard]
    · have hcontain : ({ s.contain with dwell := none, device := .selfTest } : Containment) =
          { s.contain with device := .selfTest } := by simp only [hw]
      exact hcontain ▸ recoverAll_frame s

end Sys2Proof.Machine
end

