-- ==== Sys2Proof/Proofs/WindowCommands.lean ====
section
/-! SUPPORT. SET-WINDOW and SET-LIMIT (R18, R22, R30, R31). -/

namespace Sys2Proof.Machine

/-! ## Reading the payload (R22, R177) -/

theorem windowIndex_none {b : Byte} (h : 8 ≤ b.toNat) : windowIndex b = none := dif_neg (by omega)

theorem windowIndex_some {b : Byte} {i : WindowNo} (h : b.toNat = i.val) : windowIndex b = some i :=
  (dif_pos (by omega)).trans (congrArg some (Fin.ext h))

/-- A treatment's byte is its code; FAULTED has a code but is not written (R18, R177). -/
theorem readTreatment_eq {b : Byte} {k : Treatment} (hk : k ≠ .faulted) (h : b.toNat = k.code) : readTreatment b = some k := by
  have hb : b = BitVec.ofNat 8 k.code := by rw [← h, BitVec.ofNat_toNat, BitVec.setWidth_eq]
  subst hb
  cases k <;> [rfl; rfl; rfl; rfl; exact absurd rfl hk]

theorem readTreatment_none {b : Byte} (h : 4 ≤ b.toNat) : readTreatment b = none := by
  have hne : ∀ n : Byte, n.toNat < 4 → b ≠ n := fun n hn he => by subst he; omega
  unfold readTreatment
  rw [if_neg (hne 0 (by decide)), if_neg (hne 1 (by decide)), if_neg (hne 2 (by decide)), if_neg (hne 3 (by decide))]

/-- A byte other than 0 reads as no EMPTY. -/
theorem readTreatment_ne_empty {b : Byte} (h : b ≠ 0) : readTreatment b ≠ some .empty := by
  unfold readTreatment
  rw [if_neg h]
  split
  · simp
  · split
    · simp
    · split <;> simp

theorem readDirection_eq {b : Byte} {d : Direction} (h : b.toNat = d.code) : readDirection b = some d := by
  have hb : b = BitVec.ofNat 8 d.code := by rw [← h, BitVec.ofNat_toNat, BitVec.setWidth_eq]
  subst hb
  cases d <;> rfl

theorem readDirection_none {b : Byte} (h : 3 ≤ b.toNat) : readDirection b = none := by
  have hne : ∀ n : Byte, n.toNat < 3 → b ≠ n := fun n hn he => by subst he; omega
  unfold readDirection
  rw [if_neg (hne 0 (by decide)), if_neg (hne 1 (by decide)), if_neg (hne 2 (by decide))]

/-! ## Overlap (R22) -/

/-- Windows that meet share an address, the higher of the two first ones. -/
theorem covers_of_meets {a b : Window} (h : a.meets b = true) : ∃ u : UnitAddr, a.covers u = true ∧ b.covers u = true := by
  simp only [Window.meets, Bool.and_eq_true, decide_eq_true_eq] at h
  obtain ⟨⟨ha, hb⟩, hm⟩ := h
  have hmax : a.first.toNat ≤ b.first.toNat ∧ b.first.toNat ≤ a.last.toNat ∧ b.first.toNat ≤ b.last.toNat ∨
      b.first.toNat ≤ a.first.toNat ∧ a.first.toNat ≤ a.last.toNat ∧ a.first.toNat ≤ b.last.toNat := by omega
  rcases hmax with ⟨h1, h2, h3⟩ | ⟨h1, h2, h3⟩
  · exact ⟨b.first, by simp [Window.covers, ha, h1, h2], by simp [Window.covers, hb, h3]⟩
  · exact ⟨a.first, by simp [Window.covers, ha, h2], by simp [Window.covers, hb, h1, h3]⟩

/-- A record overlaps no window where it shares no address with another (R22). -/
theorem windowOverlaps_false {i : WindowNo} {w : Window} {s : State}
    (h : ∀ (j : WindowNo) (a : UnitAddr), j ≠ i → s.decoder.windows[j].covers a = true → w.covers a = false) :
    s.windowOverlaps i w = false := by
  unfold State.windowOverlaps
  rw [List.any_eq_false]
  intro j _ hj
  rw [Bool.and_eq_true, bne_iff_ne] at hj
  obtain ⟨a, hw, ha⟩ := covers_of_meets hj.2
  rw [h j a hj.1 ha] at hw
  cases hw

/-! ## SET-WINDOW's owner (R22) -/

/-- The record that SET-WINDOW writes for a treatment other than EMPTY (R22). -/
def writtenWindow (t : Treatment) (d : Direction) (first last : BitVec 32) (movers reloc : MoverSet) : Window :=
  { treatment := t, first := first.setWidth 28, last := last.setWidth 28, direction := d, movers := movers, relocation := reloc,
    check := 0 }

/-- It covers the addresses from the first to the last. -/
theorem writtenWindow_covers {t : Treatment} {d : Direction} {first last : BitVec 32} {movers reloc : MoverSet}
    (ht : t.covers = true) (hle : first.toNat ≤ last.toNat) (hlast : last.toNat < 2 ^ 28) (a : UnitAddr) :
    (writtenWindow t d first last movers reloc).covers a = true ↔ first.toNat ≤ a.toNat ∧ a.toNat ≤ last.toNat := by
  have hwidth : ∀ x : BitVec 32, x.toNat < 2 ^ 28 → (x.setWidth 28).toNat = x.toNat := fun x hx => by
    rw [BitVec.toNat_setWidth, Nat.mod_eq_of_lt hx]
  simp only [Window.covers, writtenWindow, ht, hwidth first (by omega), hwidth last hlast, Bool.true_and, Bool.and_eq_true,
    decide_eq_true_eq]

theorem setWindow_frame_length (b tr : Byte) (first last : BitVec 32) (dir : Byte) (movers reloc : MoverSet) :
    (LinkCommand.setWindow b tr first last dir movers reloc).frame.length = 17 := by
  rw [frame_length]
  simp [LinkCommand.payload]

theorem setLimit_frame_length (n : BitVec 48) : (LinkCommand.setLimit n).frame.length = 10 := by
  rw [frame_length]
  simp [LinkCommand.payload]

section
variable {b tr dir : Byte} {first last : BitVec 32} {movers reloc : MoverSet} {i : WindowNo} {s : State}

theorem ownSetWindow_frozen (hd : s.contain.device ≠ .selfTest) (hf : s.decoder.frozen = true) :
    s.ownSetWindow b tr first last dir movers reloc = (s, .refused .frozen) := (if_neg hd).trans (if_pos hf)

theorem ownSetWindow_badIndex (hd : s.contain.device ≠ .selfTest) (hf : s.decoder.frozen = false) (hb : 8 ≤ b.toNat) :
    s.ownSetWindow b tr first last dir movers reloc = (s, .refused .badIndex) := by
  simp [State.ownSetWindow, hd, hf, windowIndex_none hb]

/-- A treatment that may not be written, or a direction or bounds that may not stand with one that is not EMPTY (R22). -/
theorem ownSetWindow_badValue (hd : s.contain.device ≠ .selfTest) (hf : s.decoder.frozen = false) (hb : b.toNat = i.val)
    (hv : 4 ≤ tr.toNat ∨
      (tr ≠ 0 ∧ (3 ≤ dir.toNat ∨ last.toNat < first.toNat ∨ 2 ^ 28 ≤ first.toNat ∨ 2 ^ 28 ≤ last.toNat))) :
    s.ownSetWindow b tr first last dir movers reloc = (s, .refused .badValue) := by
  simp only [State.ownSetWindow, hd, hf, windowIndex_some hb, if_false, Bool.false_eq_true]
  rcases hv with hv | ⟨h0, hv⟩
  · rw [readTreatment_none hv]
  · have hne := readTreatment_ne_empty h0
    cases ht : readTreatment tr with
    | none => rfl
    | some t =>
      rw [ht] at hne
      cases hr : readDirection dir with
      | none => cases t <;> [exact absurd rfl hne; rfl; rfl; rfl; rfl]
      | some d =>
        have hbad : last.toNat < first.toNat ∨ unitAddrMax < first.toNat ∨ unitAddrMax < last.toNat := by
          have hdir : ¬ 3 ≤ dir.toNat := fun h => by rw [readDirection_none h] at hr; cases hr
          unfold unitAddrMax
          omega
        cases t <;> [exact absurd rfl hne; exact if_pos hbad; exact if_pos hbad; exact if_pos hbad; exact if_pos hbad]

theorem ownSetWindow_empties (hd : s.contain.device ≠ .selfTest) (hf : s.decoder.frozen = false) (hb : b.toNat = i.val)
    (ht : tr = 0) : s.ownSetWindow b tr first last dir movers reloc = (s.writeWindow i Window.emptied, .done []) := by
  subst ht
  simp only [State.ownSetWindow, hd, hf, windowIndex_some hb, if_false, Bool.false_eq_true]
  rfl

/-- Any other record is written, unless it overlaps another window (R22). -/
theorem ownSetWindow_writes {k : Treatment} {d : Direction} (hd : s.contain.device ≠ .selfTest) (hf : s.decoder.frozen = false)
    (hb : b.toNat = i.val) (hk : k ≠ .empty) (hk' : k ≠ .faulted) (ht : tr.toNat = k.code) (hdir : dir.toNat = d.code)
    (hle : first.toNat ≤ last.toNat) (hlast : last.toNat < 2 ^ 28) :
    s.ownSetWindow b tr first last dir movers reloc =
      if s.windowOverlaps i (writtenWindow k d first last movers reloc) then (s, .refused .overlap)
      else (s.writeWindow i (writtenWindow k d first last movers reloc), .done []) := by
  have hgood : ¬ (last.toNat < first.toNat ∨ unitAddrMax < first.toNat ∨ unitAddrMax < last.toNat) := by
    unfold unitAddrMax
    omega
  simp only [State.ownSetWindow, hd, hf, windowIndex_some hb, if_false, Bool.false_eq_true, readTreatment_eq hk' ht,
    readDirection_eq hdir]
  cases k <;> [exact absurd rfl hk; exact if_neg hgood; exact if_neg hgood; exact if_neg hgood; exact absurd rfl hk']

/-! ## SET-LIMIT's owner (R30) -/

theorem ownSetLimit_eq (n : BitVec 48) (hd : s.contain.device ≠ .selfTest) :
    s.ownSetLimit n =
      if s.decoder.frozen = true then (s, .refused .frozen)
      else if n = 0 ∨ 2 ^ 40 < n.toNat then (s, .refused .badValue)
      else ({ s with decoder := { s.decoder with limit := n.toNat } }, .done []) := by
  have hz : n.toNat = 0 ↔ n = 0 := BitVec.toNat_inj (y := 0)
  unfold State.ownSetLimit
  rw [if_neg hd]
  simp only [hz]

end

/-- Settles O50: the checks in their order, and the record or the limit written. -/
theorem windowDecoderIsWritten : Obligations.window_decoder_is_written := by
  unfold Obligations.window_decoder_is_written
  refine ⟨fun b tr first last dir movers reloc s hl hd => ?_, fun n s hl => ?_⟩
  · have hanswer : ∀ {u : State} {a : Answer}, (s.heard 17).ownSetWindow b tr first last dir movers reloc = (u.heard 17, a) →
        exec (.setWindow b tr first last dir movers reloc) s = .next (u.answered 17 a) :=
      fun ho => linkRow_answers hl (.inl hd) (setWindow_frame_length b tr first last dir movers reloc) ho
    have hwritten : ∀ (i : WindowNo) (w : Window) (j : WindowNo), j ≠ i →
        (s.writeWindow i w).decoder.windows[j] = s.decoder.windows[j] := fun i w j hj =>
      (getElem_set_fin _ i j _).trans (if_neg (Ne.symm hj))
    have hput : ∀ (i : WindowNo) (w : Window), (s.writeWindow i w).windowIs i w := fun i w =>
      (getElem_set_fin _ i i _).trans (if_pos rfl)
    refine ⟨fun hf => hanswer (ownSetWindow_frozen (s := s.heard 17) hd hf),
      fun hf hb => hanswer (ownSetWindow_badIndex (s := s.heard 17) hd hf hb),
      fun i hf hb => ⟨fun hv => hanswer (ownSetWindow_badValue (s := s.heard 17) hd hf hb hv), fun ht => ?_,
        fun k d hk hk' ht hdir hle hlast => ?_⟩⟩
    · exact ⟨s.writeWindow i Window.emptied, hanswer (ownSetWindow_empties (s := s.heard 17) hd hf hb ht), hput i _, hwritten i _,
        rfl⟩
    · have hcov : k.covers = true := by cases k <;> [exact absurd rfl hk; rfl; rfl; rfl; exact absurd rfl hk']
      have hw := writtenWindow_covers (d := d) (movers := movers) (reloc := reloc) hcov hle hlast
      have ho := ownSetWindow_writes (s := s.heard 17) (movers := movers) (reloc := reloc) hd hf hb hk hk' ht hdir hle hlast
      refine ⟨fun j a hj ha h1 h2 => hanswer (ho.trans (if_pos ?_)), fun hfree => ?_⟩
      · exact windowOverlaps_of_covers (s := s) hj ((hw a).2 ⟨h1, h2⟩) ha
      · have hno : s.windowOverlaps i (writtenWindow k d first last movers reloc) = false :=
          windowOverlaps_false fun j a hj ha => by
            rw [← Bool.not_eq_true, hw]
            exact hfree j a hj ha
        refine ⟨s.writeWindow i (writtenWindow k d first last movers reloc), hanswer (ho.trans (if_neg ?_)), ?_, hwritten i _, rfl⟩
        · exact fun h => by rw [show State.windowOverlaps i _ (s.heard 17) = false from hno] at h; cases h
        · rw [BitVec.ofNat_toNat, BitVec.ofNat_toNat]
          exact hput i _
  · have hlen := setLimit_frame_length n
    by_cases hd : s.contain.device = .selfTest
    · rw [if_pos hd, ← hlen]
      exact linkRow_selfTest hl hd rfl
    · have ho := ownSetLimit_eq (s := s.heard 10) n hd
      rw [if_neg hd]
      split
      · next hf => exact linkRow_answers hl (.inl hd) hlen (ho.trans (if_pos hf))
      · next hf =>
        have ho := ho.trans (if_neg hf)
        split
        · next hv => exact linkRow_answers hl (.inl hd) hlen (ho.trans (if_pos hv))
        · next hv =>
          exact linkRow_answers (t := { s with decoder := { s.decoder with limit := n.toNat } }) hl (.inl hd) hlen
            (ho.trans (if_neg hv))

end Sys2Proof.Machine
end

