-- ==== Sys2Proof/Proofs/HeaderAnswers.lean ====
section
/-! SUPPORT. The answer to a header against the table of the twelve checks, and what a degrade leaves (R27, R73 to R76, R102). -/

namespace Sys2Proof.Machine

/-! ## The lowest number not in use (R73) -/

theorem ctx?_eq_none_iff {n : CtxNo} {s : State} : s.ctx? n = none ↔ (s.contexts.any fun c => c.number == n) = false := by
  rw [State.ctx?, List.find?_eq_none, List.any_eq_false]

theorem lowestFree_eq_some_iff {n : CtxNo} {s : State} : s.lowestFree = some n ↔ s.isLowestFree n := by
  unfold State.lowestFree State.isLowestFree
  rw [List.find?_eq_some_iff_getElem]
  constructor
  · rintro ⟨hn, k, hk, hkn, hlow⟩
    have hkn : n.val = k := by rw [← hkn]; simp
    refine ⟨ctx?_eq_none_iff.2 (by simpa using hn), fun m hm hfree => ?_⟩
    have := hlow m.val (hkn ▸ hm)
    rw [ctx?_eq_none_iff] at hfree
    simp [hfree] at this
  · rintro ⟨hn, hlow⟩
    refine ⟨by rw [ctx?_eq_none_iff.1 hn]; rfl, n.val, by simp, by simp, fun j hj => ?_⟩
    have := hlow ⟨j, by omega⟩ hj
    rw [ne_eq, ctx?_eq_none_iff, Bool.not_eq_false] at this
    simp [this]

/-- While the list has room, some number is not in use (R72, R73). -/
theorem lowestFree_ne_none {s : State} (h : s.contexts.length < 32) : s.lowestFree ≠ none := by
  intro hn
  have hall : List.finRange 32 ⊆ s.contexts.map Context.number := fun n hmem => by
    have hused := List.find?_eq_none.1 hn n hmem
    obtain ⟨c, hc, hcn⟩ := List.any_eq_true.1 (by simpa using hused : (s.contexts.any fun c => c.number == n) = true)
    exact List.mem_map.2 ⟨c, hc, by simpa using hcn⟩
  have hlen := (List.subperm_of_subset (List.nodup_finRange 32) hall).length_le
  simp at hlen
  omega

/-! ## The table read check by check (R74) -/

/-- The answer a ruling gives. -/
def Ruling.answer : Ruling → HeaderAnswer
  | .refuse code _ => .refuse code
  | .admitted _ _ _ _ => .admitted

/-- A check that passes is passed over. -/
theorem tableAnswer_pass {b : Bool} {code : Reply} {l : List (Bool × Reply)} (hb : b = false) :
    tableAnswer ((b, code) :: l) = tableAnswer l := by
  simp [tableAnswer, hb]

/-- A check that fails gives the answer. -/
theorem tableAnswer_fail {b : Bool} {code : Reply} {l : List (Bool × Reply)} (hb : b = true) :
    tableAnswer ((b, code) :: l) = .refuse code := by
  simp [tableAnswer, hb]

/-- A ruling that refuses where a check fails, and goes on as the rest of the table where it passes. -/
theorem answer_check {p : Prop} [Decidable p] {b d : Bool} {code : Reply} {r : Ruling} {l : List (Bool × Reply)}
    (hb : b = true ↔ p) (hr : ¬ p → r.answer = tableAnswer l) :
    (if p then Ruling.refuse code d else r).answer = tableAnswer ((b, code) :: l) := by
  by_cases hp : p
  · rw [if_pos hp, tableAnswer_fail (hb.2 hp)]
    rfl
  · rw [if_neg hp, tableAnswer_pass (Bool.eq_false_iff.2 fun h => hp (hb.1 h))]
    exact hr hp

/-- Checks 8 to 12 and the refusal outside SERVICE, for a request settled CIPHER. -/
def State.cipherChecks (f : HeaderFields) (s : State) : List (Bool × Reply) :=
  [ (s.contain.device != .service, .fault),
    (!f.tagPresent, .noTag),
    (decide (s.decoder.limit ≤ f.sector.toNat) || decide (256 < f.offset.toNat + f.length), .bound),
    (s.ranges[s.rangeOf f.sector].state == .faulted, .fault),
    (s.ranges[s.rangeOf f.sector].state == .locked ||
      (s.ranges[s.rangeOf f.sector].state == .openRO && f.kind == .store), .locked),
    (!(s.ranges[s.rangeOf f.sector].binding.any fun k => s.slots[k].isLoaded && s.slots[k].generation != 0), .fault) ]

theorem captureRuling_answer (f : HeaderFields) (w : WindowNo) (i : RangeNo) (d : Bool) (s : State) :
    (s.captureRuling f w i d).answer =
      tableAnswer [(!(s.ranges[i].binding.any fun k => s.slots[k].isLoaded && s.slots[k].generation != 0), .fault)] := by
  unfold State.captureRuling
  cases s.ranges[i].binding with
  | none => rfl
  | some k =>
    dsimp only
    by_cases hk : s.slots[k].isLoaded = true ∧ s.slots[k].generation ≠ 0
    · rw [if_pos hk, tableAnswer_pass (by simpa using hk)]
      rfl
    · rw [if_neg hk, tableAnswer_fail (by simpa [← Bool.not_eq_true, imp_iff_not_or] using hk)]
      rfl

theorem cipherRuling_answer (f : HeaderFields) (w : WindowNo) (d : Bool) (s : State) :
    (s.cipherRuling f w d).answer = tableAnswer (s.cipherChecks f) := by
  unfold State.cipherRuling State.cipherChecks
  refine answer_check (by simp) fun _ => answer_check (by simp) fun _ => answer_check (by simp) fun _ => ?_
  have hcapture := captureRuling_answer f w (s.rangeOf f.sector) d s
  cases hst : s.ranges[s.rangeOf f.sector].state with
  | faulted => rfl
  | locked => rfl
  | openRW => exact hcapture.trans ((tableAnswer_pass rfl).trans (tableAnswer_pass rfl)).symm
  | openRO =>
    cases f.kind with
    | fetch => exact hcapture.trans ((tableAnswer_pass rfl).trans (tableAnswer_pass rfl)).symm
    | store => rfl

/-- The checks of a request that no check 7 settles CIPHER. -/
theorem tableAnswer_not_cipher (l : List (Bool × Reply)) : tableAnswer (l.map fun p => (false && p.1, p.2)) = .admitted := by
  induction l with
  | nil => rfl
  | cons p l ih => exact (tableAnswer_pass rfl).trans ih

/-- Checks 4 to 7, and 8 to 12 of a request settled CIPHER, as the table writes them. -/
def State.windowChecks (f : HeaderFields) (w : Option Window) (s : State) : List (Bool × Reply) :=
  [ (w.all fun w => w.treatment == .block, .denied),
    (w.any fun w => !hasMover f.mover w.movers || !w.direction.admits f.kind, .denied),
    (w.any fun w => decide (w.last.toNat < f.addr.toNat + f.length - 1), .bound) ] ++
  (s.cipherChecks f).map fun p =>
    ((w.any fun w => w.treatment == .cipher && !(f.raw && hasMover f.mover w.relocation)) && p.1, p.2)

/-- The table is the three checks of chapter 5 and then those of windows and ranges. -/
theorem admissionTable_eq (h : Header) (s : State) :
    s.admissionTable h =
      [ (s.contain.device == .selfTest, .retry),
        (!headerParityGood h, .parity),
        (decide (32 ≤ s.contexts.length) || s.contexts.any (Context.claims (readHeader h).mover (readHeader h).tag), .retry) ] ++
      s.windowChecks (readHeader h) ((s.windowOf (readHeader h).addr).map fun i => s.decoder.windows[i]) := rfl

/-- A window found covers addresses (R20). -/
theorem windowOf_covers {a : UnitAddr} {i : WindowNo} {s : State} (h : s.windowOf a = some i) :
    s.decoder.windows[i].treatment.covers = true := by
  have := List.find?_some h
  simp only [Window.covers, Bool.and_eq_true] at this
  exact this.1.1

theorem windowRuling_answer (f : HeaderFields) (s : State) :
    (s.windowRuling f).answer = tableAnswer (s.windowChecks f ((s.windowOf f.addr).map fun i => s.decoder.windows[i])) := by
  unfold State.windowRuling
  cases hw : s.windowOf f.addr with
  | none => rfl
  | some i =>
    have hcov := windowOf_covers hw
    unfold State.windowChecks
    simp only [Option.map_some, Option.all_some, Option.any_some]
    generalize s.decoder.windows[i] = w at hcov ⊢
    refine answer_check (by simp) fun hblock => answer_check (by simp) fun _ => answer_check (by simp) fun _ => ?_
    have hcipher : w.treatment = .clear ∨ w.treatment = .cipher := by
      cases ht : w.treatment with
      | cipher => exact .inr rfl
      | clear => exact .inl rfl
      | block => exact absurd ht hblock
      | empty | faulted => rw [ht] at hcov; cases hcov
    rcases hcipher with ht | ht
    · rw [if_pos ht, ht]
      exact (tableAnswer_not_cipher _).symm
    · rw [if_neg (by rw [ht]; decide), ht]
      cases f.raw with
      | false => simpa using cipherRuling_answer f i false s
      | true =>
        cases hasMover f.mover w.relocation with
        | false => simpa using cipherRuling_answer f i true s
        | true => exact (tableAnswer_not_cipher _).symm

/-- A header's ruling gives the answer of the table (R74). -/
theorem ruling_answer (h : Header) (s : State) : (s.ruling h).answer = tableAnswer (s.admissionTable h) := by
  have hroom : (32 ≤ s.contexts.length ∨ s.lowestFree = none ∨
      s.contexts.any (Context.claims (readHeader h).mover (readHeader h).tag) = true) ↔
      (32 ≤ s.contexts.length ∨ s.contexts.any (Context.claims (readHeader h).mover (readHeader h).tag) = true) := by
    have := @lowestFree_ne_none s
    by_cases hlen : 32 ≤ s.contexts.length
    · simp [hlen]
    · simp [hlen, this (by omega)]
  rw [admissionTable_eq]
  unfold State.ruling
  refine answer_check (by simp) fun _ => answer_check (by simp) fun _ => answer_check ?_ fun _ => windowRuling_answer _ s
  rw [hroom]
  simp

/-! ## The header taken (R74, R77, R79) -/

@[simp] theorem refuseRequest_out (f : HeaderFields) (code : Reply) (s : State) :
    (s.refuseRequest f code).out.headerAnswer = some (HeaderAnswer.refuse code).driven := by
  unfold State.refuseRequest
  dsimp only
  repeat' split
  all_goals simp [State.answerHeader]

/-- A CIPHER admission changes ranges, contexts, cache, expander and intake (R39, R79, R121, R123). -/
theorem admitCipher_frame (n : CtxNo) (f : HeaderFields) (w : WindowNo) (cap : Capture) (s : State) :
    ∃ r c k x i, s.admitCipher n f w cap = { s with ranges := r, contexts := c, cache := k, expander := x, intake := i } := by
  have hr : ∃ r, s.restartIdle cap.range = { s with ranges := r } := by
    unfold State.restartIdle
    split
    · exact ⟨s.ranges, rfl⟩
    · exact ⟨_, rfl⟩
  obtain ⟨r, hr⟩ := hr
  unfold State.admitCipher
  rw [hr]
  dsimp only
  split
  · exact ⟨_, _, _, _, _, rfl⟩
  · exact ⟨_, _, _, _, _, rfl⟩

/-- An admission changes contexts, intake and the answer, and for CIPHER ranges, cache and expander. -/
theorem admitRequest_frame {n : CtxNo} {s : State} (hn : s.lowestFree = some n) (f : HeaderFields) (p : Passage) (w : WindowNo)
    (cap : Option Capture) :
    ∃ r c k x i, s.admitRequest f p w cap =
      { s.answerHeader .admitted with ranges := r, contexts := c, cache := k, expander := x, intake := i } := by
  unfold State.admitRequest
  rw [hn]
  cases cap with
  | none => exact ⟨_, _, _, _, _, rfl⟩
  | some cap =>
    obtain ⟨r, c, k, x, i, h⟩ := admitCipher_frame n f w cap (s.answerHeader .admitted)
    obtain ⟨k', x', h'⟩ := takeEligible_frame ((s.answerHeader .admitted).admitCipher n f w cap)
    exact ⟨r, c, k', x', i, by dsimp only; rw [h', h]⟩

/-- An admitting ruling leaves a number to take (R73). -/
theorem lowestFree_of_admitted {h : Header} {s : State} {p : Passage} {w : WindowNo} {cap : Option Capture} {d : Bool}
    (hr : s.ruling h = .admitted p w cap d) : ∃ n, s.lowestFree = some n :=
  Option.ne_none_iff_exists'.1 (lowestFree_ne_none (ruling_admits hr).1)

@[simp] theorem noteDegrade_contexts (d : Bool) (s : State) : (s.noteDegrade d).contexts = s.contexts := (noteDegrade_same d s).1

theorem lowestFree_congr {s t : State} (h : t.contexts = s.contexts) : t.lowestFree = s.lowestFree := by
  simp [State.lowestFree, h]

/-- A header taken is answered by its ruling (R74). -/
theorem execRequestHeader_answers {h : Header} {s : State} (hi : s.intake = .header) :
    ∃ t, execRequestHeader h s = .next t ∧ t.out.headerAnswer = some (s.ruling h).answer.driven := by
  unfold execRequestHeader
  rw [if_pos hi]
  cases hr : s.ruling h with
  | refuse code d => exact ⟨_, rfl, refuseRequest_out _ _ _⟩
  | admitted p w cap d =>
    obtain ⟨n, hn⟩ := lowestFree_of_admitted hr
    obtain ⟨r, c, k, x, i, ht⟩ := admitRequest_frame (s := s.start.noteDegrade d)
      ((lowestFree_congr (s := s) (by simp)).trans hn) (readHeader h) p w cap
    exact ⟨_, rfl, by rw [ht]; rfl⟩

/-! ## A degraded request (R27) -/

/-- A request that passes checks 1 to 6 is settled by its window's treatment and its raw attribute (R25 to R28). -/
theorem ruling_of_passesWindow {h : Header} {i : WindowNo} {s : State} (hp : s.passesWindow h i) :
    s.ruling h =
      if s.decoder.windows[i].treatment = .clear then .admitted .clear i none false
      else if (readHeader h).raw then
        (if hasMover (readHeader h).mover s.decoder.windows[i].relocation then .admitted .raw i none false
        else s.cipherRuling (readHeader h) i true)
      else s.cipherRuling (readHeader h) i false := by
  obtain ⟨hd, hpar, hlen, hclaim, hw, hblock, hmover, hdir, hlast⟩ := hp
  have hroom : ¬ (32 ≤ s.contexts.length ∨ s.lowestFree = none ∨
      s.contexts.any (Context.claims (readHeader h).mover (readHeader h).tag) = true) := by
    simp [hclaim, lowestFree_ne_none hlen, hlen]
  unfold State.ruling State.windowRuling
  rw [if_neg hd, if_neg (by simp [hpar]), if_neg hroom, hw]
  dsimp only
  rw [if_neg hblock, if_neg (not_or.2 ⟨by rw [hmover]; decide, by rw [hdir]; decide⟩), if_neg (by omega)]

/-- Checks 8 to 12 never refuse PARITY; what they admit is CIPHER with a capture. Either way the degrade stays noted. -/
theorem cipherRuling_cases (f : HeaderFields) (w : WindowNo) (d : Bool) (s : State) :
    (∃ code, code ≠ .parity ∧ s.cipherRuling f w d = .refuse code d) ∨
      ∃ cap, s.cipherRuling f w d = .admitted .cipher w (some cap) d := by
  have hcapture : ∀ i, (∃ code, code ≠ .parity ∧ s.captureRuling f w i d = .refuse code d) ∨
      ∃ cap, s.captureRuling f w i d = .admitted .cipher w (some cap) d := fun i => by
    unfold State.captureRuling
    split
    · split
      · exact .inr ⟨_, rfl⟩
      · exact .inl ⟨.fault, by decide, rfl⟩
    · exact .inl ⟨.fault, by decide, rfl⟩
  unfold State.cipherRuling
  split
  · exact .inl ⟨.fault, by decide, rfl⟩
  · split
    · exact .inl ⟨.noTag, by decide, rfl⟩
    · split
      · exact .inl ⟨.bound, by decide, rfl⟩
      · split
        · exact .inl ⟨.fault, by decide, rfl⟩
        · exact .inl ⟨.locked, by decide, rfl⟩
        · exact .inl ⟨.locked, by decide, rfl⟩
        · exact hcapture _
        · exact hcapture _

/-- A refusal other than PARITY counts nothing and raises nothing (R75, R77). -/
theorem refuseRequest_counts {code : Reply} (hc : code ≠ .parity) (f : HeaderFields) (s : State) :
    (s.refuseRequest f code).tallies = s.tallies ∧ (s.refuseRequest f code).events = s.events := by
  unfold State.refuseRequest
  cases f.kind <;> simp [hc]

/-- A header that checks 8 to 12 settle leaves tallies and events as the note of the degrade does. -/
theorem execRequestHeader_counts {h : Header} {w : WindowNo} {d : Bool} {s : State} (hi : s.intake = .header)
    (hr : s.ruling h = s.cipherRuling (readHeader h) w d) :
    ∃ t, execRequestHeader h s = .next t ∧ t.tallies = (s.noteDegrade d).tallies ∧ t.events = (s.noteDegrade d).events := by
  have hnote : (s.start.noteDegrade d).tallies = (s.noteDegrade d).tallies ∧
      (s.start.noteDegrade d).events = (s.noteDegrade d).events := by cases d <;> exact ⟨rfl, rfl⟩
  unfold execRequestHeader
  rw [if_pos hi]
  rcases cipherRuling_cases (readHeader h) w d s with ⟨code, hc, he⟩ | ⟨cap, he⟩ <;> rw [he] at hr <;> rw [hr]
  · obtain ⟨h1, h2⟩ := refuseRequest_counts hc (readHeader h) (s.start.noteDegrade d)
    exact ⟨_, rfl, h1.trans hnote.1, h2.trans hnote.2⟩
  · obtain ⟨n, hn⟩ := lowestFree_of_admitted hr
    obtain ⟨r, c, k, x, i, ht⟩ := admitRequest_frame (s := s.start.noteDegrade d)
      ((lowestFree_congr (s := s) (by simp)).trans hn) (readHeader h) .cipher w (some cap)
    exact ⟨_, rfl, by rw [ht]; exact hnote.1, by rw [ht]; exact hnote.2⟩

/-- Settles O12: the ruling goes check by check as the table does, and only the note of a degrade counts. -/
theorem headerAnsweredByFirstFailingCheck : Obligations.header_answered_by_first_failing_check := by
  unfold Obligations.header_answered_by_first_failing_check
  refine fun h s => ⟨fun hi => ?_, fun i hi hp ht hraw hmover => ?_, fun hi => if_neg hi⟩
  · rw [← ruling_answer]
    exact execRequestHeader_answers hi
  · have hr : s.ruling h = s.cipherRuling (readHeader h) i true := by
      rw [ruling_of_passesWindow hp, if_neg (by rw [ht]; decide), if_pos hraw, if_neg (by rw [hmover]; decide)]
    exact execRequestHeader_counts hi hr

/-! ## CLEAR and RAW (R25, R26, R79) -/

/-- An admission with no capture, under the lowest number not in use (R73, R79). -/
theorem admitRequest_plain {n : CtxNo} {s : State} (hn : s.isLowestFree n) (f : HeaderFields) (p : Passage) (w : WindowNo) :
    s.admitRequest f p w none = (s.answerHeader .admitted).admitPlain n f p w := by
  unfold State.admitRequest
  rw [lowestFree_eq_some_iff.2 hn]

/-- Settles O14: the window's treatment settles the passage, and the context is created. -/
theorem plainRequestIsAdmitted : Obligations.plain_request_is_admitted := by
  unfold Obligations.plain_request_is_admitted
  intro h i n s hi hp hn hplain
  have hr : s.ruling h =
      .admitted (if s.decoder.windows[i].treatment = .clear then .clear else .raw) i none false := by
    rw [ruling_of_passesWindow hp]
    rcases hplain with ht | ⟨ht, hraw, hmover⟩
    · rw [if_pos ht, if_pos ht]
    · have hclear : s.decoder.windows[i].treatment ≠ .clear := by rw [ht]; decide
      rw [if_neg hclear, if_neg hclear, if_pos hraw, if_pos hmover]
  have hexec : exec (.requestHeader h) s = .next (s.start.admitRequest (readHeader h)
      (if s.decoder.windows[i].treatment = .clear then .clear else .raw) i none) := by
    change execRequestHeader h s = _
    unfold execRequestHeader
    rw [if_pos hi, hr]
    rfl
  rw [hexec, admitRequest_plain (s := s.start) hn]
  unfold State.admitPlain State.addContext
  cases hk : (readHeader h).kind <;> simp [newContext, hk, intakeAfter]

end Sys2Proof.Machine
end

