-- ==== Sys2Proof/Proofs/CipherAdmission.lean ====
section
/-! SUPPORT. A CIPHER request admitted: the capture, the hit, and the miss in its cases (R27, R39, R79, R80, R121 to R126). -/

namespace Sys2Proof.Machine

/-! ## Look-ups in the cache and in the queue (R121, R123, R124) -/

/-- The entry of a pair stands in the way that the look-up finds. -/
theorem find_of_entryOf {k : SlotNo} {g : Generation} {e : Entry} {s : State} (h : s.entryOf k g = some e) :
    ∃ w, s.cache[setOf k g].find k g = some w ∧ s.way (setOf k g) w = some e := by
  unfold State.entryOf at h
  split at h
  · next w hw => exact ⟨w, hw, h⟩
  · cases h

theorem find_of_entryOf_none {k : SlotNo} {g : Generation} {s : State} (h : s.entryOf k g = none) :
    s.cache[setOf k g].find k g = none := find_none_iff.2 (entryOf_none_iff.1 h)

/-- Nothing stands to be taken where the expander is busy, or every queued pair's set is fully pinned (R124). -/
theorem settled_iff {s : State} :
    s.settled ↔ s.expander.current.isSome = true ∨ ∀ r ∈ s.expander.queue, s.fullyPinned (setOf r.slot r.generation) := by
  simp only [State.settled, State.oldestEligible, List.find?_eq_none, eligible_iff, not_not]

theorem fullyPinned_congr {s t : State} (h : t.cache = s.cache) (i : Fin 4) : t.fullyPinned i ↔ s.fullyPinned i := by
  simp only [State.fullyPinned, way_congr h]

/-- A set with a victim way is not fully pinned (R125). -/
theorem not_fullyPinned_of_victimWay {i : Fin 4} {w : Way} {s : State} (h : s.victimWay i w) : ¬ s.fullyPinned i := by
  rw [fullyPinned_iff, victim_of_victimWay h]
  simp

theorem victimWay_congr {s t : State} (h : t.cache = s.cache) (i : Fin 4) (w : Way) : t.victimWay i w ↔ s.victimWay i w := by
  simp only [State.victimWay, way_congr h, h]

/-- A pin changes the entry of its way and the recency mark (R121). -/
theorem entry_pin (c : CacheSet) (w v : Way) :
    (c.pin w).entry v = if v = w then (c.entry w).map fun e => { e with pins := e.pins + 1 } else c.entry v := by
  rw [← CacheSet.entry_put]
  cases v <;> rfl

/-- What a hit leaves of the cache: its entry pinned once more and its way the most recent, the rest as it was (R121). -/
theorem pin_result {j : Fin 4} {w : Way} {e : Entry} {s t : State} (ht : t.cache = s.cache.set j (s.cache[j].pin w))
    (he : s.way j w = some e) :
    t.way j w = some { e with pins := e.pins + 1 } ∧ (∀ v, v ≠ w → t.way j v = s.way j v) ∧ t.cache[j].recent = w ∧
      ∀ k : Fin 4, k ≠ j → t.cache[k] = s.cache[k] := by
  have he' : s.cache[j].entry w = some e := he
  have hset : t.cache[j] = s.cache[j].pin w := by rw [ht, getElem_set_fin, if_pos rfl]
  unfold State.way
  rw [hset]
  refine ⟨?_, fun v hv => ?_, rfl, fun k hk => ?_⟩
  · rw [entry_pin, if_pos rfl, he']
    rfl
  · rw [entry_pin, if_neg hv]
  · rw [ht, getElem_set_fin, if_neg (Ne.symm hk)]

/-- A pin more leaves a fully pinned set fully pinned. -/
theorem fullyPinned_pin {i j : Fin 4} {w : Way} {e : Entry} {s t : State} (ht : t.cache = s.cache.set i (s.cache[i].pin w))
    (he : s.way i w = some e) (h : s.fullyPinned j) : t.fullyPinned j := by
  obtain ⟨hpin, hway, -, hset⟩ := pin_result ht he
  intro v
  by_cases hj : j = i
  · subst hj
    by_cases hv : v = w
    · subst hv
      exact ⟨_, hpin, Nat.succ_ne_zero _⟩
    · rw [hway v hv]
      exact h v
  · unfold State.way
    rw [hset j hj]
    exact h v

/-- The queue with a context that has missed: it joins the request of its pair, or a new one at the tail (R123). -/
def Expander.queuedWith (n : CtxNo) (k : SlotNo) (g : Generation) (x : Expander) : List Request :=
  if x.queue.any (fun r => r.slot == k && r.generation == g) then
    x.queue.map fun r => if r.slot = k ∧ r.generation = g then { r with attached := r.attached ++ [n] } else r
  else x.queue ++ [{ slot := k, generation := g, attached := [n] }]

/-- A context that cannot join the expansion in progress joins the queue (R123, R126). -/
theorem attach_queued {n : CtxNo} {k : SlotNo} {g : Generation} {x : Expander}
    (h : ∀ e, x.current = some e → ¬ (e.slot = k ∧ e.generation = g ∧ e.void = false)) :
    x.attach n k g = { x with queue := x.queuedWith n k g } := by
  unfold Expander.queuedWith
  rcases attach_cases n k g x with ⟨e, he, h1, h2, h3, -⟩ | ⟨-, hr, ha⟩ | ⟨-, hr, ha⟩
  · exact absurd ⟨h1, h2, h3⟩ (h e he)
  · rw [ha, if_pos (by simpa using hr)]
    rfl
  · rw [ha, if_neg (by simpa using hr)]

/-- A context of the expansion's pair joins it, unless it is void (R123, R126). -/
theorem attach_joins {n : CtxNo} {x : Expander} {e : Expansion} (he : x.current = some e) (hv : e.void = false) :
    x.attach n e.slot e.generation = { x with current := some { e with attached := e.attached ++ [n] } } := by
  simp [Expander.attach, he, hv]

/-- Every request of the queue with a context more is of its pair, or of a pair that was queued. -/
theorem queuedWith_pairs {n : CtxNo} {k : SlotNo} {g : Generation} {x : Expander} {r : Request} (hr : r ∈ x.queuedWith n k g) :
    (r.slot = k ∧ r.generation = g) ∨ ∃ q ∈ x.queue, r.slot = q.slot ∧ r.generation = q.generation := by
  unfold Expander.queuedWith at hr
  split at hr
  · obtain ⟨q, hq, rfl⟩ := List.mem_map.1 hr
    exact .inr ⟨q, hq, by split <;> exact ⟨rfl, rfl⟩⟩
  · rcases List.mem_append.1 hr with hr | hr
    · exact .inr ⟨r, hr, rfl, rfl⟩
    · obtain rfl := List.mem_singleton.1 hr
      exact .inl ⟨rfl, rfl⟩

/-! ## The idle timer (R39, R148) -/

theorem restartIdle_range (i : RangeNo) (s : State) :
    (s.restartIdle i).ranges[i] = { s.ranges[i] with
      idleRemaining := if s.ranges[i].idleInterval = 0 then s.ranges[i].idleRemaining else some s.ranges[i].idleInterval } := by
  unfold State.restartIdle
  split
  · rfl
  · exact (getElem_set_fin _ i i _).trans (if_pos rfl)

theorem restartIdle_range_other {i j : RangeNo} (h : j ≠ i) (s : State) : (s.restartIdle i).ranges[j] = s.ranges[j] := by
  unfold State.restartIdle
  split
  · rfl
  · exact (getElem_set_fin _ i j _).trans (if_neg (Ne.symm h))

/-! ## The context created (R80, R121, R123) -/

section
variable {n : CtxNo} {f : HeaderFields} {i : WindowNo} {cap : Capture} {s : State}

/-- On a hit the entry is pinned once more, the context streams, and nothing more stands to be taken (R80, R121, R124). -/
theorem admitCipher_hit {e : Entry} (he : s.entryOf cap.slot cap.generation = some e) (hs : s.settled) :
    ∃ w, s.way (setOf cap.slot cap.generation) w = some e ∧
      (s.admitCipher n f i cap).takeEligible = ({ s.restartIdle cap.range with
        cache := s.cache.set (setOf cap.slot cap.generation) (s.cache[setOf cap.slot cap.generation].pin w) }).addContext
          (newContext n f .cipher i (some cap) .stream) := by
  obtain ⟨w, hw, hway⟩ := find_of_entryOf he
  obtain ⟨-, -, -, hc, hx⟩ := restartIdle_same cap.range s
  have hadmit : s.admitCipher n f i cap = ({ s.restartIdle cap.range with
      cache := s.cache.set (setOf cap.slot cap.generation) (s.cache[setOf cap.slot cap.generation].pin w) }).addContext
        (newContext n f .cipher i (some cap) .stream) := by
    unfold State.admitCipher
    simp only [hc, hw]
    simp only [State.putSet, hc]
  refine ⟨w, hway, ?_⟩
  rw [hadmit]
  refine takeEligible_of_settled (settled_iff.2 ((settled_iff.1 hs).imp (fun h => ?_) fun h r hr => ?_))
  · rw [← hx] at h
    exact h
  · rw [← hx] at h
    exact fullyPinned_pin rfl hway (h r hr)

/-- On a miss the context waits, attached (R80, R123). -/
theorem admitCipher_miss (he : s.entryOf cap.slot cap.generation = none) :
    s.admitCipher n f i cap = { s.restartIdle cap.range with
      expander := s.expander.attach n cap.slot cap.generation }.addContext
        (newContext n f .cipher i (some cap) .waitKey) := by
  obtain ⟨-, -, -, hc, hx⟩ := restartIdle_same cap.range s
  unfold State.admitCipher
  simp only [hc, hx, find_of_entryOf_none he]

/-! ## The miss (R123 to R126) -/

theorem admitCipher_miss_context (he : s.entryOf cap.slot cap.generation = none) :
    ((s.admitCipher n f i cap).takeEligible).contexts = s.contexts ++ [newContext n f .cipher i (some cap) .waitKey] ∧
    ((s.admitCipher n f i cap).takeEligible).intake = intakeAfter f.kind n .waitKey := by
  obtain ⟨hctx, -⟩ := restartIdle_same cap.range s
  rw [admitCipher_miss he]
  exact ⟨by simp [hctx], by simp [newContext]⟩

/-- After a miss the cache stands, and what the queue and the expansion are is what attaching makes of them. -/
theorem admitCipher_miss_cache (he : s.entryOf cap.slot cap.generation = none) :
    (s.admitCipher n f i cap).cache = s.cache ∧
      (s.admitCipher n f i cap).expander = s.expander.attach n cap.slot cap.generation ∧
      (s.admitCipher n f i cap).slots = s.slots := by
  obtain ⟨-, -, hk, hc, -⟩ := restartIdle_same cap.range s
  rw [admitCipher_miss he]
  exact ⟨hc, rfl, hk⟩

/-- Where nothing can be taken after a miss, the cache stands and the context is attached. -/
theorem admitCipher_miss_waits (he : s.entryOf cap.slot cap.generation = none) {x : Expander}
    (hx : s.expander.attach n cap.slot cap.generation = x)
    (hs : x.current.isSome = true ∨ ∀ r ∈ x.queue, s.fullyPinned (setOf r.slot r.generation)) :
    ((s.admitCipher n f i cap).takeEligible).cache = s.cache ∧ ((s.admitCipher n f i cap).takeEligible).expander = x := by
  obtain ⟨h1, h2, -⟩ := admitCipher_miss_cache (n := n) (f := f) (i := i) he
  rw [takeEligible_of_settled]
  · exact ⟨h1, h2.trans hx⟩
  · rw [settled_iff, h2, hx]
    exact hs.imp id fun h r hr => (fullyPinned_congr h1 _).2 (h r hr)

/-- The request of a miss is queued: the expander is busy with another pair or a void expansion, or the set is fully pinned. -/
theorem admitCipher_miss_queued (he : s.entryOf cap.slot cap.generation = none) (hs : s.settled)
    (h : (∃ x, s.expander.current = some x ∧ ¬ (x.slot = cap.slot ∧ x.generation = cap.generation ∧ x.void = false)) ∨
      (s.expander.current = none ∧ s.fullyPinned (setOf cap.slot cap.generation))) :
    ((s.admitCipher n f i cap).takeEligible).cache = s.cache ∧
      ((s.admitCipher n f i cap).takeEligible).expander =
        { s.expander with queue := s.expander.queuedWith n cap.slot cap.generation } := by
  rcases h with ⟨x, hx, hne⟩ | ⟨hx, hp⟩
  · refine admitCipher_miss_waits he (attach_queued fun e hc => ?_) (.inl (by simp [hx]))
    cases hx.symm.trans hc
    exact hne
  · refine admitCipher_miss_waits he (attach_queued fun e hc => by rw [hx] at hc; cases hc) (.inr fun r hr => ?_)
    have hqueue : ∀ q ∈ s.expander.queue, s.fullyPinned (setOf q.slot q.generation) :=
      (settled_iff.1 hs).resolve_left (by simp [hx])
    rcases queuedWith_pairs hr with ⟨h1, h2⟩ | ⟨q, hq, h1, h2⟩ <;> rw [h1, h2]
    · exact hp
    · exact hqueue q hq

/-- The idle expander takes the request of a miss whose set has an unpinned way, in the same action (R124, R125). -/
theorem admitCipher_miss_starts (he : s.entryOf cap.slot cap.generation = none) (hs : s.settled) {w : Way} {keys : KeyPair}
    (hx : s.expander.current = none) (hw : s.victimWay (setOf cap.slot cap.generation) w)
    (hb : s.slots[cap.slot].body = .loaded keys) :
    s.expansionStarted { slot := cap.slot, generation := cap.generation, attached := [n] } w keys s.expander.queue
      (s.admitCipher n f i cap).takeEligible := by
  obtain ⟨h1, h2, h3⟩ := admitCipher_miss_cache (n := n) (f := f) (i := i) he
  have hqueue : ∀ q ∈ s.expander.queue, s.fullyPinned (setOf q.slot q.generation) :=
    (settled_iff.1 hs).resolve_left (by simp [hx])
  have hnone : ∀ q ∈ s.expander.queue, ¬ (q.slot = cap.slot ∧ q.generation = cap.generation) := fun q hq hpair =>
    not_fullyPinned_of_victimWay hw (by rw [← hpair.1, ← hpair.2]; exact hqueue q hq)
  have hattach : s.expander.attach n cap.slot cap.generation =
      { queue := s.expander.queue ++ [{ slot := cap.slot, generation := cap.generation, attached := [n] }], current := none } := by
    rw [attach_queued fun e hc => by rw [hx] at hc; cases hc]
    unfold Expander.queuedWith
    rw [if_neg (by simpa using hnone), hx]
  have hstart := ((takeEligible_took (s.admitCipher n f i cap)).2 s.expander.queue [] _ w (h2.trans hattach)
    (fun q hq => (fullyPinned_congr h1 _).2 (hqueue q hq)) ((victimWay_congr h1 _ w).2 hw)).1 keys (by rw [h3]; exact hb)
  rw [List.append_nil] at hstart
  simpa only [State.expansionStarted, way_congr h1, h1] using hstart

end

/-! ## The ruling and the note of a degrade (R27, R38, R39) -/

/-- Checks 8 to 12 passed, the request captures (R39). -/
theorem cipherRuling_passes {h : Header} {cap : Capture} {s : State} (hp : s.passesCipher h cap) (w : WindowNo) (d : Bool) :
    s.cipherRuling (readHeader h) w d = .admitted .cipher w (some cap) d := by
  obtain ⟨hd, htag, hlimit, hlen, hrange, hsector, hoffset, hopen, hbind, hload, hgen, hne⟩ := hp
  have hcapture : s.captureRuling (readHeader h) w (s.rangeOf (readHeader h).sector) d = .admitted .cipher w (some cap) d := by
    rw [← hrange]
    unfold State.captureRuling
    rw [hbind]
    dsimp only
    rw [if_pos ⟨hload, hgen ▸ hne⟩, ← hsector, ← hoffset, hgen]
  unfold State.cipherRuling
  rw [if_neg (not_not.2 hd), if_neg (by rw [htag]; decide), if_neg (by omega)]
  simp only [hrange] at hopen
  rcases hopen with ho | ⟨ho, hk⟩
  · rw [ho]
    exact hcapture
  · rw [ho, hk]
    exact hcapture

/-- The state in which a request is admitted: a degrade counted and raised, ADMIT answered (R27, R79). -/
def State.admitting (degraded : Bool) (s : State) : State :=
  { s with
    tallies := { s.tallies with rawIgnored := if degraded = true then countUp s.tallies.rawIgnored else s.tallies.rawIgnored }
    events := if degraded = true then .follow (s.pendingWith .rawIgnored) s.events.enables else s.events
    out := { Outputs.quiet with headerAnswer := some (HeaderAnswer.driven .admitted) } }

theorem answerHeader_noteDegrade (d : Bool) (s : State) : (s.start.noteDegrade d).answerHeader .admitted = s.admitting d := by
  cases d <;> rfl

/-- A CIPHER request that passes its checks is admitted under the lowest number not in use (R73, R79). -/
theorem execRequestHeader_cipher {h : Header} {i : WindowNo} {n : CtxNo} {cap : Capture} {s : State} (hi : s.intake = .header)
    (hp : s.passesWindow h i) (hn : s.isLowestFree n) (ht : s.decoder.windows[i].treatment = .cipher)
    (hraw : (readHeader h).raw = false ∨ hasMover (readHeader h).mover s.decoder.windows[i].relocation = false)
    (hc : s.passesCipher h cap) :
    execRequestHeader h s =
      .next ((s.admitting (readHeader h).raw).admitCipher n (readHeader h) i cap).takeEligible := by
  have hr : s.ruling h = .admitted .cipher i (some cap) (readHeader h).raw := by
    rw [ruling_of_passesWindow hp, if_neg (by rw [ht]; decide)]
    cases hb : (readHeader h).raw with
    | false => exact cipherRuling_passes hc i false
    | true =>
      rw [if_pos rfl, if_neg (by rw [hraw.resolve_left (by rw [hb]; decide)]; decide)]
      exact cipherRuling_passes hc i true
  have hfree : (s.start.noteDegrade (readHeader h).raw).lowestFree = some n :=
    (lowestFree_congr (s := s) (by simp)).trans (lowestFree_eq_some_iff.2 hn)
  unfold execRequestHeader
  rw [if_pos hi, hr]
  dsimp only
  unfold State.admitRequest
  rw [hfree]
  dsimp only
  rw [answerHeader_noteDegrade]

/-- What a CIPHER admission with its take may change. -/
theorem admitCipher_taken_frame (n : CtxNo) (f : HeaderFields) (w : WindowNo) (cap : Capture) (s : State) :
    ∃ c k x i, (s.admitCipher n f w cap).takeEligible =
      { s with ranges := (s.restartIdle cap.range).ranges, contexts := c, cache := k, expander := x, intake := i } := by
  obtain ⟨r, c, k, x, i, h⟩ := admitCipher_frame n f w cap s
  obtain ⟨k', x', h'⟩ := takeEligible_frame (s.admitCipher n f w cap)
  have hr := admitCipher_ranges n f w cap s
  rw [h] at hr h'
  rw [h, h', ← hr]
  exact ⟨c, k', x', i, rfl⟩

/-- Settles O15: the hit, and the miss that joins the expansion, waits in the queue, or starts its expansion. -/
theorem cipherRequestIsAdmitted : Obligations.cipher_request_is_admitted := by
  unfold Obligations.cipher_request_is_admitted
  intro h i n cap s hi hp hn ht hraw hc hs
  have hexec : exec (.requestHeader h) s = _ := execRequestHeader_cipher hi hp hn ht hraw hc
  obtain ⟨c, k, x, i', hframe⟩ := admitCipher_taken_frame n (readHeader h) i cap (s.admitting (readHeader h).raw)
  have hs' : (s.admitting (readHeader h).raw).settled := hs
  rw [hexec]
  refine ⟨_, rfl, by rw [hframe]; rfl, by rw [hframe]; rfl, by rw [hframe]; rfl, ?_, fun j hj => ?_, fun e he => ?_,
    fun he => ?_, fun x he hx h1 h2 hv => ?_, fun he hx => ?_, fun w keys he hx hw hb => ?_, ?_⟩
  · rw [hframe]
    exact restartIdle_range cap.range (s.admitting (readHeader h).raw)
  · rw [hframe]
    exact restartIdle_range_other hj (s.admitting (readHeader h).raw)
  · obtain ⟨w, hw, ht⟩ := admitCipher_hit (n := n) (f := readHeader h) (i := i) (s := s.admitting (readHeader h).raw) he hs'
    obtain ⟨hctx, -, -, -, hx⟩ := restartIdle_same cap.range (s.admitting (readHeader h).raw)
    rw [ht]
    obtain ⟨hpin, hways, hrecent, hsets⟩ := pin_result (s := s) (j := setOf cap.slot cap.generation) (w := w)
      (t := ({ (s.admitting (readHeader h).raw).restartIdle cap.range with
        cache := s.cache.set (setOf cap.slot cap.generation) (s.cache[setOf cap.slot cap.generation].pin w) }).addContext
          (newContext n (readHeader h) .cipher i (some cap) .stream)) rfl hw
    refine ⟨congrArg (· ++ _) hctx, ⟨w, hw, hpin, hways, hrecent⟩, hsets, hx, ?_⟩
    cases hk : (readHeader h).kind <;> simp [newContext, hk, intakeAfter]
  · obtain ⟨hctx, hint⟩ := admitCipher_miss_context (n := n) (f := readHeader h) (i := i) (s := s.admitting (readHeader h).raw) he
    refine ⟨hctx, hint.trans ?_⟩
    cases (readHeader h).kind <;> rfl
  · refine admitCipher_miss_waits (s := s.admitting (readHeader h).raw) he ?_ (.inl rfl)
    rw [← h1, ← h2]
    exact attach_joins hx hv
  · exact admitCipher_miss_queued (s := s.admitting (readHeader h).raw) he hs' hx
  · exact admitCipher_miss_starts (s := s.admitting (readHeader h).raw) he hs' hx hw hb
  · rw [hframe]
    rfl

end Sys2Proof.Machine
end

