-- ==== Sys2Proof/Proofs/MonitorVisits.lean ====
section
/-! SUPPORT. The monitor's visits to windows and ranges (R32, R46, R162, R163, R167, R168). -/

namespace Sys2Proof.Machine

/-! ## A visit (R167) -/

/-- The cursor goes on by one, from 55 back to 0 (R167). -/
theorem nextCursor_eq (c : Fin 56) : nextCursor c = c + 1 := by revert c; decide

/-- The visit noted: the cursor has gone on, and the tick has had its visit (R167). -/
def State.visitNoted (c : Fin 56) (s : State) : State :=
  { s with contain := { s.contain with cursor := c + 1 }, marks := { s.marks with visited := true } }

/-- Noting a visit leaves nothing more to take than before. -/
theorem visitNoted_settled {c : Fin 56} {s : State} (h : s.settled) : (s.visitNoted c).settled := h

section
variable {s : State}

/-- TABLE_MONITOR_VISIT makes the visit that is due (R167). -/
theorem execTableMonitorVisit_due (hd : s.contain.device ≠ .selfTest) (hv : s.marks.visited = false) :
    execTableMonitorVisit s =
      .next ((s.start.visit s.contain.cursor).visitNoted s.contain.cursor).takeEligible := by
  have hdue : s.visitDue = true := visitDue_iff.2 ⟨hd, hv⟩
  have hdue' : s.start.visitDue = true := hdue
  unfold execTableMonitorVisit State.monitorTick
  rw [if_pos hdue, if_pos hdue']
  dsimp only
  rw [nextCursor_eq]
  rfl

/-- Where no visit is due the row is untaken (R167). -/
theorem execTableMonitorVisit_untaken (h : s.contain.device = .selfTest ∨ s.marks.visited = true) :
    execTableMonitorVisit s = .next s.untaken := by
  refine if_neg fun hdue => ?_
  obtain ⟨hd, hv⟩ := visitDue_iff.1 hdue
  rcases h with h | h
  · exact hd h
  · rw [hv] at h; cases h

/-- A visit that finds a match changes nothing (R168). -/
theorem visit_undisturbed (h : s.undisturbed) (c : Fin 56) : s.visit c = s := by
  obtain ⟨hw, hr, hk⟩ := h
  unfold State.visit
  split
  · exact if_pos (hw _)
  · split
    · exact if_neg (by rw [hr]; decide)
    · exact if_neg (by rw [hk]; decide)

theorem visit_window {c : Fin 56} {i : WindowNo} (hc : c.val = i.val)
    (h : s.decoder.windows[i].check ≠ Config.windowCheck (s.decoder.windows[i].fields i)) : s.visit c = s.windowMismatch i := by
  have hlt : c.val < 8 := hc ▸ i.isLt
  have hi : (⟨c.val, hlt⟩ : WindowNo) = i := Fin.ext hc
  subst hi
  unfold State.visit
  rw [dif_pos hlt]
  exact if_neg h

theorem visit_range {c : Fin 56} {i : RangeNo} (hc : c.val = 8 + i.val)
    (h : s.ranges[i].check ≠ Config.rangeCheck (s.ranges[i].fields i)) : s.visit c = s.rangeMismatch i := by
  have hge : ¬ c.val < 8 := by omega
  have hlt : c.val < 24 := by omega
  have hlt' : c.val - 8 < 16 := by omega
  have hi : (⟨c.val - 8, hlt'⟩ : RangeNo) = i := Fin.ext (Nat.sub_eq_of_eq_add' hc)
  subst hi
  unfold State.visit
  rw [dif_neg hge, dif_pos hlt]
  exact if_pos (by rw [← Bool.not_eq_false, Range.disturbed_eq_false_iff]; exact h)

/-! ## A mismatch (R32, R46, R162, R163) -/

/-- The window marked FAULTED and reported, before the device reacts (R32). -/
def State.windowFaulted (i : WindowNo) (s : State) : State :=
  (s.reportMismatch .window i.val).writeWindow i { s.decoder.windows[i] with treatment := .faulted }

/-- The device reacts under the freeze flag alone (R32, R162, R163). -/
theorem windowMismatch_thawed (i : WindowNo) (hf : s.decoder.frozen = false) : s.windowMismatch i = s.windowFaulted i :=
  if_neg (show ¬ s.decoder.frozen = true by rw [hf]; decide)

theorem windowMismatch_again (i : WindowNo) (hf : s.decoder.frozen = true) (hd : s.contain.device = .contained) :
    s.windowMismatch i = (s.windowFaulted i).restartDwell :=
  (if_pos (show s.decoder.frozen = true from hf)).trans (if_pos (show s.contain.device = .contained from hd))

theorem windowMismatch_contains (i : WindowNo) (hf : s.decoder.frozen = true) (hd : s.contain.device ≠ .contained) :
    s.windowMismatch i = (s.windowFaulted i).enterContained :=
  (if_pos (show s.decoder.frozen = true from hf)).trans (if_neg (show ¬ s.contain.device = .contained from hd))

/-- What the statement says of decoder, containment unit, log and events after a window's mismatch (R32, R162, R163, R168). -/
structure State.FaultsWindow (i : WindowNo) (s t : State) : Prop where
  decoder : t.decoder = { s.decoder with
    windows := s.decoder.windows.set i (Window.sealed i { s.decoder.windows[i] with treatment := .faulted }) }
  contain : t.contain =
    if s.decoder.frozen = true then { s.contain with device := .contained, dwell := some 50 } else s.contain
  faults : t.faults = s.faults.add
    { kind := .tableCheck, device := s.contain.device, ctx := none, sector := none,
      entry := some { table := .window, index := i.val }, test := none }
  events : t.events = .follow
    (if s.decoder.frozen = true then s.pendingWith .tableFault ||| Event.contained.bit else s.pendingWith .tableFault)
    s.events.enables

theorem windowMismatch_faults (i : WindowNo) (s : State) : s.FaultsWindow i (s.windowMismatch i) := by
  by_cases hf : s.decoder.frozen = true
  · by_cases hd : s.contain.device = .contained
    · rw [windowMismatch_again i hf hd]
      refine ⟨rfl, ?_, rfl, ?_⟩
      · rw [if_pos hf, ← hd]
        rfl
      · rw [if_pos hf]
        rfl
    · rw [windowMismatch_contains i hf hd]
      obtain ⟨hcon, hfaults, hdec, -, -, -, -, -, -, -, hev⟩ := enterContained_frame (s.windowFaulted i)
      refine ⟨hdec, ?_, hfaults, ?_⟩
      · rw [if_pos hf]
        exact hcon
      · rw [if_pos hf]
        exact hev
  · rw [windowMismatch_thawed i (Bool.eq_false_iff.2 hf)]
    refine ⟨rfl, ?_, rfl, ?_⟩
    · rw [if_neg hf]
      rfl
    · rw [if_neg hf]
      rfl

/-- Without entry to CONTAINED a window's mismatch changes the decoder, the containment unit, the log and the events alone. -/
theorem windowMismatch_frame (i : WindowNo) (h : s.decoder.frozen = false ∨ s.contain.device = .contained) :
    s.windowMismatch i = { s with
      decoder := (s.windowMismatch i).decoder, contain := (s.windowMismatch i).contain, faults := (s.windowMismatch i).faults
      events := (s.windowMismatch i).events } := by
  by_cases hf : s.decoder.frozen = true
  · rw [windowMismatch_again i hf (h.resolve_left (by rw [hf]; decide))]
    rfl
  · rw [windowMismatch_thawed i (Bool.eq_false_iff.2 hf)]
    rfl

/-- Entry to CONTAINED withdraws every CIPHER context (R162). -/
theorem windowMismatch_withdraws (i : WindowNo) (hs : s.contextLaws) (hf : s.decoder.frozen = true)
    (hd : s.contain.device ≠ .contained) :
    ∀ c ∈ (s.windowMismatch i).contexts, c.passage = .cipher → c.live = false := by
  have hlaws : (s.windowFaulted i).contextLaws := (contextLaws_congr (s := s) rfl).2 hs
  rw [windowMismatch_contains i hf hd, enterContained_eq, State.raise_contexts]
  exact (containRevoked_facts hlaws).2

end

/-- Settles O41: the visit by what it finds; the device reacts to a window under the freeze flag alone. -/
theorem monitorVisitsWindowsAndRanges : Obligations.monitor_visits_windows_and_ranges := by
  unfold Obligations.monitor_visits_windows_and_ranges
  refine ⟨fun s h => execTableMonitorVisit_untaken h, fun s hd hv hu hs => ?_, fun i s hd hv hc hm hs hl => ?_,
    fun i s hd hv hc hm hs => ?_⟩
  · have hvisit : s.start.visit s.contain.cursor = s.start := visit_undisturbed (s := s.start) hu _
    have hexec : exec .tableMonitorVisit s = _ := execTableMonitorVisit_due hd hv
    rw [hexec, hvisit, takeEligible_of_settled (visitNoted_settled (s := s.start) hs)]
    rfl
  · have hvisit : s.start.visit s.contain.cursor = s.start.windowMismatch i := visit_window (s := s.start) hc hm
    have hexec : exec .tableMonitorVisit s = _ := execTableMonitorVisit_due hd hv
    obtain ⟨hdec, hcon, hfaults, hev⟩ := windowMismatch_faults i s.start
    rw [hexec, hvisit]
    refine ⟨_, rfl, ?_, fun j hj => ?_, ?_, ?_, ?_, ?_, ?_, fun hf hd' => ?_, fun h => ?_⟩
    · rw [State.windowIs, State.takeEligible_decoder]
      exact (congrArg (·.windows[i]) hdec).trans ((getElem_set_fin _ i i _).trans (if_pos rfl))
    · rw [State.takeEligible_decoder]
      exact (congrArg (·.windows[j]) hdec).trans ((getElem_set_fin _ i j _).trans (if_neg (Ne.symm hj)))
    · rw [State.takeEligible_decoder]
      exact congrArg (·.frozen) hdec
    · rw [State.takeEligible_decoder]
      exact congrArg (·.limit) hdec
    · rw [State.takeEligible_contain]
      refine (congrArg (fun x => { x with cursor := s.contain.cursor + 1 }) hcon).trans ?_
      by_cases hf : s.decoder.frozen = true
      · rw [if_pos hf, if_pos (show s.start.decoder.frozen = true from hf)]
      · rw [if_neg hf, if_neg (show ¬ s.start.decoder.frozen = true from hf)]
        rfl
    · rw [State.takeEligible_faults]
      exact hfaults
    · rw [State.takeEligible_events]
      exact hev
    · rw [State.takeEligible_contexts]
      exact windowMismatch_withdraws (s := s.start) i hl hf hd'
    · have hframe : s.start.windowMismatch i = _ := windowMismatch_frame (s := s.start) i h
      have hset : ((s.start.windowMismatch i).visitNoted s.contain.cursor).settled := by
        rw [hframe]
        exact hs
      rw [takeEligible_of_settled hset]
      have hout := congrArg State.out hframe
      rw [show ((s.start.windowMismatch i).visitNoted s.contain.cursor).out = s.start.out from hout]
      exact congrArg (State.visitNoted s.contain.cursor) hframe
  · have hvisit : s.start.visit s.contain.cursor = s.start.rangeMismatch i := visit_range (s := s.start) hc hm
    have hexec : exec .tableMonitorVisit s = _ := execTableMonitorVisit_due hd hv
    have hset : ((s.start.rangeMismatch i).visitNoted s.contain.cursor).settled := hs
    rw [hexec, hvisit, takeEligible_of_settled hset]
    exact ⟨_, rfl, (getElem_set_fin _ i i _).trans (if_pos rfl), fun j hj => (getElem_set_fin _ i j _).trans (if_neg (Ne.symm hj)),
      rfl⟩

end Sys2Proof.Machine
end

