-- ==== Sys2Proof/Proofs/RangeRuns.lean ====
section
/-! SUPPORT. What a step makes of each range record: its idle count stays within bounds, and only an OPEN-RANGE opens a range (R34,
R39 to R51, R148, R149, R155). The actions that write no range record stand in RangeFrame. -/

namespace Sys2Proof.Machine

/-! ## The law of one record (R34, R148) -/

/-- A record's interval is within the maximum; an idle count is present only while it is open, from 1 to the interval. -/
def Range.timed (r : Range) : Prop :=
  r.idleInterval ≤ idleMax ∧ ∀ n, r.idleRemaining = some n → r.isOpen = true ∧ 1 ≤ n ∧ n ≤ r.idleInterval

theorem idleLaw_iff {s : State} : s.idleLaw ↔ ∀ i : RangeNo, s.ranges[i].timed := Iff.rfl

/-- A record without a count needs only its interval within the maximum. -/
theorem timed_of_stopped {r : Range} (hi : r.idleInterval ≤ idleMax) (hn : r.idleRemaining = none) : r.timed :=
  ⟨hi, fun n h => by rw [hn] at h; cases h⟩

/-- A record locked is timed if it was. -/
theorem timed_lock {r : Range} (h : r.timed) (i : RangeNo) : (r.lock i).timed := by
  unfold Range.lock
  split
  · exact timed_of_stopped h.1 rfl
  · exact h

/-- A record open with its idle timer started from the full interval (R148). -/
theorem timed_started {r : Range} (hi : r.idleInterval ≤ idleMax) (ho : r.isOpen = true)
    (hn : r.idleRemaining = r.idleStart) : r.timed := by
  refine ⟨hi, fun n h => ?_⟩
  rw [hn, Range.idleStart] at h
  split at h
  · cases h
  · cases h; exact ⟨ho, by omega, le_rfl⟩

/-! ## Records from one state to the next -/

/-- From one state to the next every record stays timed, and a range that opens is one that `P` names. -/
structure State.RangesRun (P : RangeNo → Prop) (s t : State) : Prop where
  timed : ∀ i : RangeNo, s.ranges[i].timed → t.ranges[i].timed
  opened : ∀ i : RangeNo, t.ranges[i].isOpen = true → s.ranges[i].isOpen = true ∨ P i

section
variable {P : RangeNo → Prop} {s t u : State}

theorem State.RangesRun.of_eq (h : t.ranges = s.ranges) : s.RangesRun P t :=
  ⟨fun i hi => by rw [h]; exact hi, fun i hi => .inl (by rw [h] at hi; exact hi)⟩

theorem State.RangesRun.refl (s : State) : s.RangesRun P s := .of_eq rfl

theorem State.RangesRun.trans (h : s.RangesRun P t) (h' : t.RangesRun P u) : s.RangesRun P u :=
  ⟨fun i hi => h'.timed i (h.timed i hi), fun i hi => (h'.opened i hi).elim (h.opened i) .inr⟩

/-- What is done before and after without a write of a range record makes no difference. -/
theorem State.RangesRun.congr {s' t' : State} (h : s.RangesRun P t) (hs : s'.ranges = s.ranges) (ht : t'.ranges = t.ranges) :
    s'.RangesRun P t' := ((State.RangesRun.of_eq hs.symm).trans h).trans (.of_eq ht)

/-- Record by record: timed if the old one was, and open only if the old one was. -/
theorem State.RangesRun.of_records
    (h : ∀ i : RangeNo, (s.ranges[i].timed → t.ranges[i].timed) ∧ (t.ranges[i].isOpen = true → s.ranges[i].isOpen = true)) :
    s.RangesRun P t := ⟨fun i => (h i).1, fun i hi => .inl ((h i).2 hi)⟩

/-- One record is put in the place of another. -/
theorem State.RangesRun.set {i : RangeNo} {r : Range} (h : t.ranges = s.ranges.set i r) (hr : s.ranges[i].timed → r.timed)
    (ho : r.isOpen = true → s.ranges[i].isOpen = true ∨ P i) : s.RangesRun P t := by
  have hget : ∀ j : RangeNo, t.ranges[j] = if i = j then r else s.ranges[j] := fun j => by rw [h, getElem_set_fin]
  refine ⟨fun j hj => ?_, fun j hj => ?_⟩
  · rw [hget]
    split
    · next e => subst e; exact hr hj
    · exact hj
  · rw [hget] at hj
    split at hj
    · next e => subst e; exact ho hj
    · exact .inl hj

/-- A record is written that is not open and has no count. -/
theorem State.RangesRun.closed {i : RangeNo} {r : Range} (h : t.ranges = s.ranges.set i r)
    (hi : s.ranges[i].idleInterval ≤ idleMax → r.idleInterval ≤ idleMax) (hn : r.idleRemaining = none)
    (ho : r.isOpen = false) : s.RangesRun P t :=
  .set h (fun hs => timed_of_stopped (hi hs.1) hn) fun h => by rw [ho] at h; cases h

/-! ## The operations on range records (R39, R43 to R47, R60, R148, R149, R155) -/

theorem lockRanges_run (p : Range → Bool) (s : State) : s.RangesRun P (s.lockRanges p) := by
  refine .of_records fun i => ?_
  rw [lockRanges_get]
  split
  · exact ⟨fun h => timed_lock h i, fun h => by rw [lock_closed] at h; cases h⟩
  · exact ⟨id, id⟩

theorem scrub_run (k : SlotNo) (keys : KeyPair) (cause : ScrubCause) (s : State) : s.RangesRun P (s.scrub k keys cause) := by
  have hbegun : s.RangesRun P (s.scrubBegun k keys cause) :=
    (lockRanges_run (fun r => r.binding == some k) (s.writeSlot k { s.slots[k] with body := .scrubbing keys cause })).congr rfl rfl
  rw [scrub_eq]
  exact hbegun.trans (.of_eq (revoke_changes (Context.holds k) cause.code (s.scrubBegun k keys cause)).ranges)

theorem recoverAll_run (s : State) : s.RangesRun P s.recoverAll := by
  obtain ⟨-, -, -, -, hr, -⟩ := recoverAll_books s
  refine .of_records fun i => ?_
  have hget : s.recoverAll.ranges[i] = s.ranges[i].recovered i := by rw [hr]; simp
  rw [hget]
  exact ⟨fun h => timed_of_stopped h.1 rfl, fun h => by cases h⟩

/-- The idle timer of an open range is restarted (R39, R148). -/
theorem restartIdle_run {i : RangeNo} (ho : s.ranges[i].isOpen = true) : s.RangesRun P (s.restartIdle i) := by
  unfold State.restartIdle
  split
  · exact .refl s
  · next hz => exact .set rfl (fun h => timed_started h.1 ho (if_neg hz).symm) .inl

theorem expireIdle_run (i : RangeNo) (s : State) : s.RangesRun P (s.expireIdle i) := .closed (i := i) rfl id rfl rfl

theorem lapsePresence_run (s : State) : s.RangesRun P s.lapsePresence :=
  (lockRanges_run (fun r => r.lockOnAbsence) s).congr rfl rfl

theorem tickIdle_run (i : RangeNo) (s : State) : s.RangesRun P (s.tickIdle i) := by
  unfold State.tickIdle
  split
  · split
    · next n hn =>
      split
      · exact expireIdle_run i s
      · refine .set rfl (fun h => ⟨h.1, fun m hm => ?_⟩) .inl
        obtain ⟨ho, -, hle⟩ := h.2 n hn
        cases hm
        exact ⟨ho, by omega, by dsimp only; omega⟩
    · exact .refl s
  · exact .refl s

theorem idleTicks_run (s : State) : s.RangesRun P s.idleTicks := by
  unfold State.idleTicks
  generalize List.finRange 16 = l
  induction l generalizing s with
  | nil => exact .refl s
  | cons i l ih => exact (tickIdle_run i s).trans (ih _)

theorem presenceTick_run (s : State) : s.RangesRun P s.presenceTick := by
  unfold State.presenceTick
  split
  · split
    · exact .refl s
    · split
      · exact lapsePresence_run s
      · exact .of_eq rfl
  · exact .refl s

/-! ## The monitor (R46, R64, R168) -/

theorem slotMismatch_run (k : SlotNo) (s : State) : s.RangesRun P (s.slotMismatch k) := by
  have hu : s.RangesRun P (s.reportMismatch .key k.val) := .of_eq (reportMismatch_quiet _ _ s).ranges
  unfold State.slotMismatch
  dsimp only
  split
  · exact hu.trans (scrub_run k _ _ _)
  · exact hu.trans (scrub_run k _ _ _)
  · exact hu.congr rfl rfl
  · exact hu.congr rfl rfl
  · exact .refl s

theorem visit_run (cursor : Fin 56) (s : State) : s.RangesRun P (s.visit cursor) := by
  unfold State.visit
  split
  · dsimp only
    split
    · exact .refl s
    · exact .of_eq (windowMismatch_ranges _ s)
  · split
    · dsimp only
      split
      · exact .closed (i := ⟨cursor.val - 8, by omega⟩) rfl id rfl rfl
      · exact .refl s
    · dsimp only
      split
      · exact slotMismatch_run _ s
      · exact .refl s

theorem monitorTick_run (s : State) : s.RangesRun P s.monitorTick := by
  unfold State.monitorTick
  split
  · exact (visit_run s.contain.cursor s).congr rfl (by simp)
  · exact .refl s

/-! ## The fine tick (R146 to R149) -/

theorem coarsePart_run (s : State) : s.RangesRun P s.coarsePart := by
  have hticks : s.RangesRun P (if Config.tickOrder s.choices then s.idleTicks.presenceTick else s.presenceTick.idleTicks) := by
    split
    · exact (idleTicks_run s).trans (presenceTick_run _)
    · exact (presenceTick_run s).trans (idleTicks_run _)
  unfold State.coarsePart
  split
  · exact hticks.congr rfl (dwellTick_ranges _)
  · exact .of_eq rfl

theorem fineTick_run (s : State) : s.RangesRun P s.fineTick := by
  have hticks : s.RangesRun P (if Config.tickOrder s.start.choices then s.start.answerTicks.monitorTick
      else s.start.monitorTick.answerTicks) := by
    split
    · exact (monitorTick_run _).congr (answerTicks_ranges s.start).symm rfl
    · exact (monitorTick_run s.start).congr rfl (answerTicks_ranges _)
  unfold State.fineTick
  dsimp only
  generalize (if Config.tickOrder s.start.choices then s.start.answerTicks.monitorTick else s.start.monitorTick.answerTicks) = u
    at hticks ⊢
  exact hticks.trans ((coarsePart_run { u with choices := u.choices + 1 }).congr rfl rfl)

/-! ## The owners of the key link's commands (R40 to R43, R47, R60) -/

theorem rangeIndex_some_val {b : Byte} {i : RangeNo} (h : rangeIndex b = some i) : b.toNat = i.val := by
  unfold rangeIndex at h
  split at h <;> cases h
  rfl

theorem ownSetRange_run (index : Byte) (first : Sector) (count : BitVec 48) (binding lock : Byte) (idle : BitVec 24) (s : State) :
    s.RangesRun P (s.ownSetRange index first count binding lock idle).1 := by
  unfold State.ownSetRange
  split
  · exact .refl s
  · split
    · exact .refl s
    · next i _ =>
      split
      · exact .refl s
      · split
        · exact .refl s
        · split
          · dsimp only
            split
            · exact .refl s
            · exact .closed (i := i) rfl (fun _ => Nat.min_le_right _ _) rfl rfl
          · exact .refl s

theorem ownLockRange_run (index : Byte) (s : State) : s.RangesRun P (s.ownLockRange index).1 := by
  unfold State.ownLockRange
  split
  · exact .refl s
  · split
    · exact .refl s
    · next i _ => exact .set (i := i) rfl (fun h => timed_lock h i) fun h => by rw [lock_closed] at h; cases h

theorem ownScrubKey_run (slot : Byte) (s : State) : s.RangesRun P (s.ownScrubKey slot).1 := by
  unfold State.ownScrubKey
  split
  · exact .refl s
  · split
    · exact .refl s
    · split
      · exact (scrub_run _ _ .command s).congr rfl (State.takeEligible_ranges _)
      · exact (scrub_run _ _ .command s).congr rfl (State.takeEligible_ranges _)
      · exact .refl s
      · exact .refl s
      · exact .of_eq rfl

theorem ownRecover_run (s : State) : s.RangesRun P s.ownRecover.1 := by
  unfold State.ownRecover
  split
  · exact .refl s
  · split
    · exact .refl s
    · exact recoverAll_run s

theorem readMode_isOpen {b : Byte} {st : RangeState} (h : readMode b = some st) : st = .openRW ∨ st = .openRO := by
  unfold readMode at h
  split at h
  · cases h; exact .inl rfl
  · split at h <;> cases h
    exact .inr rfl

theorem opened_isOpen {b : Byte} {st : RangeState} (h : readMode b = some st) (i : RangeNo) (r : Range) :
    (r.opened i st).isOpen = true := by
  rcases readMode_isOpen h with rfl | rfl <;> rfl

/-- An OPEN-RANGE opens the range of its index, and none in SELF-TEST or CONTAINED (R42). -/
theorem ownOpenRange_run (index mode : Byte) (s : State) :
    s.RangesRun (fun i => (s.contain.device = .config ∨ s.contain.device = .service) ∧ index.toNat = i.val)
      (s.ownOpenRange index mode).1 := by
  unfold State.ownOpenRange
  split
  · exact .refl s
  · next hd =>
    have hdev : s.contain.device = .config ∨ s.contain.device = .service := by
      cases h : s.contain.device <;> simp_all
    split
    · exact .refl s
    · next i hi =>
      split
      · exact .refl s
      · next st hst =>
        split
        · exact .refl s
        · split
          · exact .refl s
          · exact .set (i := i) rfl (fun h => timed_started h.1 (opened_isOpen hst i _) rfl) fun _ =>
              .inr ⟨hdev, rangeIndex_some_val hi⟩

/-- The command that may open range i in the state: OPEN-RANGE for its index, in CONFIG or SERVICE. -/
def State.opensBy (c : LinkCommand) (s : State) (i : RangeNo) : Prop :=
  (s.contain.device = .config ∨ s.contain.device = .service) ∧ ∃ b mode, c = .openRange b mode ∧ b.toNat = i.val

/-- What every command's owner makes of the records. -/
theorem owner_run (c : LinkCommand) (s : State) : s.RangesRun (s.opensBy c) (c.owner s).1 := by
  cases h : c.writesRange with
  | false => exact .of_eq (owner_ranges h s)
  | true =>
    cases c with
    | setRange => exact ownSetRange_run _ _ _ _ _ _ s
    | openRange b mode =>
      obtain ⟨ht, ho⟩ := ownOpenRange_run b mode s
      exact ⟨ht, fun i hi => (ho i hi).imp id fun ⟨hd, hb⟩ => ⟨hd, b, mode, rfl, hb⟩⟩
    | lockRange => exact ownLockRange_run _ s
    | scrubKey => exact ownScrubKey_run _ s
    | recover => exact ownRecover_run s
    | _ => cases h

/-! ## Command periods (R172 to R177) -/

theorem judged_run (b : Bool) (c : LinkCommand) (s : State) : s.RangesRun (s.opensBy c) (s.judged b c.owner) := by
  unfold State.judged
  split
  · exact .of_eq rfl
  · exact (owner_run c s).congr rfl rfl

/-- A frame that is judged either has a bad form, and no record is written, or is that of the command it carries. -/
theorem judgeBytes_run (bytes : List Byte) (n : Nat) (s : State) :
    s.RangesRun (fun i => ∃ c, judgeFrame bytes n = .command c ∧ s.opensBy c i) (s.judgeBytes bytes n) := by
  unfold State.judgeBytes
  split
  · exact .of_eq rfl
  · next c hc =>
    obtain ⟨ht, ho⟩ := judged_run (c == .status) c s
    exact ⟨ht, fun i hi => (ho i hi).imp id fun h => ⟨c, hc, h⟩⟩

/-- What a command period makes of the records is what the judging of the frame heard makes of them, if anything. -/
theorem commandEnds_run {n : Nat} {judge : State → State}
    (h : (s.start.driveKdo (List.replicate n (some true))).RangesRun P (judge (s.start.driveKdo (List.replicate n (some true))))) :
    s.RangesRun P (s.commandEnds n judge) := by
  unfold State.commandEnds
  dsimp only
  split
  · exact h.congr rfl rfl
  · exact .of_eq rfl
  · exact .of_eq rfl

end

end Sys2Proof.Machine
end

