-- ==== Sys2Proof/Proofs/RangeOpening.lean ====
section
/-! SUPPORT. What every command makes of the range records, and what alone opens a range (R39, R42, R44, R47, R51, R172 to R177). -/

namespace Sys2Proof.Machine

section
variable {P : RangeNo → Prop} {s t : State}

/-! ## Admission (R38, R39, R74) -/

/-- A capture is of the range it is made for. -/
theorem captureRuling_range {f : HeaderFields} {w v : WindowNo} {i : RangeNo} {b d : Bool} {p : Passage} {cap : Capture}
    (ho : s.ranges[i].isOpen = true) (h : s.captureRuling f w i b = .admitted p v (some cap) d) :
    s.ranges[cap.range].isOpen = true := by
  unfold State.captureRuling at h
  split at h
  · split at h <;> cases h
    exact ho
  · cases h

/-- Check 11 lets through a request for an open range only (R38). -/
theorem cipherRuling_range {f : HeaderFields} {w v : WindowNo} {b d : Bool} {p : Passage} {cap : Capture}
    (h : s.cipherRuling f w b = .admitted p v (some cap) d) : s.ranges[cap.range].isOpen = true := by
  unfold State.cipherRuling at h
  split at h
  · cases h
  · split at h
    · cases h
    · split at h
      · cases h
      · split at h
        · cases h
        · cases h
        · cases h
        · next hst _ => exact captureRuling_range (by rw [Range.isOpen, hst]) h
        · next hst => exact captureRuling_range (by rw [Range.isOpen, hst]) h

theorem windowRuling_range {f : HeaderFields} {v : WindowNo} {d : Bool} {p : Passage} {cap : Capture}
    (h : s.windowRuling f = .admitted p v (some cap) d) : s.ranges[cap.range].isOpen = true := by
  unfold State.windowRuling at h
  split at h
  · cases h
  · dsimp only at h
    split at h
    · cases h
    · split at h
      · cases h
      · split at h
        · cases h
        · split at h
          · cases h
          · split at h
            · split at h
              · cases h
              · exact cipherRuling_range h
            · exact cipherRuling_range h

/-- A request that is admitted with a capture is for an open range (R38, R39). -/
theorem ruling_range {h : Header} {v : WindowNo} {d : Bool} {p : Passage} {cap : Capture}
    (hr : s.ruling h = .admitted p v (some cap) d) : s.ranges[cap.range].isOpen = true := by
  unfold State.ruling at hr
  split at hr
  · cases hr
  · split at hr
    · cases hr
    · split at hr
      · cases hr
      · exact windowRuling_range hr

theorem requestHeader_run (h : Header) (ht : execRequestHeader h s = .next t) : s.RangesRun P t := by
  unfold execRequestHeader at ht
  split at ht
  · split at ht
    · cases ht
      exact .of_eq (by rw [(refuseRequest_quiet _ _ _).ranges, noteDegrade_ranges]; rfl)
    · next p w cap d hr =>
      cases ht
      have hu : ((s.start.noteDegrade d).answerHeader .admitted).ranges = s.ranges := by simp
      unfold State.admitRequest
      split
      · next _ cap _ =>
        have ho : ((s.start.noteDegrade d).answerHeader .admitted).ranges[cap.range].isOpen = true := by
          rw [hu]
          exact ruling_range hr
        exact (restartIdle_run ho).congr hu.symm (by rw [State.takeEligible_ranges, admitCipher_ranges])
      · exact .of_eq hu
      · exact .of_eq (by simp)
  · cases ht
    exact .of_eq rfl

/-! ## The rows of timers and monitor (R46, R149, R155, R167) -/

theorem tableMonitorVisit_run (ht : execTableMonitorVisit s = .next t) : s.RangesRun P t := by
  unfold execTableMonitorVisit at ht
  split at ht <;> cases ht
  · exact (monitorTick_run s.start).congr rfl rfl
  · exact .of_eq rfl

theorem idleExpiry_run (i : RangeNo) (ht : execIdleExpiry i s = .next t) : s.RangesRun P t := by
  unfold execIdleExpiry at ht
  split at ht <;> cases ht
  · exact (expireIdle_run i _).congr rfl rfl
  · exact .of_eq rfl

theorem presenceLapse_run (ht : execPresenceLapse s = .next t) : s.RangesRun P t := by
  unfold execPresenceLapse at ht
  split at ht
  · split at ht <;> cases ht
    · exact (lapsePresence_run _).congr rfl rfl
    · exact .of_eq rfl
  · cases ht
    exact .of_eq rfl

/-- The reset state's records are timed and none is open (R36). -/
theorem powerOnReset_run (b : Bool) (ht : execPowerOnReset b s = .next t) : s.RangesRun P t := by
  cases ht
  refine .of_records fun i => ?_
  change (_ → State.reset.ranges[i].timed) ∧ (State.reset.ranges[i].isOpen = true → _)
  rw [reset_range]
  exact ⟨fun _ => timed_of_stopped (Nat.zero_le _) rfl, fun h => by cases h⟩

/-! ## Reading an OPEN-RANGE from a frame (R172, R173, R176, R177) -/

/-- Eight bits shifted in as a byte and out again are the bits (R173). -/
theorem byteBits_bitsByte : ∀ {l : List Bool}, l.length = 8 → byteBits (bitsByte l) = l
  | [a, b, c, d, e, f, g, h], _ => by
    revert a b c d e f g h
    decide +kernel

/-- Whole bytes taken in and shifted out again are the bits they were read from (R173). -/
theorem toBits_wholeBytes {n : Nat} {l : List Bool} (h : l.length = 8 * n) : toBits (wholeBytes n l) = l := by
  induction n generalizing l with
  | zero => rw [List.eq_nil_of_length_eq_zero (l := l) (by omega)]; rfl
  | succ n ih =>
    have htake : (l.take 8).length = 8 := by rw [List.length_take]; omega
    have hdrop : (l.drop 8).length = 8 * n := by rw [List.length_drop]; omega
    have hcons : toBits (wholeBytes (n + 1) l) = byteBits (bitsByte (l.take 8)) ++ toBits (wholeBytes n (l.drop 8)) := rfl
    rw [hcons, byteBits_bitsByte htake, ih hdrop, List.take_append_drop]

/-- One byte of a payload is read back as itself. -/
theorem ofNat_ofLeBytes_singleton (b : Byte) : BitVec.ofNat 8 (ofLeBytes [b]) = b := by
  simp [ofLeBytes]

/-- A payload reads as an OPEN-RANGE under its code alone (R177). -/
theorem readPayload_openRange {code b mode : Byte} {p : List Byte} (h : readPayload code p = some (.openRange b mode)) :
    code.toNat = 0x21 ∧ b = BitVec.ofNat 8 (field p 0 1) ∧ mode = BitVec.ofNat 8 (field p 1 1) := by
  unfold readPayload at h
  dsimp only at h
  split at h
  case h_8 hcode => cases h; exact ⟨hcode, rfl, rfl⟩
  all_goals cases h

/-- A frame that is judged to carry an OPEN-RANGE is the frame of that OPEN-RANGE, with no part-byte behind it (R176). -/
theorem judgeFrame_openRange {bytes : List Byte} {n : Nat} {b mode : Byte}
    (h : judgeFrame bytes n = .command (.openRange b mode)) : n = 0 ∧ bytes = (LinkCommand.openRange b mode).frame := by
  unfold judgeFrame at h
  split at h
  · cases h
  · next hform =>
    split at h
    · cases h
    · next hcheck =>
      split at h
      · cases h
      · next len hlen =>
        split at h
        · cases h
        · next hcount =>
          split at h
          · next c hc =>
            cases h
            rw [not_or, not_or, not_not, not_not, not_lt] at hform
            rw [not_not] at hcheck hcount
            obtain ⟨-, hlength, hn⟩ := hform
            obtain ⟨hcode, hb, hm⟩ := readPayload_openRange hc
            have h2 : len = 2 := by rw [lengthOfCode, hcode] at hlen; exact (Option.some.inj hlen).symm
            subst h2
            rw [hcount] at hlength
            match bytes, hlength with
            | [x0, x1, x2, x3, x4, x5], _ =>
              obtain rfl : x0 = 0x21 := BitVec.eq_of_toNat_eq hcode
              obtain rfl : x1 = 2 := BitVec.eq_of_toNat_eq hcount
              obtain rfl : b = x2 := hb.trans (ofNat_ofLeBytes_singleton x2)
              obtain rfl : mode = x3 := hm.trans (ofNat_ofLeBytes_singleton x3)
              exact ⟨hn, hcheck.symm⟩
          · cases h

/-! ## Every command -/

/-- A command that carries an OPEN-RANGE for range i: its row, or a command period of its frame. -/
def carriesOpen (i : RangeNo) (c : Instr) : Prop :=
  ∃ b mode : Byte, b.toNat = i.val ∧
    (c = .openRange b mode ∨
      ∃ kdi more, kdi ++ more = toBits (LinkCommand.openRange b mode).frame ∧ c = .commandPeriod kdi more)

/-- What may open range i: a command that carries an OPEN-RANGE for it, in CONFIG or SERVICE (R42). -/
def State.mayOpen (c : Instr) (s : State) (i : RangeNo) : Prop :=
  (s.contain.device = .config ∨ s.contain.device = .service) ∧ carriesOpen i c

/-- A command row opens what its command's owner opens. -/
theorem linkRow_run (c : LinkCommand) (ht : linkRow c c.owner s = .next t) : s.RangesRun (s.mayOpen c.row) t := by
  cases ht
  refine commandEnds_run ?_
  obtain ⟨hk, ho⟩ := judged_run (c == .status) c (s.start.driveKdo (List.replicate (8 * c.frame.length) (some true)))
  refine ⟨hk, fun i hi => (ho i hi).imp id fun h => ?_⟩
  obtain ⟨hd, b, mode, rfl, hb⟩ := h
  exact ⟨hd, b, mode, hb, .inl rfl⟩

/-- A command period opens what the OPEN-RANGE whose frame it is opens. -/
theorem commandPeriod_run (first rest : List Bool) (ht : execCommandPeriod first rest s = .next t) :
    s.RangesRun (s.mayOpen (.commandPeriod first rest)) t := by
  unfold execCommandPeriod at ht
  dsimp only at ht
  split at ht
  · cases ht
    exact .of_eq rfl
  · split at ht <;> cases ht
    · exact .of_eq (readEnds_ranges s.start _)
    · refine commandEnds_run ?_
      obtain ⟨hk, ho⟩ := judgeBytes_run (wholeBytes ((first ++ rest).length / 8) (first ++ rest)) ((first ++ rest).length % 8)
        (s.start.driveKdo (List.replicate (first ++ rest).length (some true)))
      refine ⟨hk, fun i hi => (ho i hi).imp id fun h => ?_⟩
      obtain ⟨c, hc, hd, b, mode, rfl, hb⟩ := h
      obtain ⟨hn, hbytes⟩ := judgeFrame_openRange hc
      refine ⟨hd, b, mode, hb, .inr ⟨first, rest, ?_, rfl⟩⟩
      rw [← hbytes, toBits_wholeBytes]
      omega

/-- What every command makes of the range records. -/
theorem exec_run {c : Instr} (ht : exec c s = .next t) : s.RangesRun (s.mayOpen c) t := by
  cases h : mayWriteRange c with
  | false => exact .of_eq (exec_ranges s h t ht)
  | true =>
    cases c with
    | powerOnReset => exact powerOnReset_run _ ht
    | requestHeader => exact requestHeader_run _ ht
    | tableMonitorVisit => exact tableMonitorVisit_run ht
    | idleExpiry => exact idleExpiry_run _ ht
    | presenceLapse => exact presenceLapse_run ht
    | commandPeriod => exact commandPeriod_run _ _ ht
    | status => exact linkRow_run .status ht
    | readFault => exact linkRow_run .readFault ht
    | readAbort => exact linkRow_run .readAbort ht
    | loadKey slot d t => exact linkRow_run (.loadKey slot d t) ht
    | scrubKey slot => exact linkRow_run (.scrubKey slot) ht
    | flushSchedules => exact linkRow_run .flushSchedules ht
    | setRange i f c b l t => exact linkRow_run (.setRange i f c b l t) ht
    | openRange i m => exact linkRow_run (.openRange i m) ht
    | lockRange i => exact linkRow_run (.lockRange i) ht
    | setWindow i t f l d m r => exact linkRow_run (.setWindow i t f l d m r) ht
    | setLimit n => exact linkRow_run (.setLimit n) ht
    | freeze => exact linkRow_run .freeze ht
    | go => exact linkRow_run .go ht
    | recover => exact linkRow_run .recover ht
    | armPresence n => exact linkRow_run (.armPresence n) ht
    | renew => exact linkRow_run .renew ht
    | setAlert e => exact linkRow_run (.setAlert e) ht
    | clearEvents e => exact linkRow_run (.clearEvents e) ht
    | clearFault => exact linkRow_run .clearFault ht
    | clearTallies => exact linkRow_run .clearTallies ht
    | _ => cases h

/-- What a step makes of the range records: only the command at the front of the queue may open one. -/
theorem step_run (h : step s = .next t) :
    s.RangesRun (fun i => ∃ c rest, s.pending = c :: rest ∧ s.mayOpen c i) t := by
  unfold step at h
  split at h
  · cases h
    exact fineTick_run s
  · next c rest hp =>
    obtain ⟨hk, ho⟩ := (exec_run h).congr (s' := s) (t' := t) rfl rfl
    exact ⟨hk, fun i hi => (ho i hi).imp id fun h => ⟨c, rest, hp, h⟩⟩

end

/-- Settles O59: of all that a step may write to a range record, only the owner of an OPEN-RANGE leaves a closed one open. -/
theorem onlyOpenRangeOpens : Obligations.only_open_range_opens := by
  unfold Obligations.only_open_range_opens
  intro s t i h hclosed hopen
  rcases (step_run h).opened i hopen with hi | ⟨c, rest, hp, hd, b, mode, hb, hc⟩
  · rw [hclosed] at hi; cases hi
  · refine ⟨hd, b, mode, rest, hb, ?_⟩
    rcases hc with rfl | ⟨kdi, more, hbits, rfl⟩
    · exact .inl hp
    · exact .inr ⟨kdi, more, hbits, hp⟩

end Sys2Proof.Machine
end

