-- ==== Sys2Proof/Proofs/Gauges.lean ====
section
/-! SUPPORT. What the laws of timers, counts and the alert line read outside the range table, and what the shared operations make of
it (R116, R152, R162, R164, R170, R181, R183). -/

namespace Sys2Proof.Machine

/-! ## The gauges and their laws -/

/-- The device state with its dwell, the presence timer, the fault log, the event unit and the tallies. -/
structure Gauges where
  device   : DeviceState
  dwell    : Option Nat
  presence : Presence
  faults   : FaultLog
  events   : EventUnit
  tallies  : Tallies

/-- The gauges of a state. -/
def State.gauges (s : State) : Gauges :=
  { device := s.contain.device, dwell := s.contain.dwell, presence := s.time.presence, faults := s.faults, events := s.events,
    tallies := s.tallies }

/-- The laws of `State.timerLaws` that read no range record. -/
structure Gauges.Lawful (g : Gauges) : Prop where
  dwell : ∀ n, g.dwell = some n → g.device = .contained ∧ 1 ≤ n ∧ n ≤ 50
  presence : ∀ n m, g.presence = .armed n m → 10 ≤ n ∧ n ≤ 6000 ∧ 1 ≤ m ∧ m ≤ n
  parity : g.tallies.parity ≤ 255
  timeout : g.tallies.timeout ≤ 255
  rawIgnored : g.tallies.rawIgnored ≤ 255
  count : g.faults.count ≤ 255
  first : g.faults.first.isSome = true ↔ g.faults.count ≠ 0
  alert : g.events.alertLow = true ↔ ∃ e, e < 10 ∧ g.events.pending.getLsbD e = true ∧ g.events.enables.getLsbD e = true

theorem timerLaws_iff {s : State} : s.timerLaws ↔ s.gauges.Lawful ∧ s.idleLaw := by
  constructor
  · rintro ⟨hd, hp, hi, ⟨h1, h2, h3, h4, h5⟩, ha⟩
    exact ⟨⟨hd, hp, h1, h2, h3, h4, h5, ha⟩, hi⟩
  · rintro ⟨⟨hd, hp, h1, h2, h3, h4, h5, ha⟩, hi⟩
    exact ⟨hd, hp, hi, ⟨h1, h2, h3, h4, h5⟩, ha⟩

/-! ## What changes a gauge -/

section
variable {g : Gauges}

/-- An event unit that follows its flags is lawful (R181). -/
theorem Gauges.Lawful.follow (h : g.Lawful) (p e : BitVec 10) : { g with events := EventUnit.follow p e : Gauges }.Lawful :=
  { h with alert := follow_alertLow p e }

/-- A log with a fault more is lawful (R170). -/
theorem Gauges.Lawful.log (h : g.Lawful) (r : FaultRecord) : { g with faults := g.faults.add r : Gauges }.Lawful :=
  { h with count := countUp_le _, first := iff_of_true rfl (countUp_ne_zero _) }

/-- Where no dwell runs the device state is free (R164). -/
theorem Gauges.Lawful.withDevice (h : g.Lawful) (hd : g.device ≠ .contained) (d : DeviceState) :
    { g with device := d : Gauges }.Lawful :=
  { h with dwell := fun n hn => absurd (h.dwell n hn).1 hd }

/-- An ended dwell is lawful in every device state (R164). -/
theorem Gauges.Lawful.dwellEnded (h : g.Lawful) (d : DeviceState) : { g with device := d, dwell := none : Gauges }.Lawful :=
  { h with dwell := fun n hn => by cases hn }

/-- The dwell as it starts (R162, R163). -/
theorem Gauges.Lawful.dwellStarted (h : g.Lawful) : { g with device := .contained, dwell := some 50 : Gauges }.Lawful :=
  { h with dwell := fun n hn => by cases hn; exact ⟨rfl, by decide, by decide⟩ }

/-- A presence timer that is not ARMED is lawful (R152). -/
theorem Gauges.Lawful.withPresence (h : g.Lawful) {p : Presence}
    (hp : ∀ n m, p = .armed n m → 10 ≤ n ∧ n ≤ 6000 ∧ 1 ≤ m ∧ m ≤ n) : { g with presence := p : Gauges }.Lawful :=
  { h with presence := hp }

end

section
variable {s : State}

theorem lawful_raise (h : s.gauges.Lawful) (e : Event) : (State.raise e s).gauges.Lawful := h.follow _ _

theorem lawful_logFault (h : s.gauges.Lawful) (k : FaultKind) (c : Option Context) (e : Option TableEntry)
    (x : Option KnownAnswerTest) : (s.logFault k c e x).gauges.Lawful := h.log _

theorem lawful_countParity (h : s.gauges.Lawful) : s.countParity.gauges.Lawful :=
  { h.follow (s.events.pending ||| Event.paritySeen.bit) s.events.enables with parity := countUp_le _ }

theorem lawful_countTimeout (h : s.gauges.Lawful) : s.countTimeout.gauges.Lawful :=
  { h.follow (s.events.pending ||| Event.timeoutSeen.bit) s.events.enables with timeout := countUp_le _ }

theorem lawful_countRawIgnored (h : s.gauges.Lawful) : s.countRawIgnored.gauges.Lawful :=
  { h.follow (s.events.pending ||| Event.rawIgnored.bit) s.events.enables with rawIgnored := countUp_le _ }

theorem lawful_enterContained (h : s.gauges.Lawful) : s.enterContained.gauges.Lawful := by
  obtain ⟨hc, hf, -, -, -, -, htime, -, hta, -, he⟩ := enterContained_frame s
  unfold State.gauges
  rw [hc, hf, htime, hta, he]
  exact h.dwellStarted.follow _ _

theorem lawful_reportMismatch (h : s.gauges.Lawful) (t : Table) (n : Nat) : (s.reportMismatch t n).gauges.Lawful :=
  lawful_logFault (lawful_raise h .tableFault) _ _ _ _

end

/-! ## What leaves every gauge as it was (R82 to R145) -/

theorem State.sameButWork.gauges {s t : State} (h : s.sameButWork t) : t.gauges = s.gauges := by
  obtain ⟨hc, hf, -, -, -, -, ht, -, -, he, hta, -⟩ := (sameButWork_iff s t).1 h
  simp only [State.gauges, hc, hf, ht, he, hta]

section
variable (n : CtxNo) (c : Context) (s : State)

@[simp] theorem start_gauges : s.start.gauges = s.gauges := rfl
@[simp] theorem untaken_gauges : s.untaken.gauges = s.gauges := rfl
@[simp] theorem modCtx_gauges (f : Context → Context) : (s.modCtx n f).gauges = s.gauges := rfl
@[simp] theorem clearOutbound_gauges : s.clearOutbound.gauges = s.gauges := rfl
@[simp] theorem clearInbound_gauges : s.clearInbound.gauges = s.gauges := rfl
@[simp] theorem startTimer_gauges (p : TimerPhase) : (s.startTimer n p).gauges = s.gauges := rfl
@[simp] theorem advanceTweak_gauges (t : Block) : (s.advanceTweak n t).gauges = s.gauges := rfl
@[simp] theorem presentMerged_gauges (h : Hold) (x : Block) : (s.presentMerged h x).gauges = s.gauges := rfl
@[simp] theorem releasePin_gauges : (s.releasePin c).gauges = s.gauges := by simp [State.gauges]
@[simp] theorem takeEligible_gauges : s.takeEligible.gauges = s.gauges := by simp [State.gauges]

@[simp] theorem startExpansion_gauges (r : Request) : (s.startExpansion r).gauges = s.gauges := by
  obtain ⟨x, y, h⟩ := startExpansion_frame r s
  rw [h]
  rfl

@[simp] theorem freeIfDone_gauges : (s.freeIfDone n).gauges = s.gauges := (freeIfDone_sameButWork n s).gauges
@[simp] theorem handCompletion_gauges : (s.handCompletion n).gauges = s.gauges := (handCompletion_sameButWork n s).gauges
@[simp] theorem complete_gauges : (s.complete n).gauges = s.gauges :=
  (sameButWork_trans (handCompletion_sameButWork n s) (free_sameButWork n _)).gauges
@[simp] theorem enterCancel_gauges (code : Reply) (answered timed : Bool) :
    (s.enterCancel n code answered timed).gauges = s.gauges := (enterCancel_sameButWork n code answered timed s).gauges
@[simp] theorem enterClose_gauges : (s.enterClose n).gauges = s.gauges := (enterClose_sameButWork n s).gauges

/-- A scrub touches no gauge (R60). -/
@[simp] theorem scrub_gauges (k : SlotNo) (keys : KeyPair) (cause : ScrubCause) : (s.scrub k keys cause).gauges = s.gauges := by
  rw [scrub_eq]
  exact (revoke_sameButWork (Context.holds k) cause.code (s.scrubBegun k keys cause)).gauges

@[simp] theorem dropBeat_gauges (left : Nat) (owner : Option CtxNo) : (s.dropBeat left owner).gauges = s.gauges := by
  unfold State.dropBeat
  split
  · dsimp only
    split
    · rw [freeIfDone_gauges, handCompletion_gauges]; rfl
    · rfl
  · rfl

@[simp] theorem drainBeat_gauges (taken : Nat) : (s.drainBeat c taken).gauges = s.gauges := by
  unfold State.drainBeat
  dsimp only
  split
  · rw [enterCancel_gauges]; rfl
  · rfl

@[simp] theorem endPiece_gauges : (s.endPiece n).gauges = s.gauges := by
  unfold State.endPiece
  split <;> rfl

@[simp] theorem driveUnit_gauges (u : SlotUnit) : (s.driveUnit u).gauges = s.gauges := by
  unfold State.driveUnit
  split
  · dsimp only
    split
    · rw [enterClose_gauges]; rfl
    · rfl
  · rfl

@[simp] theorem enterSlot_gauges (u : SlotUnit) : (s.enterSlot u).gauges = s.gauges := by
  unfold State.enterSlot
  split
  · rw [driveUnit_gauges]
  · rfl

@[simp] theorem tryRelease_gauges : s.tryRelease.gauges = s.gauges := by
  unfold State.tryRelease
  split
  · split <;> rfl
  · rfl

@[simp] theorem mergedPassed_gauges (x : Block) : (s.mergedPassed x).gauges = s.gauges := tryRelease_gauges _

@[simp] theorem deliverUnit_gauges (x : Block) : (s.deliverUnit c x).gauges = s.gauges := by
  unfold State.deliverUnit
  dsimp only
  split
  · rw [complete_gauges]; rfl
  · rfl

@[simp] theorem acceptPiece_gauges : (s.acceptPiece n).gauges = s.gauges := by
  unfold State.acceptPiece
  dsimp only
  split
  · rw [driveUnit_gauges]; rfl
  · rfl

@[simp] theorem acceptRelease_gauges : (s.acceptRelease n).gauges = s.gauges := by
  unfold State.acceptRelease
  split <;> rfl

@[simp] theorem takeFetchUnit_gauges (u : ReturnedUnit) : (s.takeFetchUnit c u).gauges = s.gauges := by
  unfold State.takeFetchUnit
  dsimp only
  split
  · rfl
  · rw [deliverUnit_gauges]; rfl

@[simp] theorem endHold_gauges (h : Hold) : (s.endHold h c).gauges = s.gauges := by
  unfold State.endHold
  dsimp only
  split
  · rw [enterClose_gauges]; rfl
  · rfl

@[simp] theorem errorInStream_gauges : (s.errorInStream c).gauges = s.gauges := by
  unfold State.errorInStream
  dsimp only
  split
  · rw [enterCancel_gauges]; rfl
  · rfl

@[simp] theorem answerCancel_gauges : (s.answerCancel n).gauges = s.gauges := freeIfDone_gauges n _

@[simp] theorem readEnds_gauges (k : Nat) : (s.readEnds k).gauges = s.gauges := by
  unfold State.readEnds
  split
  · rfl
  · rfl
  · dsimp only
    split <;> rfl

end

end Sys2Proof.Machine
end

