-- ==== Sys2Proof/Proofs/TimerLaws.lean ====
section
/-! SUPPORT. Every step keeps the laws of the gauges, and with those of the range records the laws of timers, counts and the alert
line (R34, R111 to R116, R146 to R165, R170, R171, R181 to R183). -/

namespace Sys2Proof.Machine

section
variable {s t : State}

/-! ## The ports (R27, R75, R113, R114, R136) -/

theorem lawful_noteDegrade (h : s.gauges.Lawful) (b : Bool) : (s.noteDegrade b).gauges.Lawful := by
  unfold State.noteDegrade
  split
  · exact lawful_countRawIgnored h
  · exact h

theorem lawful_refuseRequest (h : s.gauges.Lawful) (f : HeaderFields) (code : Reply) :
    (s.refuseRequest f code).gauges.Lawful := by
  unfold State.refuseRequest
  dsimp only
  have hu : (if code = .parity then (s.answerHeader (.refuse code)).countParity
      else s.answerHeader (.refuse code)).gauges.Lawful := by
    split
    · exact lawful_countParity (s := s.answerHeader (.refuse code)) h
    · exact h
  split
  · split
    · next hc => rw [if_pos hc] at hu; exact hu
    · next hc => rw [if_neg hc] at hu; exact hu
  · exact hu

theorem lawful_upstreamParity (h : s.gauges.Lawful) (c : Context) (taken : Nat) : (s.upstreamParity c taken).gauges.Lawful := by
  unfold State.upstreamParity
  dsimp only
  generalize hu : (({ s with media := s.media.abandon c.number } : State).modCtx c.number (Context.parityFailed
    (({ s with media := s.media.abandon c.number } : State).outstanding c))) = u
  have hlog : (u.countParity.logFault .parityUp (some c) none none).gauges.Lawful :=
    lawful_logFault (lawful_countParity (by rw [← hu]; exact h)) _ _ _ _
  split
  · rw [enterCancel_gauges]; exact hlog
  · exact hlog

theorem lawful_takeBeat (h : s.gauges.Lawful) (c : Context) (taken : Nat) (b : Beat) :
    (s.takeBeat c taken b).gauges.Lawful := by
  have ha : (s.advanceIntake c taken).gauges.Lawful := h
  unfold State.takeBeat
  dsimp only
  split
  · exact lawful_upstreamParity ha c taken
  · split
    · split
      · rw [show ((s.advanceIntake c taken).beginHold c taken b).gauges = s.gauges from endPiece_gauges c.number _]
        exact h
      · exact ha
    · rw [enterSlot_gauges]; exact ha

theorem lawful_downstreamParity (h : s.gauges.Lawful) (c : Context) : (s.downstreamParity c).gauges.Lawful := by
  unfold State.downstreamParity
  rw [enterCancel_gauges]
  exact lawful_logFault (lawful_countParity h) _ _ _ _

/-! ## Answer timers (R92, R111, R142) -/

theorem lawful_expireAnswer (h : s.gauges.Lawful) (c : Context) : (s.expireAnswer c).gauges.Lawful := by
  unfold State.expireAnswer
  dsimp only
  rw [enterCancel_gauges]
  split
  · exact lawful_logFault (lawful_countTimeout h) _ _ _ _
  · exact lawful_countTimeout h

theorem lawful_strand (h : s.gauges.Lawful) (c : Context) : (s.strand c).gauges.Lawful := by
  have hlog : (((s.logFault .cancelTimeout (some c) none none).releasePin c).discardWork c.number).gauges.Lawful := by
    change ((s.logFault .cancelTimeout (some c) none none).releasePin c).gauges.Lawful
    rw [releasePin_gauges]
    exact lawful_logFault h _ _ _ _
  unfold State.strand
  dsimp only
  split <;> exact hlog

theorem lawful_tickAnswer (h : s.gauges.Lawful) (n : CtxNo) : (s.tickAnswer n).gauges.Lawful := by
  unfold State.tickAnswer State.answerTimeout
  split
  · split
    · split
      · rw [takeEligible_gauges]
        split
        · exact lawful_strand h _
        · exact lawful_expireAnswer h _
      · exact h
    · exact h
  · exact h

theorem lawful_answerTicks (h : s.gauges.Lawful) : s.answerTicks.gauges.Lawful := by
  unfold State.answerTicks
  generalize (s.contexts.filter fun c => s.countsTick c).map (fun c => c.number) = l
  induction l generalizing s with
  | nil => exact h
  | cons n l ih => exact ih (lawful_tickAnswer h n)

/-! ## The monitor (R32, R46, R64, R163, R168) -/

theorem lawful_windowMismatch (h : s.gauges.Lawful) (i : WindowNo) : (s.windowMismatch i).gauges.Lawful := by
  have hu : ((s.reportMismatch .window i.val).writeWindow i { s.decoder.windows[i] with treatment := .faulted }).gauges.Lawful :=
    lawful_reportMismatch h _ _
  unfold State.windowMismatch
  dsimp only
  generalize (s.reportMismatch .window i.val).writeWindow i { s.decoder.windows[i] with treatment := .faulted } = u at hu ⊢
  split
  · split
    · next hd =>
      have hdwell : ({ u with contain := { u.contain with dwell := some 50 } } : State).gauges = { u.gauges with
          device := .contained, dwell := some 50 } := by rw [← hd]; rfl
      exact lawful_raise (by rw [hdwell]; exact hu.dwellStarted) .contained
    · exact lawful_enterContained hu
  · exact hu

theorem lawful_slotMismatch (h : s.gauges.Lawful) (k : SlotNo) : (s.slotMismatch k).gauges.Lawful := by
  have hu := lawful_reportMismatch h .key k.val
  unfold State.slotMismatch
  dsimp only
  split
  · rw [scrub_gauges]; exact hu
  · rw [scrub_gauges]; exact hu
  · exact hu
  · exact hu
  · exact h

theorem lawful_visit (h : s.gauges.Lawful) (cursor : Fin 56) : (s.visit cursor).gauges.Lawful := by
  unfold State.visit
  split
  · dsimp only
    split
    · exact h
    · exact lawful_windowMismatch h _
  · split
    · dsimp only
      split
      · exact lawful_reportMismatch h _ _
      · exact h
    · dsimp only
      split
      · exact lawful_slotMismatch h _
      · exact h

theorem lawful_monitorTick (h : s.gauges.Lawful) : s.monitorTick.gauges.Lawful := by
  unfold State.monitorTick
  split
  · rw [takeEligible_gauges]
    exact lawful_visit h s.contain.cursor
  · exact h

/-! ## The coarse timers (R149, R152, R155, R164) -/

theorem lawful_expireIdle (h : s.gauges.Lawful) (i : RangeNo) : (s.expireIdle i).gauges.Lawful := h.follow _ _

theorem lawful_lapsePresence (h : s.gauges.Lawful) : s.lapsePresence.gauges.Lawful :=
  (h.withPresence (p := .lapsed) fun n m hp => by cases hp).follow _ _

theorem lawful_tickIdle (h : s.gauges.Lawful) (i : RangeNo) : (s.tickIdle i).gauges.Lawful := by
  unfold State.tickIdle
  split
  · split
    · split
      · exact lawful_expireIdle h i
      · exact h
    · exact h
  · exact h

theorem lawful_idleTicks (h : s.gauges.Lawful) : s.idleTicks.gauges.Lawful := by
  unfold State.idleTicks
  generalize List.finRange 16 = l
  induction l generalizing s with
  | nil => exact h
  | cons i l ih => exact ih (lawful_tickIdle h i)

/-- A tick of an ARMED presence timer that is not its last leaves at least one (R152). -/
theorem lawful_presenceTick (h : s.gauges.Lawful) : s.presenceTick.gauges.Lawful := by
  unfold State.presenceTick
  split
  · next interval remaining hp =>
    split
    · exact h
    · split
      · exact lawful_lapsePresence h
      · refine h.withPresence (p := .armed interval (remaining - 1)) fun n m hnm => ?_
        obtain ⟨h1, h2, h3, h4⟩ := h.presence interval remaining hp
        cases hnm
        omega
  · exact h

/-- A tick of a running dwell that is not its last leaves at least one (R164). -/
theorem lawful_dwellTick (h : s.gauges.Lawful) : s.dwellTick.gauges.Lawful := by
  unfold State.dwellTick
  split
  · next n hn =>
    split
    · exact h
    · obtain ⟨hd, h1, h50⟩ := h.dwell n hn
      split
      · exact h.dwellEnded s.contain.device
      · refine { h with dwell := fun m hm => ?_ }
        cases hm
        exact ⟨hd, by omega, by omega⟩
  · exact h

theorem lawful_coarsePart (h : s.gauges.Lawful) : s.coarsePart.gauges.Lawful := by
  have hticks : (if Config.tickOrder s.choices then s.idleTicks.presenceTick else s.presenceTick.idleTicks).gauges.Lawful := by
    split
    · exact lawful_presenceTick (lawful_idleTicks h)
    · exact lawful_idleTicks (lawful_presenceTick h)
  unfold State.coarsePart
  split
  · exact lawful_dwellTick hticks
  · exact h

theorem lawful_fineTick (h : s.gauges.Lawful) : s.fineTick.gauges.Lawful := by
  have hticks : (if Config.tickOrder s.start.choices then s.start.answerTicks.monitorTick
      else s.start.monitorTick.answerTicks).gauges.Lawful := by
    split
    · exact lawful_monitorTick (lawful_answerTicks (s := s.start) h)
    · exact lawful_answerTicks (lawful_monitorTick (s := s.start) h)
  unfold State.fineTick
  dsimp only
  generalize (if Config.tickOrder s.start.choices then s.start.answerTicks.monitorTick else s.start.monitorTick.answerTicks) = u
    at hticks ⊢
  exact lawful_coarsePart (s := { u with choices := u.choices + 1 }) hticks

/-! ## The owners of the key link's commands (R116, R153, R154, R161, R165, R171, R181 to R183) -/

/-- The clamp of R153. -/
theorem clampInterval_bounds (n : Nat) : 10 ≤ clampInterval n ∧ clampInterval n ≤ 6000 := by
  unfold clampInterval
  omega

theorem lawful_ownGo (h : s.gauges.Lawful) : s.ownGo.1.gauges.Lawful := by
  unfold State.ownGo
  split
  · next hd => exact h.withDevice (by rw [show s.gauges.device = .config from hd]; decide) .service
  · exact h

theorem lawful_ownRecover (h : s.gauges.Lawful) : s.ownRecover.1.gauges.Lawful := by
  have hu : s.recovered.gauges.Lawful :=
    (h.dwellEnded .selfTest).withPresence (p := .idle) fun n m hp => by cases hp
  unfold State.ownRecover
  split
  · exact h
  · split
    · exact h
    · rw [recoverAll_eq]
      split
      · exact lawful_raise hu _
      · exact hu

theorem lawful_ownArmPresence (h : s.gauges.Lawful) (n : BitVec 16) : (s.ownArmPresence n).1.gauges.Lawful := by
  unfold State.ownArmPresence
  split
  · exact h
  · split
    · exact h
    · refine h.withPresence (p := .armed (clampInterval n.toNat) (clampInterval n.toNat)) fun a b hab => ?_
      obtain ⟨h1, h2⟩ := clampInterval_bounds n.toNat
      cases hab
      omega

theorem lawful_ownRenew (h : s.gauges.Lawful) : s.ownRenew.1.gauges.Lawful := by
  unfold State.ownRenew
  split
  · exact h
  · split
    · next n m hp =>
      refine h.withPresence (p := .armed n n) fun a b hab => ?_
      obtain ⟨h1, h2, -⟩ := h.presence n m hp
      cases hab
      omega
    · exact h

theorem lawful_ownSetAlert (h : s.gauges.Lawful) (e : BitVec 16) : (s.ownSetAlert e).1.gauges.Lawful := by
  unfold State.ownSetAlert
  split
  · exact h
  · split
    · exact h
    · exact h.follow _ _

theorem lawful_ownClearEvents (h : s.gauges.Lawful) (e : BitVec 16) : (s.ownClearEvents e).1.gauges.Lawful := by
  unfold State.ownClearEvents
  split
  · exact h
  · split
    · exact h
    · dsimp only
      split <;> exact h.follow _ _

theorem lawful_ownClearFault (h : s.gauges.Lawful) : s.ownClearFault.1.gauges.Lawful := by
  unfold State.ownClearFault
  split
  · exact h
  · exact { h with count := Nat.zero_le _, first := by simp [State.gauges] }

theorem lawful_ownClearTallies (h : s.gauges.Lawful) : s.ownClearTallies.1.gauges.Lawful := by
  unfold State.ownClearTallies
  split
  · exact h
  · exact { h with parity := Nat.zero_le _, timeout := Nat.zero_le _, rawIgnored := Nat.zero_le _ }

theorem lawful_ownScrubKey (h : s.gauges.Lawful) (slot : Byte) : (s.ownScrubKey slot).1.gauges.Lawful := by
  unfold State.ownScrubKey
  split
  · exact h
  · split
    · exact h
    · split
      · rw [takeEligible_gauges, scrub_gauges]; exact h
      · rw [takeEligible_gauges, scrub_gauges]; exact h
      · exact h
      · exact h
      · exact h

/-- Every command's owner keeps the laws of the gauges; those of tables and reads touch none. -/
theorem lawful_owner (h : s.gauges.Lawful) (c : LinkCommand) : (c.owner s).1.gauges.Lawful := by
  cases c with
  | scrubKey => exact lawful_ownScrubKey h _
  | go => exact lawful_ownGo h
  | recover => exact lawful_ownRecover h
  | armPresence => exact lawful_ownArmPresence h _
  | renew => exact lawful_ownRenew h
  | setAlert => exact lawful_ownSetAlert h _
  | clearEvents => exact lawful_ownClearEvents h _
  | clearFault => exact lawful_ownClearFault h
  | clearTallies => exact lawful_ownClearTallies h
  | status => exact h
  | readFault | readAbort | loadKey | flushSchedules | setRange | openRange | lockRange | setWindow | setLimit | freeze =>
    simp only [LinkCommand.owner, State.ownReadFault, State.ownReadAbort, State.ownLoadKey, State.ownFlush, State.ownSetRange,
      State.ownOpenRange, State.ownLockRange, State.ownSetWindow, State.ownSetLimit, State.ownFreeze]
    repeat' split
    all_goals exact h

theorem lawful_judged (h : s.gauges.Lawful) (b : Bool) (c : LinkCommand) : (s.judged b c.owner).gauges.Lawful := by
  unfold State.judged
  split
  · exact h
  · exact lawful_owner h c

theorem lawful_judgeBytes (h : s.gauges.Lawful) (bytes : List Byte) (n : Nat) : (s.judgeBytes bytes n).gauges.Lawful := by
  unfold State.judgeBytes
  split
  · exact h
  · exact lawful_judged h _ _

theorem lawful_commandEnds (h : s.gauges.Lawful) {n : Nat} {judge : State → State}
    (hj : ∀ u : State, u.gauges.Lawful → (judge u).gauges.Lawful) : (s.commandEnds n judge).gauges.Lawful := by
  unfold State.commandEnds
  dsimp only
  split
  · exact hj _ h
  · exact h
  · exact h

/-! ## The actions -/

/-- An outcome whose next state keeps the laws of the gauges. -/
def State.KeepsLawful (s : State) (o : Host.Outcome State Fault Refusal) : Prop :=
  ∀ t, o = .next t → s.gauges.Lawful → t.gauges.Lawful

@[simp] theorem keepsLawful_next : s.KeepsLawful (.next t) ↔ (s.gauges.Lawful → t.gauges.Lawful) :=
  ⟨fun h => h t rfl, fun h u hu => by cases hu; exact h⟩

/-- An outcome that leaves every gauge as it was. -/
theorem keepsLawful_same (h : t.gauges = s.gauges) : s.KeepsLawful (.next t) := keepsLawful_next.2 fun hs => by rw [h]; exact hs

/-- An arrival keeps the laws if every taking of it does. -/
theorem keepsLawful_onArrival {n : CtxNo} {f : Context → Host.Outcome State Fault Refusal} (h : ∀ c, s.KeepsLawful (f c)) :
    s.KeepsLawful (s.onArrival n f) := by
  unfold State.onArrival
  split
  · exact keepsLawful_same rfl
  · exact keepsLawful_same rfl
  · next c _ => exact h c

theorem keepsLawful_cancelArrival (n : CtxNo) (s : State) : s.KeepsLawful (s.cancelArrival n) := by
  unfold State.cancelArrival
  repeat' split
  all_goals exact keepsLawful_same (by simp)

end

section
variable (s : State)

/-! ### Reset, self-test and the controller clear (R96, R118, R160) -/

theorem keepsLawful_powerOnReset (b : Bool) : s.KeepsLawful (execPowerOnReset b s) :=
  keepsLawful_next.2 fun _ => (timerLaws_iff.1 timerLaws_reset).1

theorem keepsLawful_selfTestEnd (f : Option KnownAnswerTest) : s.KeepsLawful (execSelfTestEnd f s) := by
  unfold execSelfTestEnd
  split
  · next hd =>
    have hdev : s.gauges.device ≠ .contained := by rw [show s.gauges.device = .selfTest from hd.1]; decide
    split
    · exact keepsLawful_next.2 fun h => (h.withDevice hdev .config).follow _ _
    · exact keepsLawful_next.2 fun h => lawful_enterContained (lawful_logFault (s := s.start) h _ _ _ _)
  · exact keepsLawful_same rfl

theorem keepsLawful_segmentClear : s.KeepsLawful (execSegmentClear s) := by
  unfold execSegmentClear
  split
  · exact keepsLawful_same rfl
  · split
    · exact keepsLawful_same rfl
    · exact keepsLawful_next.2 fun h => h.follow _ _

/-! ### The controller port (R27, R74, R77, R79, R83, R113) -/

theorem keepsLawful_requestHeader (h : Header) : s.KeepsLawful (execRequestHeader h s) := by
  unfold execRequestHeader
  split
  · cases hr : s.ruling h with
    | refuse code d =>
      exact keepsLawful_next.2 fun hs => lawful_refuseRequest (lawful_noteDegrade (s := s.start) hs d) _ code
    | admitted p w cap d =>
      obtain ⟨n, hn⟩ := lowestFree_of_admitted hr
      obtain ⟨r, c, k, x, i, ht⟩ := admitRequest_frame (s := s.start.noteDegrade d)
        ((lowestFree_congr (s := s) (by simp)).trans hn) (readHeader h) p w cap
      refine keepsLawful_next.2 fun hs => ?_
      rw [ht]
      exact lawful_noteDegrade (s := s.start) hs d
  · exact keepsLawful_same rfl

theorem keepsLawful_storeBeat (b : Beat) : s.KeepsLawful (execStoreBeat b s) := by
  unfold execStoreBeat
  split
  · split
    · split
      · exact keepsLawful_same (by simp)
      · split
        · refine keepsLawful_next.2 fun h => ?_
          rw [takeEligible_gauges]
          exact lawful_takeBeat (s := s.start) h _ _ _
        · exact keepsLawful_same rfl
    · exact keepsLawful_same rfl
  · exact keepsLawful_same (by simp)
  · exact keepsLawful_same rfl

theorem keepsLawful_beatDropped : s.KeepsLawful (execBeatDropped s) := by
  unfold execBeatDropped
  repeat' split
  all_goals exact keepsLawful_same (by simp)

theorem keepsLawful_returnPathDelivery : s.KeepsLawful (execReturnPathDelivery s) := by
  unfold execReturnPathDelivery
  split <;> exact keepsLawful_same rfl

/-! ### The engines and the expander (R4, R7, R13, R63, R124, R127) -/

theorem keepsLawful_sectorTweak (n : CtxNo) : s.KeepsLawful (execSectorTweak n s) := by
  unfold execSectorTweak
  dsimp only
  repeat' split
  all_goals exact keepsLawful_same rfl

theorem keepsLawful_catchUp (n : CtxNo) : s.KeepsLawful (execCatchUp n s) := by
  unfold execCatchUp
  repeat' split
  all_goals exact keepsLawful_same rfl

/-- A disturbed unit is logged and contains the device; a sound one touches no gauge. -/
theorem keepsLawful_outboundVerify (d : Block) : s.KeepsLawful (execOutboundVerify d s) := by
  unfold execOutboundVerify
  split
  · split
    · split
      · dsimp only
        split
        · repeat' split
          all_goals exact keepsLawful_same (by simp)
        · exact keepsLawful_next.2 fun h => lawful_enterContained (lawful_logFault (s := s.start.clearOutbound) h _ _ _ _)
      · exact keepsLawful_same rfl
    · exact keepsLawful_same rfl
  · exact keepsLawful_same rfl

theorem keepsLawful_inboundDecipher : s.KeepsLawful (execInboundDecipher s) := by
  unfold execInboundDecipher
  dsimp only
  repeat' split
  all_goals exact keepsLawful_same (by simp)

theorem keepsLawful_expansionStart : s.KeepsLawful (execExpansionStart s) := by
  unfold execExpansionStart
  repeat' split
  all_goals exact keepsLawful_same (by simp)

theorem keepsLawful_expansionCompletion : s.KeepsLawful (execExpansionCompletion s) := by
  unfold execExpansionCompletion
  dsimp only
  split
  · split
    · exact keepsLawful_same (takeEligible_gauges _)
    · exact keepsLawful_same (takeEligible_gauges _)
  · exact keepsLawful_same rfl

theorem keepsLawful_erasureCompletion (k : SlotNo) : s.KeepsLawful (execErasureCompletion k s) := by
  unfold execErasureCompletion
  split
  · next keys cause hb =>
    refine keepsLawful_next.2 fun h => ?_
    rw [takeEligible_gauges]
    cases cause
    · exact h.follow _ _
    · exact h
  · exact keepsLawful_same rfl

/-! ### The media port (R82, R85, R104 to R115, R138 to R141) -/

theorem keepsLawful_accept (n : CtxNo) (kind : MediaRequest) : s.KeepsLawful (execAccept n kind s) := by
  refine keepsLawful_onArrival fun c => ?_
  cases kind <;> dsimp only
  all_goals repeat' split
  all_goals exact keepsLawful_same (by simp)

theorem keepsLawful_fetchUnit (n : CtxNo) (u : ReturnedUnit) : s.KeepsLawful (execFetchUnit n u s) := by
  refine keepsLawful_onArrival fun c => ?_
  split
  · split
    · exact keepsLawful_same rfl
    · split
      · exact keepsLawful_same rfl
      · split
        · exact keepsLawful_same (by simp)
        · refine keepsLawful_next.2 fun h => ?_
          rw [takeEligible_gauges]
          exact lawful_downstreamParity (s := s.start) h c
  · exact keepsLawful_same rfl

theorem keepsLawful_holdFetchUnit (n : CtxNo) (u : ReturnedUnit) : s.KeepsLawful (execHoldFetchUnit n u s) := by
  refine keepsLawful_onArrival fun c => ?_
  split
  · split
    · split
      · exact keepsLawful_same rfl
      · split
        · exact keepsLawful_same rfl
        · refine keepsLawful_next.2 fun h => ?_
          rw [takeEligible_gauges]
          exact lawful_downstreamParity (s := s.start) h c
    · exact keepsLawful_same rfl
  · exact keepsLawful_same rfl

theorem keepsLawful_fetchDone (n : CtxNo) : s.KeepsLawful (execFetchDone n s) := by
  refine keepsLawful_onArrival fun c => ?_
  dsimp only
  repeat' split
  all_goals exact keepsLawful_same (by simp)

theorem keepsLawful_pieceDone (n : CtxNo) : s.KeepsLawful (execPieceDone n s) := by
  refine keepsLawful_onArrival fun c => ?_
  dsimp only
  repeat' split
  all_goals exact keepsLawful_same (by simp)

theorem keepsLawful_holdFetchDone (n : CtxNo) : s.KeepsLawful (execHoldFetchDone n s) := by
  refine keepsLawful_onArrival fun c => ?_
  split
  · split
    · exact keepsLawful_same rfl
    · split
      · exact keepsLawful_same (by simp)
      · exact keepsLawful_same (tryRelease_gauges _)
  · exact keepsLawful_same rfl

theorem keepsLawful_releaseStoreDone (n : CtxNo) : s.KeepsLawful (execReleaseStoreDone n s) := by
  refine keepsLawful_onArrival fun c => ?_
  dsimp only
  repeat' split
  all_goals exact keepsLawful_same (by simp)

theorem keepsLawful_mediaError (n : CtxNo) (kind : MediaRequest) : s.KeepsLawful (execMediaError n kind s) := by
  cases kind with
  | cancel => exact keepsLawful_cancelArrival n s
  | store =>
    refine keepsLawful_onArrival fun c => ?_
    dsimp only
    repeat' split
    all_goals exact keepsLawful_same (by simp)
  | fetch | holdFetch | releaseStore =>
    refine keepsLawful_onArrival fun c => ?_
    repeat' split
    all_goals exact keepsLawful_same (by simp)

theorem keepsLawful_unroutableArrival : s.KeepsLawful (execUnroutableArrival s) := by
  unfold execUnroutableArrival
  split
  · exact keepsLawful_same rfl
  · split
    · exact keepsLawful_same rfl
    · exact keepsLawful_next.2 fun h => lawful_logFault (lawful_countParity h) _ _ _ _

/-! ### The rows of timers and monitor (R110, R111, R146, R149, R155, R164, R167) -/

theorem keepsLawful_answerTimerExpiry (n : CtxNo) : s.KeepsLawful (execAnswerTimerExpiry n s) := by
  unfold execAnswerTimerExpiry
  split
  · split
    · refine keepsLawful_next.2 fun h => ?_
      rw [takeEligible_gauges]
      exact lawful_expireAnswer (s := s.start.noteAnswer n) h _
    · exact keepsLawful_same rfl
  · exact keepsLawful_same rfl

theorem keepsLawful_cancelTimeout (n : CtxNo) : s.KeepsLawful (execCancelTimeout n s) := by
  unfold execCancelTimeout
  split
  · split
    · refine keepsLawful_next.2 fun h => ?_
      rw [takeEligible_gauges]
      exact lawful_strand (s := s.start.noteAnswer n) h _
    · exact keepsLawful_same rfl
  · exact keepsLawful_same rfl

theorem keepsLawful_tableMonitorVisit : s.KeepsLawful (execTableMonitorVisit s) := by
  unfold execTableMonitorVisit
  split
  · exact keepsLawful_next.2 fun h => lawful_monitorTick (s := s.start) h
  · exact keepsLawful_same rfl

theorem keepsLawful_idleExpiry (i : RangeNo) : s.KeepsLawful (execIdleExpiry i s) := by
  unfold execIdleExpiry
  split
  · exact keepsLawful_next.2 fun h => lawful_expireIdle (s := { s.start with marks := _ }) h i
  · exact keepsLawful_same rfl

theorem keepsLawful_presenceLapse : s.KeepsLawful (execPresenceLapse s) := by
  unfold execPresenceLapse
  split
  · split
    · exact keepsLawful_next.2 fun h => lawful_lapsePresence (s := { s.start with marks := _ }) h
    · exact keepsLawful_same rfl
  · exact keepsLawful_same rfl

theorem keepsLawful_dwellEnd : s.KeepsLawful (execDwellEnd s) := by
  unfold execDwellEnd
  split
  · split
    · exact keepsLawful_next.2 fun h => h.dwellEnded s.contain.device
    · exact keepsLawful_same rfl
  · exact keepsLawful_same rfl

/-! ### The key link (R172 to R176) -/

theorem keepsLawful_linkRow (c : LinkCommand) : s.KeepsLawful (linkRow c c.owner s) :=
  keepsLawful_next.2 fun h => lawful_commandEnds h fun _ hu => lawful_judged hu _ c

theorem keepsLawful_commandPeriod (first rest : List Bool) : s.KeepsLawful (execCommandPeriod first rest s) := by
  unfold execCommandPeriod
  dsimp only
  split
  · exact keepsLawful_same rfl
  · split
    · exact keepsLawful_same (readEnds_gauges _ _)
    · exact keepsLawful_next.2 fun h => lawful_commandEnds h fun _ hu => lawful_judgeBytes hu _ _

theorem keepsLawful_preparationEnd : s.KeepsLawful (execPreparationEnd s) := by
  unfold execPreparationEnd
  split <;> exact keepsLawful_same rfl

theorem keepsLawful_readPeriod (n : Nat) : s.KeepsLawful (execReadPeriod n s) := by
  unfold execReadPeriod
  split
  · exact keepsLawful_same rfl
  · exact keepsLawful_same (readEnds_gauges _ _)

/-- Every command keeps the laws of the gauges. -/
theorem keepsLawful_exec (c : Instr) : s.KeepsLawful (exec c s) := by
  cases c with
  | powerOnReset => exact keepsLawful_powerOnReset s _
  | selfTestEnd => exact keepsLawful_selfTestEnd s _
  | segmentClear => exact keepsLawful_segmentClear s
  | requestHeader => exact keepsLawful_requestHeader s _
  | storeBeat => exact keepsLawful_storeBeat s _
  | beatDropped => exact keepsLawful_beatDropped s
  | returnPathDelivery => exact keepsLawful_returnPathDelivery s
  | sectorTweak => exact keepsLawful_sectorTweak s _
  | catchUp => exact keepsLawful_catchUp s _
  | outboundVerify => exact keepsLawful_outboundVerify s _
  | inboundDecipher => exact keepsLawful_inboundDecipher s
  | segmentClearDeasserted | fetchIssue | pieceIssue | cancelIssue =>
    simp only [exec, execSegmentClearDeasserted, execFetchIssue, execPieceIssue, execCancelIssue]
    split <;> exact keepsLawful_same rfl
  | accept => exact keepsLawful_accept s _ _
  | fetchUnit => exact keepsLawful_fetchUnit s _ _
  | holdFetchUnit => exact keepsLawful_holdFetchUnit s _ _
  | fetchDone => exact keepsLawful_fetchDone s _
  | pieceDone => exact keepsLawful_pieceDone s _
  | holdFetchDone => exact keepsLawful_holdFetchDone s _
  | releaseStoreDone => exact keepsLawful_releaseStoreDone s _
  | mediaError => exact keepsLawful_mediaError s _ _
  | cancelAnswer => exact keepsLawful_cancelArrival _ s
  | unroutableArrival => exact keepsLawful_unroutableArrival s
  | answerTimerExpiry => exact keepsLawful_answerTimerExpiry s _
  | cancelTimeout => exact keepsLawful_cancelTimeout s _
  | expansionStart => exact keepsLawful_expansionStart s
  | expansionCompletion => exact keepsLawful_expansionCompletion s
  | erasureCompletion => exact keepsLawful_erasureCompletion s _
  | tableMonitorVisit => exact keepsLawful_tableMonitorVisit s
  | idleExpiry => exact keepsLawful_idleExpiry s _
  | presenceLapse => exact keepsLawful_presenceLapse s
  | dwellEnd => exact keepsLawful_dwellEnd s
  | commandPeriod => exact keepsLawful_commandPeriod s _ _
  | preparationEnd => exact keepsLawful_preparationEnd s
  | readPeriod => exact keepsLawful_readPeriod s _
  | status => exact keepsLawful_linkRow s .status
  | readFault => exact keepsLawful_linkRow s .readFault
  | readAbort => exact keepsLawful_linkRow s .readAbort
  | loadKey slot d t => exact keepsLawful_linkRow s (.loadKey slot d t)
  | scrubKey slot => exact keepsLawful_linkRow s (.scrubKey slot)
  | flushSchedules => exact keepsLawful_linkRow s .flushSchedules
  | setRange i f c b l t => exact keepsLawful_linkRow s (.setRange i f c b l t)
  | openRange i m => exact keepsLawful_linkRow s (.openRange i m)
  | lockRange i => exact keepsLawful_linkRow s (.lockRange i)
  | setWindow i t f l d m r => exact keepsLawful_linkRow s (.setWindow i t f l d m r)
  | setLimit n => exact keepsLawful_linkRow s (.setLimit n)
  | freeze => exact keepsLawful_linkRow s .freeze
  | go => exact keepsLawful_linkRow s .go
  | recover => exact keepsLawful_linkRow s .recover
  | armPresence n => exact keepsLawful_linkRow s (.armPresence n)
  | renew => exact keepsLawful_linkRow s .renew
  | setAlert e => exact keepsLawful_linkRow s (.setAlert e)
  | clearEvents e => exact keepsLawful_linkRow s (.clearEvents e)
  | clearFault => exact keepsLawful_linkRow s .clearFault
  | clearTallies => exact keepsLawful_linkRow s .clearTallies

end

/-- Every step keeps the laws of the gauges: a command's action, or a fine tick. -/
theorem lawful_step {s t : State} (hs : s.gauges.Lawful) (h : step s = .next t) : t.gauges.Lawful := by
  unfold step at h
  split at h
  · cases h
    exact lawful_fineTick hs
  · next c rest _ => exact keepsLawful_exec _ c t h hs

/-- Settles O56: every step keeps the laws of the gauges, and leaves every range record timed. -/
theorem everyStepKeepsTimerLaws : Obligations.every_step_keeps_timer_laws := by
  unfold Obligations.every_step_keeps_timer_laws
  intro s t hs h
  obtain ⟨hg, hi⟩ := timerLaws_iff.1 hs
  exact timerLaws_iff.2 ⟨lawful_step hg h, idleLaw_iff.2 fun i => (step_run h).timed i (idleLaw_iff.1 hi i)⟩

end Sys2Proof.Machine
end

