-- ==== Sys2Proof/Proofs/RangeTimers.lean ====
section
/-! SUPPORT. The ends of idle and presence timers, and ARM-PRESENCE and RENEW (R45, R48, R146 to R156). -/

namespace Sys2Proof.Machine

/-- A set of sixteen with one bit more (R151). -/
theorem getLsbD_or_bit (x : BitVec 16) (i : RangeNo) (j : Nat) :
    (x ||| (1#16 <<< i.val)).getLsbD j = (x.getLsbD j || decide (j = i.val)) := by
  rw [BitVec.getLsbD_or, ← BitVec.twoPow_eq, BitVec.getLsbD_twoPow, decide_eq_true i.isLt, Bool.true_and]
  simp only [eq_comm]

section
variable {s : State}

/-! ## The idle timer's end (R48, R149, R151) -/

/-- The coarse tick to come acts on a range's idle timer while it runs and no row has given it that tick (R148, log entry 5). -/
theorem idleCounts_iff {i : RangeNo} :
    s.idleCounts i = true ↔ s.ranges[i].isOpen = true ∧ s.ranges[i].idleInterval ≠ 0 ∧
      s.ranges[i].idleRemaining.isSome = true ∧ s.marks.tickedIdle.getLsbD i.val = false := by
  unfold State.idleCounts Range.idleRunning
  rw [Bool.and_eq_true, Bool.and_eq_true, Bool.and_eq_true, bne_iff_ne, Bool.not_eq_true', and_assoc, and_assoc]

/-- The state in which the row has given range i's idle timer the tick to come (log entry 5). -/
def State.idleTicked (i : RangeNo) (s : State) : State :=
  { s.start with marks := { s.marks with tickedIdle := s.marks.tickedIdle ||| (1#16 <<< i.val) } }

theorem execIdleExpiry_expires {i : RangeNo} {n : Nat} (ho : s.ranges[i].isOpen = true) (hz : s.ranges[i].idleInterval ≠ 0)
    (hr : s.ranges[i].idleRemaining = some n) (hn : n ≤ 1) (hp : s.time.coarsePhase ≤ 1)
    (hm : s.marks.tickedIdle.getLsbD i.val = false) : execIdleExpiry i s = .next ((s.idleTicked i).expireIdle i) := by
  have hruns : s.idleCounts i = true := idleCounts_iff.2 ⟨ho, hz, by rw [hr]; rfl, hm⟩
  unfold execIdleExpiry
  exact if_pos ⟨decide_eq_true hp, hruns, by rw [hr]; exact decide_eq_true hn⟩

theorem execIdleExpiry_untaken {i : RangeNo} {n : Nat} (hr : s.ranges[i].idleRemaining = some n)
    (h : 2 ≤ n ∨ 2 ≤ s.time.coarsePhase ∨ s.marks.tickedIdle.getLsbD i.val = true) : execIdleExpiry i s = .next s.untaken := by
  unfold execIdleExpiry
  refine if_neg ?_
  rintro ⟨hp, hc, hn⟩
  rw [hr] at hn
  have hp : s.time.coarsePhase ≤ 1 := of_decide_eq_true hp
  have hn : n ≤ 1 := of_decide_eq_true hn
  rcases h with h | h | h
  · omega
  · omega
  · rw [(idleCounts_iff.1 hc).2.2.2] at h; cases h

/-! ## The presence timer's end (R45, R155) -/

/-- The state in which the row has given the presence timer the tick to come (log entry 5). -/
def State.presenceTicked (s : State) : State := { s.start with marks := { s.marks with tickedPresence := true } }

theorem execPresenceLapse_lapses {n m : Nat} (ha : s.time.presence = .armed n m) (hn : m ≤ 1) (hp : s.time.coarsePhase ≤ 1)
    (hm : s.marks.tickedPresence = false) :
    execPresenceLapse s = .next s.presenceTicked.lapsePresence := by
  unfold execPresenceLapse
  rw [ha]
  exact if_pos ⟨decide_eq_true hp, hm, hn⟩

theorem execPresenceLapse_untaken {n m : Nat} (ha : s.time.presence = .armed n m)
    (h : 2 ≤ m ∨ 2 ≤ s.time.coarsePhase ∨ s.marks.tickedPresence = true) : execPresenceLapse s = .next s.untaken := by
  unfold execPresenceLapse
  rw [ha]
  refine if_neg ?_
  rintro ⟨hp, hm, hn⟩
  have hp : s.time.coarsePhase ≤ 1 := of_decide_eq_true hp
  rcases h with h | h | h
  · omega
  · omega
  · rw [hm] at h; cases h

/-- What a lapse changes: ranges, the presence timer and the events (R155). -/
theorem lapsePresence_eq (s : State) :
    s.lapsePresence = { s with
      ranges := (s.lockRanges fun r => r.lockOnAbsence).ranges
      time := { s.time with presence := .lapsed }
      events := .follow (s.pendingWith .absence) s.events.enables } := rfl

/-- The record of a range locked on absence, or left as it is (R45). -/
theorem lockRanges_record (p : Range → Bool) (i : RangeNo) (s : State) :
    (s.lockRanges p).ranges[i] =
      if p s.ranges[i] = true ∧ s.ranges[i].isOpen = true then
        Range.sealed i { s.ranges[i] with state := .locked, idleRemaining := none }
      else s.ranges[i] := by
  rw [lockRanges_get]
  unfold Range.lock
  split
  · next h => simp only [h, true_and]
  · next h => rw [if_neg (fun hp => h hp.1)]

/-! ## ARM-PRESENCE and RENEW (R153, R154) -/

theorem armPresence_frame_length (n : BitVec 16) : (LinkCommand.armPresence n).frame.length = 6 := by
  rw [frame_length]
  simp [LinkCommand.payload]

theorem renew_frame_length : LinkCommand.renew.frame.length = 4 := frame_length _

/-- The clamp of R153, by its cases. -/
theorem clampInterval_eq (n : Nat) : clampInterval n = if n < 10 then 10 else if 6000 < n then 6000 else n := by
  unfold clampInterval
  split
  · omega
  · split <;> omega

theorem ownArmPresence_armed {n : BitVec 16} {a b : Nat} (hd : s.contain.device ≠ .selfTest)
    (ha : s.time.presence = .armed a b) : s.ownArmPresence n = (s, .refused .armed) := by
  unfold State.ownArmPresence
  rw [if_neg hd, ha]

theorem ownArmPresence_arms {n : BitVec 16} (hd : s.contain.device ≠ .selfTest)
    (ha : ∀ a b, s.time.presence ≠ .armed a b) :
    s.ownArmPresence n =
      ({ s with time := { s.time with presence := .armed (clampInterval n.toNat) (clampInterval n.toNat) } },
        .done (leBytes 2 (clampInterval n.toNat))) := by
  unfold State.ownArmPresence
  rw [if_neg hd]
  split
  · next a b hab => exact absurd hab (ha a b)
  · rfl

theorem ownRenew_restarts {a b : Nat} (hd : s.contain.device ≠ .selfTest) (ha : s.time.presence = .armed a b) :
    s.ownRenew = ({ s with time := { s.time with presence := .armed a a } }, .done []) := by
  unfold State.ownRenew
  rw [if_neg hd, ha]

theorem ownRenew_refused (hd : s.contain.device ≠ .selfTest) (ha : ∀ a b, s.time.presence ≠ .armed a b) :
    s.ownRenew = (s, .refused .notArmed) := by
  unfold State.ownRenew
  rw [if_neg hd]
  split
  · next a b hab => exact absurd hab (ha a b)
  · rfl

/-- Two bytes of an interval, least significant first (R172). -/
theorem leBytes_two (m : Nat) : leBytes 2 m = [BitVec.ofNat 8 m, BitVec.ofNat 8 (m / 256)] := by
  simp [leBytes, List.range_succ, Nat.shiftRight_eq_div_pow]

end

/-- Settles O35: the row takes the timer's last tick, and no other. -/
theorem idleExpiryLocksRange : Obligations.idle_expiry_locks_range := by
  unfold Obligations.idle_expiry_locks_range
  intro i n s ho hz hr
  refine ⟨fun hn hp hm => ?_, fun h => execIdleExpiry_untaken hr h⟩
  exact ⟨_, execIdleExpiry_expires ho hz hr hn hp hm, (getElem_set_fin _ i i _).trans (if_pos rfl),
    fun j hj => (getElem_set_fin _ i j _).trans (if_neg (Ne.symm hj)),
    fun j _ => getLsbD_or_bit s.time.idleLocked i j, fun j _ => getLsbD_or_bit s.marks.tickedIdle i j, rfl⟩

/-- Settles O36: the two commands by the presence state, and the row at the timer's last tick and at no other. -/
theorem presenceTimerRunsItsCourse : Obligations.presence_timer_runs_its_course := by
  unfold Obligations.presence_timer_runs_its_course
  refine ⟨fun n s hl hd => ⟨fun a b ha => ?_, fun m ha hm => ?_⟩, fun s hl hd => ⟨fun a b ha => ?_, fun ha => ?_⟩,
    fun n m s ha h => execPresenceLapse_untaken ha h, fun n m s ha hn hp hm => ?_⟩
  · exact linkRow_answers hl (.inl hd) (armPresence_frame_length n) (ownArmPresence_armed (s := s.heard 6) hd ha)
  · have hclamp : m = clampInterval n.toNat := hm.trans (clampInterval_eq _).symm
    subst hclamp
    rw [← leBytes_two]
    exact linkRow_answers (t := { s with time := { s.time with presence := .armed (clampInterval n.toNat) (clampInterval n.toNat) } })
      hl (.inl hd) (armPresence_frame_length n) (ownArmPresence_arms (s := s.heard 6) hd ha)
  · exact linkRow_answers (t := { s with time := { s.time with presence := .armed a a } }) hl (.inl hd) renew_frame_length
      (ownRenew_restarts (s := s.heard 4) hd ha)
  · exact linkRow_answers hl (.inl hd) renew_frame_length (ownRenew_refused (s := s.heard 4) hd ha)
  · rw [show exec .presenceLapse s = _ from execPresenceLapse_lapses ha hn hp hm, lapsePresence_eq]
    generalize hr : (s.presenceTicked.lockRanges fun r => r.lockOnAbsence).ranges = rs
    refine ⟨_, rfl, fun i => ?_, rfl⟩
    change rs[i] = _
    rw [← hr]
    exact lockRanges_record (fun r => r.lockOnAbsence) i s.presenceTicked

end Sys2Proof.Machine
end

