-- ==== Sys2Proof/Proofs/RangeCommands.lean ====
section
/-! SUPPORT. SET-RANGE, OPEN-RANGE and LOCK-RANGE (R35, R40, R42, R43). -/

namespace Sys2Proof.Machine

/-! ## Reading the payload (R40, R176, R177) -/

theorem rangeIndex_none {b : Byte} (h : 16 ≤ b.toNat) : rangeIndex b = none := dif_neg (by omega)

theorem rangeIndex_some {b : Byte} {i : RangeNo} (h : b.toNat = i.val) : rangeIndex b = some i :=
  (dif_pos (by omega)).trans (congrArg some (Fin.ext h))

theorem readBinding_none {b : Byte} (h : 32 ≤ b.toNat) (h' : b ≠ 0xFF) : readBinding b = none :=
  (if_neg h').trans (dif_neg (by omega))

/-- 0xFF names no slot, and a byte up to 31 its slot. -/
theorem readBinding_eq {b : Byte} (h : b.toNat < 32 ∨ b = 0xFF) :
    ∃ k, readBinding b = some k ∧ (b = 0xFF → k = none) ∧ ∀ m : SlotNo, b.toNat = m.val → k = some m := by
  by_cases hb : b = 0xFF
  · refine ⟨none, if_pos hb, fun _ => rfl, fun m hm => ?_⟩
    subst hb
    exact absurd m.isLt (by rw [← hm]; decide)
  · have hlt : b.toNat < 32 := h.resolve_right hb
    exact ⟨some ⟨b.toNat, hlt⟩, (if_neg hb).trans (dif_pos hlt), fun h => absurd h hb, fun m hm => congrArg some (Fin.ext hm)⟩

/-- A byte below 2 is 0 or 1. -/
theorem byte_lt_two {b : Byte} (h : b.toNat < 2) : b = 0 ∨ b = 1 := by
  rcases (by omega : b.toNat = 0 ∨ b.toNat = 1) with h | h
  · exact .inl (BitVec.eq_of_toNat_eq h)
  · exact .inr (BitVec.eq_of_toNat_eq h)

/-- A byte from 2 is neither 0 nor 1. -/
theorem byte_two_le {b : Byte} (h : 2 ≤ b.toNat) : b ≠ 0 ∧ b ≠ 1 :=
  ⟨fun e => by subst e; exact absurd h (by decide), fun e => by subst e; exact absurd h (by decide)⟩

theorem readFlag_none {b : Byte} (h : 2 ≤ b.toNat) : readFlag b = none :=
  (if_neg (byte_two_le h).1).trans (if_neg (byte_two_le h).2)

theorem readFlag_eq {b : Byte} (h : b.toNat < 2) : readFlag b = some (b == 1) := by
  rcases byte_lt_two h with rfl | rfl <;> rfl

theorem readMode_none {b : Byte} (h : 2 ≤ b.toNat) : readMode b = none :=
  (if_neg (byte_two_le h).1).trans (if_neg (byte_two_le h).2)

theorem readMode_eq {b : Byte} (h : b.toNat < 2) : readMode b = some (if b = 0 then .openRW else .openRO) := by
  rcases byte_lt_two h with rfl | rfl <;> rfl

/-! ## Overlap (R40) -/

/-- Spans share a sector exactly if they meet. -/
theorem meets_iff {a b : Span} :
    a.meets b = true ↔ ∃ n, a.first.toNat ≤ n ∧ n < a.first.toNat + a.count ∧ b.first.toNat ≤ n ∧
      n < b.first.toNat + b.count := by
  simp only [Span.meets, Bool.and_eq_true, decide_eq_true_eq]
  constructor
  · rintro ⟨⟨⟨ha, hb⟩, hab⟩, hba⟩
    exact ⟨max a.first.toNat b.first.toNat, by omega, by omega, by omega, by omega⟩
  · rintro ⟨n, h1, h2, h3, h4⟩
    omega

/-- A new span overlaps exactly if another range among 1..15 has a span that shares a sector with it (R40). -/
theorem spanOverlaps_iff {i : RangeNo} {sp : Span} {s : State} :
    s.spanOverlaps i sp = true ↔
      ∃ (j : RangeNo) (o : Span), j ≠ i ∧ j ≠ 0 ∧ s.ranges[j].span = some o ∧ sp.meets o = true := by
  unfold State.spanOverlaps
  rw [List.any_eq_true]
  constructor
  · rintro ⟨j, -, hj⟩
    rw [Bool.and_eq_true, Bool.and_eq_true, bne_iff_ne, bne_iff_ne] at hj
    obtain ⟨⟨hi, h0⟩, hm⟩ := hj
    split at hm
    · next o ho => exact ⟨j, o, hi, h0, ho, hm⟩
    · cases hm
  · rintro ⟨j, o, hi, h0, ho, hm⟩
    refine ⟨j, List.mem_finRange j, ?_⟩
    rw [Bool.and_eq_true, Bool.and_eq_true, bne_iff_ne, bne_iff_ne, ho]
    exact ⟨⟨hi, h0⟩, hm⟩

/-! ## SET-RANGE's owner (R40) -/

theorem setRange_frame_length (b : Byte) (first : Sector) (count : BitVec 48) (bind lock : Byte) (idle : BitVec 24) :
    (LinkCommand.setRange b first count bind lock idle).frame.length = 21 := by
  rw [frame_length]
  simp [LinkCommand.payload]

/-- The record that SET-RANGE writes in place of another (R40). -/
def Range.rewritten (i : RangeNo) (first : Sector) (count : BitVec 48) (k : Option SlotNo) (lock : Byte) (idle : BitVec 24)
    (r : Range) : Range where
  span := if i = 0 then r.span else some { first := first, count := count.toNat }
  binding := k
  state := .locked
  lockOnAbsence := lock == 1
  idleInterval := if 1048575 < idle.toNat then 1048575 else idle.toNat
  idleRemaining := none
  check := 0

section
variable {b bind lock : Byte} {first : Sector} {count : BitVec 48} {idle : BitVec 24} {i : RangeNo} {s : State}

theorem ownSetRange_badIndex (hd : s.contain.device ≠ .selfTest) (hb : 16 ≤ b.toNat) :
    s.ownSetRange b first count bind lock idle = (s, .refused .badIndex) := by
  unfold State.ownSetRange
  rw [if_neg hd, rangeIndex_none hb]

theorem ownSetRange_open (hd : s.contain.device ≠ .selfTest) (hb : b.toNat = i.val) (ho : s.ranges[i].isOpen = true) :
    s.ownSetRange b first count bind lock idle = (s, .refused .rangeOpen) := by
  unfold State.ownSetRange
  rw [if_neg hd, rangeIndex_some hb]
  exact if_pos ho

/-- A span past 2^40, a binding that names no slot, or a flag that is neither 0 nor 1 (R40). -/
theorem ownSetRange_badValue (hd : s.contain.device ≠ .selfTest) (hb : b.toNat = i.val) (ho : s.ranges[i].isOpen = false)
    (hv : (i ≠ 0 ∧ 2 ^ 40 < first.toNat + count.toNat) ∨ (32 ≤ bind.toNat ∧ bind ≠ 0xFF) ∨ 2 ≤ lock.toNat) :
    s.ownSetRange b first count bind lock idle = (s, .refused .badValue) := by
  unfold State.ownSetRange
  rw [if_neg hd, rangeIndex_some hb]
  dsimp only
  rw [if_neg (by rw [ho]; decide)]
  split
  · rfl
  · next hsize =>
    rcases hv with hv | ⟨h32, hff⟩ | hl
    · exact absurd hv hsize
    · rw [readBinding_none h32 hff]
    · rw [readFlag_none hl]
      cases readBinding bind <;> rfl

/-- With good values the record is rewritten, unless its span overlaps another's (R40). -/
theorem ownSetRange_writes {k : Option SlotNo} (hd : s.contain.device ≠ .selfTest) (hb : b.toNat = i.val)
    (ho : s.ranges[i].isOpen = false) (hsize : i ≠ 0 → first.toNat + count.toNat ≤ 2 ^ 40) (hk : readBinding bind = some k)
    (hl : lock.toNat < 2) :
    s.ownSetRange b first count bind lock idle =
      if i ≠ 0 ∧ s.spanOverlaps i { first := first, count := count.toNat } = true then (s, .refused .overlap)
      else (s.writeRange i (s.ranges[i].rewritten i first count k lock idle), .done []) := by
  have hclamp : min idle.toNat idleMax = if 1048575 < idle.toNat then 1048575 else idle.toNat := by
    unfold idleMax
    split <;> omega
  have hfits : ¬ (i ≠ 0 ∧ 2 ^ 40 < first.toNat + count.toNat) := fun h => absurd (hsize h.1) (by omega)
  unfold State.ownSetRange
  rw [if_neg hd, rangeIndex_some hb]
  dsimp only
  rw [if_neg (by rw [ho]; decide), if_neg hfits, hk, readFlag_eq hl, hclamp]
  rfl

end

/-! ## OPEN-RANGE's and LOCK-RANGE's owners (R42, R43) -/

theorem openRange_frame_length (b mode : Byte) : (LinkCommand.openRange b mode).frame.length = 6 := frame_length _

theorem lockRange_frame_length (b : Byte) : (LinkCommand.lockRange b).frame.length = 5 := frame_length _

section
variable {b mode : Byte} {i : RangeNo} {s : State}

/-- The device states in which OPEN-RANGE is carried out (R42). -/
theorem device_serves (hd : s.contain.device = .config ∨ s.contain.device = .service) :
    s.contain.device ≠ .selfTest ∧ s.contain.device ≠ .contained := by
  rcases hd with hd | hd <;> rw [hd] <;> decide

theorem ownOpenRange_contained (hd : s.contain.device = .contained) : s.ownOpenRange b mode = (s, .refused .state) :=
  if_pos (.inr hd)

theorem ownOpenRange_badIndex (hd : s.contain.device = .config ∨ s.contain.device = .service) (hb : 16 ≤ b.toNat) :
    s.ownOpenRange b mode = (s, .refused .badIndex) := by
  unfold State.ownOpenRange
  rw [if_neg (not_or.2 (device_serves hd)), rangeIndex_none hb]

theorem ownOpenRange_badMode (hd : s.contain.device = .config ∨ s.contain.device = .service) (hb : b.toNat = i.val)
    (hm : 2 ≤ mode.toNat) : s.ownOpenRange b mode = (s, .refused .badValue) := by
  unfold State.ownOpenRange
  rw [if_neg (not_or.2 (device_serves hd)), rangeIndex_some hb, readMode_none hm]

/-- With a good index and mode the range opens, unless it is FAULTED or its bound slot is not LOADED (R42). -/
theorem ownOpenRange_opens (hd : s.contain.device = .config ∨ s.contain.device = .service) (hb : b.toNat = i.val)
    (hm : mode.toNat < 2) :
    s.ownOpenRange b mode =
      if s.ranges[i].state = .faulted then (s, .refused .state)
      else if s.bindingLoaded i = false then (s, .refused .noKey)
      else ({ s with ranges := s.ranges.set i (s.ranges[i].opened i (if mode = 0 then .openRW else .openRO)) }, .done []) := by
  unfold State.ownOpenRange
  rw [if_neg (not_or.2 (device_serves hd)), rangeIndex_some hb, readMode_eq hm]

theorem bindingLoaded_of {k : SlotNo} (hb : s.ranges[i].binding = some k) (hk : s.slots[k].isLoaded = true) :
    s.bindingLoaded i = true := by
  unfold State.bindingLoaded
  rw [hb]
  exact hk

theorem bindingLoaded_false (h : ∀ k, s.ranges[i].binding = some k → s.slots[k].isLoaded = false) :
    s.bindingLoaded i = false := by
  unfold State.bindingLoaded
  split
  · next k hk => exact h k hk
  · rfl

theorem ownLockRange_badIndex (hd : s.contain.device ≠ .selfTest) (hb : 16 ≤ b.toNat) :
    s.ownLockRange b = (s, .refused .badIndex) := by
  unfold State.ownLockRange
  rw [if_neg hd, rangeIndex_none hb]

theorem ownLockRange_locks (hd : s.contain.device ≠ .selfTest) (hb : b.toNat = i.val) :
    s.ownLockRange b = ({ s with ranges := s.ranges.set i (s.ranges[i].lock i) }, .done []) := by
  unfold State.ownLockRange
  rw [if_neg hd, rangeIndex_some hb]

/-- A range that is not open is locked as it is (R43). -/
theorem set_lock_closed (ho : s.ranges[i].isOpen = false) : s.ranges.set i (s.ranges[i].lock i) = s.ranges := by
  have hlock : s.ranges[i].lock i = s.ranges[i] := if_neg (by rw [ho]; decide)
  rw [hlock]
  exact Vector.set_getElem_self i.isLt

end

/-- Settles O48: the checks in their order, and the record written. -/
theorem setRangeWritesRecord : Obligations.set_range_writes_record := by
  unfold Obligations.set_range_writes_record
  intro b first count bind lock idle s hl hd
  have hanswer : ∀ {u : State} {a : Answer}, (s.heard 21).ownSetRange b first count bind lock idle = (u.heard 21, a) →
      exec (.setRange b first count bind lock idle) s = .next (u.answered 21 a) :=
    fun ho => linkRow_answers hl (.inl hd) (setRange_frame_length b first count bind lock idle) ho
  refine ⟨fun hb => hanswer (ownSetRange_badIndex (s := s.heard 21) hd hb), fun i hb =>
    ⟨fun ho => hanswer (ownSetRange_open (s := s.heard 21) hd hb ho),
      fun ho hv => hanswer (ownSetRange_badValue (s := s.heard 21) hd hb ho hv), fun ho hsize hbind hlock => ?_⟩⟩
  obtain ⟨k, hk, hnone, hsome⟩ := readBinding_eq hbind
  have hwrites := ownSetRange_writes (s := s.heard 21) (idle := idle) hd hb ho hsize hk hlock
  have hover := spanOverlaps_iff (s := s.heard 21) (i := i) (sp := { first := first, count := count.toNat })
  refine ⟨fun j n sp hi hj hji hsp h1 h2 h3 h4 => ?_, fun hfree => ?_⟩
  · have ho := hover.2 ⟨j, sp, hji, hj, hsp, meets_iff.2 ⟨n, h1, h2, h3, h4⟩⟩
    exact hanswer (hwrites.trans (if_pos ⟨hi, ho⟩))
  · refine ⟨s.writeRange i (s.ranges[i].rewritten i first count k lock idle), hanswer (hwrites.trans (if_neg ?_)),
      ⟨k, hnone, hsome, (getElem_set_fin _ i i _).trans (if_pos rfl)⟩,
      fun j hj => (getElem_set_fin _ i j _).trans (if_neg (Ne.symm hj)), rfl⟩
    rintro ⟨hi, ho⟩
    obtain ⟨j, o, hji, hj, hsp, hm⟩ := hover.1 ho
    obtain ⟨n, hn⟩ := meets_iff.1 hm
    exact hfree hi j n o hj hji hsp hn

/-- Settles O49: the checks in their order, and the record opened or locked. -/
theorem openAndLockRange : Obligations.open_and_lock_range := by
  unfold Obligations.open_and_lock_range
  refine ⟨fun b mode s hl => ?_, fun b s hl hd => ?_⟩
  · have hanswer : ∀ {u : State} {a : Answer}, s.contain.device ≠ .selfTest →
        (s.heard 6).ownOpenRange b mode = (u.heard 6, a) → exec (.openRange b mode) s = .next (u.answered 6 a) :=
      fun hd ho => linkRow_answers hl (.inl hd) (openRange_frame_length b mode) ho
    refine ⟨fun hd => hanswer (by rw [hd]; decide) (ownOpenRange_contained (s := s.heard 6) hd), fun hd => ?_⟩
    have hdev := (device_serves hd).1
    refine ⟨fun hb => hanswer hdev (ownOpenRange_badIndex (s := s.heard 6) hd hb), fun i hb =>
      ⟨fun hm => hanswer hdev (ownOpenRange_badMode (s := s.heard 6) hd hb hm), fun hm hf => ?_, fun hm hf hk => ?_,
        fun k hm hf hbk hk => ?_⟩⟩
    · exact hanswer hdev ((ownOpenRange_opens (s := s.heard 6) hd hb hm).trans (if_pos hf))
    · exact hanswer hdev ((ownOpenRange_opens (s := s.heard 6) hd hb hm).trans
        ((if_neg hf).trans (if_pos (bindingLoaded_false (s := s) hk))))
    · have hloaded : ¬ (s.heard 6).bindingLoaded i = false := by
        rw [show (s.heard 6).bindingLoaded i = true from bindingLoaded_of (s := s) hbk hk]
        decide
      exact ⟨{ s with ranges := s.ranges.set i (s.ranges[i].opened i (if mode = 0 then .openRW else .openRO)) },
        hanswer hdev ((ownOpenRange_opens (s := s.heard 6) hd hb hm).trans ((if_neg hf).trans (if_neg hloaded))),
        (getElem_set_fin _ i i _).trans (if_pos rfl), fun j hj => (getElem_set_fin _ i j _).trans (if_neg (Ne.symm hj)), rfl⟩
  · have hanswer : ∀ {u : State} {a : Answer}, (s.heard 5).ownLockRange b = (u.heard 5, a) →
        exec (.lockRange b) s = .next (u.answered 5 a) :=
      fun ho => linkRow_answers hl (.inl hd) (lockRange_frame_length b) ho
    refine ⟨fun hb => hanswer (ownLockRange_badIndex (s := s.heard 5) hd hb), fun i hb => ?_⟩
    have hlocks : exec (.lockRange b) s =
        .next (State.answered 5 (.done []) { s with ranges := s.ranges.set i (s.ranges[i].lock i) }) :=
      hanswer (ownLockRange_locks (s := s.heard 5) hd hb)
    refine ⟨fun ho => ?_, fun ho => ?_⟩
    · rw [hlocks, set_lock_closed ho]
    · exact ⟨_, hlocks, (getElem_set_fin _ i i _).trans ((if_pos rfl).trans (if_pos ho)),
        fun j hj => (getElem_set_fin _ i j _).trans (if_neg (Ne.symm hj)), rfl⟩

end Sys2Proof.Machine
end

