-- ==== Sys2Proof/Proofs/KeySecrecy.lean ====
section
/-! SUPPORT. What the key link tells of a key: nothing (R70, R174). A state is veiled by blanking its keys and check words and
emptying cache and expander; every command's owner answers the same, and leaves the same behind the veil, on any two states with
one veil. -/

namespace Sys2Proof.Machine

/-! ## The veil -/

/-- The pair that stands for any pair of keys behind the veil. -/
def hiddenKeys : KeyPair := { dataKey := 0, tweakKey := 0 }

/-- A slot's body with its keys blanked. -/
def SlotBody.veiled : SlotBody → SlotBody
  | .empty => .empty
  | .loaded _ => .loaded hiddenKeys
  | .scrubbing _ cause => .scrubbing hiddenKeys cause
  | .faulted => .faulted
  | .undefined _ => .undefined hiddenKeys

/-- A slot with its keys and its check word blanked. -/
def Slot.veiled (r : Slot) : Slot := { r with body := r.body.veiled, check := 0 }

/-- A state without its key material. -/
def State.veiled (s : State) : State :=
  { s with
    slots := s.slots.map Slot.veiled
    cache := Vector.replicate 4 { way0 := none, way1 := none, recent := .way0 }
    expander := { queue := [], current := none } }

/-- Two bodies cast one shadow exactly if they are the same behind the veil. -/
theorem shadow_eq_iff (a b : SlotBody) : a.shadow = b.shadow ↔ a.veiled = b.veiled := by
  cases a <;> cases b <;> simp [SlotBody.shadow, SlotBody.veiled]

@[simp] theorem State.veiled_contain (s : State) : s.veiled.contain = s.contain := rfl
@[simp] theorem State.veiled_decoder (s : State) : s.veiled.decoder = s.decoder := rfl
@[simp] theorem State.veiled_ranges (s : State) : s.veiled.ranges = s.ranges := rfl
@[simp] theorem State.veiled_contexts (s : State) : s.veiled.contexts = s.contexts := rfl
@[simp] theorem State.veiled_time (s : State) : s.veiled.time = s.time := rfl
@[simp] theorem State.veiled_link (s : State) : s.veiled.link = s.link := rfl
@[simp] theorem State.veiled_out (s : State) : s.veiled.out = s.out := rfl

/-- A look-up reads no key material. -/
@[simp] theorem State.veiled_ctx? (s : State) (n : CtxNo) : s.veiled.ctx? n = s.ctx? n := rfl

/-- A body veiled twice is a body veiled. -/
@[simp] theorem SlotBody.veiled_veiled (b : SlotBody) : b.veiled.veiled = b.veiled := by cases b <;> rfl

@[simp] theorem SlotBody.veiled_eq_empty_iff (b : SlotBody) : b.veiled = .empty ↔ b = .empty := by
  cases b <;> simp [SlotBody.veiled]

@[simp] theorem Slot.veiled_body (r : Slot) : r.veiled.body = r.body.veiled := rfl
@[simp] theorem Slot.veiled_generation (r : Slot) : r.veiled.generation = r.generation := rfl

/-- A check word computed is hidden. -/
@[simp] theorem Slot.sealed_veiled (k : SlotNo) (r : Slot) : (r.sealed k).veiled = r.veiled := rfl

@[simp] theorem Slot.veiled_veiled (r : Slot) : r.veiled.veiled = r.veiled := by simp [Slot.veiled]

@[simp] theorem Slot.veiled_isLoaded (r : Slot) : r.veiled.isLoaded = r.isLoaded := by
  unfold Slot.isLoaded
  rw [Slot.veiled_body]
  cases r.body <;> rfl

@[simp] theorem Slot.veiled_scrubbingByCommand (r : Slot) : r.veiled.scrubbingByCommand = r.scrubbingByCommand := by
  unfold Slot.scrubbingByCommand
  rw [Slot.veiled_body]
  cases r.body with
  | scrubbing keys cause => cases cause <;> rfl
  | _ => rfl

@[simp] theorem State.veiled_slot (s : State) (k : SlotNo) : s.veiled.slots[k] = s.slots[k].veiled := by simp [State.veiled]

@[simp] theorem State.veiled_veiled (s : State) : s.veiled.veiled = s.veiled := by
  simp [State.veiled]

/-- Two slot tables are the same behind the veil exactly if shadows and generations agree slot by slot. -/
theorem map_veiled_eq_iff (v w : Vector Slot 32) : v.map Slot.veiled = w.map Slot.veiled ↔
    ∀ k : SlotNo, v[k].body.shadow = w[k].body.shadow ∧ v[k].generation = w[k].generation := by
  simp only [Vector.ext_iff, Vector.getElem_map, shadow_eq_iff, Slot.veiled, Slot.mk.injEq, and_true]
  exact ⟨fun h k => h k.val k.isLt, fun h i hi => h ⟨i, hi⟩⟩

/-- Two states differ in nothing but key material exactly if they are the same behind the veil (R70). -/
theorem sameButKeys_iff {s t : State} : s.sameButKeys t ↔ s.veiled = t.veiled := by
  unfold State.sameButKeys
  rw [← map_veiled_eq_iff]
  constructor
  · rintro ⟨hslots, hrest⟩
    rw [hrest]
    unfold State.veiled
    rw [hslots]
  · intro h
    refine ⟨congrArg State.slots h, ?_⟩
    cases s
    cases t
    simp_all [State.veiled]

/-! ## What passes the veil unchanged -/

section
variable (s : State)

/-- A pin released is hidden. -/
@[simp] theorem releasePin_veiled (c : Context) : (s.releasePin c).veiled = s.veiled := by
  obtain ⟨x, h⟩ := releasePin_frame c s
  rw [h]
  rfl

/-- Behind the veil there is no pin to release. -/
@[simp] theorem veiled_releasePin (c : Context) : s.veiled.releasePin c = s.veiled := by
  have hunpin : ∀ k g, s.veiled.unpin k g = s.veiled := fun k g => by
    simp [State.unpin, State.veiled, CacheSet.find, entryMatches]
  unfold State.releasePin
  split
  · split
    · exact hunpin _ _
    · rfl
  · rfl

/-- What the expander takes is hidden. -/
@[simp] theorem takeEligible_veiled : s.takeEligible.veiled = s.veiled := by
  obtain ⟨x, y, h⟩ := takeEligible_frame s
  rw [h]
  rfl

/-- Freeing a context reads no key material. -/
theorem veiled_free (n : CtxNo) : s.veiled.free n = (s.free n).veiled := by
  unfold State.free
  rw [State.veiled_ctx?]
  cases s.ctx? n with
  | none => rfl
  | some c =>
    show (s.veiled.releasePin c).dropCtx n = ((s.releasePin c).veiled).dropCtx n
    rw [veiled_releasePin, releasePin_veiled]

theorem veiled_freeIfDone (n : CtxNo) : s.veiled.freeIfDone n = (s.freeIfDone n).veiled := by
  unfold State.freeIfDone
  rw [State.veiled_ctx?]
  cases s.ctx? n with
  | none => rfl
  | some c =>
    dsimp only
    rw [apply_ite State.veiled, veiled_free]

theorem veiled_handCompletion (n : CtxNo) : s.veiled.handCompletion n = (s.handCompletion n).veiled := by
  unfold State.handCompletion
  rw [State.veiled_ctx?]
  cases s.ctx? n with
  | none => rfl
  | some c =>
    dsimp only
    rw [apply_ite State.veiled]
    rfl

theorem veiled_finishDuty (c : Context) (left : Nat) : s.veiled.finishDuty c left = (s.finishDuty c left).veiled := by
  have hend : ∀ u : State, (u.veiled.handCompletion c.number).freeIfDone c.number =
      ((u.handCompletion c.number).freeIfDone c.number).veiled := fun u => by
    rw [veiled_handCompletion, veiled_freeIfDone]
  unfold State.finishDuty
  cases c.kind with
  | fetch =>
    dsimp only
    rw [← hend, apply_ite State.veiled]
    rfl
  | store =>
    dsimp only
    rw [apply_ite State.veiled, ← hend]
    rfl

/-- Entry to CANCEL reads no key material (R90). -/
theorem veiled_enterCancel (n : CtxNo) (code : Reply) (answered timed : Bool) :
    s.veiled.enterCancel n code answered timed = (s.enterCancel n code answered timed).veiled := by
  cases hc : s.ctx? n with
  | none => rw [enterCancel_none hc, enterCancel_none (s := s.veiled) hc]
  | some c =>
    cases hl : c.live with
    | false => rw [enterCancel_not_live hc hl, enterCancel_not_live (s := s.veiled) hc hl]
    | true =>
      have hwork : ∀ f, ((s.veiled.releasePin c).discardWork n).modCtx n f =
          (((s.releasePin c).discardWork n).modCtx n f).veiled := fun f => by
        show _ = ((s.releasePin c).veiled.discardWork n).modCtx n f
        rw [veiled_releasePin, releasePin_veiled]
      rw [enterCancel_live hc hl, enterCancel_live (s := s.veiled) hc hl, hwork, veiled_finishDuty,
        show s.veiled.outstanding c = s.outstanding c from rfl, show s.veiled.beatsLeft c = s.beatsLeft c from rfl]

/-- A revocation reads no key material (R61). -/
theorem veiled_revoke (p : Context → Bool) (code : Reply) : s.veiled.revoke p code = (s.revoke p code).veiled := by
  unfold State.revoke
  rw [State.veiled_contexts]
  generalize s.contexts.filter p = l
  induction l generalizing s with
  | nil => rfl
  | cons c l ih => rw [List.foldl_cons, List.foldl_cons, veiled_enterCancel, ih]

/-- Locking ranges reads no key material (R44). -/
theorem lockRanges_veiled (p : Range → Bool) : (s.lockRanges p).veiled = s.veiled.lockRanges p := rfl

/-- An event raised shows through the veil. -/
theorem raise_veiled (e : Event) : (State.raise e s).veiled = State.raise e s.veiled := rfl

/-- A slot written: behind the veil its check word and its keys are blank. -/
theorem writeSlot_veiled (k : SlotNo) (r : Slot) :
    (s.writeSlot k r).veiled = { s.veiled with slots := s.veiled.slots.set k r.veiled } := by
  simp [State.writeSlot, State.veiled, Vector.map_set]

/-- Behind the veil a slot is written alike whichever keys are written, in the state or in its veil. -/
theorem veiled_writeSlot {k : SlotNo} {r r' : Slot} (h : r'.veiled = r.veiled) :
    (s.veiled.writeSlot k r').veiled = (s.writeSlot k r).veiled := by
  rw [writeSlot_veiled, writeSlot_veiled, State.veiled_veiled, h]

/-- A scrub of a slot is the same behind the veil, whichever keys are erased (R60). -/
theorem veiled_scrub (k : SlotNo) (keys keys' : KeyPair) (cause : ScrubCause) :
    (s.veiled.scrub k keys' cause).veiled = (s.scrub k keys cause).veiled := by
  have hbegun : (s.veiled.scrubBegun k keys' cause).veiled = (s.scrubBegun k keys cause).veiled := by
    unfold State.scrubBegun
    rw [lockRanges_veiled, lockRanges_veiled, State.veiled_slot]
    exact congrArg _ (veiled_writeSlot s rfl)
  have hrevoked : (s.veiled.scrubRevoked k keys' cause).veiled = (s.scrubRevoked k keys cause).veiled := by
    unfold State.scrubRevoked
    rw [← veiled_revoke, ← veiled_revoke, hbegun]
  rw [scrub_eq, scrub_eq]
  exact hrevoked

end

/-! ## Owners that tell no key -/

/-- A state and an answer, the state behind the veil. -/
def veilResult (p : State × Answer) : State × Answer := (p.1.veiled, p.2)

/-- A command's owner gives the same answer, and the same state behind the veil, for any two states with one veil. -/
def KeyBlind (owner : State → State × Answer) : Prop :=
  ∀ s t : State, s.veiled = t.veiled → veilResult (owner s) = veilResult (owner t)

/-- An owner that does on the veil what it does on the state, as it shows behind the veil. -/
theorem keyBlind_of_veils {owner : State → State × Answer}
    (h : ∀ s : State, veilResult (owner s.veiled) = veilResult (owner s)) : KeyBlind owner := fun s t hst => by
  rw [← h s, hst, h t]

/-- An owner that neither reads nor writes key material. -/
theorem keyBlind_of_commutes {owner : State → State × Answer} (h : ∀ s : State, owner s.veiled = veilResult (owner s)) :
    KeyBlind owner := fun s t hst => by
  rw [← h s, hst, h t]

/-- An owner that refuses STATE in SELF-TEST and elsewhere neither reads nor writes key material. -/
theorem keyBlind_of_guarded {owner work : State → State × Answer}
    (hguard : ∀ s : State, owner s = if s.contain.device = .selfTest then (s, .refused .state) else work s)
    (hwork : ∀ s : State, work s.veiled = veilResult (work s)) : KeyBlind owner := keyBlind_of_commutes fun s => by
  rw [hguard, hguard, apply_ite veilResult, hwork]
  rfl

/-! ### The reads (R178, R179) -/

/-- STATUS gives a slot's state code, which the keys do not enter (R178). -/
theorem slotCode_veiled (k : SlotNo) (b : SlotBody) : slotCode k b.veiled = slotCode k b := by cases b <;> rfl

theorem statusPayload_veiled (s : State) : s.veiled.statusPayload = s.statusPayload := by
  unfold State.statusPayload
  simp only [State.veiled_slot, Slot.veiled_body, Slot.veiled_generation, slotCode_veiled]
  rfl

theorem keyBlind_status : KeyBlind State.ownStatus := keyBlind_of_commutes fun s => by
  unfold State.ownStatus
  rw [statusPayload_veiled]
  rfl

theorem keyBlind_readFault : KeyBlind State.ownReadFault := keyBlind_of_guarded (fun _ => rfl) fun _ => rfl

theorem keyBlind_readAbort : KeyBlind State.ownReadAbort := keyBlind_of_guarded (fun _ => rfl) fun _ => rfl

/-! ### Keys, slots and schedules (R57, R59, R129) -/

theorem keyBlind_loadKey (b : Byte) (d t : Key) : KeyBlind (State.ownLoadKey b d t) := keyBlind_of_veils fun s => by
  unfold State.ownLoadKey
  simp only [State.veiled_contain, State.veiled_slot, Slot.veiled_body, Slot.veiled_generation, ne_eq,
    SlotBody.veiled_eq_empty_iff]
  have hrefused : ∀ r, veilResult (s.veiled, .refused r) = veilResult (s, .refused r) := fun r => by simp [veilResult]
  split
  · exact hrefused _
  · cases slotIndex b with
    | none => exact hrefused _
    | some k =>
      dsimp only
      split
      · exact hrefused _
      · split
        · exact hrefused _
        · exact Prod.ext (veiled_writeSlot s rfl) rfl

theorem keyBlind_scrubKey (b : Byte) : KeyBlind (State.ownScrubKey b) := keyBlind_of_veils fun s => by
  have hkept : ∀ a, veilResult (s.veiled, a) = veilResult (s, a) := fun a => by simp [veilResult]
  have hscrub : ∀ k keys, veilResult ((s.veiled.scrub k hiddenKeys .command).takeEligible, .accepted) =
      veilResult ((s.scrub k keys .command).takeEligible, .accepted) := fun k keys => by
    simp [veilResult, veiled_scrub s k keys hiddenKeys]
  unfold State.ownScrubKey
  rw [State.veiled_contain]
  split
  · exact hkept _
  · cases slotIndex b with
    | none => exact hkept _
    | some k =>
      dsimp only
      rw [State.veiled_slot, Slot.veiled_body]
      cases s.slots[k].body with
      | empty => exact hkept _
      | loaded keys => exact hscrub k keys
      | scrubbing keys cause => exact hkept _
      | faulted => exact Prod.ext (veiled_writeSlot s rfl) rfl
      | undefined keys => exact hscrub k keys

theorem keyBlind_flush : KeyBlind State.ownFlush := keyBlind_of_veils fun s => by
  unfold State.ownFlush
  rw [State.veiled_contain]
  split <;> simp [veilResult, State.veiled]

/-! ### Ranges and windows (R22, R30, R31, R40, R42, R43) -/

theorem keyBlind_setRange (index : Byte) (first : Sector) (count : BitVec 48) (binding lock : Byte) (idle : BitVec 24) :
    KeyBlind (State.ownSetRange index first count binding lock idle) := keyBlind_of_guarded (fun _ => rfl) fun s => by
  cases rangeIndex index with
  | none => rfl
  | some i =>
    dsimp only
    rw [State.veiled_ranges, show ∀ sp, State.spanOverlaps i sp s.veiled = State.spanOverlaps i sp s from fun _ => rfl]
    split
    · rfl
    · split
      · rfl
      · split
        · split <;> rfl
        · rfl

/-- Whether a range's slot is LOADED is no secret (R42). -/
theorem bindingLoaded_veiled (i : RangeNo) (s : State) : s.veiled.bindingLoaded i = s.bindingLoaded i := by
  unfold State.bindingLoaded
  rw [State.veiled_ranges]
  cases s.ranges[i].binding with
  | none => rfl
  | some k =>
    dsimp only
    rw [State.veiled_slot, Slot.veiled_isLoaded]

theorem keyBlind_openRange (index mode : Byte) : KeyBlind (State.ownOpenRange index mode) := keyBlind_of_commutes fun s => by
  unfold State.ownOpenRange
  rw [State.veiled_contain, State.veiled_ranges]
  split
  · rfl
  · cases rangeIndex index with
    | none => rfl
    | some i =>
      dsimp only
      rw [bindingLoaded_veiled]
      cases readMode mode with
      | none => rfl
      | some st =>
        dsimp only
        split
        · rfl
        · split <;> rfl

theorem keyBlind_lockRange (index : Byte) : KeyBlind (State.ownLockRange index) := keyBlind_of_guarded (fun _ => rfl) fun s => by
  cases rangeIndex index <;> rfl

theorem keyBlind_setWindow (index treatment : Byte) (first last : BitVec 32) (direction : Byte) (movers relocation : MoverSet) :
    KeyBlind (State.ownSetWindow index treatment first last direction movers relocation) :=
  keyBlind_of_guarded (fun _ => rfl) fun s => by
    rw [State.veiled_decoder]
    split
    · rfl
    · cases windowIndex index with
      | none => rfl
      | some i =>
        simp only [show ∀ w, State.windowOverlaps i w s.veiled = State.windowOverlaps i w s from fun _ => rfl]
        split
        · rfl
        · rfl
        · rfl
        · split
          · rfl
          · split <;> rfl

theorem keyBlind_setLimit (limit : BitVec 48) : KeyBlind (State.ownSetLimit limit) :=
  keyBlind_of_guarded (fun _ => rfl) fun s => by
    rw [State.veiled_decoder]
    split
    · rfl
    · split <;> rfl

theorem keyBlind_freeze : KeyBlind State.ownFreeze := keyBlind_of_guarded (fun _ => rfl) fun _ => rfl

/-! ### Device, presence, events, logs (R153, R154, R161, R165, R171, R181, R182, R183) -/

theorem keyBlind_go : KeyBlind State.ownGo := keyBlind_of_commutes fun s => by
  unfold State.ownGo
  rw [State.veiled_contain]
  split <;> rfl

/-- RECOVER leaves the same behind the veil: every slot EMPTY, and SCRUBBED raised alike (R69, R165). -/
theorem recoverAll_veiled (s : State) : s.veiled.recoverAll.veiled = s.recoverAll.veiled := by
  have hslots : (Vector.ofFn fun k => (s.veiled.slots[k]).recovered k).map Slot.veiled =
      (Vector.ofFn fun k => (s.slots[k]).recovered k).map Slot.veiled := by
    ext i hi : 1
    simp only [Vector.getElem_map, Vector.getElem_ofFn, State.veiled_slot]
    rfl
  have hrecovered : s.veiled.recovered.veiled = s.recovered.veiled := by
    unfold State.recovered
    rw [State.veiled, hslots]
    rfl
  rw [recoverAll_eq, recoverAll_eq]
  simp only [State.veiled_slot, Slot.veiled_scrubbingByCommand]
  split
  · rw [raise_veiled, raise_veiled, hrecovered]
  · exact hrecovered

theorem keyBlind_recover : KeyBlind State.ownRecover := keyBlind_of_veils fun s => by
  unfold State.ownRecover
  rw [State.veiled_contain]
  split
  · simp [veilResult]
  · split
    · simp [veilResult]
    · simp [veilResult, recoverAll_veiled]

theorem keyBlind_armPresence (n : BitVec 16) : KeyBlind (State.ownArmPresence n) := keyBlind_of_guarded (fun _ => rfl) fun s => by
  rw [State.veiled_time]
  cases s.time.presence <;> rfl

theorem keyBlind_renew : KeyBlind State.ownRenew := keyBlind_of_guarded (fun _ => rfl) fun s => by
  rw [State.veiled_time]
  cases s.time.presence <;> rfl

theorem keyBlind_setAlert (e : BitVec 16) : KeyBlind (State.ownSetAlert e) := keyBlind_of_guarded (fun _ => rfl) fun _ => by
  split <;> rfl

theorem keyBlind_clearEvents (e : BitVec 16) : KeyBlind (State.ownClearEvents e) := keyBlind_of_guarded (fun _ => rfl) fun _ => by
  split
  · rfl
  · dsimp only
    split <;> rfl

theorem keyBlind_clearFault : KeyBlind State.ownClearFault := keyBlind_of_guarded (fun _ => rfl) fun _ => rfl

theorem keyBlind_clearTallies : KeyBlind State.ownClearTallies := keyBlind_of_guarded (fun _ => rfl) fun _ => rfl

/-- No command's owner tells a key (R70). -/
theorem keyBlind_owner (c : LinkCommand) : KeyBlind c.owner := by
  cases c with
  | status => exact keyBlind_status
  | readFault => exact keyBlind_readFault
  | readAbort => exact keyBlind_readAbort
  | loadKey k d t => exact keyBlind_loadKey k d t
  | scrubKey k => exact keyBlind_scrubKey k
  | flushSchedules => exact keyBlind_flush
  | setRange i f c b l t => exact keyBlind_setRange i f c b l t
  | openRange i m => exact keyBlind_openRange i m
  | lockRange i => exact keyBlind_lockRange i
  | setWindow i t f l d m r => exact keyBlind_setWindow i t f l d m r
  | setLimit n => exact keyBlind_setLimit n
  | freeze => exact keyBlind_freeze
  | go => exact keyBlind_go
  | recover => exact keyBlind_recover
  | armPresence n => exact keyBlind_armPresence n
  | renew => exact keyBlind_renew
  | setAlert e => exact keyBlind_setAlert e
  | clearEvents e => exact keyBlind_clearEvents e
  | clearFault => exact keyBlind_clearFault
  | clearTallies => exact keyBlind_clearTallies

/-! ## Command rows and read periods (R174, R175, R176) -/

/-- A command's row hands its frame to the command's owner. -/
theorem exec_row (c : LinkCommand) (s : State) : exec c.row s = linkRow c c.owner s := by cases c <;> rfl

section
variable {s t : State}

/-- What is answered at the end of a command period comes from the veil alone. -/
theorem judged_keyBlind {owner : State → State × Answer} (ho : KeyBlind owner) (h : s.veiled = t.veiled) (isStatus : Bool) :
    (s.judged isStatus owner).veiled = (t.judged isStatus owner).veiled := by
  have hrespond : ∀ p q, veilResult p = veilResult q → (p.1.respond p.2).veiled = (q.1.respond q.2).veiled := fun p q hpq =>
    congrArg (fun r : State × Answer => r.1.respond r.2) hpq
  have hcontain : s.contain = t.contain := by simpa using congrArg State.contain h
  unfold State.judged
  rw [hcontain]
  split
  · exact congrArg (State.respond (.refused .state)) h
  · exact hrespond _ _ (ho s t h)

/-- A command period reads no key material, if its judge reads none (R174). -/
theorem commandEnds_keyBlind {judge : State → State}
    (hj : ∀ u v : State, u.veiled = v.veiled → (judge u).veiled = (judge v).veiled) (h : s.veiled = t.veiled) (clocks : Nat) :
    (s.commandEnds clocks judge).veiled = (t.commandEnds clocks judge).veiled := by
  have hlink : s.link = t.link := by simpa using congrArg State.link h
  have hheard : (s.start.driveKdo (List.replicate clocks (some true))).veiled =
      (t.start.driveKdo (List.replicate clocks (some true))).veiled :=
    congrArg (fun u : State => u.start.driveKdo (List.replicate clocks (some true))) h
  unfold State.commandEnds
  dsimp only [State.driveKdo_link, State.start_link]
  rw [hlink]
  cases t.link with
  | empty => exact hj _ _ hheard
  | pending frame => exact congrArg (fun u : State => { u with link := .pending (Answer.refused .busy).frame }) hheard
  | ready frame => exact congrArg (fun u : State => { u with link := .ready (Answer.refused .busy).frame }) hheard

/-- A read period drives what the buffer holds, and no key material is there (R174, R175). -/
theorem veiled_readEnds (s : State) (clocks : Nat) : s.veiled.readEnds clocks = (s.readEnds clocks).veiled := by
  unfold State.readEnds
  rw [State.veiled_link]
  cases s.link with
  | empty => rfl
  | pending frame => rfl
  | ready frame =>
    dsimp only
    rw [apply_ite State.veiled]
    rfl

/-- READ_PERIOD, with whether its clocks make it one. -/
theorem execReadPeriod_eq (n : Nat) (s : State) :
    execReadPeriod n s = .next (if n < 8 then s.untaken else s.start.readEnds n) := (apply_ite _ _ _ _).symm

/-- States with one veil hold the same response and drive the same, and differ in nothing but key material. -/
theorem told_alike (h : s.veiled = t.veiled) : s.link = t.link ∧ s.out = t.out ∧ s.sameButKeys t :=
  ⟨by simpa using congrArg State.link h, by simpa using congrArg State.out h, sameButKeys_iff.2 h⟩

end

/-- Settles O60: every owner answers from the veil alone, and the buffer is read from it. -/
theorem linkRevealsNoKey : Obligations.link_reveals_no_key := by
  unfold Obligations.link_reveals_no_key
  intro s t u v hst
  rw [sameButKeys_iff] at hst
  refine ⟨fun c hu hv => ?_, fun n hu hv => ?_⟩
  · rw [exec_row] at hu hv
    cases hu
    cases hv
    exact told_alike (commandEnds_keyBlind (fun _ _ h => judged_keyBlind (keyBlind_owner c) h _) hst _)
  · have hu : execReadPeriod n s = .next u := hu
    have hv : execReadPeriod n t = .next v := hv
    rw [execReadPeriod_eq] at hu hv
    cases hu
    cases hv
    apply told_alike
    split
    · exact congrArg State.untaken hst
    · rw [← veiled_readEnds, ← veiled_readEnds, show s.start.veiled = t.start.veiled from congrArg State.start hst]

end Sys2Proof.Machine
end

