-- ==== Sys2Proof/Proofs/Scrubs.lean ====
section
/-! SUPPORT. What a scrub leaves of slot, ranges, contexts and expander, and the commands and row around it: SCRUB-KEY,
FLUSH-SCHEDULES and the erasure's completion (R59 to R61, R63, R124, R128, R129). -/

namespace Sys2Proof.Machine

/-! ## The holders withdrawn (R61) -/

/-- Contexts of a kind that no entry to CANCEL has reached stand as they were. -/
theorem State.CancelsAll.filter_eq {l : List Context} {code : Reply} {s t : State} (h : s.CancelsAll l code t)
    {p : Context → Bool} (hs : ∀ b ∈ s.contexts, p b = true → b.number ∉ l.map Context.number)
    (ht : ∀ b ∈ t.contexts, p b = true → b.number ∉ l.map Context.number) :
    t.contexts.filter p = s.contexts.filter p := by
  have hsub : ∀ k : List Context, (∀ b ∈ k, p b = true → b.number ∉ l.map Context.number) →
      k.filter p = (k.filter fun b => b.number ∉ l.map Context.number).filter p := fun k hk => by
    rw [List.filter_filter]
    refine List.filter_congr fun b hb => ?_
    cases hp : p b with
    | false => simp
    | true => simpa using hk b hb hp
  rw [hsub _ hs, hsub _ ht, h.others]

section
variable {s : State} {k : SlotNo} {keys : KeyPair} {cause : ScrubCause}

/-- The contexts that a scrub withdraws (R61). -/
def State.holders (k : SlotNo) (s : State) : List Context := s.contexts.filter (Context.holds k)

@[simp] theorem scrubBegun_contexts : (s.scrubBegun k keys cause).contexts = s.contexts := by simp [State.scrubBegun]
@[simp] theorem scrubBegun_returnPath : (s.scrubBegun k keys cause).returnPath = s.returnPath := by simp [State.scrubBegun]
@[simp] theorem scrubBegun_media : (s.scrubBegun k keys cause).media = s.media := by simp [State.scrubBegun]
@[simp] theorem scrubBegun_engines : (s.scrubBegun k keys cause).engines = s.engines := by simp [State.scrubBegun]

/-- A scrub withdraws the slot's holders one after the other. -/
theorem scrubRevoked_cancelsAll (hs : s.contextLaws) :
    s.CancelsAll (s.holders k) cause.code (s.scrubRevoked k keys cause) := by
  have hrevoked : s.scrubRevoked k keys cause = (s.holders k).foldl
      (fun s c => s.enterCancel c.number cause.code false false) (s.scrubBegun k keys cause) := by
    rw [State.scrubRevoked, State.revoke, scrubBegun_contexts, State.holders]
  obtain ⟨hothers, hends, hreturned, hslot, houtbound⟩ := enterCancels_cancelsAll cause.code (s.holders k)
    (hs.2.1.sublist (List.filter_sublist.map _)) _ (scrubBegun_contextLaws hs k keys cause)
  rw [hrevoked]
  rw [scrubBegun_contexts] at hothers
  rw [scrubBegun_returnPath] at hreturned
  rw [scrubBegun_media] at hslot
  rw [scrubBegun_engines] at houtbound
  exact ⟨hothers, fun c hc a b ha => hends c hc a b ((ctx?_congr scrubBegun_contexts).trans ha), hreturned, hslot, houtbound⟩

/-- A record after the revocation follows one that was there before. -/
theorem scrubRevoked_origin (hs : s.contextLaws) {d : Context} (hd : d ∈ (s.scrubRevoked k keys cause).contexts) :
    ∃ c ∈ s.contexts, c.Follows d := by
  obtain ⟨-, h⟩ := (scrubRevoked_facts hs k keys cause).1.contexts (scrubBegun_contextLaws hs k keys cause)
  rw [scrubBegun_contexts] at h
  exact h d hd

/-- No holder of the slot is left (R61). -/
theorem scrubRevoked_unheld (hs : s.contextLaws) {d : Context} (hd : d ∈ (s.scrubRevoked k keys cause).contexts) :
    d.holds k = false := by
  by_contra hh
  rw [Bool.not_eq_false] at hh
  rw [(scrubRevoked_facts hs k keys cause).2 d hd (holds_iff.1 hh).1] at hh
  cases hh

/-- A holder is in CANCEL with the code of the cause where it had no code, or gone (R61, R87). -/
theorem scrubRevoked_ends (hs : s.contextLaws) {c d : Context} (hd : d ∈ (s.scrubRevoked k keys cause).contexts)
    (hc : c ∈ s.contexts) (hh : c.holds k = true) (hn : c.number = d.number) :
    d.state = .cancel ∧ d.code = c.code.orElse cause.code :=
  (scrubRevoked_cancelsAll hs).ends c (List.mem_filter.2 ⟨hc, hh⟩) c d (ctx?_of_mem hs.2.1 hc) (holds_iff.1 hh).1 hd hn.symm

theorem captured_of_holds {c : Context} (h : c.holds k = true) : c.captured k = true := by
  obtain ⟨-, cap, hcap, hk⟩ := holds_iff.1 h
  simp [Context.captured, hcap, hk]

/-- The contexts of other slots stand as they were (R61). -/
theorem scrubRevoked_others (hs : s.contextLaws) :
    (s.scrubRevoked k keys cause).contexts.filter (fun d => !d.captured k) = s.contexts.filter (fun c => !c.captured k) := by
  have hnum : ∀ a ∈ s.contexts, a.captured k = false → a.number ∉ (s.holders k).map Context.number := by
    intro a ha hk hmem
    obtain ⟨c, hc, hn⟩ := List.mem_map.1 hmem
    obtain ⟨hc, hh⟩ := List.mem_filter.1 hc
    obtain rfl : a = c := eq_of_mem_of_number hs.2.1 ha (hn ▸ ctx?_of_mem hs.2.1 hc)
    rw [captured_of_holds hh] at hk
    cases hk
  refine (scrubRevoked_cancelsAll hs).filter_eq (fun a ha hp => hnum a ha (by simpa using hp)) fun d hd hp => ?_
  obtain ⟨c, hc, hcd⟩ := scrubRevoked_origin hs hd
  rw [hcd.number]
  refine hnum c hc ?_
  have : d.captured k = c.captured k := by simp only [Context.captured, hcd.capture]
  simpa [this] using hp

/-! ## A scrub (R60, R61, R128) -/

/-- Once it has begun, a scrub changes what belongs to contexts and expander only. -/
theorem scrub_sameButWork (k : SlotNo) (keys : KeyPair) (cause : ScrubCause) (s : State) :
    (s.scrubBegun k keys cause).sameButWork (s.scrub k keys cause) := by
  rw [scrub_eq]
  exact sameButWork_trans (revoke_sameButWork (Context.holds k) cause.code _) rfl

/-- The slot's open ranges are LOCKED, and no other range changes (R44, R60). -/
theorem scrub_range (i : RangeNo) : (s.scrub k keys cause).ranges[i] =
    if s.ranges[i].binding = some k ∧ s.ranges[i].isOpen = true then
      Range.sealed i { s.ranges[i] with state := .locked, idleRemaining := none }
    else s.ranges[i] := by
  obtain ⟨-, -, -, hranges, -⟩ := (sameButWork_iff _ _).1 (scrub_sameButWork k keys cause s)
  have hlocked : (s.scrub k keys cause).ranges[i] =
      if s.ranges[i].binding == some k then s.ranges[i].lock i else s.ranges[i] :=
    (congrArg (·[i]) hranges).trans (lockRanges_get _ _ i)
  rw [hlocked, Range.lock, ite_and]
  simp only [beq_iff_eq]

/-- No request for the slot is queued after its scrub (R60, R128). -/
theorem scrub_queue {r : Request} (hr : r ∈ (s.scrub k keys cause).expander.queue) : r.slot ≠ k := by
  rw [scrub_eq] at hr
  exact of_decide_eq_true (List.mem_filter.1 hr).2

/-- What a scrub leaves of the fields it has no part in. -/
theorem scrub_frame (k : SlotNo) (keys : KeyPair) (cause : ScrubCause) (s : State) :
    (s.scrub k keys cause).contain = s.contain ∧ (s.scrub k keys cause).faults = s.faults ∧
      (s.scrub k keys cause).decoder = s.decoder ∧ (s.scrub k keys cause).abort = s.abort ∧
      (s.scrub k keys cause).time = s.time ∧ (s.scrub k keys cause).link = s.link ∧
      (s.scrub k keys cause).events = s.events ∧ (s.scrub k keys cause).tallies = s.tallies ∧
      (s.scrub k keys cause).out = s.out ∧ (s.scrub k keys cause).pending = s.pending := by
  obtain ⟨h1, h2, h3, -, -, h4, h5, -, h6, h7, h8, h9, -, h10⟩ := (sameButWork_iff _ _).1 (scrub_sameButWork k keys cause s)
  refine ⟨h1.trans ?_, h2.trans ?_, h3.trans ?_, h4.trans ?_, h5.trans ?_, h6.trans ?_, h7.trans ?_, h8.trans ?_, h9.trans ?_,
    h10.trans ?_⟩ <;> simp [State.scrubBegun]

/-- A scrub leaves what the statements call scrubbed. -/
theorem scrub_scrubbed (hs : s.contextLaws) : s.scrubbed k keys cause (s.scrub k keys cause) := by
  refine ⟨?_, fun j hj => scrub_slot_other hs (Ne.symm hj), fun i => scrub_range i, fun d hd => ?_, ?_, ?_,
    fun r hr => scrub_queue hr, fun x hx hk => ?_⟩
  · rw [scrub_slots hs, getElem_set_fin, if_pos rfl]
  · rw [scrub_eq] at hd
    exact ⟨scrubRevoked_unheld hs hd, fun c hc hh hn =>
      (scrubRevoked_ends hs hd hc hh hn).imp_right fun h => h.trans (by cases cause <;> rfl)⟩
  · rw [scrub_eq]
    exact scrubRevoked_others hs
  · rw [scrub_eq]
    exact (scrubRevoked_cancelsAll hs).returned
  · by_contra hv
    rw [Bool.not_eq_true] at hv
    exact (scrub_expansion hx hv).1 hk

/-- What the expander takes after a scrub is of another slot: the slot's requests are gone (R60, R124). -/
theorem scrubbed_takeEligible {t : State} (h : s.scrubbed k keys cause t) : s.scrubbed k keys cause t.takeEligible := by
  obtain ⟨h1, h2, h3, h4, h5, h6, hqueue, hcurrent⟩ := h
  have hexpander : (∀ r ∈ t.takeEligible.expander.queue, r.slot ≠ k) ∧
      ∀ x, t.takeEligible.expander.current = some x → x.slot = k → x.void = true := by
    rcases takeEligible_cases t with ht | ⟨r, w, ks, -, hr, -, -, ht⟩
    · rw [ht]
      exact ⟨hqueue, hcurrent⟩
    · rw [ht]
      refine ⟨fun q hq => hqueue q (List.mem_of_mem_erase hq), fun x hx hk => ?_⟩
      obtain rfl : r.expansion w ks = x := Option.some.inj hx
      exact absurd hk (hqueue r hr)
  unfold State.scrubbed
  rw [State.takeEligible_slots, State.takeEligible_ranges, State.takeEligible_contexts, State.takeEligible_returnPath]
  exact ⟨h1, h2, h3, h4, h5, h6, hexpander.1, hexpander.2⟩

/-! ## SCRUB-KEY (R59, R128) -/

/-- SCRUB-KEY's frame holds a slot. -/
theorem scrubKey_frame_length (b : Byte) : (LinkCommand.scrubKey b).frame.length = 5 := frame_length _

theorem flushSchedules_frame_length : LinkCommand.flushSchedules.frame.length = 4 := frame_length _

theorem ownScrubKey_badIndex {b : Byte} (hd : s.contain.device ≠ .selfTest) (hb : 32 ≤ b.toNat) :
    s.ownScrubKey b = (s, .refused .badIndex) := by
  unfold State.ownScrubKey
  rw [if_neg hd, slotIndex_none hb]

/-- A LOADED slot's scrub begins, and the expander takes (R59, R124). -/
theorem ownScrubKey_loaded {b : Byte} (hd : s.contain.device ≠ .selfTest) (hb : b.toNat = k.val)
    (hk : s.slots[k].body = .loaded keys) : s.ownScrubKey b = ((s.scrub k keys .command).takeEligible, .accepted) := by
  unfold State.ownScrubKey
  simp only [if_neg hd, slotIndex_some hb, hk]

/-- A SCRUBBING slot keeps its scrub (R59). -/
theorem ownScrubKey_scrubbing {b : Byte} (hd : s.contain.device ≠ .selfTest) (hb : b.toNat = k.val)
    (hk : s.slots[k].body = .scrubbing keys cause) : s.ownScrubKey b = (s, .accepted) := by
  unfold State.ownScrubKey
  simp only [if_neg hd, slotIndex_some hb, hk]

theorem ownScrubKey_empty {b : Byte} (hd : s.contain.device ≠ .selfTest) (hb : b.toNat = k.val)
    (hk : s.slots[k].body = .empty) : s.ownScrubKey b = (s, .done []) := by
  unfold State.ownScrubKey
  simp only [if_neg hd, slotIndex_some hb, hk]

/-- A FAULTED slot becomes EMPTY (R59). -/
theorem ownScrubKey_faulted {b : Byte} (hd : s.contain.device ≠ .selfTest) (hb : b.toNat = k.val)
    (hk : s.slots[k].body = .faulted) :
    s.ownScrubKey b = (s.writeSlot k { s.slots[k] with body := .empty }, .done []) := by
  unfold State.ownScrubKey
  simp only [if_neg hd, slotIndex_some hb, hk]

/-- A command row whose owner leaves the outputs as the frame heard has them. -/
theorem linkRow_answers_of_out {c : LinkCommand} {owner : State → State × Answer} {n : Nat} {a : Answer} {t : State}
    (h : s.link = .empty) (hd : s.contain.device ≠ .selfTest) (hn : c.frame.length = n) (ho : owner (s.heard n) = (t, a))
    (hout : t.out = (s.heard n).out) : linkRow c owner s = .next (t.answered n a) := by
  rw [linkRow_owner h (.inl hd), hn, ho]
  unfold State.answered State.replied State.respond
  rw [show ({ Outputs.quiet with kdo := List.replicate (8 * n) (some true) } : Outputs) = t.out from hout.symm]

/-! ## FLUSH-SCHEDULES (R129) -/

theorem ownFlush_flushes (hd : s.contain.device ≠ .selfTest) : s.ownFlush = (s.flushed, .done []) := if_neg hd

theorem recent_flushed (i : Fin 4) : s.flushed.cache[i].recent = s.cache[i].recent := by simp [State.flushed]

/-! ## The erasure's completion (R63, R124) -/

/-- The entries of the slot are gone, at whatever generation (R63). -/
theorem way_eraseSlot (i : Fin 4) (w : Way) :
    (s.eraseSlot k cause).way i w = (s.way i w).filter fun e => e.slot ≠ k := by
  obtain ⟨-, hcache, -⟩ := eraseSlot_books k cause s
  have hkept : (fun e : Entry => !(e.slot == k)) = fun e => decide (e.slot ≠ k) := by
    funext e
    by_cases he : e.slot = k <;> simp [he]
  rw [way_ofFn hcache, ← hkept]
  cases w <;> rfl

theorem recent_eraseSlot (i : Fin 4) : (s.eraseSlot k cause).cache[i].recent = s.cache[i].recent := by
  obtain ⟨-, hcache, -⟩ := eraseSlot_books k cause s
  rw [hcache]
  simp [CacheSet.discard]

/-- The slot's record at the end of its erasure (R63). -/
theorem slots_eraseSlot : (s.eraseSlot k cause).slots =
    s.slots.set k (Slot.sealed k { s.slots[k] with body := match cause with | .command => .empty | .check => .faulted }) := by
  cases cause <;> rfl

/-- What the end of an erasure changes is slots, cache and, for cause COMMAND, the events (R63). -/
theorem eraseSlot_frame : s.eraseSlot k cause = { s with
    slots := (s.eraseSlot k cause).slots
    cache := (s.eraseSlot k cause).cache
    events := match cause with
      | .command => .follow (s.pendingWith .scrubbed) s.events.enables
      | .check => s.events } := by
  cases cause <;> rfl

theorem execErasureCompletion_scrubbing (hb : s.slots[k].body = .scrubbing keys cause) :
    execErasureCompletion k s = .next (s.start.eraseSlot k cause).takeEligible := by
  unfold execErasureCompletion
  rw [hb]

theorem execErasureCompletion_untaken (hb : ∀ keys cause, s.slots[k].body ≠ .scrubbing keys cause) :
    execErasureCompletion k s = .next s.untaken := by
  unfold execErasureCompletion
  split
  · next keys cause h => exact absurd h (hb keys cause)
  · rfl

end

/-- Settles O38: the row is the slot's erasure and the expander's take. -/
theorem erasureEmptiesSlot : Obligations.erasure_empties_slot := by
  unfold Obligations.erasure_empties_slot
  refine ⟨fun k s hb => execErasureCompletion_untaken hb, fun k keys cause s hb => ?_⟩
  refine ⟨_, s.start.eraseSlot k cause, execErasureCompletion_scrubbing hb, ?_, fun j hj => ?_, way_eraseSlot, recent_eraseSlot,
    takeEligible_took _, ?_, eraseSlot_frame⟩
  · rw [State.slotIs, slots_eraseSlot]
    exact (getElem_set_fin _ k k _).trans (if_pos rfl)
  · rw [slots_eraseSlot]
    exact (getElem_set_fin _ k j _).trans (if_neg (Ne.symm hj))
  · obtain ⟨c, x, h⟩ := takeEligible_frame (s.start.eraseSlot k cause)
    rw [h]

/-- Settles O40: SCRUB-KEY by the slot's stored state, and FLUSH-SCHEDULES way by way. -/
theorem scrubWithdrawsKeyAndFlushSchedules : Obligations.scrub_withdraws_key_and_flush_schedules := by
  unfold Obligations.scrub_withdraws_key_and_flush_schedules
  refine ⟨fun b s hl hd => ?_, fun s hl hd => ?_⟩
  · have hanswer : ∀ {t : State} {a : Answer}, (s.heard 5).ownScrubKey b = (t.heard 5, a) →
        exec (.scrubKey b) s = .next (t.answered 5 a) :=
      fun ho => linkRow_answers hl (.inl hd) (scrubKey_frame_length b) ho
    refine ⟨fun hb => hanswer (ownScrubKey_badIndex (s := s.heard 5) hd hb), fun k hb => ?_⟩
    refine ⟨fun keys hk hs => ?_, fun keys cause hk => hanswer (ownScrubKey_scrubbing (s := s.heard 5) hd hb hk),
      fun hk => hanswer (ownScrubKey_empty (s := s.heard 5) hd hb hk), fun hk => ?_⟩
    · obtain ⟨hcontain, hfaults, hdecoder, habort, htime, -, hevents, htallies, hout, hpending⟩ :=
        scrub_frame k keys .command (s.heard 5)
      exact ⟨_, linkRow_answers_of_out hl hd (scrubKey_frame_length b) (ownScrubKey_loaded (s := s.heard 5) hd hb hk)
        ((State.takeEligible_out _).trans hout),
        scrubbed_takeEligible (scrub_scrubbed (s := s.heard 5) (k := k) (keys := keys) (cause := .command) hs),
        (State.takeEligible_contain _).trans hcontain, (State.takeEligible_faults _).trans hfaults,
        (State.takeEligible_decoder _).trans hdecoder, (State.takeEligible_abort _).trans habort,
        (State.takeEligible_time _).trans htime, (State.takeEligible_events _).trans hevents,
        (State.takeEligible_tallies _).trans htallies, (State.takeEligible_pending _).trans hpending⟩
    · exact ⟨_, hanswer (t := s.writeSlot k { s.slots[k] with body := .empty })
          (ownScrubKey_faulted (s := s.heard 5) hd hb hk),
        (getElem_set_fin _ k k _).trans (if_pos rfl), fun j hj => (getElem_set_fin _ k j _).trans (if_neg (Ne.symm hj)), rfl⟩
  · exact ⟨s.flushed, linkRow_answers hl (.inl hd) flushSchedules_frame_length (ownFlush_flushes (s := s.heard 4) hd),
      way_flushed s, recent_flushed, rfl⟩

end Sys2Proof.Machine
end

