-- ==== Sys2Proof/Proofs/SlotVisits.lean ====
section
/-! SUPPORT. The monitor's visits to key slots (R62, R64, R65, R168). -/

namespace Sys2Proof.Machine

section
variable {s : State} {k : SlotNo}

/-- The cursor's positions from 24 on are the slots' (R167). -/
theorem visit_slot {c : Fin 56} (hc : c.val = 24 + k.val) :
    s.visit c = if slotDisturbed k s.slots[k] then s.slotMismatch k else s := by
  have hge : ¬ c.val < 8 := by omega
  have hge' : ¬ c.val < 24 := by omega
  have hlt : c.val - 24 < 32 := by omega
  have hk : (⟨c.val - 24, hlt⟩ : SlotNo) = k := Fin.ext (Nat.sub_eq_of_eq_add' hc)
  subst hk
  unfold State.visit
  rw [dif_neg hge, dif_neg hge']

/-- A slot in SCRUBBING is passed by (R62). -/
theorem visit_scrubbing {c : Fin 56} {keys : KeyPair} {cause : ScrubCause} (hc : c.val = 24 + k.val)
    (hb : s.slots[k].body = .scrubbing keys cause) : s.visit c = s := by
  have hpassed : slotDisturbed k s.slots[k] = false := by
    unfold slotDisturbed
    rw [hb]
  rw [visit_slot hc, hpassed]
  rfl

/-- Any other slot is visited for its check word (R64, R168). -/
theorem visit_disturbed {c : Fin 56} (hc : c.val = 24 + k.val) (hb : ∀ keys cause, s.slots[k].body ≠ .scrubbing keys cause)
    (hm : s.slots[k].check ≠ Config.slotCheck (s.slots[k].fields k)) : s.visit c = s.slotMismatch k := by
  have hfound : slotDisturbed k s.slots[k] = true := by
    unfold slotDisturbed
    split
    · next keys cause h => exact absurd h (hb keys cause)
    · rfl
    · exact bne_iff_ne.2 hm
  rw [visit_slot hc, hfound]
  rfl

/-- A LOADED slot that mismatches is scrubbed with cause CHECK (R64, R65). -/
theorem slotMismatch_loaded {keys : KeyPair} (hb : s.slots[k].body = .loaded keys) :
    s.slotMismatch k = (s.reportMismatch .key k.val).scrub k keys .check := by
  unfold State.slotMismatch
  rw [hb]

/-- An EMPTY or FAULTED slot that mismatches is FAULTED (R64). -/
theorem slotMismatch_keyless (hb : s.slots[k].body = .empty ∨ s.slots[k].body = .faulted) :
    s.slotMismatch k = (s.reportMismatch .key k.val).writeSlot k { s.slots[k] with body := .faulted } := by
  unfold State.slotMismatch
  rcases hb with hb | hb <;> rw [hb]

/-- A visit noted is a scrub's all the same. -/
theorem scrubbed_visitNoted {keys : KeyPair} {cause : ScrubCause} {t : State} (c : Fin 56)
    (h : s.scrubbed k keys cause t) : s.scrubbed k keys cause (t.visitNoted c) := h

/-- What the report of a mismatch is to a scrub: the state it was (R168). -/
theorem scrubbed_of_reported {keys : KeyPair} {cause : ScrubCause} {t : State} {table : Table} {index : Nat}
    (h : (s.start.reportMismatch table index).scrubbed k keys cause t) : s.scrubbed k keys cause t := h

end

/-- Settles O42: the visit by the slot's stored state. -/
theorem monitorVisitsSlots : Obligations.monitor_visits_slots := by
  unfold Obligations.monitor_visits_slots
  intro k s hd hv hc hs
  have hexec : exec .tableMonitorVisit s = _ := execTableMonitorVisit_due hd hv
  refine ⟨fun keys cause hb => ?_, fun hm => ⟨fun keys hb hl => ?_, fun hb => ?_⟩⟩
  · rw [hexec, visit_scrubbing (s := s.start) hc hb, takeEligible_of_settled (visitNoted_settled (s := s.start) hs)]
    rfl
  · have hvisit : s.start.visit s.contain.cursor = s.start.slotMismatch k :=
      visit_disturbed (s := s.start) hc (fun _ _ h => by cases hb.symm.trans h) hm
    have hlaws : (s.start.reportMismatch .key k.val).contextLaws := (contextLaws_congr (s := s) rfl).2 hl
    have hscrubbed := scrubbed_takeEligible (scrubbed_visitNoted s.contain.cursor
      (scrubbed_of_reported (scrub_scrubbed (k := k) (keys := keys) (cause := .check) hlaws)))
    obtain ⟨hcontain, hfaults, hdecoder, habort, htime, hlink, hevents, htallies, -⟩ :=
      scrub_frame k keys .check (s.start.reportMismatch .key k.val)
    rw [hexec, hvisit, slotMismatch_loaded (s := s.start) hb]
    generalize (s.start.reportMismatch .key k.val).scrub k keys .check = t at *
    refine ⟨_, rfl, hscrubbed, ?_, (State.takeEligible_faults _).trans hfaults, (State.takeEligible_events _).trans hevents,
      (State.takeEligible_decoder _).trans hdecoder, (State.takeEligible_abort _).trans habort,
      (State.takeEligible_time _).trans htime, (State.takeEligible_link _).trans hlink,
      (State.takeEligible_tallies _).trans htallies⟩
    rw [State.takeEligible_contain]
    exact congrArg (fun x : Containment => { x with cursor := s.contain.cursor + 1 }) hcontain
  · have hvisit : s.start.visit s.contain.cursor = s.start.slotMismatch k :=
      visit_disturbed (s := s.start) hc (fun keys cause h => by rcases hb with hb | hb <;> cases hb.symm.trans h) hm
    rw [hexec, hvisit, slotMismatch_keyless (s := s.start) hb]
    have hset : (((s.start.reportMismatch .key k.val).writeSlot k
      { s.start.slots[k] with body := .faulted }).visitNoted s.contain.cursor).settled := hs
    rw [takeEligible_of_settled hset]
    exact ⟨_, rfl, (getElem_set_fin _ k k _).trans (if_pos rfl),
      fun j hj => (getElem_set_fin _ k j _).trans (if_neg (Ne.symm hj)), rfl⟩

end Sys2Proof.Machine
end

