-- ==== Sys2Proof/Proofs/Withdrawals.lean ====
section
/-! SUPPORT. Entry to CANCEL record by record: what becomes of the context's record, its items on the return path, its blocks and
the beats left (R87 to R92, R122 to R124). -/

namespace Sys2Proof.Machine

/-! ## The end of a duty (R88, R91, R92) -/

/-- A record after its context's duty, with so many beats left: a store with beats left keeps it as it is; any other has its
completion SENT, and is gone unless its CANCEL is still to be answered (R91, R92). -/
def Context.afterDuty (left : Nat) (c : Context) : Option Context :=
  if c.kind = .store ∧ left ≠ 0 then some c
  else if c.cancel = .sent then some { c with completionSent := true } else none

/-- The items a duty hands to the return path (R89, R91). -/
def Context.dutyItems (left : Nat) (c : Context) : List ReturnItem :=
  match c.kind with
  | .fetch =>
    (if c.passed < c.length then [.withheld (c.length - c.passed) c.mover c.tag] else []) ++ [.completion c.mover c.tag c.code]
  | .store => if left = 0 then [.completion c.mover c.tag c.code] else []

/-- The intake after a duty: a store's beats left are to be dropped (R91, R100). -/
def Context.dutyIntake (left : Nat) (c : Context) (i : Intake) : Intake :=
  if c.kind = .store ∧ left ≠ 0 then .dropping left (some c.number) else i

section
variable {c : Context} {left : Nat}

theorem Context.afterDuty_done (hd : c.kind = .fetch ∨ left = 0) :
    c.afterDuty left = if c.cancel = .sent then some { c with completionSent := true } else none :=
  if_neg fun h => by
    rcases hd with hk | hl
    · rw [hk] at h; cases h.1
    · exact h.2 hl

theorem Context.afterDuty_beatsLeft (hk : c.kind = .store) (hl : left ≠ 0) : c.afterDuty left = some c := if_pos ⟨hk, hl⟩

theorem Context.dutyItems_fetch (hk : c.kind = .fetch) :
    c.dutyItems left = (if c.passed < c.length then [.withheld (c.length - c.passed) c.mover c.tag] else []) ++
      [.completion c.mover c.tag c.code] := by
  simp only [Context.dutyItems, hk]

theorem Context.dutyItems_store (hk : c.kind = .store) :
    c.dutyItems left = if left = 0 then [.completion c.mover c.tag c.code] else [] := by
  simp only [Context.dutyItems, hk]

theorem Context.dutyIntake_fetch (hk : c.kind = .fetch) (i : Intake) : c.dutyIntake left i = i :=
  if_neg fun h => by rw [hk] at h; cases h.1

theorem Context.dutyIntake_store (hk : c.kind = .store) (i : Intake) :
    c.dutyIntake left i = if left = 0 then i else .dropping left (some c.number) := by
  by_cases hl : left = 0 <;> simp [Context.dutyIntake, hk, hl]

end

section
variable {n : CtxNo} {e : Context} {u : State}

/-- A completion handed marks the record and joins the return path (R88). -/
theorem handCompletion_frame (hu : u.ctx? n = some e) (hs : e.completionSent = false) :
    u.handCompletion n = { u with
      contexts := (u.handCompletion n).contexts
      returnPath := u.returnPath ++ [.completion e.mover e.tag e.code] } := by
  rw [handCompletion_unsent hu hs]
  rfl

/-- A completion handed, and the context freed if nothing of it is left to answer (R88, R92). -/
theorem handed_freed (hu : u.ctx? n = some e) (hs : e.completionSent = false) :
    ∃ t, (u.handCompletion n).freeIfDone n = t ∧
      t.ctx? n = (if e.state = .cancel ∧ e.cancel ≠ .sent then none else some { e with completionSent := true }) ∧
      u.othersKept n t ∧
      t = { u with contexts := t.contexts, returnPath := u.returnPath ++ [.completion e.mover e.tag e.code] } := by
  have hctx := ctx?_handCompletion hu
  have hothers := (handCompletion_finishes n u).others
  have hframe := handCompletion_frame hu hs
  generalize u.handCompletion n = v at hctx hothers hframe ⊢
  by_cases hd : e.state = .cancel ∧ e.cancel ≠ .sent
  · have hfree : v.freeIfDone n = v.dropCtx n := by
      rw [freeIfDone_done hctx hd.1 rfl hd.2, free_eq hctx, releasePin_of_not_streaming]
      simp [Context.streaming, hd.1]
    refine ⟨_, hfree, by rw [if_pos hd]; exact ctx?_dropCtx n v, othersKept_trans hothers (othersKept_dropCtx n v), ?_⟩
    rw [hframe]
    rfl
  · have hkept : v.freeIfDone n = v := freeIfDone_kept hctx (by
      rcases not_and_or.1 hd with h | h
      · exact .inl h
      · exact .inr (.inr (not_not.1 h)))
    exact ⟨_, hkept, by rw [if_neg hd]; exact hctx, hothers, hframe⟩

/-- The duty of a fetch in CANCEL: its remainder withheld, and its completion (R89, R91). -/
theorem finishDuty_fetch (hk : e.kind = .fetch) (left : Nat) :
    u.finishDuty e left =
      ((if e.passed < e.length then u.hand (.withheld (e.length - e.passed) e.mover e.tag) else u).handCompletion
        e.number).freeIfDone e.number := by
  simp only [State.finishDuty, hk]

/-- The duty of a store in CANCEL: its completion, or its beats left dropped before it (R91). -/
theorem finishDuty_store (hk : e.kind = .store) (left : Nat) :
    u.finishDuty e left =
      if left = 0 then (u.handCompletion e.number).freeIfDone e.number
      else { u with intake := .dropping left (some e.number) } := by
  simp only [State.finishDuty, hk]

/-- The duty of a context in CANCEL whose completion is not SENT: its record, its items, the intake, and nothing else (R91, R92).
-/
theorem finishDuty_ends (hu : u.ctx? e.number = some e) (hst : e.state = .cancel) (hs : e.completionSent = false) (left : Nat) :
    ∃ t, u.finishDuty e left = t ∧ t.ctx? e.number = e.afterDuty left ∧ u.othersKept e.number t ∧
      t = { u with
        contexts := t.contexts
        intake := e.dutyIntake left u.intake
        returnPath := u.returnPath ++ e.dutyItems left } := by
  have hrecord : (if e.state = .cancel ∧ e.cancel ≠ .sent then none else some { e with completionSent := true }) =
      if e.cancel = .sent then some { e with completionSent := true } else none := by
    by_cases h : e.cancel = .sent <;> simp [h, hst]
  cases hk : e.kind with
  | fetch =>
    rw [finishDuty_fetch hk]
    by_cases hp : e.passed < e.length
    · rw [if_pos hp]
      obtain ⟨t, ht, h1, h2, h3⟩ :=
        handed_freed (u := u.hand (.withheld (e.length - e.passed) e.mover e.tag)) hu hs
      refine ⟨t, ht, by simpa [Context.afterDuty, hk] using h1.trans hrecord, h2, h3.trans ?_⟩
      simp [Context.dutyItems, Context.dutyIntake, hk, hp, State.hand]
    · rw [if_neg hp]
      obtain ⟨t, ht, h1, h2, h3⟩ := handed_freed hu hs
      refine ⟨t, ht, by simpa [Context.afterDuty, hk] using h1.trans hrecord, h2, h3.trans ?_⟩
      simp [Context.dutyItems, Context.dutyIntake, hk, hp]
  | store =>
    rw [finishDuty_store hk]
    by_cases hl : left = 0
    · rw [if_pos hl]
      obtain ⟨t, ht, h1, h2, h3⟩ := handed_freed hu hs
      refine ⟨t, ht, by simpa [Context.afterDuty, hl] using h1.trans hrecord, h2, h3.trans ?_⟩
      simp [Context.dutyItems, Context.dutyIntake, hk, hl]
    · rw [if_neg hl]
      refine ⟨_, rfl, by rw [Context.afterDuty, if_pos ⟨hk, hl⟩]; exact hu, rfl, ?_⟩
      simp [Context.dutyItems, Context.dutyIntake, hk, hl]

end

/-! ## The record cancelled (R87, R90 to R92) -/

section
variable {c : Context} {code : Reply} {sends : Bool} {left : Nat}

/-- A code takes the place of OK (R87). -/
theorem Reply.orElse_of_ok {old : Reply} (h : old = .ok) (new : Reply) : old.orElse new = new := if_pos h

theorem Reply.orElse_self (r : Reply) : r.orElse r = r := ite_self r

/-- The record of a context with no CANCEL as it enters CANCEL with a code that it takes (R87, R90). -/
theorem Context.cancelled_eq (hcancel : c.cancel = .none) (hcode : c.code.orElse code = code) :
    c.cancelled code sends = { c with
      state := .cancel, code := code, cancel := if sends = true then .sent else .none, tweak := .absent
      timer := c.timer.filter fun x => x.phase == .cancelAnswer } := by
  simp only [Context.cancelled, hcancel, hcode, true_and]
  rfl

/-- A fetch's record after it: gone, or with its CANCEL to be answered (R91, R92). -/
theorem Context.cancelled_afterDuty_fetch (hk : c.kind = .fetch) (hcancel : c.cancel = .none)
    (hcode : c.code.orElse code = code) :
    (c.cancelled code sends).afterDuty left = if sends = false then none else some { c with
      state := .cancel, code := code, cancel := .sent, completionSent := true, tweak := .absent
      timer := c.timer.filter fun x => x.phase == .cancelAnswer } := by
  rw [Context.afterDuty_done (c := c.cancelled code sends) (.inl hk), Context.cancelled_eq hcancel hcode]
  cases sends <;> rfl

/-- A store's record after it: gone, or with its CANCEL to be answered or its beats left to be dropped (R91, R92). -/
theorem Context.cancelled_afterDuty_store (hk : c.kind = .store) (hcancel : c.cancel = .none)
    (hcode : c.code.orElse code = code) (hs : c.completionSent = false) :
    (c.cancelled code sends).afterDuty left = if left = 0 ∧ sends = false then none else some { c with
      state := .cancel, code := code, cancel := if sends = true then .sent else .none, completionSent := decide (left = 0)
      tweak := .absent, timer := c.timer.filter fun x => x.phase == .cancelAnswer } := by
  by_cases hl : left = 0
  · rw [Context.afterDuty_done (.inr hl), Context.cancelled_eq hcancel hcode]
    cases sends <;> simp [hl]
  · rw [Context.afterDuty_beatsLeft (c := c.cancelled code sends) hk hl, Context.cancelled_eq hcancel hcode]
    simp [hl, hs]

end

/-! ## The blocks a context is withdrawn from (R17, R90, R107, R122, R123, R143) -/

/-- What a withdrawal of a context reads is the same in two states: the blocks without the context's work, and its pin. -/
structure State.SameWork (n : CtxNo) (s u : State) : Prop where
  engines : u.engines.discardUnits n = s.engines.discardUnits n
  media : u.media.abandon n = s.media.abandon n
  hold : (u.hold.filter fun h => h.ctx ≠ n) = s.hold.filter fun h => h.ctx ≠ n
  cache : u.cache = s.cache
  expander : u.expander = s.expander
  slots : u.slots = s.slots

/-- A state's blocks are those of another with a context's work discarded and its pin released, before the expander's take. -/
structure State.Withdraws (c : Context) (s v : State) : Prop where
  engines : v.engines = s.engines.discardUnits c.number
  media : v.media = s.media.abandon c.number
  hold : v.hold = s.hold.filter fun h => h.ctx ≠ c.number
  cache : v.cache = (s.releasePin c).cache
  expander : v.expander = s.expander.detach c.number
  slots : v.slots = s.slots

section
variable {c d : Context} {s u v : State}

/-- A work discarded and a pin released, in a state with the same work. -/
theorem State.SameWork.withdraws (h : s.SameWork c.number u) (hs : d.state = c.state) (hc : d.capture = c.capture) :
    s.Withdraws c ((u.releasePin d).discardWork c.number) where
  engines := by simpa using h.engines
  media := by simpa using h.media
  hold := by simpa using h.hold
  cache := by rw [releasePin_congr hs hc h.cache]; rfl
  expander := by simp [h.expander]
  slots := by simp [h.slots]

/-- So are the blocks of a state that has the same. -/
theorem State.Withdraws.congr {w : State} (h : s.Withdraws c v) (h1 : w.engines = v.engines) (h2 : w.media = v.media)
    (h3 : w.hold = v.hold) (h4 : w.cache = v.cache) (h5 : w.expander = v.expander) (h6 : w.slots = v.slots) :
    s.Withdraws c w :=
  ⟨h1.trans h.engines, h2.trans h.media, h3.trans h.hold, h4.trans h.cache, h5.trans h.expander, h6.trans h.slots⟩

/-- A withdrawal and then the take: what a statement calls withdrawn (R90, R122 to R124). -/
theorem State.Withdraws.taken (h : s.Withdraws c v) : s.withdrawn c v.takeEligible := by
  obtain ⟨x, hx⟩ := releasePin_frame c s
  refine ⟨(State.takeEligible_engines v).trans h.engines, (State.takeEligible_media v).trans h.media,
    (State.takeEligible_hold v).trans h.hold, { s with cache := x, expander := s.expander.detach c.number }, ?_, ?_, ?_⟩
  · have hp := releasePin_pinReleased c s
    rw [hx] at hp
    exact hp
  · have hk : v.cache = x := by rw [h.cache, hx]
    exact took_congr (takeEligible_took v) hk.symm h.expander.symm h.slots.symm rfl rfl
  · rw [detach_eq]

/-- A withdrawal leaves the hold of another context (R90, R143). -/
theorem withdrawn_hold (h : s.withdrawn c v) : v.hold = s.hold.filter fun h => h.ctx ≠ c.number := by
  obtain ⟨-, -, hhold, -⟩ := h
  exact hhold

end

/-! ## Entry to CANCEL (R87, R90, R91, R92) -/

/-- Whether an entry to CANCEL leaves a CANCEL to send: for the timed request, or for outstanding work without the hold request
just answered (R90, R111). -/
def State.cancelNeeded (answered timed : Bool) (c : Context) (u : State) : Bool :=
  timed || (if answered then decide (0 < c.pieces) || c.fetchProgress == .issued else u.outstanding c)

/-- What an entry to CANCEL and the take make of a state `u`, whose work is that of `s`, where the context's record is `d` and so
many beats are left. -/
structure State.CancelEntered (c d : Context) (code : Reply) (sends : Bool) (left : Nat) (s u t : State) : Prop where
  number : d.number = c.number
  record : t.ctx? c.number = (d.cancelled code sends).afterDuty left
  others : u.othersKept c.number t
  withdrawn : s.withdrawn c t
  frame : t = { u with
    contexts := t.contexts, cache := t.cache, expander := t.expander, engines := t.engines, media := t.media
    hold := s.hold.filter fun h => h.ctx ≠ c.number
    intake := (d.cancelled code sends).dutyIntake left u.intake
    returnPath := u.returnPath ++ (d.cancelled code sends).dutyItems left }

section
variable {c d : Context} {s u : State}

/-- What a work discarded and a record cancelled leave but for contexts, cache and the blocks. -/
theorem cancelBegun_frame (d : Context) (code : Reply) (sends : Bool) (u : State) :
    u.cancelBegun d code sends = { u with
      contexts := (u.cancelBegun d code sends).contexts
      cache := (u.cancelBegun d code sends).cache
      expander := (u.cancelBegun d code sends).expander
      engines := (u.cancelBegun d code sends).engines
      media := (u.cancelBegun d code sends).media
      hold := (u.cancelBegun d code sends).hold } := by
  unfold State.cancelBegun
  obtain ⟨x, h⟩ := releasePin_frame d u
  rw [h]
  rfl

/-- The record cancelled (R87, R90). -/
theorem ctx?_cancelBegun (hu : u.ctx? d.number = some d) (code : Reply) (sends : Bool) :
    (u.cancelBegun d code sends).ctx? d.number = some (d.cancelled code sends) :=
  ctx?_modCtx rfl ((ctx?_congr (by simp)).trans hu)

theorem othersKept_cancelBegun (d : Context) (code : Reply) (sends : Bool) (u : State) :
    u.othersKept d.number (u.cancelBegun d code sends) :=
  othersKept_trans (t := (u.releasePin d).discardWork d.number) (othersKept_of_eq (by simp)) (othersKept_modCtx fun _ => rfl)

/-- Entry to CANCEL of a live context whose completion is not SENT, and the take after it. -/
theorem enterCancel_taken (hu : u.ctx? c.number = some d) (hl : d.live = true) (hsent : d.completionSent = false)
    (hw : s.SameWork c.number u) (hs : d.state = c.state) (hc : d.capture = c.capture) (code : Reply)
    {answered timed sends : Bool} {left : Nat} (hsends : u.cancelNeeded answered timed d = sends) (hleft : u.beatsLeft d = left) :
    State.CancelEntered c d code sends left s u (u.enterCancel c.number code answered timed).takeEligible := by
  have hn : d.number = c.number := ctx?_number hu
  rw [enterCancel_live hu hl, ← hn]
  rw [← hn] at hu
  change State.CancelEntered c d code _ _ s u
    ((u.cancelBegun d code (u.cancelNeeded answered timed d)).finishDuty d (u.beatsLeft d)).takeEligible
  rw [hsends, hleft]
  have hblocks : s.Withdraws c (u.cancelBegun d code sends) :=
    (hw.withdraws hs hc).congr (by simp [State.cancelBegun, hn]) (by simp [State.cancelBegun, hn])
      (by simp [State.cancelBegun, hn]) (by simp [State.cancelBegun]) (by simp [State.cancelBegun, hn])
      (by simp [State.cancelBegun])
  have hothers := othersKept_cancelBegun d code sends u
  have hframe := cancelBegun_frame d code sends u
  have hctx := ctx?_cancelBegun hu code sends
  generalize u.cancelBegun d code sends = v at *
  obtain ⟨t, ht, h1, h2, h3⟩ := finishDuty_ends (e := d.cancelled code sends) hctx rfl hsent left
  have ht' : v.finishDuty d left = t := ht
  rw [ht']
  refine ⟨hn, ?_, ?_, ?_, ?_⟩
  · rw [ctx?_congr (State.takeEligible_contexts t), ← hn]
    exact h1
  · rw [← hn]
    exact othersKept_trans hothers (othersKept_trans h2 (othersKept_of_eq (State.takeEligible_contexts t)))
  · refine (hblocks.congr ?_ ?_ ?_ ?_ ?_ ?_).taken <;> rw [h3]
  · obtain ⟨x, y, h⟩ := takeEligible_frame t
    have hhold : t.hold = s.hold.filter fun h => h.ctx ≠ c.number := by rw [h3]; exact hblocks.hold
    rw [h]
    dsimp only
    rw [← hhold, h3, hframe]

section
variable {code : Reply} {sends : Bool} {left : Nat} {t : State}

/-- All that changes where a fetch enters CANCEL (R89, R91). -/
theorem State.CancelEntered.frame_fetch (h : State.CancelEntered c d code sends left s u t) (hk : d.kind = .fetch) :
    t = { u with
      contexts := t.contexts, cache := t.cache, expander := t.expander, engines := t.engines, media := t.media
      hold := s.hold.filter fun h => h.ctx ≠ c.number
      returnPath := u.returnPath ++
        ((if d.passed < d.length then [.withheld (d.length - d.passed) d.mover d.tag] else []) ++
          [.completion d.mover d.tag (d.code.orElse code)]) } := by
  have hf := h.frame
  rw [Context.dutyIntake_fetch (c := d.cancelled code sends) hk, Context.dutyItems_fetch (c := d.cancelled code sends) hk] at hf
  exact hf

/-- All that changes where a store enters CANCEL (R91). -/
theorem State.CancelEntered.frame_store (h : State.CancelEntered c d code sends left s u t) (hk : d.kind = .store) :
    t = { u with
      contexts := t.contexts, cache := t.cache, expander := t.expander, engines := t.engines, media := t.media
      hold := s.hold.filter fun h => h.ctx ≠ c.number
      intake := if left = 0 then u.intake else .dropping left (some c.number)
      returnPath := u.returnPath ++ if left = 0 then [.completion d.mover d.tag (d.code.orElse code)] else [] } := by
  have hf := h.frame
  rw [Context.dutyIntake_store (c := d.cancelled code sends) hk, Context.dutyItems_store (c := d.cancelled code sends) hk] at hf
  rw [← h.number]
  exact h.number ▸ hf

end

/-- No hold is none that a withdrawal takes. -/
theorem hold_filter_of_none {o : Option Hold} (h : o = none) (n : CtxNo) : (o.filter fun h => h.ctx ≠ n) = o := by
  rw [h]
  rfl

end

end Sys2Proof.Machine
end

