-- ==== Sys2Proof/Proofs/ControllerSegment.lean ====
section
/-! SUPPORT. The controller segment: its clear, a request refused, and the items of the return path (R75, R77, R89, R95, R96, R98,
R103, R117, R130). -/

namespace Sys2Proof.Machine

/-! ## SEGMENT CLEAR (R95, R96, R117, R130) -/

/-- The clear of a set keeps its entries but for the flush-marked, without their pins (R130). -/
theorem CacheSet.entry_afterClear (c : CacheSet) (w : Way) :
    c.afterClear.entry w = ((c.entry w).filter fun e => !e.flush).map fun e => { e with pins := 0 } := by
  cases w <;> rfl

section
variable {s : State}

/-- A clear that finds no context abandons nothing and tells nothing (R96). -/
theorem execSegmentClear_empty (hi : s.intake ≠ .clearing) (hc : s.contexts = []) :
    execSegmentClear s = .next s.start.abandonAll := by
  rw [execSegmentClear, if_neg hi, if_pos hc]

/-- A clear that abandons a context records the two oldest and raises ABORTED (R96). -/
theorem execSegmentClear_abandons (hi : s.intake ≠ .clearing) (hc : s.contexts ≠ []) :
    execSegmentClear s =
      .next (State.raise .aborted { s.start.abandonAll with abort := (s.contexts.take 2).map Context.abortEntry }) := by
  rw [execSegmentClear, if_neg hi, if_neg hc]

/-- The set of the cache after the clear (R130). -/
theorem abandonAll_cache (i : Fin 4) : s.abandonAll.cache[i] = s.cache[i].afterClear := by
  simp [State.abandonAll]

/-- The ways of the cache after the clear (R130). -/
theorem way_afterClear {t : State} (ht : t.cache = s.abandonAll.cache) (i : Fin 4) (w : Way) :
    t.way i w = ((s.way i w).filter fun e => !e.flush).map fun e => { e with pins := 0 } := by
  rw [way_congr ht, State.way, abandonAll_cache]
  exact CacheSet.entry_afterClear _ w

/-- The recency marks stand (R130). -/
theorem recent_afterClear {t : State} (ht : t.cache = s.abandonAll.cache) (i : Fin 4) :
    t.cache[i].recent = s.cache[i].recent := by
  rw [ht, abandonAll_cache]
  rfl

end

/-- Settles O11: by whether the clear finds a context. -/
theorem segmentClearAbandons : Obligations.segment_clear_abandons := by
  unfold Obligations.segment_clear_abandons
  refine ⟨fun s hi => ?_, fun s hi => if_pos hi⟩
  by_cases hc : s.contexts = []
  · have hexec : exec .segmentClear s = _ := execSegmentClear_empty hi hc
    rw [hexec, if_pos hc, if_pos hc]
    exact ⟨_, rfl, way_afterClear (s := s.start) rfl, recent_afterClear (s := s.start) rfl, rfl, rfl, rfl⟩
  · have hexec : exec .segmentClear s = _ := execSegmentClear_abandons hi hc
    rw [hexec, if_neg hc, if_neg hc]
    exact ⟨_, rfl, way_afterClear (s := s.start) rfl, recent_afterClear (s := s.start) rfl, rfl, rfl, rfl⟩

/-! ## A request refused (R75, R77) -/

/-- Two answers that are driven alike are the same. -/
theorem driven_injective {a b : HeaderAnswer} (h : a.driven = b.driven) : a = b :=
  congrArg (fun d : Driven HeaderAnswer => d.item) h

/-- A ruling that is answered by a refusal refuses. -/
theorem ruling_of_answer {r : Ruling} {code : Reply} (h : r.answer = .refuse code) : ∃ d, r = .refuse code d := by
  cases r with
  | refuse c d => cases h; exact ⟨d, rfl⟩
  | admitted p w cap d => cases h

section
variable (s : State) (f : HeaderFields) (code : Reply)

/-- The note of a degrade changes tallies and events, and not the parity tally (R27). -/
theorem noteDegrade_frame (d : Bool) :
    (s.noteDegrade d).tallies.parity = s.tallies.parity ∧
      s.noteDegrade d = { s with tallies := (s.noteDegrade d).tallies, events := (s.noteDegrade d).events } := by
  cases d <;> exact ⟨rfl, rfl⟩

/-- A refusal answers, hands a fetch its completion unless the code is PARITY, has a store's beats dropped, and counts a parity
failure (R75, R77). -/
theorem refuseRequest_refuses :
    (s.refuseRequest f code).intake = (match f.kind with | .fetch => s.intake | .store => .dropping f.length none) ∧
      (s.refuseRequest f code).returnPath =
        s.returnPath ++ (if f.kind = .fetch ∧ code ≠ .parity then [.completion f.mover f.tag code] else []) ∧
      (s.refuseRequest f code).tallies.parity = (if code = .parity then countUp s.tallies.parity else s.tallies.parity) ∧
      s.refuseRequest f code = { s with
        intake := (s.refuseRequest f code).intake
        returnPath := (s.refuseRequest f code).returnPath
        tallies := (s.refuseRequest f code).tallies
        events := (s.refuseRequest f code).events
        out := (s.refuseRequest f code).out } := by
  unfold State.refuseRequest
  cases hk : f.kind <;> by_cases hc : code = .parity <;> simp [hc] <;> rfl

end

/-- Settles O13: a header answered by a refusal is one whose ruling refuses. -/
theorem refusalChangesNoTable : Obligations.refusal_changes_no_table := by
  unfold Obligations.refusal_changes_no_table
  intro h s t code hi hexec hanswer
  obtain ⟨t', ht', ha⟩ := execRequestHeader_answers (h := h) hi
  have hexec' : execRequestHeader h s = .next t := hexec
  obtain rfl : t' = t := by rw [ht'] at hexec'; cases hexec'; rfl
  obtain ⟨d, hr⟩ := ruling_of_answer (driven_injective (Option.some.inj (ha.symm.trans hanswer)))
  rw [execRequestHeader, if_pos hi, hr] at hexec'
  cases hexec'
  obtain ⟨hparity, hnote⟩ := noteDegrade_frame s.start d
  generalize s.start.noteDegrade d = u at *
  obtain ⟨h1, h2, h3, h4⟩ := refuseRequest_refuses u (readHeader h) code
  generalize u.refuseRequest (readHeader h) code = t at *
  refine ⟨h1.trans ?_, h2.trans ?_, h3.trans ?_, h4.trans ?_⟩
  · rw [hnote]
    cases (readHeader h).kind
    · exact hi
    · rfl
  · rw [hnote]
    rfl
  · rw [hparity]
    rfl
  · rw [hnote]
    rfl

/-! ## The return path's delivery (R89, R98, R103) -/

/-- The head of the return path is delivered (R103). -/
theorem execReturnPathDelivery_head {item : ReturnItem} {rest : List ReturnItem} {s : State} (h : s.returnPath = item :: rest) :
    execReturnPathDelivery s = .next { s with
      returnPath := item.deliver.2 ++ rest
      out := { Outputs.quiet with delivered := some item.deliver.1.driven } } := by
  unfold execReturnPathDelivery
  rw [h]
  rfl

/-- Every byte of the withheld pattern has four ones, so that all its parity bits are ones (R89, R98). -/
theorem lanesParity_withheldPattern : lanesParity withheldPattern = 0xFFFF := by decide

/-- Settles O20: by the kind of the item. -/
theorem returnPathDeliversHead : Obligations.return_path_delivers_head := by
  unfold Obligations.return_path_delivers_head
  refine fun rest s => ⟨fun m t u h => execReturnPathDelivery_head h, fun n m t h hn => ?_, fun m t code h =>
    execReturnPathDelivery_head h⟩
  have hexec : exec .returnPathDelivery s = _ := execReturnPathDelivery_head h
  have hleft : (ReturnItem.deliver (.withheld n m t)).2 ++ rest = if n = 1 then rest else .withheld (n - 1) m t :: rest := by
    by_cases h1 : n = 1
    · simp [ReturnItem.deliver, h1]
    · have hn' : ¬ n ≤ 1 := by omega
      simp [ReturnItem.deliver, h1, hn']
  have hbeat : (ReturnItem.deliver (.withheld n m t)).1 =
      .beat m t { data := 0x3C3C3C3C3C3C3C3C3C3C3C3C3C3C3C3C, parity := 0xFFFF, enables := 0xFFFF } :=
    congrArg (fun p => Delivery.beat m t { data := withheldPattern, parity := p, enables := allLanes })
      lanesParity_withheldPattern
  rw [hexec, hleft, hbeat]

end Sys2Proof.Machine
end

