-- ==== Sys2Proof/Proofs/StoreBeats.lean ====
section
/-! SUPPORT. Beats of a store: taken, failed, drained and dropped (R77, R83, R86, R90 to R92, R100, R101, R107, R113). -/

namespace Sys2Proof.Machine

/-! ## Work outstanding, and beats left (R90, R91) -/

section
variable {c d : Context} {s u : State}

/-- Without a hold, work is outstanding for pieces not yet answered or a FETCH under way (R90). -/
theorem outstanding_of_no_hold (hh : s.hold = none) :
    s.outstanding c = true ↔ 0 < c.pieces ∨ c.fetchProgress = .issued := by
  simp [State.outstanding, State.holdOutstanding, hh]

/-- No beat of a store is left where the intake is in HEADER (R100). -/
theorem beatsLeft_header (hi : s.intake = .header) : s.beatsLeft c = 0 := by
  simp [State.beatsLeft, hi]

/-- Abandoning an open piece twice is abandoning it (R107). -/
theorem MediaPort.abandon_abandon (n : CtxNo) (m : MediaPort) : (m.abandon n).abandon n = m.abandon n := by
  unfold MediaPort.abandon
  by_cases hp : m.path.owner = some n <;> simp [hp]

/-- With no unit in the store slot only the path is released (R107). -/
theorem MediaPort.abandon_of_no_slot {m : MediaPort} (h : m.slot = none) (n : CtxNo) :
    m.abandon n = { m with path := if m.path.owner = some n then .free else m.path } := by
  cases m
  cases h
  rfl

end

/-! ## The rows (R83, R86, R100, R101) -/

section
variable {b : Beat} {n : CtxNo} {k left : Nat} {owner : Option CtxNo} {c : Context} {i : Instr} {s : State}

/-- The path of a RAW or CLEAR store accepts a beat while no hold exists and the store slot is empty (R101). -/
theorem canTakeBeat_plain (hh : s.hold = none) (hs : s.media.slot = none) (hp : c.passage ≠ .cipher) :
    s.canTakeBeat c = true := by
  cases hc : c.passage <;> simp_all [State.canTakeBeat]

/-- The path of a CIPHER store needs the outbound path and the kept tweak besides (R7, R101). -/
theorem canTakeBeat_cipher (hh : s.hold = none) (hs : s.media.slot = none) (hp : c.passage = .cipher)
    (ho : s.engines.outbound = none) (ht : ∃ x, c.tweak = .kept x) : s.canTakeBeat c = true := by
  obtain ⟨x, hx⟩ := ht
  simp [State.canTakeBeat, hh, hs, hp, ho, hx]

/-- No path accepts a beat while a hold exists (R135, R139). -/
theorem canTakeBeat_held (hh : s.hold ≠ none) : s.canTakeBeat c = false := by
  simp [State.canTakeBeat, hh]

/-- A store in STREAM with code OK does not drain (R86). -/
theorem not_draining (hcode : c.code = .ok) : c.draining = false := by
  simp [Context.draining, hcode]

/-- A store in STREAM with another code drains (R86). -/
theorem draining_of_code (hk : c.kind = .store) (hst : c.state = .stream) (hcode : c.code ≠ .ok) : c.draining = true := by
  simp [Context.draining, hk, hst, hcode]

/-- A beat that its store's path accepts is taken (R83, R101). -/
theorem execStoreBeat_taken (hi : s.intake = .beats n k) (hc : s.ctx? n = some c) (hst : c.state = .stream)
    (hcode : c.code = .ok) (hcan : s.canTakeBeat c = true) : execStoreBeat b s = .next (s.start.takeBeat c k b).takeEligible := by
  simp [execStoreBeat, hi, hc, not_draining hcode, hst, hcan]

/-- A beat that it does not accept stays on the segment (R101). -/
theorem execStoreBeat_refused (hi : s.intake = .beats n k) (hc : s.ctx? n = some c) (hd : c.draining = false)
    (hcan : s.canTakeBeat c = false) : execStoreBeat b s = .next s.untaken := by
  simp [execStoreBeat, hi, hc, hd, hcan]

/-- In DROPPING a beat is dropped, by either row (R77, R91, R100). -/
theorem exec_dropping (hrow : i = .beatDropped ∨ ∃ b, i = .storeBeat b) (hi : s.intake = .dropping left owner) :
    exec i s = .next (s.start.dropBeat left owner) := by
  rcases hrow with rfl | ⟨b, rfl⟩
  · simp [exec, execBeatDropped, hi]
  · simp [exec, execStoreBeat, hi]

/-- A beat of a draining store is drained, by either row (R86). -/
theorem exec_draining (hrow : i = .beatDropped ∨ ∃ b, i = .storeBeat b) (hi : s.intake = .beats n k)
    (hc : s.ctx? n = some c) (hd : c.draining = true) : exec i s = .next (s.start.drainBeat c k).takeEligible := by
  rcases hrow with rfl | ⟨b, rfl⟩
  · simp [exec, execBeatDropped, hi, hc, hd]
  · simp [exec, execStoreBeat, hi, hc, hd]

end

/-! ## Good beats (R83, R101, R107) -/

/-- A state in which the intake has counted one more beat of a store (R100). -/
def State.beatCounted (c : Context) (k : Nat) (s : State) : State := s.start.advanceIntake c k

/-- The last beat returns the intake to HEADER (R100). -/
theorem beatCounted_last {c : Context} {k : Nat} (h : c.length ≤ k + 1) (s : State) : (s.beatCounted c k).intake = .header :=
  if_pos h

/-- Any other is counted (R100). -/
theorem beatCounted_before {c : Context} {k : Nat} (h : k + 1 < c.length) (s : State) :
    (s.beatCounted c k).intake = .beats c.number (k + 1) :=
  if_neg (Nat.not_le.2 h)

/-- Counting a beat changes the intake and starts the action's outputs. -/
theorem beatCounted_frame (c : Context) (k : Nat) (s : State) :
    s.beatCounted c k = { s with intake := (s.beatCounted c k).intake, out := Outputs.quiet } := rfl

section
variable {b : Beat} {k : Nat} {c : Context} {s : State}

theorem takeBeat_bad (hb : beatParityBad b = true) : s.start.takeBeat c k b = (s.beatCounted c k).upstreamParity c k :=
  if_pos hb

/-- A RAW or CLEAR beat goes to the media port (R83). -/
theorem takeBeat_plain (hb : beatParityBad b = false) (hp : c.passage ≠ .cipher) :
    s.start.takeBeat c k b =
      (s.beatCounted c k).enterSlot { ctx := c.number, index := k, data := b.data, enables := b.enables } := by
  cases hc : c.passage <;> simp_all [State.takeBeat, State.beatCounted]

/-- A CIPHER beat with all lanes or none goes to the outbound path (R83, R134). -/
theorem takeBeat_whole (hb : beatParityBad b = false) (hp : c.passage = .cipher) (he : b.enables = 0 ∨ b.enables = 0xFFFF) :
    s.start.takeBeat c k b = (s.beatCounted c k).loadOutbound
      { ctx := c.number, index := k, data := b.data, enables := b.enables, merged := false } := by
  have hpart : beatPartial b = false := by rcases he with he | he <;> simp [beatPartial, allLanes, he]
  simp [State.takeBeat, State.beatCounted, hb, hp, hpart]

/-- A unit waits in the store slot while its context's piece is not open and accepted (R107). -/
theorem enterSlot_waits {u : SlotUnit} (hpath : s.media.path ≠ .piece u.ctx true) :
    s.enterSlot u = { s with media := { s.media with slot := some u } } := if_neg hpath

/-- A beat driven before the last is counted in its record alone (R107). -/
theorem enterSlot_driven {u : SlotUnit} (hc : s.ctx? u.ctx = some c) (hpath : s.media.path = .piece u.ctx true)
    (hi : u.index + 1 < c.length) :
    s.enterSlot u = (s.drive (.unit u.ctx (drivenBeat u.data u.enables))).countPassed u.ctx :=
  (if_pos hpath).trans (driveUnit_before hc (Nat.ne_of_lt hi))

/-- The last beat of a store without a pin ends the piece and takes the store to CLOSE (R83, R107). -/
theorem enterSlot_last {u : SlotUnit} (hc : s.ctx? u.ctx = some c) (hpath : s.media.path = .piece u.ctx true)
    (hi : u.index + 1 = c.length) (hst : c.state = .stream) (hcap : c.capture = none) (hp : 0 < c.pieces) :
    ∃ t, s.enterSlot u = t ∧ t.ctx? u.ctx = some { c with passed := c.passed + 1, state := .close, tweak := .absent } ∧
      s.othersKept u.ctx t ∧
      t = { s with
        contexts := t.contexts
        media := { s.media with path := .free }
        out := { s.out with media := s.out.media ++
          [MediaDrive.driven (.unit u.ctx (drivenBeat u.data u.enables)), MediaDrive.driven (.endMark u.ctx)] } } := by
  have hslot : s.enterSlot u = (s.pieceEnded u).enterClose u.ctx := (if_pos hpath).trans (driveUnit_last hc hi)
  have hctx := ctx?_pieceEnded hc
  have hothers := othersKept_pieceEnded u s
  have hframe := pieceEnded_frame u s
  have hstreaming : ({ c with passed := c.passed + 1 } : Context).streaming = true := by simp [Context.streaming, hst]
  generalize s.pieceEnded u = v at *
  rw [enterClose_outstanding hctx hstreaming hp, releasePin_of_no_capture (c := { c with passed := c.passed + 1 }) hcap]
    at hslot
  refine ⟨_, hslot, ctx?_modCtx (f := fun c : Context => { c with state := .close, tweak := .absent }) rfl hctx,
    othersKept_trans hothers (othersKept_modCtx fun _ => rfl), ?_⟩
  rw [hframe]
  rfl

end

/-- Settles O16: by the store's passage, and for a beat driven at once by whether it is the last. -/
theorem storeBeatIsTaken : Obligations.store_beat_is_taken := by
  unfold Obligations.store_beat_is_taken
  refine ⟨fun b n k c s hi hc hst hcode hh hslot hb hset => ?_, fun b n k c s hi hc hd hh => ?_⟩
  · obtain rfl := ctx?_number hc
    have hset' : (s.beatCounted c k).settled := hset
    have hplain : c.passage ≠ .cipher → exec (.storeBeat b) s =
        .next ((s.beatCounted c k).enterSlot
          { ctx := c.number, index := k, data := b.data, enables := b.enables }).takeEligible :=
      fun hp => (execStoreBeat_taken hi hc hst hcode (canTakeBeat_plain hh hslot hp)).trans (by rw [takeBeat_plain hb hp])
    refine ⟨fun hp he ho ht => ?_, fun hp hpath => ?_, fun hp hpath hk => ?_, fun hp hcap hpath hk hpieces => ?_⟩
    · have hexec : exec (.storeBeat b) s = _ := execStoreBeat_taken hi hc hst hcode (canTakeBeat_cipher hh hslot hp ho ht)
      rw [hexec, takeBeat_whole hb hp he]
      exact congrArg _ (takeEligible_of_settled hset')
    · have hwaits := enterSlot_waits (s := s.beatCounted c k)
        (u := { ctx := c.number, index := k, data := b.data, enables := b.enables }) hpath
      rw [hplain hp, hwaits]
      exact congrArg _ (takeEligible_of_settled hset')
    · have hdriven := enterSlot_driven (s := s.beatCounted c k)
        (u := { ctx := c.number, index := k, data := b.data, enables := b.enables }) hc hpath hk
      rw [hplain hp, hdriven]
      refine ⟨_, congrArg _ (takeEligible_of_settled hset'), ctx?_countPassed (s := (s.beatCounted c k).drive _) hc,
        othersKept_countPassed c.number ((s.beatCounted c k).drive _), ?_⟩
      rw [← beatCounted_before hk s]
      rfl
    · obtain ⟨t, ht, h1, h2, h3⟩ := enterSlot_last (s := s.beatCounted c k)
        (u := { ctx := c.number, index := k, data := b.data, enables := b.enables }) hc hpath hk hst hcap hpieces
      have hset'' : t.settled := by rw [h3]; exact hset'
      rw [hplain hp, ht]
      refine ⟨t, congrArg _ (takeEligible_of_settled hset''), h1, h2, h3.trans ?_⟩
      rw [← beatCounted_last hk.ge s]
      rfl
  · exact execStoreBeat_refused hi hc hd (canTakeBeat_held hh)

/-! ## Bad beats (R86, R113) -/

/-- An upstream parity failure noted: the open piece abandoned, the record failed, the failure counted and logged (R113). -/
def State.parityNoted (c : Context) (s : State) : State :=
  (({ s with media := s.media.abandon c.number } : State).modCtx c.number
    (Context.parityFailed (s.outstanding c))).countParity.logFault .parityUp (some c) none none

section
variable {k : Nat} {c : Context} {s : State}

/-- With beats left the store drains them in STREAM (R86, R113). -/
theorem upstreamParity_before (h : k + 1 < c.length) : s.upstreamParity c k = s.parityNoted c := if_neg (Nat.not_le.2 h)

/-- At its last beat it enters CANCEL in the same action (R90, R113). -/
theorem upstreamParity_last (h : c.length ≤ k + 1) :
    s.upstreamParity c k = (s.parityNoted c).enterCancel c.number .parity false false := if_pos h

theorem ctx?_parityNoted (hc : s.ctx? c.number = some c) :
    (s.parityNoted c).ctx? c.number = some (c.parityFailed (s.outstanding c)) :=
  ctx?_modCtx (s := { s with media := s.media.abandon c.number }) rfl hc

theorem othersKept_parityNoted (c : Context) (s : State) : s.othersKept c.number (s.parityNoted c) :=
  othersKept_modCtx (s := { s with media := s.media.abandon c.number }) (f := Context.parityFailed (s.outstanding c))
    fun _ => rfl

/-- The note changes contexts, media port, tally, events and log (R113). -/
theorem parityNoted_frame (c : Context) (s : State) :
    s.parityNoted c = { s with
      contexts := (s.parityNoted c).contexts
      media := s.media.abandon c.number
      tallies := { s.tallies with parity := countUp s.tallies.parity }
      events := .follow (s.pendingWith .paritySeen) s.events.enables
      faults := s.faults.add (faultRecord .parityUp s.contain.device (some c) none none) } := rfl

/-- The failed record: code PARITY, and its CANCEL ready where work is outstanding (R113). -/
theorem parityFailed_eq (hcode : c.code = .ok) (hcancel : c.cancel = .none) (hh : s.hold = none) :
    c.parityFailed (s.outstanding c) = { c with
      code := .parity
      cancel := if 0 < c.pieces ∨ c.fetchProgress = .issued then .sent else .none
      timer := c.timer.filter fun x => x.phase == .cancelAnswer } := by
  simp only [Context.parityFailed, hcode, hcancel, outstanding_of_no_hold hh, true_and]
  rfl

/-- Stopping every timer but a CANCEL's, twice, is stopping them (R110). -/
theorem keepCancelTimer_keepCancelTimer (t : Option AnswerTimer) : keepCancelTimer (keepCancelTimer t) = keepCancelTimer t := by
  simp [keepCancelTimer]

/-- The failed record of a store's last beat after its entry to CANCEL (R90, R92, R113). -/
theorem parityFailed_afterDuty (hcode : c.code = .ok) (hcancel : c.cancel = .none) (hh : s.hold = none) :
    ((c.parityFailed (s.outstanding c)).cancelled .parity (s.outstanding c)).afterDuty 0 =
      if 0 < c.pieces ∨ c.fetchProgress = .issued then some { c with
        state := .cancel, code := .parity, cancel := .sent, completionSent := true, tweak := .absent
        timer := c.timer.filter fun x => x.phase == .cancelAnswer }
      else none := by
  have htimer : keepCancelTimer (keepCancelTimer c.timer) = c.timer.filter fun x => x.phase == .cancelAnswer :=
    keepCancelTimer_keepCancelTimer c.timer
  rw [Context.afterDuty_done (.inr rfl)]
  by_cases ho : 0 < c.pieces ∨ c.fetchProgress = .issued
  · have hs : s.outstanding c = true := (outstanding_of_no_hold hh).2 ho
    simp [Context.cancelled, Context.parityFailed, hcancel, hcode, hs, ho, htimer, Reply.orElse]
  · have hs : s.outstanding c = false := Bool.not_eq_true _ ▸ mt (outstanding_of_no_hold hh).1 ho
    simp [Context.cancelled, Context.parityFailed, hcancel, hs, ho]

end

/-- Settles O18: before the last beat, and at it. -/
theorem badBeatStartsDrain : Obligations.bad_beat_starts_drain := by
  unfold Obligations.bad_beat_starts_drain
  intro b n k c s hi hc hkind hst hcode hcancel hpath hslot hh hb
  obtain rfl := ctx?_number hc
  have hcan : s.canTakeBeat c = true := by
    by_cases hp : c.passage = .cipher
    · obtain ⟨ho, ht⟩ := hpath.resolve_left (not_not.2 hp)
      exact canTakeBeat_cipher hh hslot hp ho ht
    · exact canTakeBeat_plain hh hslot hp
  have hexec : exec (.storeBeat b) s = _ := execStoreBeat_taken hi hc hst hcode hcan
  rw [hexec, takeBeat_bad hb]
  have hctx : ((s.beatCounted c k).parityNoted c).ctx? c.number = _ := ctx?_parityNoted (s := s.beatCounted c k) hc
  have hothers := othersKept_parityNoted c (s.beatCounted c k)
  refine ⟨fun hk hset => ?_, fun hk hsent => ?_⟩
  · have hset' : ((s.beatCounted c k).parityNoted c).settled := hset
    rw [upstreamParity_before hk]
    refine ⟨_, congrArg _ (takeEligible_of_settled hset'), ?_, hothers, ?_⟩
    · rw [hctx, parityFailed_eq (s := s.beatCounted c k) hcode hcancel hh]
    · rw [← beatCounted_before hk s]
      refine (parityNoted_frame c (s.beatCounted c k)).trans ?_
      rw [show (s.beatCounted c k).media.abandon c.number = _ from MediaPort.abandon_of_no_slot hslot c.number]
      rfl
  · have hleft : ((s.beatCounted c k).parityNoted c).beatsLeft (c.parityFailed (s.outstanding c)) = 0 :=
      beatsLeft_header (beatCounted_last hk s)
    have hsends : ((s.beatCounted c k).parityNoted c).cancelNeeded false false (c.parityFailed (s.outstanding c)) =
      s.outstanding c := rfl
    have hwork : s.SameWork c.number ((s.beatCounted c k).parityNoted c) :=
      ⟨rfl, MediaPort.abandon_abandon _ _, rfl, rfl, rfl, rfl⟩
    have hlive : (c.parityFailed (s.outstanding c)).live = true := by simp [Context.parityFailed, Context.live, hst]
    have h := enterCancel_taken hctx hlive hsent hwork rfl rfl .parity hsends hleft
    rw [upstreamParity_last hk]
    refine ⟨_, rfl, h.record.trans (parityFailed_afterDuty hcode hcancel hh), othersKept_trans hothers h.others, h.withdrawn,
      (h.frame_store hkind).trans ?_⟩
    rw [if_pos rfl, if_pos rfl, hold_filter_of_none hh, show Reply.orElse (c.parityFailed _).code .parity = .parity by
      simp [Context.parityFailed, hcode, Reply.orElse], ← beatCounted_last hk s]
    rfl

/-! ## Beats dropped (R77, R86, R90, R91, R92, R100) -/

section
variable {n : CtxNo} {k left : Nat} {owner : Option CtxNo} {c : Context} {s : State}

/-- A beat dropped before the last is counted off (R100). -/
theorem dropBeat_before (h : 2 ≤ left) (owner : Option CtxNo) (s : State) :
    s.dropBeat left owner = { s with intake := .dropping (left - 1) owner } := if_neg (by omega)

/-- The last beat dropped of a store that has a context hands its completion, and frees it if nothing is left to answer (R91,
R92). -/
theorem dropBeat_last (hc : s.ctx? n = some c) (hs : c.completionSent = false) :
    ∃ t, s.dropBeat 1 (some n) = t ∧
      t.ctx? n = (if c.state = .cancel ∧ c.cancel ≠ .sent then none else some { c with completionSent := true }) ∧
      s.othersKept n t ∧
      t = { s with
        contexts := t.contexts, intake := .header, returnPath := s.returnPath ++ [.completion c.mover c.tag c.code] } :=
  handed_freed (u := { s with intake := .header }) hc hs

/-- A draining store's beat before the last is counted (R86). -/
theorem drainBeat_before (h : k + 1 < c.length) : s.start.drainBeat c k = s.beatCounted c k := if_neg (Nat.not_le.2 h)

/-- At its last beat it enters CANCEL (R86, R90). -/
theorem drainBeat_last (h : c.length ≤ k + 1) :
    s.start.drainBeat c k = (s.beatCounted c k).enterCancel c.number c.code false false := if_pos h

/-- The record of a drained store after its entry to CANCEL (R90, R92). -/
theorem drained_afterDuty (hcode : c.code ≠ .ok) (hh : s.hold = none) :
    (c.cancelled c.code (s.outstanding c)).afterDuty 0 =
      if c.cancel = .sent ∨ (c.cancel = .none ∧ (0 < c.pieces ∨ c.fetchProgress = .issued)) then some { c with
        state := .cancel, cancel := .sent, completionSent := true, tweak := .absent
        timer := c.timer.filter fun x => x.phase == .cancelAnswer }
      else none := by
  rw [Context.afterDuty_done (.inr rfl)]
  simp only [← outstanding_of_no_hold hh]
  cases hcancel : c.cancel <;> cases ho : s.outstanding c <;>
    simp [Context.cancelled, hcancel, hcode, Reply.orElse, keepCancelTimer]

end

/-- Settles O19: in DROPPING before the last beat and at it, and in STREAM before the last beat and at it. -/
theorem droppedBeatsAreCountedOff : Obligations.dropped_beats_are_counted_off := by
  unfold Obligations.dropped_beats_are_counted_off
  intro i hrow
  refine ⟨fun left owner s hi hl => ?_, fun s hi => exec_dropping hrow hi, fun n c s hi hc hs _ => ?_,
    fun n k c s hi hc hkind hst hcode => ?_⟩
  · rw [exec_dropping hrow hi, dropBeat_before hl]
    rfl
  · rw [exec_dropping hrow hi]
    obtain ⟨t, ht, h1, h2, h3⟩ := dropBeat_last (s := s.start) hc hs
    exact ⟨t, congrArg _ ht, h1, h2, h3⟩
  · obtain rfl := ctx?_number hc
    rw [exec_draining hrow hi hc (draining_of_code hkind hst hcode)]
    refine ⟨fun hk hset => ?_, fun hk hs hh => ?_⟩
    · have hset' : (s.beatCounted c k).settled := hset
      rw [drainBeat_before hk, takeEligible_of_settled hset', beatCounted_frame, beatCounted_before hk]
    · have hleft : (s.beatCounted c k).beatsLeft c = 0 := beatsLeft_header (beatCounted_last hk s)
      have hsends : (s.beatCounted c k).cancelNeeded false false c = s.outstanding c := rfl
      have hctx : (s.beatCounted c k).ctx? c.number = some c := hc
      have hlive : c.live = true := by simp [Context.live, hst]
      have h := enterCancel_taken (s := s) hctx hlive hs ⟨rfl, rfl, rfl, rfl, rfl, rfl⟩ rfl rfl c.code hsends hleft
      rw [drainBeat_last hk]
      refine ⟨_, rfl, h.record.trans (drained_afterDuty hcode hh), h.others, h.withdrawn, (h.frame_store hkind).trans ?_⟩
      rw [if_pos rfl, if_pos rfl, hold_filter_of_none hh, Reply.orElse_self, ← beatCounted_last hk s]
      rfl

end Sys2Proof.Machine
end

