-- ==== Sys2Proof/Proofs/Arrivals.lean ====
section
/-! SUPPORT. Arrivals from the media that wait, are dropped, or fit no request (R94, R103, R105, R109, R115, R117). -/

namespace Sys2Proof.Machine

/-! ## Before the port looks at an answer (R94, R103, R105, R117) -/

section
variable {n : CtxNo} {c : Context} {s : State} {f : Context → Host.Outcome State Fault Refusal}

/-- While the controller clear is asserted an arrival is dropped (R117). -/
theorem arrival_clearing (hi : s.intake = .clearing) : s.arrival n = .dropped := if_pos hi

/-- A full return path and another context's hold keep arrivals waiting (R103, R105). -/
theorem arrival_waits (hi : s.intake ≠ .clearing) (hw : s.returnFull = true ∨ ∃ h, s.hold = some h ∧ h.ctx ≠ n) :
    s.arrival n = .waits := by
  unfold State.arrival
  rw [if_neg hi]
  rcases hw with hf | ⟨h, hh, hn⟩
  · rw [if_pos hf]
  · simp [hh, hn]

/-- An open port takes an arrival for a context of the number, and drops one for a number not in use (R94). -/
theorem arrival_open (hp : s.portOpen n) : s.arrival n = (s.ctx? n).elim .dropped .takenBy := by
  obtain ⟨h1, h2, h3⟩ := hp
  unfold State.arrival
  rw [if_neg h1, h2]
  cases hh : s.hold with
  | none => cases s.ctx? n <;> rfl
  | some h =>
    have hown : (h.ctx != n) = false := by simp [h3 h hh]
    simp only [hown]
    cases s.ctx? n <;> rfl

theorem arrival_taken (hp : s.portOpen n) (hc : s.ctx? n = some c) : s.arrival n = .takenBy c := by
  rw [arrival_open hp, hc]
  rfl

theorem arrival_unused (hp : s.portOpen n) (hc : s.ctx? n = none) : s.arrival n = .dropped := by
  rw [arrival_open hp, hc]
  rfl

theorem onArrival_dropped (h : s.liveArrival n = .dropped) : s.onArrival n f = .next s.start := by
  simp only [State.onArrival, h]

theorem onArrival_waits (h : s.liveArrival n = .waits) : s.onArrival n f = .next s.untaken := by
  simp only [State.onArrival, h]

/-- An open port drops an arrival for a number not in use, or for a context in CANCEL or STRANDED (R94). -/
theorem liveArrival_dead (hp : s.portOpen n) (hd : ∀ c, s.ctx? n = some c → c.state = .cancel ∨ c.state = .stranded) :
    s.liveArrival n = .dropped := by
  cases hc : s.ctx? n with
  | none => simp only [State.liveArrival, arrival_unused hp hc]
  | some c =>
    have hl : c.live = false := by rcases hd c hc with h | h <;> simp [Context.live, h]
    simp [State.liveArrival, arrival_taken hp hc, hl]

/-- The answers and units from the media, but for the answer to a CANCEL, come to the port in one way (R104). -/
theorem exec_onArrival {i : Instr} (h : answersContext i = some n) (s : State) : ∃ f, exec i s = s.onArrival n f := by
  unfold answersContext at h
  split at h <;> cases h <;> exact ⟨_, rfl⟩

/-- What becomes of the answer to a CANCEL that the port drops, or does not take yet (R94, R112). -/
theorem cancelArrival_dropped (h : s.arrival n = .dropped) : s.cancelArrival n = .next s.start := by
  simp only [State.cancelArrival, h]

theorem cancelArrival_waits (h : s.arrival n = .waits) : s.cancelArrival n = .next s.untaken := by
  simp only [State.cancelArrival, h]

/-- The answer to a CANCEL that is SENT is taken, unless its context is STRANDED (R94, R112). -/
theorem cancelArrival_taken (hp : s.portOpen n) (hc : s.ctx? n = some c) (ha : c.cancel = .sent ∧ c.state ≠ .stranded) :
    s.cancelArrival n = .next (s.start.answerCancel n) := by
  simp only [State.cancelArrival, arrival_taken hp hc]
  exact if_pos ha

/-- Any other is dropped (R109). -/
theorem cancelArrival_unfit (hp : s.portOpen n) (hc : ∀ c, s.ctx? n = some c → c.cancel ≠ .sent ∨ c.state = .stranded) :
    s.cancelArrival n = .next s.start := by
  cases hn : s.ctx? n with
  | none => exact cancelArrival_dropped (arrival_unused hp hn)
  | some c =>
    simp only [State.cancelArrival, arrival_taken hp hn]
    refine if_neg fun ha => ?_
    rcases hc c hn with h | h
    · exact h ha.1
    · exact ha.2 h

end

/-! ## Arrivals that fit no request of their context (R109) -/

section
variable {n : CtxNo} {u : ReturnedUnit} {c : Context} {s : State}

/-- A context out of HOLD has no hold that an answer could name (R109, R135). -/
theorem holdOf_none (h : c.state ≠ .hold) : s.holdOf c = none := if_neg h

/-- The hold of a context in HOLD. -/
theorem holdOf_eq {h : Hold} (hst : c.state = .hold) (hh : s.hold = some h) (hn : h.ctx = c.number) : s.holdOf c = some h := by
  simp [State.holdOf, hst, hh, hn]

/-- It is the one hold there is. -/
theorem hold_of_holdOf {h : Hold} (hh : s.holdOf c = some h) : s.hold = some h := by
  unfold State.holdOf at hh
  split at hh
  · exact (Option.filter_eq_some_iff.1 hh).1
  · cases hh

/-- A timer that runs in no phase of the kind. -/
theorem timing_eq_false {p : TimerPhase} (h : ∀ x, c.timer = some x → x.phase ≠ p) : c.timing p = false := by
  unfold Context.timing
  cases ht : c.timer with
  | none => rfl
  | some x => simpa using h x ht

variable (hp : s.portOpen n) (hc : s.ctx? n = some c) (hl : c.live = true)
include hp hc hl

theorem execAccept_fetch_unfit (h : ¬ (c.kind = .fetch ∧ c.fetchProgress = .issued ∧ c.timing .accept = true)) :
    execAccept n .fetch s = .next s.start := (onArrival_taken hp hc hl).trans (if_neg h)

theorem execAccept_store_unfit (h : s.media.path ≠ .piece n false) : execAccept n .store s = .next s.start :=
  (onArrival_taken hp hc hl).trans (if_neg h)

theorem execAccept_releaseStore_unfit (h : ¬ (c.state = .hold ∧ s.media.path = .release n)) :
    execAccept n .releaseStore s = .next s.start := (onArrival_taken hp hc hl).trans (if_neg h)

theorem execAccept_holdFetch_unfit (h : ∀ x, s.holdOf c = some x → ¬ (x.phase = .fetch ∧ c.timing .accept = true)) :
    execAccept n .holdFetch s = .next s.start := by
  refine (onArrival_taken hp hc hl).trans ?_
  dsimp only
  split
  · next x hx => exact if_neg (h x hx)
  · rfl

theorem execFetchUnit_unfit (h : ¬ (c.kind = .fetch ∧ c.fetchProgress = .issued)) : execFetchUnit n u s = .next s.start :=
  (onArrival_taken hp hc hl).trans (if_neg h)

theorem execFetchDone_unfit (h : ¬ (c.kind = .fetch ∧ c.fetchProgress = .issued)) : execFetchDone n s = .next s.start :=
  (onArrival_taken hp hc hl).trans (if_neg h)

theorem execMediaError_fetch_unfit (h : ¬ (c.kind = .fetch ∧ c.fetchProgress = .issued)) :
    execMediaError n .fetch s = .next s.start := (onArrival_taken hp hc hl).trans (if_neg h)

theorem execPieceDone_unfit (h : ¬ c.awaitsPiece = true) : execPieceDone n s = .next s.start :=
  (onArrival_taken hp hc hl).trans (if_neg h)

theorem execMediaError_store_unfit (h : ¬ c.awaitsPiece = true) : execMediaError n .store s = .next s.start :=
  (onArrival_taken hp hc hl).trans (if_neg h)

theorem execHoldFetchUnit_unfit (h : ∀ x, s.holdOf c = some x → x.phase ≠ .fetch) :
    execHoldFetchUnit n u s = .next s.start := by
  refine (onArrival_taken hp hc hl).trans ?_
  split
  · next x hx => exact if_neg (h x hx)
  · rfl

theorem execHoldFetchDone_unfit (h : ∀ x, s.holdOf c = some x → x.fetchAnswered = true) :
    execHoldFetchDone n s = .next s.start := by
  refine (onArrival_taken hp hc hl).trans ?_
  split
  · next x hx => exact if_pos (h x hx)
  · rfl

theorem execMediaError_holdFetch_unfit (h : ∀ x, s.holdOf c = some x → x.fetchAnswered = true) :
    execMediaError n .holdFetch s = .next s.start := by
  refine (onArrival_taken hp hc hl).trans ?_
  split
  · next x hx => exact if_pos (h x hx)
  · rfl

theorem execReleaseStoreDone_unfit (h : ∀ x, s.holdOf c = some x → x.phase ≠ .release) :
    execReleaseStoreDone n s = .next s.start := by
  refine (onArrival_taken hp hc hl).trans ?_
  split
  · next x hx => exact if_neg (h x hx)
  · rfl

theorem execMediaError_releaseStore_unfit (h : ∀ x, s.holdOf c = some x → x.phase ≠ .release) :
    execMediaError n .releaseStore s = .next s.start := by
  refine (onArrival_taken hp hc hl).trans ?_
  split
  · next x hx => exact if_neg (h x hx)
  · rfl

end

/-- Settles O26: before the port looks at an answer, and answer by answer for a live context. -/
theorem strayArrivalsAreDropped : Obligations.stray_arrivals_are_dropped := by
  unfold Obligations.stray_arrivals_are_dropped
  refine ⟨fun i n s hi => ?_, fun n e s => ?_, fun n c s hp hc hl => ?_, fun s => ?_⟩
  · obtain ⟨f, hf⟩ := exec_onArrival hi s
    rw [hf]
    refine ⟨fun hclear => ?_, fun hp hd => onArrival_dropped (liveArrival_dead hp hd), fun hclear hw => ?_⟩
    · exact onArrival_dropped (by rw [State.liveArrival, arrival_clearing hclear])
    · exact onArrival_waits (by rw [State.liveArrival, arrival_waits hclear hw])
  · exact ⟨fun hclear => cancelArrival_dropped (arrival_clearing hclear), fun hp hc => cancelArrival_unfit hp hc,
      fun hclear hw => cancelArrival_waits (arrival_waits hclear hw)⟩
  · refine ⟨fun h => ?_, fun h => ?_, fun h => ?_, fun h => ?_, fun h => ?_, fun x hx => ?_, fun h => ?_⟩
    · have hunfit : ¬ (c.kind = .fetch ∧ c.fetchProgress = .issued) := fun ⟨h1, h2⟩ => h.elim (· h1) (· h2)
      simp only [List.forall_mem_cons]
      exact ⟨⟨execAccept_fetch_unfit hp hc hl fun h => hunfit ⟨h.1, h.2.1⟩, execFetchDone_unfit hp hc hl hunfit,
        execMediaError_fetch_unfit hp hc hl hunfit, by simp⟩, fun u => execFetchUnit_unfit hp hc hl hunfit⟩
    · have hunfit : ¬ c.timing .accept = true := by rw [timing_eq_false h]; decide
      simp only [List.forall_mem_cons]
      exact ⟨execAccept_fetch_unfit hp hc hl fun h => hunfit h.2.2,
        execAccept_holdFetch_unfit hp hc hl fun _ _ h => hunfit h.2, by simp⟩
    · exact execAccept_store_unfit hp hc hl h
    · have hunfit : ¬ c.awaitsPiece = true := by
        simp only [Context.awaitsPiece, Bool.and_eq_true, beq_iff_eq, decide_eq_true_eq]
        rintro ⟨⟨h1, h2⟩, h3⟩
        rcases h with h | h | h
        · exact h h1
        · exact h2.ne' h
        · exact h h3
      simp only [List.forall_mem_cons]
      exact ⟨execPieceDone_unfit hp hc hl hunfit, execMediaError_store_unfit hp hc hl hunfit, by simp⟩
    · have hnone : ∀ {P : Hold → Prop} x, s.holdOf c = some x → P x := fun x hx => by rw [holdOf_none h] at hx; cases hx
      simp only [List.forall_mem_cons]
      exact ⟨⟨execAccept_holdFetch_unfit hp hc hl hnone, execAccept_releaseStore_unfit hp hc hl fun ha => h ha.1,
        execHoldFetchDone_unfit hp hc hl hnone, execReleaseStoreDone_unfit hp hc hl hnone,
        execMediaError_holdFetch_unfit hp hc hl hnone, execMediaError_releaseStore_unfit hp hc hl hnone, by simp⟩,
        fun u => execHoldFetchUnit_unfit hp hc hl hnone⟩
    · have hsame : ∀ y, s.holdOf c = some y → y = x := fun y hy => Option.some.inj ((hold_of_holdOf hy).symm.trans hx)
      simp only [List.forall_mem_cons]
      refine ⟨fun h => ?_, fun h => ?_, fun h => ?_⟩
      · exact ⟨execAccept_holdFetch_unfit hp hc hl fun y hy ha => h (hsame y hy ▸ ha.1),
          fun u => execHoldFetchUnit_unfit hp hc hl fun y hy => hsame y hy ▸ h⟩
      · exact ⟨execHoldFetchDone_unfit hp hc hl fun y hy => hsame y hy ▸ h,
          execMediaError_holdFetch_unfit hp hc hl fun y hy => hsame y hy ▸ h, by simp⟩
      · exact ⟨execReleaseStoreDone_unfit hp hc hl fun y hy => hsame y hy ▸ h,
          execMediaError_releaseStore_unfit hp hc hl fun y hy => hsame y hy ▸ h, by simp⟩
    · exact execAccept_releaseStore_unfit hp hc hl fun ha => h ha.2
  · exact ⟨fun hclear => if_pos hclear, fun hclear hf => (if_neg hclear).trans (if_pos hf),
      fun hclear hf => (if_neg hclear).trans (if_neg (by rw [hf]; decide))⟩

end Sys2Proof.Machine
end

