-- ==== Sys2Proof/Proofs/ReturnedUnits.lean ====
section
/-! SUPPORT. Units returned to a FETCH and to a HOLD-FETCH, and the DONE of a HOLD-FETCH (R82, R89 to R91, R106, R110, R114, R138 to
R141). -/

namespace Sys2Proof.Machine

/-! ## Whether the inbound engine can be given a unit (R7, R106) -/

section
variable {c : Context} {s : State}

/-- It can be given a unit of a context that needs no engine, or whose tweak is kept while the engine is free (R106). -/
theorem canDecipher_ready (h : c.passage ≠ .cipher ∨ ((∃ x, c.tweak = .kept x) ∧ s.engines.inbound = none)) :
    s.canDecipher c = true := by
  unfold State.canDecipher
  rcases h with h | ⟨⟨x, hx⟩, hi⟩
  · cases hp : c.passage <;> simp_all
  · cases hp : c.passage <;> simp [hx, hi]

/-- It cannot be given one of a CIPHER context while it holds a unit or the tweak is not kept (R7, R106). -/
theorem canDecipher_busy (hp : c.passage = .cipher) (h : s.engines.inbound ≠ none ∨ ∀ x, c.tweak ≠ .kept x) :
    s.canDecipher c = false := by
  unfold State.canDecipher
  rw [hp]
  cases ht : c.tweak with
  | kept x =>
    have hi : s.engines.inbound ≠ none := h.resolve_right fun hx => hx x ht
    simpa [← Option.isSome_iff_ne_none] using hi
  | absent => rfl
  | catchingUp t => rfl

/-- While a unit of a CIPHER context waits for it, the context's timer counts no tick (R106, R110). -/
theorem countsTick_waits (hw : c.unitWaiting = true) (hp : c.passage = .cipher)
    (h : s.engines.inbound ≠ none ∨ ∀ x, c.tweak ≠ .kept x) : s.countsTick c = false := by
  rcases h with h | h
  · exact countsTick_unitWaiting hw hp h
  · cases ht : c.tweak with
    | kept x => exact absurd ht (h x)
    | absent => simp [State.countsTick, hw, hp, ht]
    | catchingUp t => simp [State.countsTick, hw, hp, ht]

/-- A record noted as waiting has a unit that waits, if its timer runs (R106). -/
theorem unitWaiting_withUnitWaiting {x : AnswerTimer} (h : (c.withUnitWaiting true).timer = some x) :
    (c.withUnitWaiting true).unitWaiting = true := by
  obtain ⟨y, hy, -⟩ := Option.map_eq_some_iff.1 h
  simp [Context.unitWaiting, Context.withUnitWaiting, hy]

end

/-! ## Units of a FETCH (R82, R106, R114) -/

section
variable {n : CtxNo} {u : ReturnedUnit} {c : Context} {s : State}

section
variable (hp : s.portOpen n) (hc : s.ctx? n = some c) (hl : c.live = true) (hf : c.kind = .fetch ∧ c.fetchProgress = .issued)
include hp hc hl hf

/-- A unit that the engine cannot be given waits (R106). -/
theorem execFetchUnit_waits (hd : s.canDecipher c = false) : execFetchUnit n u s = .next (s.unitWaits n) :=
  (onArrival_taken hp hc hl).trans ((if_pos hf).trans (if_pos hd))

/-- A unit past the length is dropped (R82). -/
theorem execFetchUnit_extra (hd : s.canDecipher c = true) (hx : c.length ≤ c.expected) :
    execFetchUnit n u s = .next (s.unitDropped n) :=
  (onArrival_taken hp hc hl).trans ((if_pos hf).trans ((if_neg (by rw [hd]; decide)).trans (if_pos hx)))

/-- The unit expected is taken (R106). -/
theorem execFetchUnit_taken (hd : s.canDecipher c = true) (hx : c.expected < c.length) (hi : u.index.val = c.expected)
    (hu : u.parity = lanesParity u.data) : execFetchUnit n u s = .next (s.start.takeFetchUnit c u) :=
  (onArrival_taken hp hc hl).trans ((if_pos hf).trans ((if_neg (by rw [hd]; decide)).trans
    ((if_neg (Nat.not_le.2 hx)).trans (if_pos ⟨hi, by simp [returnedParityGood, hu]⟩))))

/-- A unit out of its place or with bad parity is a downstream parity failure (R114). -/
theorem execFetchUnit_bad (hd : s.canDecipher c = true) (hx : c.expected < c.length)
    (hu : u.index.val ≠ c.expected ∨ u.parity ≠ lanesParity u.data) :
    execFetchUnit n u s = .next (s.start.downstreamParity c).takeEligible := by
  refine (onArrival_taken hp hc hl).trans ((if_pos hf).trans ((if_neg (by rw [hd]; decide)).trans
    ((if_neg (Nat.not_le.2 hx)).trans (if_neg fun h => ?_))))
  have hgood : u.parity = lanesParity u.data := by simpa [returnedParityGood] using h.2
  exact hu.elim (· h.1) (· hgood)

end

/-- A state in which the expectation of a fetch has risen and its timer moved on (R106, R110). -/
def State.unitExpected (c : Context) (s : State) : State :=
  s.modCtx c.number fun c =>
    { c with expected := c.expected + 1, timer := timerStart (if c.expected + 1 < c.length then .unit else .done) }

theorem ctx?_unitExpected (hc : s.ctx? c.number = some c) :
    (s.unitExpected c).ctx? c.number = some { c with
      expected := c.expected + 1
      timer := some { phase := if c.expected + 1 < c.length then .unit else .done, remaining := 128 } } :=
  ctx?_modCtx (f := fun c : Context =>
    { c with expected := c.expected + 1, timer := timerStart (if c.expected + 1 < c.length then .unit else .done) }) rfl hc

theorem othersKept_unitExpected (c : Context) (s : State) : s.othersKept c.number (s.unitExpected c) :=
  othersKept_modCtx (f := fun c : Context =>
    { c with expected := c.expected + 1, timer := timerStart (if c.expected + 1 < c.length then .unit else .done) })
    fun _ => rfl

/-- A CIPHER unit taken enters the inbound engine (R106). -/
theorem takeFetchUnit_cipher (hp : c.passage = .cipher) :
    s.takeFetchUnit c u = ((s.unitExpected c).loadInbound { ctx := c.number, data := u.data, forHold := false }).markFull := by
  simp only [State.takeFetchUnit, hp]
  rfl

/-- A RAW or CLEAR unit taken joins the return path; after it the fetch goes on, unless it was the last and the DONE was seen
(R82, R106). -/
theorem takeFetchUnit_plain (hp : c.passage ≠ .cipher) (h : ¬ (c.passed + 1 = c.length ∧ c.doneSeen = true)) :
    s.takeFetchUnit c u = (((s.unitExpected c).hand (.data c.mover c.tag u.data)).countPassed c.number).markFull := by
  have hdeliver : s.takeFetchUnit c u = (s.unitExpected c).deliverUnit c u.data := by
    unfold State.takeFetchUnit
    split
    · next hc => exact absurd hc hp
    · rfl
  rw [hdeliver]
  exact if_neg h

end

/-- Settles O27: the unit is expected, waits for the engine, or is past the length. -/
theorem expectedUnitIsTaken : Obligations.expected_unit_is_taken := by
  unfold Obligations.expected_unit_is_taken
  refine ⟨fun n u c s hp hc hl hk hf hi hx hu => ⟨fun hplain hlast => ?_, fun hcipher ht he => ?_⟩,
    fun n u c s hp hc hl hk hf hcipher hb => ?_, fun n u c s hp hc hl hk hf hx hd => ?_⟩
  · have hexec : exec (.fetchUnit n u) s = _ :=
      execFetchUnit_taken hp hc hl ⟨hk, hf⟩ (canDecipher_ready (.inl hplain)) hx hi hu
    obtain rfl := ctx?_number hc
    rw [hexec, takeFetchUnit_plain hplain hlast]
    refine ⟨_, rfl, ?_, ?_, rfl⟩
    · exact ctx?_countPassed (s := (s.start.unitExpected c).hand _) (ctx?_unitExpected hc)
    · exact othersKept_trans (othersKept_unitExpected c s.start)
        (othersKept_countPassed c.number ((s.start.unitExpected c).hand _))
  · have hexec : exec (.fetchUnit n u) s = _ :=
      execFetchUnit_taken hp hc hl ⟨hk, hf⟩ (canDecipher_ready (.inr ⟨ht, he⟩)) hx hi hu
    obtain rfl := ctx?_number hc
    rw [hexec, takeFetchUnit_cipher hcipher]
    exact ⟨_, rfl, ctx?_unitExpected (s := s.start) hc, othersKept_unitExpected c s.start, rfl⟩
  · have hexec : exec (.fetchUnit n u) s = _ := execFetchUnit_waits hp hc hl ⟨hk, hf⟩ (canDecipher_busy hcipher hb)
    have hctx : (s.unitWaits n).ctx? n = some (c.withUnitWaiting true) := ctx?_modCtx rfl hc
    rw [hexec]
    refine ⟨_, rfl, hctx, othersKept_modCtx (s := s.untaken) (f := Context.withUnitWaiting true) fun _ => rfl, rfl,
      fun d x hd hx => ?_⟩
    cases hctx.symm.trans hd
    exact countsTick_waits (unitWaiting_withUnitWaiting hx) hcipher hb
  · have hexec : exec (.fetchUnit n u) s = _ := execFetchUnit_extra hp hc hl ⟨hk, hf⟩ (canDecipher_ready hd) hx
    rw [hexec]
    exact ⟨_, rfl, ctx?_modCtx rfl hc,
      othersKept_modCtx (s := s.start) (f := Context.withUnitWaiting false) fun _ => rfl, rfl⟩

/-! ## Downstream parity failures (R114) -/

/-- A downstream parity failure counted and logged (R114). -/
def State.parityDown (c : Context) (s : State) : State := s.start.countParity.logFault .parityDown (some c) none none

/-- Entry to CANCEL on a downstream parity failure. -/
theorem downstreamParity_taken {c : Context} {s : State} (hc : s.ctx? c.number = some c) (hl : c.live = true)
    (hs : c.completionSent = false) :
    State.CancelEntered c c .parity (s.outstanding c) (s.beatsLeft c) s (s.parityDown c)
      (s.start.downstreamParity c).takeEligible :=
  enterCancel_taken (s := s) (u := s.parityDown c) hc hl hs ⟨rfl, rfl, rfl, rfl, rfl, rfl⟩ rfl rfl .parity rfl rfl

/-- Settles O28: the failure, and the fetch's entry to CANCEL. -/
theorem badUnitWithholdsTheRest : Obligations.bad_unit_withholds_the_rest := by
  unfold Obligations.bad_unit_withholds_the_rest
  intro n u c s hp hc hl hk hf hx hpassed hu hd hcancel hs hcode
  have hexec : exec (.fetchUnit n u) s = _ := execFetchUnit_bad hp hc hl ⟨hk, hf⟩ (canDecipher_ready hd) hx hu
  obtain rfl := ctx?_number hc
  have h := downstreamParity_taken hc hl hs
  have hsends : s.outstanding c = true := by simp [State.outstanding, hf]
  rw [hsends] at h
  rw [hexec]
  refine ⟨_, rfl, h.record.trans (Context.cancelled_afterDuty_fetch hk hcancel (Reply.orElse_of_ok hcode _)),
    h.others, h.withdrawn,
    (h.frame_fetch hk).trans ?_⟩
  rw [← withdrawn_hold h.withdrawn, if_pos hpassed, Reply.orElse_of_ok hcode]
  rfl

/-! ## The HOLD-FETCH (R138, R140, R141) -/

section
variable {n : CtxNo} {u : ReturnedUnit} {c : Context} {h : Hold} {s : State}

/-- A context in HOLD is live. -/
theorem live_of_hold (hst : c.state = .hold) : c.live = true := by simp [Context.live, hst]

/-- The hold an answer names is the context's. -/
theorem holdOf_named (hc : s.ctx? n = some c) (hst : c.state = .hold) (hh : s.hold = some h) (hn : h.ctx = n) :
    s.holdOf c = some h := holdOf_eq hst hh (hn.trans (ctx?_number hc).symm)

section
variable (hp : s.portOpen n) (hc : s.ctx? n = some c) (hst : c.state = .hold) (hh : s.hold = some h) (hn : h.ctx = n)
include hp hc hst hh hn

/-- A unit in phase FETCH that meets a busy engine waits (R106). -/
theorem execHoldFetchUnit_waits (hph : h.phase = .fetch) (hi : s.engines.inbound ≠ none) :
    execHoldFetchUnit n u s = .next (s.unitWaits n) := by
  refine (onArrival_taken hp hc (live_of_hold hst)).trans ?_
  rw [holdOf_named hc hst hh hn]
  exact (if_pos hph).trans (if_pos (Option.isSome_iff_ne_none.2 hi))

/-- A good unit of index 0 is the hold's fetched unit (R138). -/
theorem execHoldFetchUnit_taken (hph : h.phase = .fetch) (hi : s.engines.inbound = none)
    (hu : u.index = 0 ∧ u.parity = lanesParity u.data) :
    execHoldFetchUnit n u s =
      .next ((({ s.start with hold := some { h with phase := .merge } } : State).startTimer n .done).loadInbound
        { ctx := n, data := u.data, forHold := true }) := by
  refine (onArrival_taken hp hc (live_of_hold hst)).trans ?_
  rw [holdOf_named hc hst hh hn]
  exact (if_pos hph).trans ((if_neg (by simp [hi])).trans (if_pos ⟨hu.1, by simp [returnedParityGood, hu.2]⟩))

/-- Any other unit fails the hold (R114, R141). -/
theorem execHoldFetchUnit_bad (hph : h.phase = .fetch) (hi : s.engines.inbound = none)
    (hu : u.index ≠ 0 ∨ u.parity ≠ lanesParity u.data) :
    execHoldFetchUnit n u s = .next (s.start.downstreamParity c).takeEligible := by
  refine (onArrival_taken hp hc (live_of_hold hst)).trans ?_
  rw [holdOf_named hc hst hh hn]
  refine (if_pos hph).trans ((if_neg (by simp [hi])).trans (if_neg fun hg => ?_))
  have hgood : u.parity = lanesParity u.data := by simpa [returnedParityGood] using hg.2
  exact hu.elim (· hg.1) (· hgood)

/-- The DONE after the unit sets fetch answered, and releases if the merged unit is there (R138, R140). -/
theorem execHoldFetchDone_answered (hph : h.phase ≠ .fetch) (ha : h.fetchAnswered = false) :
    execHoldFetchDone n s =
      .next ((({ s.start with hold := some { h with fetchAnswered := true } } : State).stopTimer n).tryRelease) := by
  refine (onArrival_taken hp hc (live_of_hold hst)).trans ?_
  rw [holdOf_named hc hst hh hn]
  exact (if_neg (by rw [ha]; decide)).trans (if_neg hph)

end

/-- Without the merged unit nothing is released (R140). -/
theorem tryRelease_waits (hh : s.hold = some h) (hm : h.merged = none) : s.tryRelease = s := by
  simp [State.tryRelease, hh, hm]

/-- With the DONE and the merged unit the RELEASE-STORE is issued (R140). -/
theorem tryRelease_issues {m : Block} (hh : s.hold = some h) (ha : h.fetchAnswered = true) (hm : h.merged = some m) :
    s.tryRelease =
      { s with
        contexts := (s.startTimer h.ctx .accept).contexts
        hold := some { h with phase := .release }
        media := { s.media with
          slot := some { ctx := h.ctx, index := h.index, data := m, enables := allLanes }, path := .release h.ctx }
        out := { s.out with media := s.out.media ++ [MediaDrive.driven (.releaseStore h.ctx h.addr)] } } := by
  simp [State.tryRelease, hh, ha, hm, State.startTimer, State.drive, State.modCtx]

theorem ctx?_startTimer (hc : s.ctx? n = some c) (p : TimerPhase) :
    (s.startTimer n p).ctx? n = some { c with timer := some { phase := p, remaining := 128 } } :=
  ctx?_modCtx (f := fun c : Context => { c with timer := timerStart p }) rfl hc

theorem othersKept_startTimer (n : CtxNo) (p : TimerPhase) (s : State) : s.othersKept n (s.startTimer n p) :=
  othersKept_modCtx (f := fun c : Context => { c with timer := timerStart p }) fun _ => rfl

theorem ctx?_stopTimer (hc : s.ctx? n = some c) : (s.stopTimer n).ctx? n = some { c with timer := none } :=
  ctx?_modCtx (f := fun c : Context => { c with timer := none }) rfl hc

theorem othersKept_stopTimer (n : CtxNo) (s : State) : s.othersKept n (s.stopTimer n) :=
  othersKept_modCtx (f := fun c : Context => { c with timer := none }) fun _ => rfl

end

/-- Settles O29: the unit that is good, bad or waits, and the DONE before and after the merged unit. -/
theorem holdFetchIsAnswered : Obligations.hold_fetch_is_answered := by
  unfold Obligations.hold_fetch_is_answered
  intro n c h s hp hc hst hh hn
  refine ⟨fun u hph hi hidx hu => ?_, fun u left hph ha hi hu hleft hk hcancel hcode hs => ?_, fun u hph hi => ?_,
    fun hph ha hm => ?_, fun m hph ha hm => ?_⟩
  · have hexec : exec (.holdFetchUnit n u) s = _ := execHoldFetchUnit_taken hp hc hst hh hn hph hi ⟨hidx, hu⟩
    rw [hexec]
    exact ⟨_, rfl, ctx?_startTimer (s := { s.start with hold := _ }) hc .done,
      othersKept_startTimer n .done { s.start with hold := _ }, rfl⟩
  · have hexec : exec (.holdFetchUnit n u) s = _ := execHoldFetchUnit_bad hp hc hst hh hn hph hi hu
    obtain rfl := ctx?_number hc
    have he := downstreamParity_taken hc (live_of_hold hst) hs
    have hsends : s.outstanding c = true := by simp [State.outstanding, State.holdOutstanding, hh, hn, ha]
    have hend : (s.hold.filter fun h => h.ctx ≠ c.number) = none := by simp [hh, hn]
    rw [hsends, ← hleft] at he
    rw [hexec]
    refine ⟨_, rfl, he.record.trans ?_, he.others, he.withdrawn, (he.frame_store hk).trans ?_⟩
    · rw [Context.cancelled_afterDuty_store hk hcancel (Reply.orElse_of_ok hcode _) hs]
      simp
    · rw [hend, Reply.orElse_of_ok hcode]
      rfl
  · have hexec : exec (.holdFetchUnit n u) s = _ := execHoldFetchUnit_waits hp hc hst hh hn hph hi
    have hctx : (s.unitWaits n).ctx? n = some (c.withUnitWaiting true) := ctx?_modCtx rfl hc
    rw [hexec]
    refine ⟨_, rfl, hctx, othersKept_modCtx (s := s.untaken) (f := Context.withUnitWaiting true) fun _ => rfl, rfl,
      fun hcipher d x hd hx => ?_⟩
    cases hctx.symm.trans hd
    exact countsTick_waits (unitWaiting_withUnitWaiting hx) hcipher (.inl hi)
  · have hexec : exec (.holdFetchDone n) s = _ := execHoldFetchDone_answered hp hc hst hh hn hph ha
    rw [hexec, tryRelease_waits (h := { h with fetchAnswered := true }) rfl hm]
    exact ⟨_, rfl, ctx?_stopTimer (s := { s.start with hold := _ }) hc, othersKept_stopTimer n { s.start with hold := _ }, rfl⟩
  · have hexec : exec (.holdFetchDone n) s = _ := execHoldFetchDone_answered hp hc hst hh hn hph ha
    subst hn
    rw [hexec, tryRelease_issues (h := { h with fetchAnswered := true }) rfl rfl hm]
    have hctx := ctx?_stopTimer (s := { s.start with hold := some { h with fetchAnswered := true } }) hc
    have hothers := othersKept_stopTimer h.ctx { s.start with hold := some { h with fetchAnswered := true } }
    refine ⟨_, rfl, ctx?_startTimer hctx .accept, othersKept_trans hothers (othersKept_startTimer h.ctx .accept _), rfl⟩

end Sys2Proof.Machine
end

