-- ==== Sys2Proof/Proofs/RequestEnds.lean ====
section
/-! SUPPORT. The DONE of a FETCH, of a piece and of a RELEASE-STORE (R82, R84, R85, R88, R91, R92, R140). -/

namespace Sys2Proof.Machine

/-! ## The DONE of a FETCH and of a piece (R82, R85) -/

section
variable {n : CtxNo} {c : Context} {s : State}

/-- A state in which the DONE of a FETCH is noted (R82). -/
def State.doneNoted (n : CtxNo) (s : State) : State := s.start.modCtx n Context.withDone

theorem ctx?_doneNoted (hc : s.ctx? n = some c) : (s.doneNoted n).ctx? n = some c.withDone := ctx?_modCtx rfl hc

theorem othersKept_doneNoted (n : CtxNo) (s : State) : s.othersKept n (s.doneNoted n) :=
  othersKept_modCtx (s := s.start) (f := Context.withDone) fun _ => rfl

/-- A state in which a piece is answered (R85). -/
def State.pieceNoted (n : CtxNo) (s : State) : State := s.start.modCtx n Context.pieceAnswered

theorem ctx?_pieceNoted (hc : s.ctx? n = some c) : (s.pieceNoted n).ctx? n = some c.pieceAnswered := ctx?_modCtx rfl hc

theorem othersKept_pieceNoted (n : CtxNo) (s : State) : s.othersKept n (s.pieceNoted n) :=
  othersKept_modCtx (s := s.start) (f := Context.pieceAnswered) fun _ => rfl

/-- A store with a piece outstanding and no CANCEL awaits its answer (R109). -/
theorem awaitsPiece_of (hk : c.kind = .store) (hp : 0 < c.pieces) (hcancel : c.cancel = .none) : c.awaitsPiece = true := by
  simp [Context.awaitsPiece, hk, hp, hcancel]

section
variable (hp : s.portOpen n) (hc : s.ctx? n = some c) (hl : c.live = true)
include hp hc hl

/-- A DONE with units missing ends the fetch short (R82). -/
theorem execFetchDone_short (hf : c.kind = .fetch ∧ c.fetchProgress = .issued) (hx : c.expected < c.length) :
    execFetchDone n s = .next ((s.doneNoted n).enterCancel n .media false false).takeEligible :=
  (onArrival_taken hp hc hl).trans ((if_pos hf).trans (if_pos hx))

/-- A DONE after the last unit is handed completes the fetch (R82). -/
theorem execFetchDone_complete (hf : c.kind = .fetch ∧ c.fetchProgress = .issued) (hx : c.length ≤ c.expected)
    (he : c.passed = c.length) : execFetchDone n s = .next ((s.doneNoted n).complete n).takeEligible :=
  (onArrival_taken hp hc hl).trans ((if_pos hf).trans ((if_neg (Nat.not_lt.2 hx)).trans (if_pos he)))

/-- A DONE before it is noted (R82). -/
theorem execFetchDone_early (hf : c.kind = .fetch ∧ c.fetchProgress = .issued) (hx : c.length ≤ c.expected)
    (he : c.passed ≠ c.length) : execFetchDone n s = .next (s.doneNoted n) :=
  (onArrival_taken hp hc hl).trans ((if_pos hf).trans ((if_neg (Nat.not_lt.2 hx)).trans (if_neg he)))

/-- The DONE of a piece counts it down (R85). -/
theorem execPieceDone_counted (ha : c.awaitsPiece = true) (h : ¬ (c.state = .close ∧ c.pieces = 1)) :
    execPieceDone n s = .next (s.pieceNoted n) :=
  (onArrival_taken hp hc hl).trans ((if_pos ha).trans (if_neg h))

/-- The DONE of the last piece completes a store in CLOSE (R85). -/
theorem execPieceDone_last (ha : c.awaitsPiece = true) (h : c.state = .close ∧ c.pieces = 1) :
    execPieceDone n s = .next ((s.pieceNoted n).complete n) :=
  (onArrival_taken hp hc hl).trans ((if_pos ha).trans (if_pos h))

end

end

/-- Settles O30: the DONE of a FETCH by the units returned and handed, and of a piece by whether it is the last. -/
theorem doneEndsRequest : Obligations.done_ends_request := by
  unfold Obligations.done_ends_request
  intro n c s hp hc hl hs
  refine ⟨fun hk hf hx he => ?_, fun hk hf hx he => ?_, fun hk hf hx hpassed hpieces hh hcancel hcode => ?_,
    fun hk hpieces hcancel hn => ?_, fun hk hpieces hcancel hst => ?_⟩
  · have hexec : exec (.fetchDone n) s = _ := execFetchDone_complete hp hc hl ⟨hk, hf⟩ hx he
    obtain ⟨t, ht, h1, h2, h3, h4⟩ := complete_taken (s := s) (c := c) (ctx?_doneNoted hc) hs rfl rfl rfl rfl rfl
    exact ⟨t, hexec.trans (congrArg _ ht), h1, othersKept_trans (othersKept_doneNoted n s) h2, h3, h4⟩
  · have hexec : exec (.fetchDone n) s = _ := execFetchDone_early hp hc hl ⟨hk, hf⟩ hx he
    exact ⟨_, hexec, ctx?_doneNoted hc, othersKept_doneNoted n s, rfl⟩
  · have hexec : exec (.fetchDone n) s = _ := execFetchDone_short hp hc hl ⟨hk, hf⟩ hx
    obtain rfl := ctx?_number hc
    have hsends : (s.doneNoted c.number).cancelNeeded false false c.withDone = false := by
      simp [State.cancelNeeded, State.outstanding, State.holdOutstanding, State.doneNoted, Context.withDone, hpieces, hh]
    have h := enterCancel_taken (s := s) (ctx?_doneNoted hc) hl hs ⟨rfl, rfl, rfl, rfl, rfl, rfl⟩ rfl rfl .media hsends rfl
    have hmedia : c.withDone.code.orElse .media = .media := Reply.orElse_of_ok hcode _
    refine ⟨_, hexec, h.record.trans ?_, othersKept_trans (othersKept_doneNoted c.number s) h.others, h.withdrawn,
      (h.frame_fetch hk).trans ?_⟩
    · exact (Context.cancelled_afterDuty_fetch (c := c.withDone) hk hcancel hmedia).trans (if_pos rfl)
    · rw [hold_filter_of_none hh, if_pos (show c.withDone.passed < c.withDone.length from hpassed), hmedia]
      rfl
  · have hexec : exec (.pieceDone n) s = _ := execPieceDone_counted hp hc hl (awaitsPiece_of hk hpieces hcancel) hn
    exact ⟨_, hexec, ctx?_pieceNoted hc, othersKept_pieceNoted n s, rfl⟩
  · have hexec : exec (.pieceDone n) s = _ :=
      execPieceDone_last hp hc hl (awaitsPiece_of hk (by omega) hcancel) ⟨hst, hpieces⟩
    obtain ⟨h1, h2, h3⟩ := complete_frame (ctx?_pieceNoted hc) (show c.pieceAnswered.completionSent = false from hs)
    have hpin : (s.pieceNoted n).releasePin c.pieceAnswered = s.pieceNoted n :=
      releasePin_of_not_streaming (by simp [Context.streaming, Context.pieceAnswered, hst]) _
    rw [hpin] at h3
    exact ⟨_, hexec, h1, othersKept_trans (othersKept_pieceNoted n s) h2, h3⟩

/-! ## The DONE of a RELEASE-STORE (R84, R85, R140) -/

section
variable {n : CtxNo} {c d : Context} {h : Hold} {u v : State}

/-- Entry to CLOSE of a context with a pin: the pin released, and with no piece outstanding the store completed and freed (R83,
R85). -/
theorem enterClose_ends (hu : u.ctx? n = some d) (hst : d.streaming = true) (hs : d.completionSent = false) :
    ∃ t, u.enterClose n = t ∧
      t.ctx? n = (if d.pieces = 0 then none else some { d with state := .close, tweak := .absent }) ∧ u.othersKept n t ∧
      t = { u with
        contexts := t.contexts
        returnPath := u.returnPath ++ (if d.pieces = 0 then [.completion d.mover d.tag d.code] else [])
        cache := (u.releasePin d).cache } := by
  have hctx : ((u.releasePin d).modCtx n fun c => { c with state := .close, tweak := .absent }).ctx? n =
      some { d with state := .close, tweak := .absent } :=
    ctx?_modCtx (f := fun c : Context => { c with state := .close, tweak := .absent }) rfl ((ctx?_congr (by simp)).trans hu)
  have hothers : u.othersKept n ((u.releasePin d).modCtx n fun c => { c with state := .close, tweak := .absent }) :=
    othersKept_trans (othersKept_of_eq (State.releasePin_contexts d u))
      (othersKept_modCtx (f := fun c : Context => { c with state := .close, tweak := .absent }) fun _ => rfl)
  have hframe : ((u.releasePin d).modCtx n fun c => { c with state := .close, tweak := .absent }) = { u with
      contexts := ((u.releasePin d).modCtx n fun c => { c with state := .close, tweak := .absent }).contexts
      cache := (u.releasePin d).cache } := by
    obtain ⟨x, hx⟩ := releasePin_frame d u
    rw [hx]
    rfl
  by_cases hp : d.pieces = 0
  · have hclose : u.enterClose n =
        ((u.releasePin d).modCtx n fun c => { c with state := .close, tweak := .absent }).complete n := by
      unfold State.enterClose
      rw [hu]
      exact (if_pos hst).trans (if_pos hp)
    generalize (u.releasePin d).modCtx n (fun c => { c with state := .close, tweak := .absent }) = v at *
    obtain ⟨h1, h2, h3⟩ := complete_frame hctx hs
    rw [releasePin_of_not_streaming (by simp [Context.streaming])] at h3
    refine ⟨_, hclose, by rw [if_pos hp]; exact h1, othersKept_trans hothers h2, h3.trans ?_⟩
    rw [if_pos hp, hframe]
  · rw [enterClose_outstanding hu hst (Nat.pos_of_ne_zero hp)]
    refine ⟨_, rfl, by rw [if_neg hp]; exact hctx, hothers, hframe.trans ?_⟩
    rw [if_neg hp, List.append_nil]

/-- The ACCEPT of a RELEASE-STORE drives the merged unit (R140). -/
theorem acceptRelease_drives {x : SlotUnit} (hx : u.media.slot = some x) :
    u.acceptRelease n = { u with
      contexts := (u.modCtx n fun c => { c with passed := c.passed + 1, timer := timerStart .done }).contexts
      media := { u.media with slot := none, path := .free }
      out := { u.out with media := u.out.media ++ [MediaDrive.driven (.unit n (drivenBeat x.data x.enables))] } } := by
  unfold State.acceptRelease
  rw [hx]
  rfl

/-- A state in which the answer that ends a hold is taken: as the DONE alone, or as the ACCEPT and the DONE (R140). -/
def State.releaseAnswered (n : CtxNo) (s : State) : State :=
  ({ (if s.media.path = .release n then s.start.acceptRelease n else s.start) with hold := none } : State).stopTimer n

/-- What it leaves: the hold gone, no timer, and before the ACCEPT the merged unit driven and counted (R140). -/
theorem releaseAnswered_ends {s : State} {b : Bool} {x : SlotUnit} (hc : s.ctx? n = some c)
    (hb : b = true ↔ s.media.path = .release n) (hx : b = true → s.media.slot = some x) :
    (s.releaseAnswered n).ctx? n = some { c with timer := none, passed := if b = true then c.passed + 1 else c.passed } ∧
      s.othersKept n (s.releaseAnswered n) ∧
      s.releaseAnswered n = { s with
        contexts := (s.releaseAnswered n).contexts
        hold := none
        media := if b = true then { s.media with slot := none, path := .free } else s.media
        out := { Outputs.quiet with
          media := if b = true then
            [MediaDrive.driven (.unit n { data := x.data, parity := lanesParity x.data, enables := x.enables })]
            else [] } } := by
  cases b with
  | true =>
    have haccept := acceptRelease_drives (u := s.start) (n := n) (hx rfl)
    unfold State.releaseAnswered
    rw [if_pos (hb.1 rfl), haccept]
    refine ⟨?_, ?_, rfl⟩
    · exact ctx?_stopTimer (c := { c with passed := c.passed + 1, timer := timerStart .done }) (ctx?_modCtx (s := s.start)
        (f := fun c : Context => { c with passed := c.passed + 1, timer := timerStart .done }) rfl hc)
    · exact othersKept_trans (othersKept_modCtx (s := s.start)
        (f := fun c : Context => { c with passed := c.passed + 1, timer := timerStart .done }) fun _ => rfl)
        (othersKept_stopTimer n _)
  | false =>
    have hpath : s.media.path ≠ .release n := fun hn => by cases hb.2 hn
    unfold State.releaseAnswered
    rw [if_neg hpath]
    exact ⟨ctx?_stopTimer (s := { s.start with hold := none }) hc, othersKept_stopTimer n { s.start with hold := none }, rfl⟩

/-- The DONE of a RELEASE-STORE ends the hold (R140). -/
theorem execReleaseStoreDone_ends {s : State} (hp : s.portOpen n) (hc : s.ctx? n = some c) (hst : c.state = .hold)
    (hh : s.hold = some h) (hn : h.ctx = n) (hph : h.phase = .release) :
    execReleaseStoreDone n s =
      .next (if c.length ≤ h.index + 1 then (s.releaseAnswered n).enterClose n
        else (s.releaseAnswered n).modCtx n fun c => { c with state := .stream }).takeEligible := by
  refine (onArrival_taken hp hc (live_of_hold hst)).trans ?_
  rw [holdOf_named hc hst hh hn]
  subst hn
  exact if_pos hph

end

/-- Settles O31: with beats left to STREAM, and with none to CLOSE. -/
theorem releaseDoneEndsHold : Obligations.release_done_ends_hold := by
  unfold Obligations.release_done_ends_hold
  intro n c h b x s hp hc hst hh hn hph hb hx
  have hexec : exec (.releaseStoreDone n) s = _ := execReleaseStoreDone_ends hp hc hst hh hn hph
  obtain ⟨hctx, hothers, hframe⟩ := releaseAnswered_ends hc hb hx
  rw [hexec]
  generalize s.releaseAnswered n = u at *
  refine ⟨fun hi hset => ?_, fun hi hs => ?_⟩
  · rw [if_neg (Nat.not_le.2 hi)]
    have hset' : (u.modCtx n fun c => { c with state := .stream }).settled := by rw [hframe]; exact hset
    refine ⟨_, congrArg _ (takeEligible_of_settled hset'),
      ctx?_modCtx (f := fun c : Context => { c with state := .stream }) rfl hctx,
      othersKept_trans hothers (othersKept_modCtx fun _ => rfl), ?_⟩
    generalize hu : u.modCtx n (fun c => { c with state := .stream }) = t
    rw [show t = { u with contexts := t.contexts } by rw [← hu]; rfl, hframe]
  · rw [if_pos hi.ge]
    obtain ⟨t, ht, h1, h2, h3⟩ := enterClose_ends hctx (by simp [Context.streaming, hst]) hs
    have hreleased : s.released c t.takeEligible := by
      refine released_of_congr (u := u)
        (d := { c with timer := none, passed := if b = true then c.passed + 1 else c.passed }) rfl rfl ?_ ?_ ?_ ?_ ?_ ?_
      · rw [hframe]
      · rw [hframe]
      · rw [hframe]
      · rw [h3]
      · rw [h3]
      · rw [h3]
    rw [ht]
    refine ⟨_, rfl, (ctx?_congr (State.takeEligible_contexts t)).trans h1,
      othersKept_trans hothers (othersKept_trans h2 (othersKept_of_eq (State.takeEligible_contexts t))), hreleased, ?_⟩
    obtain ⟨y, z, hz⟩ := takeEligible_frame t
    rw [hz]
    dsimp only
    rw [h3, hframe]

end Sys2Proof.Machine
end

