-- ==== Sys2Proof/Proofs/MediaErrors.lean ====
section
/-! SUPPORT. The ERROR of each request, and the failed DONE of a HOLD-FETCH (R86, R90 to R92, R107, R108, R138, R141). -/

namespace Sys2Proof.Machine

/-! ## The rows (R108, R138, R141) -/

section
variable {n : CtxNo} {c : Context} {h : Hold} {s : State}

/-- A state in which the ERROR of a FETCH is noted: the FETCH has ended (R108). -/
def State.fetchEnded (n : CtxNo) (s : State) : State := s.start.modCtx n fun c => { c with fetchProgress := .ended }

theorem ctx?_fetchEnded (hc : s.ctx? n = some c) : (s.fetchEnded n).ctx? n = some { c with fetchProgress := .ended } :=
  ctx?_modCtx (f := fun c : Context => { c with fetchProgress := .ended }) rfl hc

theorem othersKept_fetchEnded (n : CtxNo) (s : State) : s.othersKept n (s.fetchEnded n) :=
  othersKept_modCtx (s := s.start) (f := fun c : Context => { c with fetchProgress := .ended }) fun _ => rfl

section
variable (hp : s.portOpen n) (hc : s.ctx? n = some c)
include hp hc

/-- The ERROR of a FETCH ends it (R108). -/
theorem execMediaError_fetch (hl : c.live = true) (hf : c.kind = .fetch ∧ c.fetchProgress = .issued) :
    execMediaError n .fetch s = .next ((s.fetchEnded n).enterCancel n .media false false).takeEligible :=
  (onArrival_taken hp hc hl).trans (if_pos hf)

/-- The ERROR of a piece of a store in STREAM (R86, R108). -/
theorem execMediaError_store_stream (hl : c.live = true) (ha : c.awaitsPiece = true) (hst : c.state = .stream) :
    execMediaError n .store s = .next ((s.pieceNoted n).errorInStream c).takeEligible :=
  (onArrival_taken hp hc hl).trans ((if_pos ha).trans (if_pos hst))

/-- The ERROR of a piece of a store in HOLD or CLOSE (R108, R141). -/
theorem execMediaError_store_past (hl : c.live = true) (ha : c.awaitsPiece = true) (hst : c.state ≠ .stream) :
    execMediaError n .store s = .next ((s.pieceNoted n).enterCancel n .media false false).takeEligible :=
  (onArrival_taken hp hc hl).trans ((if_pos ha).trans (if_neg hst))

variable (hst : c.state = .hold) (hh : s.hold = some h) (hn : h.ctx = n)
include hst hh hn

/-- The ERROR of an unanswered HOLD-FETCH ends the hold (R141). -/
theorem execMediaError_holdFetch (ha : h.fetchAnswered = false) :
    execMediaError n .holdFetch s = .next (s.start.enterCancel n .media true false).takeEligible := by
  refine (onArrival_taken hp hc (live_of_hold hst)).trans ?_
  rw [holdOf_named hc hst hh hn]
  exact if_neg (by rw [ha]; decide)

/-- So does its DONE before any unit (R138). -/
theorem execHoldFetchDone_failed (ha : h.fetchAnswered = false) (hph : h.phase = .fetch) :
    execHoldFetchDone n s = .next (s.start.enterCancel n .media true false).takeEligible := by
  refine (onArrival_taken hp hc (live_of_hold hst)).trans ?_
  rw [holdOf_named hc hst hh hn]
  exact (if_neg (by rw [ha]; decide)).trans (if_pos hph)

/-- So does the ERROR of the RELEASE-STORE (R141). -/
theorem execMediaError_releaseStore (hph : h.phase = .release) :
    execMediaError n .releaseStore s = .next (s.start.enterCancel n .media true false).takeEligible := by
  refine (onArrival_taken hp hc (live_of_hold hst)).trans ?_
  rw [holdOf_named hc hst hh hn]
  exact if_pos hph

end

end

/-! ## A store in STREAM (R86, R107, log entry 14) -/

section
variable {c : Context} {s : State}

/-- A state in which the failure of a store's piece is noted: code MEDIA, no timer, the open piece abandoned and the unit on the
outbound path discarded (R86, R107, R108). -/
def State.pieceFailed (c : Context) (s : State) : State :=
  { (s.pieceNoted c.number).modCtx c.number fun c => { c with code := c.code.orElse .media, timer := none } with
    media := s.media.abandon c.number, engines := s.engines.discardOutbound c.number }

theorem ctx?_pieceFailed (hc : s.ctx? c.number = some c) (hcode : c.code = .ok) :
    (s.pieceFailed c).ctx? c.number = some { c with pieces := c.pieces - 1, code := .media, timer := none } := by
  have h := ctx?_modCtx (f := fun c : Context => { c with code := c.code.orElse .media, timer := none }) rfl (ctx?_pieceNoted hc)
  have hrecord : ({ c.pieceAnswered with code := c.pieceAnswered.code.orElse .media, timer := none } : Context) =
      { c with pieces := c.pieces - 1, code := .media, timer := none } := by
    simp [Context.pieceAnswered, hcode, Reply.orElse]
  exact h.trans (congrArg some hrecord)

theorem othersKept_pieceFailed (c : Context) (s : State) : s.othersKept c.number (s.pieceFailed c) :=
  othersKept_trans (othersKept_pieceNoted c.number s)
    (othersKept_modCtx (f := fun c : Context => { c with code := c.code.orElse .media, timer := none }) fun _ => rfl)

/-- With beats left the store drains (R86). -/
theorem errorInStream_drains (hl : s.beatsLeft c ≠ 0) : (s.pieceNoted c.number).errorInStream c = s.pieceFailed c := if_neg hl

/-- With none it enters CANCEL (log entry 14). -/
theorem errorInStream_cancels (hl : s.beatsLeft c = 0) :
    (s.pieceNoted c.number).errorInStream c = (s.pieceFailed c).enterCancel c.number .media false false := if_pos hl

/-- The work to be discarded is what it was (R17, R107). -/
theorem sameWork_pieceFailed (c : Context) (s : State) : s.SameWork c.number (s.pieceFailed c) :=
  ⟨by simp [State.pieceFailed, Engines.discardUnits, Engines.discardOutbound], MediaPort.abandon_abandon _ _,
    rfl, rfl, rfl, rfl⟩

end

/-! ## Entry to CANCEL for a store that fails -/

section
variable {c d : Context} {s u : State}

/-- Whether a context without a hold has work to cancel once its FETCH has ended (R90). -/
theorem cancelNeeded_pieces (hh : u.hold = none) (hf : d.fetchProgress ≠ .issued) :
    u.cancelNeeded false false d = decide (0 < d.pieces) := by
  simp [State.cancelNeeded, State.outstanding, State.holdOutstanding, hh, hf]

/-- Whether it has, where the hold request is the one just answered (R90, R138, R141). -/
theorem cancelNeeded_answered (hf : d.fetchProgress ≠ .issued) : u.cancelNeeded true false d = decide (0 < d.pieces) := by
  simp [State.cancelNeeded, hf]

/-- Whether it has, where a hold's request is still to be answered or not (R90, R143). -/
theorem cancelNeeded_hold {h : Hold} (hh : u.hold = some h) (hn : h.ctx = d.number) (hf : d.fetchProgress ≠ .issued) :
    u.cancelNeeded false false d = (decide (0 < d.pieces) || h.phase == .release || !h.fetchAnswered) := by
  simp [State.cancelNeeded, State.outstanding, State.holdOutstanding, hh, hn, beq_eq_false_iff_ne.2 hf, Bool.or_assoc]

/-- A store whose answer leaves it so many pieces outstanding enters CANCEL with MEDIA (R90, R91, R92, R108, R141). -/
theorem storeFailed {pieces left : Nat} {answered sent : Bool} (hu : u.ctx? c.number = some { c with pieces := pieces })
    (hothers : s.othersKept c.number u) (hframe : u = { s with contexts := u.contexts, out := Outputs.quiet })
    (hl : c.live = true) (hk : c.kind = .store) (hcancel : c.cancel = .none) (hcode : c.code = .ok)
    (hs : c.completionSent = false)
    (hsent : u.cancelNeeded answered false { c with pieces := pieces } = sent) (hleft : s.beatsLeft c = left) :
    ∃ t, (u.enterCancel c.number .media answered false).takeEligible = t ∧
      t.ctx? c.number = (if left = 0 ∧ sent = false then none else some { c with
        pieces := pieces, state := .cancel, code := .media, cancel := if sent = true then .sent else .none
        completionSent := decide (left = 0), tweak := .absent
        timer := c.timer.filter fun x => x.phase == .cancelAnswer }) ∧
      s.othersKept c.number t ∧ s.withdrawn c t ∧
      t = { s with
        contexts := t.contexts, cache := t.cache, expander := t.expander, engines := t.engines, media := t.media
        hold := s.hold.filter fun h => h.ctx ≠ c.number
        intake := if left = 0 then s.intake else .dropping left (some c.number)
        returnPath := s.returnPath ++ (if left = 0 then [.completion c.mover c.tag .media] else [])
        out := Outputs.quiet } := by
  have hwork : s.SameWork c.number u := by rw [hframe]; exact ⟨rfl, rfl, rfl, rfl, rfl, rfl⟩
  have hleft' : u.beatsLeft { c with pieces := pieces } = left := by rw [hframe]; exact hleft
  have hmedia : c.code.orElse .media = .media := Reply.orElse_of_ok hcode _
  have h := enterCancel_taken hu hl hs hwork rfl rfl .media hsent hleft'
  refine ⟨_, rfl, h.record.trans ?_, othersKept_trans hothers h.others, h.withdrawn, (h.frame_store hk).trans ?_⟩
  · exact Context.cancelled_afterDuty_store (c := { c with pieces := pieces }) hk hcancel hmedia hs
  · generalize (u.enterCancel c.number .media answered false).takeEligible = t
    rw [hframe, hmedia]

/-- A store's record where no beat is left: gone with its last piece, and otherwise with its CANCEL to be answered (R92). -/
theorem ended_record {pieces left : Nat} {r : Bool → Context} (hl : left = 0) (hp : 0 < pieces) :
    (if left = 0 ∧ decide (0 < pieces - 1) = false then none else some (r (decide (0 < pieces - 1)))) =
      if pieces = 1 then none else some (r true) := by
  by_cases h1 : pieces = 1
  · simp [hl, h1]
  · have h2 : 0 < pieces - 1 := by omega
    simp [h1, h2]

end

/-- Settles O32: by the request the ERROR names, and by the state of its context. -/
theorem mediaErrorEndsRequest : Obligations.media_error_ends_request := by
  unfold Obligations.media_error_ends_request
  intro n c s hp hc hl hcancel hs hcode
  obtain rfl := ctx?_number hc
  have hmedia : c.code.orElse .media = .media := Reply.orElse_of_ok hcode _
  refine ⟨fun hk hf hpieces hh => ?_, fun hk hst hpieces hf hh hleft => ?_, fun hk hst hpieces hleft hset => ?_,
    fun hk hst hpieces hf hh hleft => ?_, fun h i left pieces sent hk hst hh hn hf hleft hi => ?_, rfl⟩
  · have hexec : exec (.mediaError c.number .fetch) s = _ := execMediaError_fetch hp hc hl ⟨hk, hf⟩
    have hsends : (s.fetchEnded c.number).cancelNeeded false false { c with fetchProgress := .ended } = false :=
      (cancelNeeded_pieces hh (by simp)).trans (by simp [hpieces])
    have h := enterCancel_taken (s := s) (ctx?_fetchEnded hc) hl hs ⟨rfl, rfl, rfl, rfl, rfl, rfl⟩ rfl rfl .media hsends rfl
    refine ⟨_, hexec, h.record.trans ?_, othersKept_trans (othersKept_fetchEnded c.number s) h.others, h.withdrawn,
      (h.frame_fetch hk).trans ?_⟩
    · exact (Context.cancelled_afterDuty_fetch (c := { c with fetchProgress := .ended }) hk hcancel hmedia).trans (if_pos rfl)
    · rw [hold_filter_of_none hh, hmedia]
      rfl
  · have hexec : exec (.mediaError c.number .store) s = _ :=
      execMediaError_store_past hp hc hl (awaitsPiece_of hk hpieces hcancel) (by rw [hst]; decide)
    obtain ⟨t, ht, h1, h2, h3, h4⟩ := storeFailed (s := s) (ctx?_pieceNoted hc) (othersKept_pieceNoted c.number s) rfl hl hk
      hcancel hcode hs (cancelNeeded_pieces (u := s.pieceNoted c.number) hh hf) hleft
    refine ⟨t, hexec.trans (congrArg _ ht), h1.trans ?_, h2, h3, h4.trans ?_⟩
    · exact ended_record rfl (r := fun b => { c with
        pieces := c.pieces - 1, state := .cancel, code := .media, cancel := if b = true then .sent else .none
        completionSent := true, tweak := .absent, timer := c.timer.filter fun x => x.phase == .cancelAnswer }) hpieces
    · rw [hold_filter_of_none hh]
      rfl
  · have hexec : exec (.mediaError c.number .store) s = _ :=
      execMediaError_store_stream hp hc hl (awaitsPiece_of hk hpieces hcancel) hst
    have hset' : (s.pieceFailed c).settled := hset
    rw [hexec, errorInStream_drains hleft.ne']
    exact ⟨_, congrArg _ (takeEligible_of_settled hset'), ctx?_pieceFailed hc hcode, othersKept_pieceFailed c s, rfl⟩
  · have hexec : exec (.mediaError c.number .store) s = _ :=
      execMediaError_store_stream hp hc hl (awaitsPiece_of hk hpieces hcancel) hst
    have h := enterCancel_taken (s := s) (ctx?_pieceFailed hc hcode) hl hs (sameWork_pieceFailed c s) rfl rfl .media
      (cancelNeeded_pieces (u := s.pieceFailed c) hh hf) hleft
    rw [hexec, errorInStream_cancels hleft]
    refine ⟨_, rfl, h.record.trans ?_, othersKept_trans (othersKept_pieceFailed c s) h.others, h.withdrawn,
      (h.frame_store hk).trans ?_⟩
    · rw [Context.cancelled_afterDuty_store (c := { c with pieces := c.pieces - 1, code := .media, timer := none }) hk
        hcancel rfl hs]
      exact ended_record rfl (r := fun b => { c with
        pieces := c.pieces - 1, state := .cancel, code := .media, cancel := if b = true then .sent else .none
        completionSent := true, tweak := .absent, timer := none }) hpieces
    · rw [hold_filter_of_none hh, if_pos rfl, if_pos rfl]
      rfl
  · have hlost : (s.hold.filter fun h => h.ctx ≠ c.number) = none := by simp [hh, hn]
    rw [← hlost]
    rcases hi with ⟨hrow, rfl, rfl⟩ | ⟨⟨rfl, hpieces⟩, rfl, rfl⟩
    · have hexec : exec i s = .next (s.start.enterCancel c.number .media true false).takeEligible := by
        rcases hrow with ⟨rfl, ha⟩ | ⟨rfl, ha, hph⟩ | ⟨rfl, hph⟩
        · exact execMediaError_holdFetch hp hc hst hh hn ha
        · exact execHoldFetchDone_failed hp hc hst hh hn ha hph
        · exact execMediaError_releaseStore hp hc hst hh hn hph
      obtain ⟨t, ht, h⟩ := storeFailed (s := s) (u := s.start) hc rfl rfl hl hk hcancel hcode hs
        (cancelNeeded_answered (u := s.start) hf) hleft.symm
      exact ⟨t, hexec.trans (congrArg _ ht), h⟩
    · have hexec : exec (.mediaError c.number .store) s = _ :=
        execMediaError_store_past hp hc hl (awaitsPiece_of hk hpieces hcancel) (by rw [hst]; decide)
      have hsent : (s.pieceNoted c.number).cancelNeeded false false c.pieceAnswered =
          (decide (1 < c.pieces) || h.phase == .release || !h.fetchAnswered) :=
        (cancelNeeded_hold (u := s.pieceNoted c.number) (d := c.pieceAnswered) hh hn hf).trans (by simp [Context.pieceAnswered])
      obtain ⟨t, ht, h⟩ := storeFailed (s := s) (ctx?_pieceNoted hc) (othersKept_pieceNoted c.number s) rfl hl hk hcancel
        hcode hs hsent hleft.symm
      exact ⟨t, hexec.trans (congrArg _ ht), h⟩

end Sys2Proof.Machine
end

