-- ==== Sys2Proof/Proofs/AnswerTimers.lean ====
section
/-! SUPPORT. The answer to a CANCEL, and the ends of answer timers (R89, R91 to R93, R110 to R112, R142). -/

namespace Sys2Proof.Machine

/-! ## The answer to a CANCEL (R92, R112) -/

/-- The answer frees a context in CANCEL whose completion is SENT, and is noted in any other (R92, R112). -/
theorem answerCancel_ends {n : CtxNo} {c : Context} {s : State} (hc : s.ctx? n = some c) :
    ∃ t, s.answerCancel n = t ∧
      t.ctx? n = (if c.state = .cancel ∧ c.completionSent = true then none
        else some { c with cancel := .answered, timer := none }) ∧
      s.othersKept n t ∧ t = { s with contexts := t.contexts } := by
  have hctx : (s.modCtx n fun c => { c with cancel := .answered, timer := none }).ctx? n =
      some { c with cancel := .answered, timer := none } :=
    ctx?_modCtx (f := fun c : Context => { c with cancel := .answered, timer := none }) rfl hc
  have hothers : s.othersKept n (s.modCtx n fun c => { c with cancel := .answered, timer := none }) :=
    othersKept_modCtx (f := fun c : Context => { c with cancel := .answered, timer := none }) fun _ => rfl
  by_cases hd : c.state = .cancel ∧ c.completionSent = true
  · have hfree : s.answerCancel n = (s.modCtx n fun c => { c with cancel := .answered, timer := none }).dropCtx n := by
      rw [State.answerCancel, freeIfDone_done hctx hd.1 hd.2 (fun h => by cases h), free_eq hctx, releasePin_of_not_streaming]
      simp [Context.streaming, hd.1]
    exact ⟨_, hfree, by rw [if_pos hd]; exact ctx?_dropCtx n _, othersKept_trans hothers (othersKept_dropCtx n _), rfl⟩
  · have hkept : s.answerCancel n = s.modCtx n fun c => { c with cancel := .answered, timer := none } :=
      freeIfDone_kept hctx (by
        rcases not_and_or.1 hd with h | h
        · exact .inl h
        · exact .inr (.inl (Bool.not_eq_true _ ▸ h)))
    exact ⟨_, hkept, by rw [if_neg hd]; exact hctx, hothers, rfl⟩

/-! ## The last tick (R110, log entries 5, 25) -/

section
variable {n : CtxNo} {c : Context} {x : AnswerTimer} {s : State}

/-- A timer that runs is in its phase (R110). -/
theorem timing_iff {p : TimerPhase} (ht : c.timer = some x) : c.timing p = true ↔ x.phase = p := by
  simp [Context.timing, ht]

/-- A counted tick with one left, or none, is a timer's last (R110). -/
theorem answerDue_last (ht : c.timer = some x) (hr : x.remaining ≤ 1) (hk : s.countsTick c = true) : s.answerDue c = true := by
  simp [State.answerDue, ht, hr, hk]

/-- No tick is the last of a timer that does not run, is not counted, or has ticks left (R110). -/
theorem answerDue_not_last (h : c.timer = none ∨ s.countsTick c = false ∨ ∀ x, c.timer = some x → 2 ≤ x.remaining) :
    s.answerDue c = false := by
  unfold State.answerDue
  rcases h with h | h | h
  · simp [h]
  · simp [h]
  · cases ht : c.timer with
    | none => simp
    | some x =>
      have hr : ¬ x.remaining ≤ 1 := by have := h x ht; omega
      simp [hr]

section
variable (hc : s.ctx? n = some c)
include hc

/-- The row acts at the last tick of a timer outside the cancel phase (R111). -/
theorem execAnswerTimerExpiry_due (hd : s.answerDue c = true) (hp : c.timing .cancelAnswer = false) :
    execAnswerTimerExpiry n s = .next ((s.start.noteAnswer n).expireAnswer c).takeEligible := by
  simp [execAnswerTimerExpiry, hc, hd, hp]

theorem execAnswerTimerExpiry_not_due (hd : s.answerDue c = false) : execAnswerTimerExpiry n s = .next s.untaken := by
  simp [execAnswerTimerExpiry, hc, hd]

/-- The row acts at the last tick of a timer on an unanswered CANCEL (R112). -/
theorem execCancelTimeout_due (hd : s.answerDue c = true) (hp : c.timing .cancelAnswer = true) :
    execCancelTimeout n s = .next ((s.start.noteAnswer n).strand c).takeEligible := by
  simp [execCancelTimeout, hc, hd, hp]

theorem execCancelTimeout_not_due (hd : s.answerDue c = false) : execCancelTimeout n s = .next s.untaken := by
  simp [execCancelTimeout, hc, hd]

end

end

/-! ## The end of the timer on a CANCEL (R92, R93, R112) -/

section
variable {c : Context} {s u : State}

/-- A context's work discarded and its record stranded, before its beats left are to be dropped (R92, R93). -/
def State.stranded (c : Context) (u : State) : State :=
  ((u.releasePin c).discardWork c.number).modCtx c.number fun c => { c with state := .stranded, timer := none, tweak := .absent }

theorem stranded_frame (c : Context) (u : State) :
    u.stranded c = { u with
      contexts := (u.stranded c).contexts
      cache := (u.stranded c).cache
      expander := (u.stranded c).expander
      engines := (u.stranded c).engines
      media := (u.stranded c).media
      hold := (u.stranded c).hold } := by
  unfold State.stranded
  obtain ⟨x, h⟩ := releasePin_frame c u
  rw [h]
  rfl

theorem ctx?_stranded (hu : u.ctx? c.number = some c) :
    (u.stranded c).ctx? c.number = some { c with state := .stranded, timer := none, tweak := .absent } :=
  ctx?_modCtx (f := fun c : Context => { c with state := .stranded, timer := none, tweak := .absent }) rfl
    ((ctx?_congr (by simp)).trans hu)

theorem othersKept_stranded (c : Context) (u : State) : u.othersKept c.number (u.stranded c) :=
  othersKept_trans (t := (u.releasePin c).discardWork c.number) (othersKept_of_eq (by simp))
    (othersKept_modCtx (f := fun c : Context => { c with state := .stranded, timer := none, tweak := .absent }) fun _ => rfl)

/-- The timer's end on a CANCEL logs, strands, and has the beats left dropped (R92, R93, R112). -/
theorem strand_eq {left : Nat} (hleft : u.beatsLeft c = left) :
    u.strand c = { (u.logFault .cancelTimeout (some c) none none).stranded c with
      intake := if left = 0 then u.intake else .dropping left (some c.number) } := by
  have hkept : ((u.logFault .cancelTimeout (some c) none none).stranded c).intake = u.intake := by rw [stranded_frame]; rfl
  by_cases hl : left = 0
  · rw [if_pos hl, ← hkept]
    exact if_pos (hleft.trans hl)
  · rw [if_neg hl, ← hleft]
    exact if_neg (fun h => hl (hleft.symm.trans h))

/-- A context is stranded, and the take: its record, the fault, its blocks and its beats left (R92, R93, R112). -/
theorem strand_taken {left : Nat} (hw : s.SameWork c.number u) (hu : u.ctx? c.number = some c) (hleft : u.beatsLeft c = left) :
    ∃ t, (u.strand c).takeEligible = t ∧
      t.ctx? c.number = some { c with state := .stranded, timer := none, tweak := .absent } ∧
      u.othersKept c.number t ∧ s.withdrawn c t ∧
      t = { u with
        contexts := t.contexts
        intake := if left = 0 then u.intake else .dropping left (some c.number)
        faults := u.faults.add (faultRecord .cancelTimeout u.contain.device (some c) none none)
        engines := t.engines, media := t.media, hold := t.hold, cache := t.cache, expander := t.expander } := by
  have hwork : s.SameWork c.number (u.logFault .cancelTimeout (some c) none none) :=
    ⟨hw.engines, hw.media, hw.hold, hw.cache, hw.expander, hw.slots⟩
  have hblocks : s.Withdraws c ((u.logFault .cancelTimeout (some c) none none).stranded c) :=
    (hwork.withdraws rfl rfl).congr rfl rfl rfl rfl rfl rfl
  have hctx := ctx?_stranded (u := u.logFault .cancelTimeout (some c) none none) hu
  have hothers := othersKept_stranded c (u.logFault .cancelTimeout (some c) none none)
  have hframe := stranded_frame c (u.logFault .cancelTimeout (some c) none none)
  rw [strand_eq hleft]
  generalize (u.logFault .cancelTimeout (some c) none none).stranded c = v at *
  refine ⟨_, rfl, ?_, ?_, State.Withdraws.taken (hblocks.congr rfl rfl rfl rfl rfl rfl), ?_⟩
  · exact (ctx?_congr (State.takeEligible_contexts _)).trans hctx
  · exact othersKept_trans hothers (othersKept_of_eq (State.takeEligible_contexts _))
  · obtain ⟨y, z, h⟩ := takeEligible_frame { v with intake := if left = 0 then u.intake else .dropping left (some c.number) }
    rw [h]
    dsimp only
    rw [hframe]
    rfl

end

/-- Settles O33: the answer, the last tick of the timer before it, and any other tick. -/
theorem cancelIsAnsweredOrStranded : Obligations.cancel_is_answered_or_stranded := by
  unfold Obligations.cancel_is_answered_or_stranded
  refine ⟨fun n e c s hp hc hsent hst => ?_, fun n c x left s hc ht hph hr hk _ hleft => ?_, fun n c s hc h => ?_⟩
  · have hexec : exec (.cancelAnswer n e) s = _ := cancelArrival_taken hp hc ⟨hsent, hst⟩
    obtain ⟨t, ht, h1, h2, h3⟩ := answerCancel_ends (s := s.start) hc
    exact ⟨t, hexec.trans (congrArg _ ht), h1, h2, h3⟩
  · have hexec : exec (.cancelTimeout n) s = _ :=
      execCancelTimeout_due hc (answerDue_last ht hr hk) ((timing_iff ht).2 hph)
    obtain rfl := ctx?_number hc
    obtain ⟨t, ht, h1, h2, h3, h4⟩ := strand_taken (s := s) (u := s.start.noteAnswer c.number)
      ⟨rfl, rfl, rfl, rfl, rfl, rfl⟩ hc hleft.symm
    exact ⟨t, hexec.trans (congrArg _ ht), h1, h2, h3, h4⟩
  · exact execCancelTimeout_not_due hc (answerDue_not_last h)

/-! ## The end of any other answer timer (R111, R142) -/

/-- A timeout noted: the tick given, the tally and TIMEOUT-SEEN, and MEDIA-TIMEOUT logged for a context in HOLD (R111, R142). -/
def State.timeoutNoted (c : Context) (s : State) : State :=
  if c.state = .hold then (s.start.noteAnswer c.number).countTimeout.logFault .mediaTimeout (some c) none none
  else (s.start.noteAnswer c.number).countTimeout

section
variable {c : Context} {x : AnswerTimer} {s : State}

/-- What the note changes (R111, R142). -/
theorem timeoutNoted_frame (c : Context) (s : State) :
    s.timeoutNoted c = { s with
      tallies := { s.tallies with timeout := countUp s.tallies.timeout }
      events := .follow (s.pendingWith .timeoutSeen) s.events.enables
      faults := if c.state = .hold then s.faults.add (faultRecord .mediaTimeout s.contain.device (some c) none none)
        else s.faults
      marks := { s.marks with tickedAnswer := c.number :: s.marks.tickedAnswer }
      out := Outputs.quiet } := by
  unfold State.timeoutNoted
  by_cases h : c.state = .hold
  · rw [if_pos h, if_pos h]
    rfl
  · rw [if_neg h, if_neg h]
    rfl

/-- No timer but a CANCEL's runs on (R110). -/
theorem timer_stopped (ht : c.timer = some x) (hph : x.phase ≠ .cancelAnswer) :
    (c.timer.filter fun x => x.phase == .cancelAnswer) = none := by
  simp [ht, hph]

/-- The timeout of a context with no CANCEL: its entry to CANCEL with code TIMEOUT and its CANCEL made ready (R111). -/
theorem answerTimerExpiry_taken {left : Nat} (hc : s.ctx? c.number = some c) (hl : c.live = true)
    (hs : c.completionSent = false) (ht : c.timer = some x) (hph : x.phase ≠ .cancelAnswer)
    (hr : x.remaining ≤ 1) (hk : s.countsTick c = true)
    (hleft : s.beatsLeft c = left) :
    ∃ t, exec (.answerTimerExpiry c.number) s = .next t ∧
      State.CancelEntered c c .timeout true left s (s.timeoutNoted c) t := by
  have hexec : exec (.answerTimerExpiry c.number) s = _ := execAnswerTimerExpiry_due hc (answerDue_last ht hr hk)
    (Bool.not_eq_true _ ▸ mt (timing_iff ht).1 hph)
  have hframe := timeoutNoted_frame c s
  have hnoted : (s.start.noteAnswer c.number).expireAnswer c =
    (s.timeoutNoted c).enterCancel c.number .timeout false true := rfl
  rw [hnoted] at hexec
  refine ⟨_, hexec, ?_⟩
  generalize s.timeoutNoted c = u at *
  refine enterCancel_taken ?_ hl hs ?_ rfl rfl .timeout rfl ?_
  · rw [hframe]; exact hc
  · rw [hframe]; exact ⟨rfl, rfl, rfl, rfl, rfl, rfl⟩
  · rw [hframe]; exact hleft

end

/-- Settles O34: the last tick of a fetch's and of a store's timer, and any other tick. -/
theorem answerTimerExpires : Obligations.answer_timer_expires := by
  unfold Obligations.answer_timer_expires
  refine ⟨fun n c x s hc ht hph hr hk hcancel hs hcode => ?_, fun n c s hc h => ?_⟩
  · obtain rfl := ctx?_number hc
    have hcode' : c.code.orElse .timeout = .timeout := Reply.orElse_of_ok hcode _
    have hframe := timeoutNoted_frame c s
    refine ⟨fun hkind hst => ?_, fun left hkind hst hleft => ?_⟩
    · have hl : c.live = true := by simp [Context.live, hst]
      obtain ⟨t, hexec, h⟩ := answerTimerExpiry_taken hc hl hs ht hph hr hk rfl
      have hothers := h.others
      have hend := h.frame_fetch hkind
      rw [hframe] at hothers hend
      refine ⟨t, hexec, h.record.trans ?_, hothers, h.withdrawn, hend.trans ?_⟩
      · rw [Context.cancelled_afterDuty_fetch hkind hcancel hcode', timer_stopped ht hph]
        rfl
      · rw [← withdrawn_hold h.withdrawn, hcode', if_neg (by rw [hst]; decide)]
        rfl
    · have hl : c.live = true := by rcases hst with hst | hst <;> simp [Context.live, hst]
      obtain ⟨t, hexec, h⟩ := answerTimerExpiry_taken hc hl hs ht hph hr hk hleft.symm
      have hothers := h.others
      have hend := h.frame_store hkind
      rw [hframe] at hothers hend
      refine ⟨t, hexec, h.record.trans ?_, hothers, h.withdrawn, hend.trans ?_⟩
      · rw [Context.cancelled_afterDuty_store hkind hcancel hcode' hs, timer_stopped ht hph]
        simp
      · rw [← withdrawn_hold h.withdrawn, hcode']
        rfl
  · exact execAnswerTimerExpiry_not_due hc (answerDue_not_last h)

end Sys2Proof.Machine
end

