-- ==== Sys2Proof/Proofs/BusFormats.lean ====
section
/-! SUPPORT. The layout of a request header, and the parity of what the part drives on the staging bus (R98, R99). -/

namespace Sys2Proof.Machine

/-! ## Fields of a header (R99) -/

section
variable {w o : Nat}

/-- A field written at a place of a header is read there. -/
theorem extractLsb'_field (v : BitVec w) (h : o + w ≤ 96) : (v.setWidth 96 <<< o).extractLsb' o w = v := by
  apply BitVec.eq_of_getLsbD_eq
  intro i hi
  have hlt : o + i < 96 := by omega
  simp [hi, hlt]

/-- It is not seen at a place apart from it. -/
theorem extractLsb'_field_apart (v : BitVec w) {a n : Nat} (h : a + n ≤ o ∨ o + w ≤ a) :
    (v.setWidth 96 <<< o).extractLsb' a n = 0#n := by
  apply BitVec.eq_of_getLsbD_eq
  intro i hi
  rcases h with h | h
  · have hlt : a + i < o := by omega
    simp [hlt]
  · have hzero : v.getLsbD (a + i - o) = false := BitVec.getLsbD_of_ge v _ (by omega)
    simp [hzero]

/-- A bit is the field of width one at its place. -/
theorem getLsbD_eq_extractLsb' (x : BitVec 96) (i : Nat) : x.getLsbD i = (x.extractLsb' i 1).getLsbD 0 := by simp

/-- A flag written at a place is a field of width one. -/
theorem flag_eq_field (b : Bool) (k : Nat) :
    (if b = true then 1#96 <<< k else 0#96) = (BitVec.ofBool b).setWidth 96 <<< k := by
  cases b <;> simp

/-- A number that fits a width is a field of that width. -/
theorem ofNat_eq_field {n : Nat} (h : n < 2 ^ w) : BitVec.ofNat 96 n = (BitVec.ofNat w n).setWidth 96 := by
  apply BitVec.eq_of_toNat_eq
  simp [Nat.mod_eq_of_lt h]

end

section
variable {f : HeaderFields}

/-- The bytes of a header are its nine fields, each at its place (R99). -/
theorem header_bytes (h : f.length ≤ 256) :
    f.header.bytes =
      (BitVec.ofBool (decide (f.kind = .store))).setWidth 96 <<< 0 ||| (BitVec.ofBool f.raw).setWidth 96 <<< 1 |||
        (BitVec.ofBool f.tagPresent).setWidth 96 <<< 2 ||| (BitVec.ofNat 3 f.mover.val).setWidth 96 <<< 3 |||
        (BitVec.ofNat 4 f.tag.val).setWidth 96 <<< 8 ||| f.addr.setWidth 96 <<< 12 |||
        (BitVec.ofNat 8 (f.length - 1)).setWidth 96 <<< 40 ||| f.offset.setWidth 96 <<< 48 |||
        f.sector.setWidth 96 <<< 56 := by
  have hkind : (if f.kind = .store then 1#96 else 0#96) = (BitVec.ofBool (decide (f.kind = .store))).setWidth 96 <<< 0 := by
    rw [← flag_eq_field]
    simp
  have hlength : f.length - 1 < 2 ^ 8 := by omega
  unfold HeaderFields.header
  dsimp only
  rw [hkind, flag_eq_field, flag_eq_field, ofNat_eq_field (w := 3) f.mover.isLt, ofNat_eq_field (w := 4) f.tag.isLt,
    ofNat_eq_field hlength]

/-- A header reads back as its fields (R99). -/
theorem readHeader_header (h1 : 1 ≤ f.length) (h2 : f.length ≤ 256) : readHeader f.header = f := by
  obtain ⟨kind, raw, tagPresent, mover, tag, addr, length, offset, sector⟩ := f
  have hlength : (length - 1) % 256 + 1 = length := by
    rw [Nat.mod_eq_of_lt (show length - 1 < 256 from Nat.lt_of_lt_of_le (Nat.sub_lt h1 Nat.one_pos) h2), Nat.sub_add_cancel h1]
  unfold readHeader
  rw [header_bytes h2]
  simp (disch := decide) only [getLsbD_eq_extractLsb', BitVec.extractLsb'_or, extractLsb'_field, extractLsb'_field_apart]
  cases kind <;> simp [hlength]

/-- One inverted bit of a good parity is noticed (R98). -/
theorem headerParityGood_inverted (bytes : BitVec 96) {i : Nat} (hi : i < 12) :
    headerParityGood { bytes := bytes, parity := headerParity bytes ^^^ (1#12 <<< i) } = false := by
  have hbit : 1#12 <<< i ≠ 0#12 := fun h => by
    have := congrArg (fun x : BitVec 12 => x.getLsbD i) h
    simp [hi] at this
  simpa [headerParityGood] using hbit

end

/-! ## The parity of what is driven (R98) -/

/-- The bits of a set of lanes gathered one by one. -/
theorem getLsbD_fold_lanes (p : Nat → Bool) (n j : Nat) (hn : n ≤ 16) :
    ((List.range n).foldl (fun acc i => if p i then acc ||| (1#16 <<< i) else acc) 0#16).getLsbD j =
      (decide (j < n) && p j) := by
  induction n with
  | zero => simp
  | succ n ih =>
    have ih := ih (Nat.le_of_succ_le hn)
    have hbit : ∀ x : BitVec 16, (x ||| 1#16 <<< n).getLsbD j = (x.getLsbD j || decide (j = n)) :=
      fun x => getLsbD_or_bit x ⟨n, hn⟩ j
    rw [List.range_succ, List.foldl_append, List.foldl_cons, List.foldl_nil, apply_ite (fun x : BitVec 16 => x.getLsbD j),
      hbit, ih]
    rcases Nat.lt_trichotomy j n with h | h | h
    · simp [h, h.ne, Nat.lt_succ_of_lt h]
    · subst h
      simp
    · have hge : ¬ j < n + 1 := by omega
      simp [hge, h.ne', h.le]

/-- The parity bit of a lane is the parity of its byte (R98). -/
theorem getLsbD_lanesParity (b : Block) {i : Nat} (hi : i < 16) :
    (lanesParity b).getLsbD i = oddParity (byteAt b i) := by
  have h := getLsbD_fold_lanes (fun i => oddParity (byteAt b i)) 16 i le_rfl
  rw [decide_eq_true hi, Bool.true_and] at h
  exact h

/-- Settles O44: the header field by field, and the items by the parity generated as they leave. -/
theorem headersRoundTripWithOddParity : Obligations.headers_round_trip_with_odd_parity := by
  unfold Obligations.headers_round_trip_with_odd_parity
  refine ⟨fun f h1 h2 => ⟨readHeader_header h1 h2, beq_self_eq_true _, fun i hi => headerParityGood_inverted _ hi⟩,
    fun a => Driven.of_goodParity a _, fun d => Driven.of_goodParity d _, fun d => Driven.of_goodParity d _,
    fun data enables i hi => ?_⟩
  rw [drivenBeat, getLsbD_lanesParity data hi]
  exact oddParity_oddOnes _

end Sys2Proof.Machine
end

