-- ==== Sys2Proof/Proofs/RequestPath.lean ====
section
/-! SUPPORT. The issue arbiter, and the ACCEPT of each request (R104 to R107, R110, R112, R138, R140). -/

namespace Sys2Proof.Machine

/-! ## The arbiter (R105) -/

section
variable {pre post : List Context} {c : Context} {f : Context → Context} {r : MediaRequest} {s : State}

/-- With no number twice, a change of one record is seen at its place alone (R72). -/
theorem modCtx_at (hs : s.contexts = pre ++ c :: post) (hn : (s.contexts.map fun d => d.number).Nodup) :
    s.modCtx c.number f = { s with contexts := pre ++ f c :: post } := by
  have hother : ∀ d ∈ pre ++ post, d.number ≠ c.number := by
    rw [hs, (List.perm_middle.map _).nodup_iff, List.map_cons, List.nodup_cons] at hn
    exact fun d hd h => hn.1 (List.mem_map.2 ⟨d, hd, h⟩)
  have hkept : ∀ l : List Context, (∀ d ∈ l, d ∈ pre ++ post) → l.map (fun d => if d.number = c.number then f d else d) = l :=
    fun l hl => (List.map_congr_left fun d hd => if_neg (hother d (hl d hd))).trans (List.map_id l)
  unfold State.modCtx
  rw [hs, List.map_append, List.map_cons, if_pos rfl, hkept pre fun d => List.mem_append_left post,
    hkept post fun d => List.mem_append_right pre]

/-- While path, hold and intake let it, the arbiter grants the oldest ready context (R105). -/
theorem granted_oldest (hs : s.contexts = pre ++ c :: post) (hpath : s.media.path = .free) (hh : s.hold = none)
    (hi : s.intake ≠ .clearing) (hpre : ∀ d ∈ pre, s.readyRequest d = none) (hr : s.readyRequest c = some r) :
    s.granted = some (c, r) := by
  have hnone : (pre.findSome? fun d => (s.readyRequest d).map fun r => (d, r)) = none :=
    List.findSome?_eq_none_iff.2 fun d hd => by rw [hpre d hd]; rfl
  unfold State.granted
  rw [if_pos ⟨hpath, hh, hi⟩, hs, List.findSome?_append, hnone, Option.none_or, List.findSome?_cons, hr]
  rfl

/-- A CANCEL that is SENT and not yet issued is ready, in any state but STRANDED (R90, R112). -/
theorem readyRequest_cancel (hc : c.cancel = .sent) (hi : c.cancelIssued = false) (hst : c.state ≠ .stranded) :
    s.readyRequest c = some .cancel := if_pos ⟨hc, hi, hst⟩

/-- A FETCH not yet issued is ready in STREAM (R106). -/
theorem readyRequest_fetch (hk : c.kind = .fetch) (hst : c.state = .stream) (hf : c.fetchProgress = .notIssued)
    (hc : c.cancel ≠ .sent) : s.readyRequest c = some .fetch :=
  (if_neg fun h => hc h.1).trans (if_pos ⟨hst, hk, hf⟩)

/-- A piece is ready for the unit of a store in STREAM that waits in the store slot (R107). -/
theorem readyRequest_store {u : SlotUnit} (hk : c.kind = .store) (hst : c.state = .stream) (hcode : c.code = .ok)
    (hc : c.cancel ≠ .sent) (hu : s.media.slot = some u) (hn : u.ctx = c.number) : s.readyRequest c = some .store :=
  (if_neg fun h => hc h.1).trans ((if_neg fun h => by rw [hk] at h; cases h.2.1).trans
    (if_pos ⟨hst, hk, hcode, by simp [hu, hn]⟩))

/-- A grant is carried out by the row of its request (R105). -/
theorem execFetchIssue_granted (h : s.granted = some (c, .fetch)) : execFetchIssue s = .next (s.start.issueFetch c) := by
  simp only [execFetchIssue, h]

theorem execPieceIssue_granted {u : SlotUnit} (h : s.granted = some (c, .store)) (hu : s.media.slot = some u) :
    execPieceIssue s = .next (s.start.issuePiece c u) := by
  simp only [execPieceIssue, h, hu]

theorem execCancelIssue_granted (h : s.granted = some (c, .cancel)) : execCancelIssue s = .next (s.start.issueCancel c) := by
  simp only [execCancelIssue, h]

end

/-- Settles O24: the grant by the request that is ready, and its row. -/
theorem oldestReadyContextIsGranted : Obligations.oldest_ready_context_is_granted := by
  unfold Obligations.oldest_ready_context_is_granted
  intro pre post c s hs hn hpath hh hi hpre
  have hgrant {r : MediaRequest} (hr : s.readyRequest c = some r) := granted_oldest hs hpath hh hi hpre hr
  refine ⟨fun hk hst hf hc => ?_, fun u hk hst hcode hc hu hun => ?_, fun hc hci hst => ?_⟩
  · have hexec : exec .fetchIssue s = _ := execFetchIssue_granted (hgrant (readyRequest_fetch hk hst hf hc))
    rw [hexec, State.issueFetch, modCtx_at (s := s.start.drive _) hs hn]
    rfl
  · have hexec : exec .pieceIssue s = _ := execPieceIssue_granted (hgrant (readyRequest_store hk hst hcode hc hu hun)) hu
    rw [hexec, State.issuePiece, modCtx_at (s := s.start.drive _) hs hn]
    rfl
  · have hexec : exec .cancelIssue s = _ := execCancelIssue_granted (hgrant (readyRequest_cancel hc hci hst))
    rw [hexec, State.issueCancel, modCtx_at (s := s.start.drive _) hs hn]
    rfl

/-! ## The ACCEPT of each request (R104) -/

section
variable {n : CtxNo} {c : Context} {s : State}

section
variable (hp : s.portOpen n) (hc : s.ctx? n = some c) (hl : c.live = true)
include hp hc hl

/-- The ACCEPT that a FETCH awaits moves its timer on to the first unit (R106, R110). -/
theorem execAccept_fetch (h : c.kind = .fetch ∧ c.fetchProgress = .issued ∧ c.timing .accept = true) :
    execAccept n .fetch s = .next (s.start.startTimer n .unit) := (onArrival_taken hp hc hl).trans (if_pos h)

/-- The ACCEPT that an open piece awaits is taken by the piece (R107). -/
theorem execAccept_store (h : s.media.path = .piece n false) :
    execAccept n .store s = .next (s.start.acceptPiece n).takeEligible := (onArrival_taken hp hc hl).trans (if_pos h)

/-- The ACCEPT that a HOLD-FETCH awaits moves its timer on to the unit (R138). -/
theorem execAccept_holdFetch {h : Hold} (hst : c.state = .hold) (hh : s.hold = some h)
    (ha : h.phase = .fetch ∧ c.timing .accept = true) : execAccept n .holdFetch s = .next (s.start.startTimer n .unit) := by
  have hown : h.ctx = n := by
    obtain ⟨-, -, hown⟩ := hp
    exact hown h hh
  refine (onArrival_taken hp hc hl).trans ?_
  rw [holdOf_named hc hst hh hown]
  exact if_pos ha

/-- The ACCEPT that a RELEASE-STORE awaits is taken by the hold (R140). -/
theorem execAccept_releaseStore (h : c.state = .hold ∧ s.media.path = .release n) :
    execAccept n .releaseStore s = .next (s.start.acceptRelease n) := (onArrival_taken hp hc hl).trans (if_pos h)

end

/-- A state in which a piece has been accepted: its ACCEPT no longer timed, the store slot empty (R107, R110). -/
def State.pieceAccepted (n : CtxNo) (s : State) : State :=
  { s.stopTimer n with media := { s.media with slot := none, path := .piece n true } }

theorem ctx?_pieceAccepted (hc : s.ctx? n = some c) : (s.pieceAccepted n).ctx? n = some { c with timer := none } :=
  ctx?_stopTimer hc

theorem othersKept_pieceAccepted (n : CtxNo) (s : State) : s.othersKept n (s.pieceAccepted n) := othersKept_stopTimer n s

/-- An ACCEPT of a piece drives the unit that waits (R107). -/
theorem acceptPiece_drives {u : SlotUnit} (hu : s.media.slot = some u) :
    s.acceptPiece n = (s.pieceAccepted n).driveUnit u := by
  have hslot : (s.stopTimer n).media.slot = some u := hu
  unfold State.acceptPiece
  dsimp only
  rw [hslot]
  rfl

/-- Driven as its store's last, the unit ends the piece and takes the store to CLOSE (R83, R107, R122). -/
theorem acceptPiece_last {u : SlotUnit} (hc : s.ctx? n = some c) (hu : s.media.slot = some u) (hn : u.ctx = n)
    (hi : u.index + 1 = c.length) (hst : c.state = .stream) (hpieces : 0 < c.pieces) :
    ∃ t, (s.start.acceptPiece n).takeEligible = t ∧
      t.ctx? n = some { c with timer := none, passed := c.passed + 1, state := .close, tweak := .absent } ∧
      s.othersKept n t ∧ s.released c t ∧
      t = { s with
        contexts := t.contexts
        cache := t.cache
        expander := t.expander
        media := { s.media with slot := none, path := .free }
        out := { Outputs.quiet with
          media := [MediaDrive.driven (.unit n (drivenBeat u.data u.enables)), MediaDrive.driven (.endMark n)] } } := by
  subst hn
  have haccepted : (s.start.pieceAccepted u.ctx).ctx? u.ctx = some { c with timer := none } :=
    ctx?_pieceAccepted (s := s.start) hc
  have hdrive := (acceptPiece_drives (s := s.start) (n := u.ctx) hu).trans (driveUnit_last haccepted hi)
  have hctx := ctx?_pieceEnded haccepted
  have hothers := othersKept_trans (othersKept_pieceAccepted u.ctx s.start) (othersKept_pieceEnded u _)
  have hframe : (s.start.pieceAccepted u.ctx).pieceEnded u = { s with
      contexts := ((s.start.pieceAccepted u.ctx).pieceEnded u).contexts
      media := { s.media with slot := none, path := .free }
      out := { Outputs.quiet with
        media := [MediaDrive.driven (.unit u.ctx (drivenBeat u.data u.enables)), MediaDrive.driven (.endMark u.ctx)] } } :=
    pieceEnded_frame u _
  rw [hdrive]
  generalize (s.start.pieceAccepted u.ctx).pieceEnded u = v at hframe hctx hothers ⊢
  obtain ⟨h1, h2, h3, h4⟩ := enterClose_taken (s := s) (c := c) hctx (by simp [Context.streaming, hst]) hpieces rfl rfl
    (by rw [hframe]) (by rw [hframe]) (by rw [hframe])
  generalize (v.enterClose u.ctx).takeEligible = t at h1 h2 h3 h4 ⊢
  refine ⟨t, rfl, h1, othersKept_trans hothers h2, h3, h4.trans ?_⟩
  rw [hframe]

end

/-- Settles O25: by the request that awaits the ACCEPT, and for a piece by whether its unit is the store's last. -/
theorem acceptStartsTheFlow : Obligations.accept_starts_the_flow := by
  unfold Obligations.accept_starts_the_flow
  intro n c s hp hc hl
  refine ⟨fun x hk hf ht hph => ?_, fun u hpath hu hn hi hset => ?_, fun u hpath hu hn hi hst hpieces => ?_,
    fun h x hst hh hph ht hx => ?_, fun u hst hpath hu => ?_⟩
  · have hexec : exec (.accept n .fetch) s = _ := execAccept_fetch hp hc hl ⟨hk, hf, (timing_iff ht).2 hph⟩
    exact ⟨_, hexec, ctx?_startTimer (s := s.start) hc .unit, othersKept_startTimer n .unit s.start, rfl⟩
  · have hexec : exec (.accept n .store) s = _ := execAccept_store hp hc hl hpath
    subst hn
    have haccepted : (s.start.pieceAccepted u.ctx).ctx? u.ctx = some { c with timer := none } :=
      ctx?_pieceAccepted (s := s.start) hc
    rw [acceptPiece_drives (s := s.start) hu, driveUnit_before haccepted (Nat.ne_of_lt hi)] at hexec
    refine ⟨_, hexec.trans (congrArg _ (takeEligible_of_settled ?_)),
      ctx?_countPassed (s := (s.start.pieceAccepted u.ctx).drive _) haccepted,
      othersKept_trans (othersKept_pieceAccepted u.ctx s.start)
        (othersKept_countPassed u.ctx ((s.start.pieceAccepted u.ctx).drive _)), rfl⟩
    exact (settled_congr (s := s) rfl rfl).2 hset
  · have hexec : exec (.accept n .store) s = _ := execAccept_store hp hc hl hpath
    obtain ⟨t, ht, h⟩ := acceptPiece_last hc hu hn hi hst hpieces
    exact ⟨t, hexec.trans (congrArg _ ht), h⟩
  · have hexec : exec (.accept n .holdFetch) s = _ := execAccept_holdFetch hp hc hl hst hh ⟨hph, (timing_iff ht).2 hx⟩
    exact ⟨_, hexec, ctx?_startTimer (s := s.start) hc .unit, othersKept_startTimer n .unit s.start, rfl⟩
  · have hexec : exec (.accept n .releaseStore) s = _ := execAccept_releaseStore hp hc hl ⟨hst, hpath⟩
    rw [acceptRelease_drives (u := s.start) hu] at hexec
    refine ⟨_, hexec, ctx?_modCtx (s := s.start)
      (f := fun c : Context => { c with passed := c.passed + 1, timer := timerStart .done }) rfl hc,
      othersKept_modCtx (s := s.start)
        (f := fun c : Context => { c with passed := c.passed + 1, timer := timerStart .done }) fun _ => rfl, rfl⟩

end Sys2Proof.Machine
end

