-- ==== Sys2Proof/Proofs/FineTicks.lean ====
section
/-! SUPPORT. A step on an empty queue: the answer timers, the monitor's visit and the coarse timers of one fine tick (R110 to R112,
R146 to R149, R152, R155, R164, R167). -/

namespace Sys2Proof.Machine

/-! ## Actions one after the other, each on its own part -/

section
variable {σ ι α : Type} {f : σ → ι → σ} {π : ι → σ → α}

/-- Actions on the parts of others leave a part as it was. -/
theorem foldl_others (hf : ∀ i j s, i ≠ j → π i (f s j) = π i s) {i : ι} {l : List ι} (hi : i ∉ l) (s : σ) :
    π i (l.foldl f s) = π i s := by
  refine List.foldlRecOn l f (motive := fun t => π i t = π i s) rfl fun t ht j hj => (hf i j t ?_).trans ht
  rintro rfl
  exact hi hj

/-- Where no part is acted on twice, the action on a part meets it as it was, and it stays as the action leaves it. -/
theorem foldl_own (hf : ∀ i j s, i ≠ j → π i (f s j) = π i s) {i : ι} {l : List ι} (hl : l.Nodup) (hi : i ∈ l) (s : σ) :
    ∃ v, π i v = π i s ∧ π i (l.foldl f s) = π i (f v i) := by
  obtain ⟨pre, post, rfl⟩ := List.append_of_mem hi
  obtain ⟨-, hcons, hapart⟩ := List.nodup_append.1 hl
  refine ⟨pre.foldl f s, foldl_others hf (fun h => hapart i h i List.mem_cons_self rfl) s, ?_⟩
  rw [List.foldl_append, List.foldl_cons]
  exact foldl_others hf (List.nodup_cons.1 hcons).1 _

end

/-! ## What the answer timers leave (R92, R111, R142) -/

/-- What no answer timer's end changes: the device, the tables, the other timers, the marks, the link and the queue. -/
structure Steady where
  contain    : Containment
  decoder    : Decoder
  ranges     : Vector Range 16
  slots      : Vector Slot 32
  abort      : List AbortEntry
  time       : Timebase
  marks      : Marks
  link       : ResponseBuffer
  rawIgnored : Nat
  pending    : List Instr

/-- See `Steady`. -/
def State.steady (s : State) : Steady :=
  { contain := s.contain, decoder := s.decoder, ranges := s.ranges, slots := s.slots, abort := s.abort, time := s.time
    marks := s.marks, link := s.link, rawIgnored := s.tallies.rawIgnored, pending := s.pending }

theorem State.sameButWork.steady {s t : State} (h : s.sameButWork t) : t.steady = s.steady := by
  rw [h]
  rfl

section
variable {c : Context} {s : State}

theorem takeEligible_steady (s : State) : s.takeEligible.steady = s.steady := by simp [State.steady]

theorem expireAnswer_steady (c : Context) (s : State) : (s.expireAnswer c).steady = s.steady := by
  unfold State.expireAnswer
  refine (enterCancel_sameButWork c.number .timeout false true _).steady.trans ?_
  split <;> rfl

theorem strand_steady (c : Context) (s : State) : (s.strand c).steady = s.steady := by
  rw [strand_eq rfl, stranded_frame]
  rfl

theorem tickAnswer_steady (n : CtxNo) (s : State) : (s.tickAnswer n).steady = s.steady := by
  unfold State.tickAnswer State.answerTimeout
  split
  · split
    · split
      · rw [takeEligible_steady]
        split
        · exact strand_steady _ s
        · exact expireAnswer_steady _ s
      · rfl
    · rfl
  · rfl

theorem answerTicks_steady (s : State) : s.answerTicks.steady = s.steady :=
  List.foldlRecOn _ _ (motive := fun t : State => t.steady = s.steady) rfl fun t ht n _ => (tickAnswer_steady n t).trans ht

/-! ## One answer timer's tick (R110 to R112) -/

/-- Entry to CANCEL leaves the other records (R90). -/
theorem othersKept_enterCancel (n : CtxNo) (code : Reply) (answered timed : Bool) (s : State) :
    s.othersKept n (s.enterCancel n code answered timed) := by
  cases hc : s.ctx? n with
  | none => rw [enterCancel_none hc]; exact rfl
  | some c =>
    obtain rfl := ctx?_number hc
    cases hl : c.live with
    | false => rw [enterCancel_not_live hc hl]; exact rfl
    | true =>
      rw [enterCancel_live hc hl]
      exact othersKept_trans (othersKept_cancelBegun c code _ s) (finishDuty_finishes c _ _).others

theorem othersKept_expireAnswer (c : Context) (s : State) : s.othersKept c.number (s.expireAnswer c) := by
  refine othersKept_trans (othersKept_of_eq ?_) (othersKept_enterCancel c.number .timeout false true _)
  split <;> rfl

theorem othersKept_strand (c : Context) (s : State) : s.othersKept c.number (s.strand c) := by
  rw [strand_eq rfl]
  exact othersKept_stranded c (s.logFault .cancelTimeout (some c) none none)

theorem othersKept_tickAnswer (n : CtxNo) (s : State) : s.othersKept n (s.tickAnswer n) := by
  unfold State.tickAnswer State.answerTimeout
  split
  · next c hc =>
    obtain rfl := ctx?_number hc
    split
    · split
      · refine othersKept_trans ?_ (othersKept_of_eq (State.takeEligible_contexts _))
        split
        · exact othersKept_strand c s
        · exact othersKept_expireAnswer c s
      · exact othersKept_modCtx fun _ => rfl
    · exact rfl
  · exact rfl

/-- A context whose CANCEL is SENT keeps its record after its duty, with the completion SENT or not (R91, R92). -/
theorem ctx?_finishDuty_sent {e : Context} {left : Nat} (he : s.ctx? c.number = some e) (hs : e.cancel = .sent) :
    ∃ b, (s.finishDuty c left).ctx? c.number = some { e with completionSent := b } := by
  have hend : ∀ u : State, u.ctx? c.number = some e →
      ((u.handCompletion c.number).freeIfDone c.number).ctx? c.number = some { e with completionSent := true } := by
    intro u hu
    rw [freeIfDone_kept (ctx?_handCompletion hu) (.inr (.inr hs))]
    exact ctx?_handCompletion hu
  cases hk : c.kind with
  | fetch =>
    rw [finishDuty_fetch hk]
    refine ⟨true, hend _ ?_⟩
    split <;> exact he
  | store =>
    rw [finishDuty_store hk]
    split
    · exact ⟨true, hend s he⟩
    · exact ⟨e.completionSent, he⟩

variable {n : CtxNo} {x : AnswerTimer} (hc : s.ctx? n = some c)
include hc

/-- A timer that does not run takes no tick (R110). -/
theorem tickAnswer_stopped (ht : c.timer = none) : s.tickAnswer n = s := by
  simp only [State.tickAnswer, hc, ht]

/-- A tick that is not the last lowers the count by one (R110). -/
theorem ctx?_tickAnswer_counts (ht : c.timer = some x) (hr : 2 ≤ x.remaining) :
    (s.tickAnswer n).ctx? n = some { c with timer := some { x with remaining := x.remaining - 1 } } := by
  have hlast : ¬ x.remaining ≤ 1 := by omega
  simp only [State.tickAnswer, hc, ht, if_neg hlast]
  exact ctx?_modCtx (f := fun c : Context => { c with timer := some { x with remaining := x.remaining - 1 } }) rfl hc

/-- The last tick ends the timer in its phase (R111, R112). -/
theorem tickAnswer_last (ht : c.timer = some x) (hr : x.remaining ≤ 1) :
    s.tickAnswer n = (s.answerTimeout c).takeEligible := by
  simp only [State.tickAnswer, hc, ht, if_pos hr]

/-- In the cancel phase it strands the context (R92, R112). -/
theorem ctx?_tickAnswer_strands (ht : c.timer = some x) (hr : x.remaining ≤ 1) (hph : x.phase = .cancelAnswer) :
    (s.tickAnswer n).ctx? n = some { c with state := .stranded, timer := none, tweak := .absent } := by
  obtain rfl := ctx?_number hc
  rw [tickAnswer_last hc ht hr, ctx?_congr (State.takeEligible_contexts _), State.answerTimeout,
    if_pos ((timing_iff ht).2 hph), strand_eq rfl]
  exact ctx?_stranded (u := s.logFault .cancelTimeout (some c) none none) hc

/-- In any other it takes a live context with no CANCEL to CANCEL, with TIMEOUT and a CANCEL to be sent (R111). -/
theorem ctx?_tickAnswer_expires (ht : c.timer = some x) (hr : x.remaining ≤ 1) (hph : x.phase ≠ .cancelAnswer)
    (hl : c.live = true) (hcancel : c.cancel = .none) :
    ∃ b, (s.tickAnswer n).ctx? n = some { c.cancelled .timeout true with completionSent := b } := by
  obtain rfl := ctx?_number hc
  have hexpire : s.answerTimeout c = (if c.state = .hold then s.countTimeout.logFault .mediaTimeout (some c) none none
      else s.countTimeout).enterCancel c.number .timeout false true := if_neg (mt (timing_iff ht).1 hph)
  have hnoted : (if c.state = .hold then s.countTimeout.logFault .mediaTimeout (some c) none none
      else s.countTimeout).ctx? c.number = some c := by
    split <;> exact hc
  rw [tickAnswer_last hc ht hr, ctx?_congr (State.takeEligible_contexts _), hexpire, enterCancel_live hnoted hl]
  exact ctx?_finishDuty_sent (ctx?_cancelBegun hnoted .timeout true) (by simp [Context.cancelled, hcancel])

end

/-! ## The answer timers of one tick (R110) -/

section
variable {c : Context} {s : State}

/-- Each timer's tick is on the record of its own number. -/
theorem ctx?_tickAnswer_ne (n m : CtxNo) (s : State) (h : n ≠ m) : (s.tickAnswer m).ctx? n = s.ctx? n :=
  ctx?_of_othersKept (othersKept_tickAnswer m s) h

variable (hn : (s.contexts.map fun d => d.number).Nodup) (hc : c ∈ s.contexts)
include hn hc

/-- A record whose timer does not count the tick stands (R110). -/
theorem ctx?_answerTicks_uncounted (hk : s.countsTick c = false) : s.answerTicks.ctx? c.number = some c := by
  refine (foldl_others (π := fun n (s : State) => s.ctx? n) ctx?_tickAnswer_ne (fun hm => ?_) s).trans (ctx?_of_mem hn hc)
  obtain ⟨d, hd, hdn⟩ := List.mem_map.1 hm
  obtain ⟨hd, hdk⟩ := List.mem_filter.1 hd
  rw [eq_of_mem_of_number hn hd (hdn ▸ ctx?_of_mem hn hc), hk] at hdk
  cases hdk

/-- A record whose timer counts the tick is as that one timer's tick leaves it (R110). -/
theorem ctx?_answerTicks_counted (hk : s.countsTick c = true) :
    ∃ v : State, v.ctx? c.number = some c ∧ s.answerTicks.ctx? c.number = (v.tickAnswer c.number).ctx? c.number := by
  have hnodup : ((s.contexts.filter fun c => s.countsTick c).map fun c => c.number).Nodup :=
    hn.sublist (List.filter_sublist.map _)
  obtain ⟨v, hv, hend⟩ := foldl_own (π := fun n (s : State) => s.ctx? n) ctx?_tickAnswer_ne hnodup
    (List.mem_map.2 ⟨c, List.mem_filter.2 ⟨hc, hk⟩, rfl⟩) s
  exact ⟨v, hv.trans (ctx?_of_mem hn hc), hend⟩

end

/-! ## What the monitor leaves (R32, R46, R60, R162, R167, R168) -/

/-- What neither an answer timer nor the monitor's visit changes, but for the cursor. -/
structure Standing where
  cursor      : Fin 56
  limit       : Nat
  frozen      : Bool
  abort       : List AbortEntry
  coarsePhase : Nat
  link        : ResponseBuffer
  rawIgnored  : Nat
  pending     : List Instr

/-- It is part of what no answer timer's end changes. -/
def Steady.standing (x : Steady) : Standing :=
  { cursor := x.contain.cursor, limit := x.decoder.limit, frozen := x.decoder.frozen, abort := x.abort
    coarsePhase := x.time.coarsePhase, link := x.link, rawIgnored := x.rawIgnored, pending := x.pending }

/-- See `Standing`. -/
def State.standing (s : State) : Standing := s.steady.standing

section
variable {s : State}

theorem State.sameButWork.standing {t : State} (h : s.sameButWork t) : t.standing = s.standing :=
  congrArg Steady.standing h.steady

theorem enterContained_standing (s : State) : s.enterContained.standing = s.standing :=
  (revoke_sameButWork (fun c => c.live && c.passage == .cipher) .fault s.containBegun).standing

theorem windowMismatch_standing (i : WindowNo) (s : State) : (s.windowMismatch i).standing = s.standing := by
  unfold State.windowMismatch
  dsimp only
  split
  · split
    · rfl
    · rw [enterContained_standing]; rfl
  · rfl

theorem scrub_standing (k : SlotNo) (keys : KeyPair) (cause : ScrubCause) (s : State) :
    (s.scrub k keys cause).standing = s.standing := by
  rw [(scrub_sameButWork k keys cause s).standing]
  simp [State.standing, State.steady, Steady.standing, State.scrubBegun]

theorem slotMismatch_standing (k : SlotNo) (s : State) : (s.slotMismatch k).standing = s.standing := by
  unfold State.slotMismatch
  dsimp only
  split
  · rw [scrub_standing]; rfl
  · rw [scrub_standing]; rfl
  · rfl
  · rfl
  · rfl

theorem visit_standing (cursor : Fin 56) (s : State) : (s.visit cursor).standing = s.standing := by
  unfold State.visit
  split
  · dsimp only
    split
    · rfl
    · exact windowMismatch_standing _ s
  · split
    · dsimp only
      split <;> rfl
    · dsimp only
      split
      · exact slotMismatch_standing _ s
      · rfl

/-- A visit that is due moves the cursor on (R167). -/
theorem monitorTick_standing (s : State) :
    s.monitorTick.standing =
      { s.standing with cursor := if s.visitDue = true then s.contain.cursor + 1 else s.contain.cursor } := by
  cases hd : s.visitDue with
  | false => rw [monitorTick_of_not_due hd]; rfl
  | true =>
    have hvisit : s.monitorTick = ((s.visit s.contain.cursor).visitNoted s.contain.cursor).takeEligible := by
      unfold State.monitorTick
      rw [if_pos hd, nextCursor_eq]
      rfl
    rw [hvisit, State.standing, takeEligible_steady]
    exact congrArg (fun x : Standing => { x with cursor := s.contain.cursor + 1 }) (visit_standing s.contain.cursor s)

/-- With no mismatch to find, the monitor's part of a tick moves the cursor, notes the visit, and lets the expander take (R124,
R167). -/
theorem monitorTick_undisturbed (h : s.undisturbed) : ∃ k b x y, s.monitorTick =
    { s with
      contain := { s.contain with cursor := k }, marks := { s.marks with visited := b }, cache := x, expander := y } := by
  unfold State.monitorTick
  split
  · dsimp only
    rw [visit_undisturbed h]
    obtain ⟨x, y, hxy⟩ := takeEligible_frame { s with
      contain := { s.contain with cursor := nextCursor s.contain.cursor }, marks := { s.marks with visited := true } }
    exact ⟨_, _, x, y, hxy⟩
  · exact ⟨_, _, _, _, rfl⟩

/-- Whether a visit would find a mismatch is told by the tables (R168). -/
theorem undisturbed_of_steady {t : State} (ht : t.steady = s.steady) (h : s.undisturbed) : t.undisturbed := by
  have hw : t.decoder = s.decoder := congrArg Steady.decoder ht
  have hr : t.ranges = s.ranges := congrArg Steady.ranges ht
  have hk : t.slots = s.slots := congrArg Steady.slots ht
  simpa only [State.undisturbed, hw, hr, hk] using h

/-! ## The fine part of a tick (R147, R167) -/

/-- The answer timers and the monitor, in the order the free value gives. -/
def State.finePart (s : State) : State :=
  if Config.tickOrder s.choices then s.start.answerTicks.monitorTick else s.start.monitorTick.answerTicks

/-- The state in which they leave the tick to the coarse timers. -/
def State.coarseMet (s : State) : State := { s.finePart with choices := s.finePart.choices + 1 }

theorem fineTick_eq (s : State) :
    s.fineTick = { s.coarseMet.coarsePart with marks := s.coarseMet.coarsePart.freshMarks } := rfl

/-- The monitor's visit is due alike before and after the answer timers (R167). -/
theorem visitDue_of_steady {t : State} (ht : t.steady = s.steady) : t.visitDue = s.visitDue :=
  congrArg (fun x : Steady => x.contain.device != .selfTest && !x.marks.visited) ht

theorem finePart_standing (s : State) :
    s.finePart.standing =
      { s.standing with cursor := if s.visitDue = true then s.contain.cursor + 1 else s.contain.cursor } := by
  unfold State.finePart
  split
  · have hticks := answerTicks_steady s.start
    have hcursor : s.start.answerTicks.contain.cursor = s.contain.cursor := congrArg (fun x : Steady => x.contain.cursor) hticks
    rw [monitorTick_standing, visitDue_of_steady hticks, hcursor, State.standing, hticks]
    rfl
  · rw [State.standing, answerTicks_steady]
    exact monitorTick_standing s.start

variable (h : s.undisturbed)
include h

/-- With no mismatch to find the fine part moves the cursor and notes the visit, and leaves the rest of what is steady. -/
theorem finePart_steady : ∃ k b, s.finePart.steady =
    { s.steady with contain := { s.contain with cursor := k }, marks := { s.marks with visited := b } } := by
  unfold State.finePart
  split
  · have hticks := answerTicks_steady s.start
    obtain ⟨k, b, x, y, hmon⟩ := monitorTick_undisturbed (undisturbed_of_steady hticks h)
    refine ⟨k, b, ?_⟩
    rw [hmon]
    exact congrArg (fun z : Steady => { z with contain := { z.contain with cursor := k }, marks := { z.marks with visited := b } })
      hticks
  · obtain ⟨k, b, x, y, hmon⟩ := monitorTick_undisturbed (s := s.start) h
    refine ⟨k, b, ?_⟩
    rw [answerTicks_steady, hmon]
    rfl

/-- And the answer timers act as on the state before, whichever comes first. -/
theorem finePart_answers : ∃ v : State, v.contexts = s.contexts ∧ (∀ c, v.countsTick c = s.countsTick c) ∧
    s.finePart.contexts = v.answerTicks.contexts := by
  unfold State.finePart
  split
  · obtain ⟨k, b, x, y, hmon⟩ := monitorTick_undisturbed (undisturbed_of_steady (answerTicks_steady s.start) h)
    exact ⟨s.start, rfl, fun _ => rfl, by rw [hmon]⟩
  · obtain ⟨k, b, x, y, hmon⟩ := monitorTick_undisturbed (s := s.start) h
    exact ⟨s.start.monitorTick, by rw [hmon]; rfl, fun _ => by rw [hmon]; rfl, rfl⟩

end

end Sys2Proof.Machine
end

