-- ==== Sys2Proof/Proofs/CoarseTicks.lean ====
section
/-! SUPPORT. The coarse part of a tick: the idle timers, the presence timer and the dwell timer (R45, R146 to R152, R155, R164). -/

namespace Sys2Proof.Machine

/-! ## What each timer's tick may change -/

section
variable (s : State)

theorem tickIdle_frame (i : RangeNo) : ∃ rs l e,
    s.tickIdle i = { s with ranges := rs, time := { s.time with idleLocked := l }, events := e } := by
  unfold State.tickIdle
  split
  · split
    · split <;> exact ⟨_, _, _, rfl⟩
    · exact ⟨_, _, _, rfl⟩
  · exact ⟨_, _, _, rfl⟩

theorem idleTicks_frame : ∃ rs l e,
    s.idleTicks = { s with ranges := rs, time := { s.time with idleLocked := l }, events := e } := by
  refine List.foldlRecOn _ _ (motive := fun t : State => ∃ rs l e,
    t = { s with ranges := rs, time := { s.time with idleLocked := l }, events := e }) ⟨_, _, _, rfl⟩ ?_
  rintro t ⟨rs, l, e, rfl⟩ i -
  exact tickIdle_frame { s with ranges := rs, time := { s.time with idleLocked := l }, events := e } i

theorem presenceTick_frame : ∃ rs p e,
    s.presenceTick = { s with ranges := rs, time := { s.time with presence := p }, events := e } := by
  unfold State.presenceTick
  split
  · split
    · exact ⟨_, _, _, rfl⟩
    · split <;> exact ⟨_, _, _, rfl⟩
  · exact ⟨_, _, _, rfl⟩

/-- What a coarse tick leaves of the dwell: none at its last tick, and as it was where a row has given it the tick (R164). -/
def State.dwellLeft : Option Nat :=
  if s.marks.tickedDwell = true then s.contain.dwell
  else s.contain.dwell.bind fun n => if n ≤ 1 then none else some (n - 1)

theorem dwellTick_eq : s.dwellTick = { s with contain := { s.contain with dwell := s.dwellLeft } } := by
  have hsame : ∀ d, d = s.contain.dwell → s = { s with contain := { s.contain with dwell := d } } := fun d hd => by subst hd; rfl
  unfold State.dwellTick State.dwellLeft
  split
  · next n hn =>
    split
    · exact hsame _ rfl
    · rw [hn]; rfl
  · next hn => exact hsame _ (by rw [hn]; simp)

/-- The idle timers and the presence timer, in the order the free value gives (R147). -/
def State.lockTicks : State :=
  if Config.tickOrder s.choices then s.idleTicks.presenceTick else s.presenceTick.idleTicks

theorem lockTicks_frame : ∃ rs p l e,
    s.lockTicks = { s with ranges := rs, time := { s.time with presence := p, idleLocked := l }, events := e } := by
  unfold State.lockTicks
  split
  · obtain ⟨rs, l, e, hi⟩ := idleTicks_frame s
    obtain ⟨rs', p, e', hp⟩ := presenceTick_frame s.idleTicks
    exact ⟨rs', p, l, e', by rw [hp, hi]⟩
  · obtain ⟨rs, p, e, hp⟩ := presenceTick_frame s
    obtain ⟨rs', l, e', hi⟩ := idleTicks_frame s.presenceTick
    exact ⟨rs', p, l, e', by rw [hi, hp]⟩

/-- A coarse tick: ranges, presence and idle-locked set by the two, and the dwell (R146). -/
theorem coarsePart_due (h : s.time.coarsePhase ≤ 1) : ∃ e k, s.coarsePart = { s with
    ranges := s.lockTicks.ranges
    time := { presence := s.lockTicks.time.presence, idleLocked := s.lockTicks.time.idleLocked, coarsePhase := 10000 }
    contain := { s.contain with dwell := s.dwellLeft }
    events := e
    choices := k } := by
  obtain ⟨rs, p, l, e, hl⟩ := lockTicks_frame s
  have hcoarse : s.coarsePart = { s.coarseTick with time := { s.coarseTick.time with coarsePhase := 10000 } } := if_pos h
  have hticks : s.coarseTick = { s.lockTicks.dwellTick with choices := s.lockTicks.choices + 1 } := rfl
  rw [hcoarse, hticks, dwellTick_eq, hl]
  exact ⟨_, _, rfl⟩

/-- Another fine tick is counted towards it (R146). -/
theorem coarsePart_not_due (h : 2 ≤ s.time.coarsePhase) :
    s.coarsePart = { s with time := { s.time with coarsePhase := s.time.coarsePhase - 1 } } := if_neg (by omega)

end

/-! ## The presence timer (R45, R152, R155) -/

section
variable {s : State} {n m : Nat}

theorem presenceTick_stands (h : s.marks.tickedPresence = true ∨ ∀ n m, s.time.presence ≠ .armed n m) :
    s.presenceTick = s := by
  unfold State.presenceTick
  split
  · next n m ha =>
    rcases h with h | h
    · exact if_pos h
    · exact absurd ha (h n m)
  · rfl

theorem presenceTick_ticks (ha : s.time.presence = .armed n m) (hm : s.marks.tickedPresence = false) :
    s.presenceTick =
      if m ≤ 1 then s.lapsePresence else { s with time := { s.time with presence := .armed n (m - 1) } } := by
  simp only [State.presenceTick, ha, hm]
  rfl

/-- A lapse at the tick to come would not lock range i: the range does not lock on absence, or there is none (R45, R155). -/
def State.spared (i : RangeNo) (s : State) : Prop :=
  s.ranges[i].lockOnAbsence = false ∨ s.marks.tickedPresence = true ∨ ∀ n m, s.time.presence = .armed n m → 2 ≤ m

/-- Then the presence timer's tick leaves the range (R45). -/
theorem presenceTick_range {i : RangeNo} (h : s.spared i) : s.presenceTick.ranges[i] = s.ranges[i] := by
  by_cases hstands : s.marks.tickedPresence = true ∨ ∀ n m, s.time.presence ≠ .armed n m
  · rw [presenceTick_stands hstands]
  · push Not at hstands
    obtain ⟨hm, n, m, ha⟩ := hstands
    rw [presenceTick_ticks ha (Bool.not_eq_true _ ▸ hm)]
    split
    · next hlast =>
      rcases h with h | h | h
      · exact (lockRanges_record (fun r => r.lockOnAbsence) i s).trans (if_neg fun hl => by rw [h] at hl; cases hl.1)
      · exact absurd h hm
      · have := h n m ha
        omega
    · rfl

/-! ## The idle timers (R148, R149, R151) -/

variable {i : RangeNo}

theorem tickIdle_stands (h : s.idleCounts i = false) : s.tickIdle i = s := if_neg (by rw [h]; decide)

theorem tickIdle_counts (h : s.idleCounts i = true) (hr : s.ranges[i].idleRemaining = some n) (hn : 2 ≤ n) :
    s.tickIdle i = { s with ranges := s.ranges.set i { s.ranges[i] with idleRemaining := some (n - 1) } } := by
  have hlast : ¬ n ≤ 1 := by omega
  simp only [State.tickIdle, h, hr, if_neg hlast]
  rfl

theorem tickIdle_last (h : s.idleCounts i = true) (hr : s.ranges[i].idleRemaining = some n) (hn : n ≤ 1) :
    s.tickIdle i = s.expireIdle i := by
  simp only [State.tickIdle, h, hr, if_pos hn]
  rfl

/-- A tick does nothing, counts, or is a timer's last (R148, R149). -/
theorem tickIdle_cases (i : RangeNo) (s : State) :
    s.tickIdle i = s ∨
      (∃ n, s.tickIdle i = { s with ranges := s.ranges.set i { s.ranges[i] with idleRemaining := some n } }) ∨
      s.tickIdle i = s.expireIdle i := by
  cases hk : s.idleCounts i with
  | false => exact .inl (tickIdle_stands hk)
  | true =>
    obtain ⟨-, -, hr, -⟩ := idleCounts_iff.1 hk
    obtain ⟨n, hr⟩ := Option.isSome_iff_exists.1 hr
    rcases Nat.lt_or_ge 1 n with hn | hn
    · exact .inr (.inl ⟨n - 1, tickIdle_counts hk hr hn⟩)
    · exact .inr (.inr (tickIdle_last hk hr hn))

/-- What one idle timer's tick reads and may change: the range's record and its place in the idle-locked set, and the marks. -/
def State.idleView (i : RangeNo) (s : State) : Range × Bool × Marks := (s.ranges[i], s.time.idleLocked.getLsbD i.val, s.marks)

theorem idleCounts_of_view {v : State} {i : RangeNo} (hv : v.idleView i = s.idleView i) : v.idleCounts i = s.idleCounts i :=
  congrArg (fun x : Range × Bool × Marks => x.1.idleRunning && !x.2.2.tickedIdle.getLsbD i.val) hv

/-- The tick of another range's timer is not seen (R147). -/
theorem idleView_tickIdle_ne (i j : RangeNo) (s : State) (h : i ≠ j) : (s.tickIdle j).idleView i = s.idleView i := by
  have hset : ∀ r, (s.ranges.set j r)[i] = s.ranges[i] := fun r => (getElem_set_fin _ j i r).trans (if_neg h.symm)
  rcases tickIdle_cases j s with ht | ⟨n, ht⟩ | ht
  · rw [ht]
  · rw [ht]
    exact congrArg (fun r => (r, _)) (hset _)
  · have hbit : (s.expireIdle j).time.idleLocked.getLsbD i.val = s.time.idleLocked.getLsbD i.val := by
      refine (getLsbD_or_bit s.time.idleLocked j i.val).trans ?_
      rw [decide_eq_false fun he => h (Fin.ext he), Bool.or_false]
    rw [ht]
    exact congrArg₂ (fun r b => (r, b, s.marks)) (hset _) hbit

/-- Whether a range locks on absence is not changed by its tick (R148). -/
theorem tickIdle_lockOnAbsence (i : RangeNo) (s : State) :
    (s.tickIdle i).ranges[i].lockOnAbsence = s.ranges[i].lockOnAbsence := by
  have hset : ∀ r : Range, r.lockOnAbsence = s.ranges[i].lockOnAbsence →
      (s.ranges.set i r)[i].lockOnAbsence = s.ranges[i].lockOnAbsence := fun r hr => by
    rw [getElem_set_fin, if_pos rfl, hr]
  rcases tickIdle_cases i s with ht | ⟨n, ht⟩ | ht
  · rw [ht]
  · rw [ht]
    exact hset _ rfl
  · rw [ht]
    exact hset _ rfl

/-- After the ticks of all idle timers a range is as its own timer's tick leaves it (R147). -/
theorem idleView_idleTicks (i : RangeNo) (s : State) :
    ∃ v : State, v.idleView i = s.idleView i ∧ s.idleTicks.idleView i = (v.tickIdle i).idleView i :=
  foldl_own (π := State.idleView) idleView_tickIdle_ne (List.nodup_finRange 16) (List.mem_finRange i) s

/-- A spared range is as its own timer's tick leaves it in either order (R147). -/
theorem idleView_lockTicks (h : s.spared i) :
    ∃ v : State, v.idleView i = s.idleView i ∧ s.lockTicks.idleView i = (v.tickIdle i).idleView i := by
  have hpresence : ∀ u : State, u.spared i → u.presenceTick.idleView i = u.idleView i := fun u hu => by
    obtain ⟨rs, p, e, hp⟩ := presenceTick_frame u
    have hrange := presenceTick_range hu
    rw [hp] at hrange ⊢
    exact congrArg (fun r => (r, _)) hrange
  unfold State.lockTicks
  split
  · obtain ⟨v, hv, hend⟩ := idleView_idleTicks i s
    refine ⟨v, hv, (hpresence _ ?_).trans hend⟩
    have hlock : s.idleTicks.ranges[i].lockOnAbsence = s.ranges[i].lockOnAbsence :=
      (congrArg (fun x => x.1.lockOnAbsence) hend).trans
        ((tickIdle_lockOnAbsence i v).trans (congrArg (fun x => x.1.lockOnAbsence) hv))
    obtain ⟨rs, l, e, hi⟩ := idleTicks_frame s
    unfold State.spared
    rw [hlock, hi]
    exact h
  · obtain ⟨v, hv, hend⟩ := idleView_idleTicks i s.presenceTick
    exact ⟨v, hv.trans (hpresence s h), hend⟩

end

/-! ## The coarse tick as the statement reads it (R146, R148, R149, R152, R155) -/

section
variable {s : State} {n m : Nat} {i : RangeNo}

/-- A presence timer that is not ARMED, or that a row has given the tick, stands (R152). -/
theorem lockTicks_presence_stands (h : s.marks.tickedPresence = true ∨ ∀ n m, s.time.presence ≠ .armed n m) :
    s.lockTicks.time.presence = s.time.presence := by
  unfold State.lockTicks
  split
  · obtain ⟨rs, l, e, hi⟩ := idleTicks_frame s
    rw [presenceTick_stands (by rw [hi]; exact h), hi]
  · obtain ⟨rs, l, e, hi⟩ := idleTicks_frame s.presenceTick
    rw [hi, presenceTick_stands h]

/-- Any other counts, or lapses (R152, R155). -/
theorem lockTicks_presence_ticks (ha : s.time.presence = .armed n m) (hm : s.marks.tickedPresence = false) :
    s.lockTicks.time.presence = if m ≤ 1 then .lapsed else .armed n (m - 1) := by
  unfold State.lockTicks
  split
  · obtain ⟨rs, l, e, hi⟩ := idleTicks_frame s
    rw [presenceTick_ticks (by rw [hi]; exact ha) (by rw [hi]; exact hm)]
    split <;> rfl
  · obtain ⟨rs, l, e, hi⟩ := idleTicks_frame s.presenceTick
    rw [hi, presenceTick_ticks ha hm]
    split <;> rfl

variable (hs : s.spared i)
include hs

/-- A spared range whose idle timer does not count the tick stands (R148). -/
theorem lockTicks_range_stands (hk : s.idleCounts i = false) : s.lockTicks.ranges[i] = s.ranges[i] := by
  obtain ⟨v, hv, hend⟩ := idleView_lockTicks hs
  rw [tickIdle_stands ((idleCounts_of_view hv).trans hk)] at hend
  exact congrArg Prod.fst (hend.trans hv)

/-- One whose idle timer counts the tick has one left less (R148). -/
theorem lockTicks_range_counts (hk : s.idleCounts i = true) (hr : s.ranges[i].idleRemaining = some n) (hn : 2 ≤ n) :
    s.lockTicks.ranges[i] = { s.ranges[i] with idleRemaining := some (n - 1) } := by
  obtain ⟨v, hv, hend⟩ := idleView_lockTicks hs
  have hrange : v.ranges[i] = s.ranges[i] := congrArg Prod.fst hv
  rw [tickIdle_counts ((idleCounts_of_view hv).trans hk) (hrange ▸ hr) hn] at hend
  refine (congrArg Prod.fst hend).trans ((getElem_set_fin _ i i _).trans ((if_pos rfl).trans ?_))
  rw [hrange]

/-- At the timer's last tick it is locked, and noted in the idle-locked set (R149, R151). -/
theorem lockTicks_range_last (hk : s.idleCounts i = true) (hr : s.ranges[i].idleRemaining = some n) (hn : n ≤ 1) :
    s.lockTicks.ranges[i] = Range.sealed i { s.ranges[i] with state := .locked, idleRemaining := none } ∧
      s.lockTicks.time.idleLocked.getLsbD i.val = true := by
  obtain ⟨v, hv, hend⟩ := idleView_lockTicks hs
  have hrange : v.ranges[i] = s.ranges[i] := congrArg Prod.fst hv
  rw [tickIdle_last ((idleCounts_of_view hv).trans hk) (hrange ▸ hr) hn] at hend
  refine ⟨(congrArg Prod.fst hend).trans ((getElem_set_fin _ i i _).trans ((if_pos rfl).trans ?_)),
    (congrArg (fun x => x.2.1) hend).trans ((getLsbD_or_bit v.time.idleLocked i i.val).trans (by simp))⟩
  rw [hrange]

end

end Sys2Proof.Machine
end

