-- ==== Sys2Proof/Proofs/IdleSteps.lean ====
section
/-! SUPPORT. One step on an empty queue as a whole (R110 to R112, R146 to R149, R152, R155, R164, R167). -/

namespace Sys2Proof.Machine

/-! ## What every fine tick leaves (R146, R167) -/

/-- The coarse part changes ranges, the coarse timers, the idle-locked set and events, and counts the fine tick (R146). -/
theorem coarsePart_frame (s : State) : ∃ rs p l d e k, s.coarsePart = { s with
    ranges := rs
    time := { presence := p, idleLocked := l
              coarsePhase := if s.time.coarsePhase ≤ 1 then 10000 else s.time.coarsePhase - 1 }
    contain := { s.contain with dwell := d }
    events := e
    choices := k } := by
  rcases Nat.lt_or_ge 1 s.time.coarsePhase with h | h
  · rw [coarsePart_not_due s h, if_neg (Nat.not_le.2 h)]
    exact ⟨_, _, _, _, _, _, rfl⟩
  · obtain ⟨e, k, hdue⟩ := coarsePart_due s h
    rw [hdue, if_pos h]
    exact ⟨_, _, _, _, _, _, rfl⟩

theorem coarsePart_standing (s : State) : s.coarsePart.standing = { s.standing with
    coarsePhase := if s.time.coarsePhase ≤ 1 then 10000 else s.time.coarsePhase - 1 } := by
  obtain ⟨rs, p, l, d, e, k, h⟩ := coarsePart_frame s
  rw [h]
  rfl

theorem coarsePart_contexts (s : State) : s.coarsePart.contexts = s.contexts := by
  obtain ⟨rs, p, l, d, e, k, h⟩ := coarsePart_frame s
  rw [h]

section
variable {s : State}

theorem fineTick_standing (s : State) : s.fineTick.standing = { s.standing with
    cursor := if s.visitDue = true then s.contain.cursor + 1 else s.contain.cursor
    coarsePhase := if s.time.coarsePhase ≤ 1 then 10000 else s.time.coarsePhase - 1 } := by
  have hfine : s.coarseMet.standing = _ := finePart_standing s
  have hphase : s.coarseMet.time.coarsePhase = s.time.coarsePhase := congrArg Standing.coarsePhase hfine
  have hcoarse : s.fineTick.standing = _ := coarsePart_standing s.coarseMet
  rw [hcoarse, hfine, hphase]

theorem fineTick_contexts (s : State) : s.fineTick.contexts = s.finePart.contexts := coarsePart_contexts s.coarseMet

/-- The cursor moves on where a visit is due, from 55 back to 0 (R167). -/
theorem visitDue_cursor (s : State) :
    (if s.visitDue = true then s.contain.cursor + 1 else s.contain.cursor).val =
      if s.contain.device = .selfTest ∨ s.marks.visited = true then s.contain.cursor.val
      else (s.contain.cursor.val + 1) % 56 := by
  by_cases hv : s.contain.device = .selfTest ∨ s.marks.visited = true
  · have hdue : ¬ s.visitDue = true := fun hd => by
      obtain ⟨h1, h2⟩ := visitDue_iff.1 hd
      rcases hv with hv | hv
      · exact h1 hv
      · rw [h2] at hv; cases hv
    rw [if_neg hdue, if_pos hv]
  · have hdue : s.visitDue = true := visitDue_iff.2 ⟨fun h => hv (.inl h), by simpa using fun h => hv (.inr h)⟩
    rw [if_pos hdue, if_neg hv]
    rfl

variable (h : s.undisturbed)
include h

/-- With no mismatch to find, the coarse timers meet ranges, times and marks as they were, but for the note of the visit. -/
theorem coarseMet_undisturbed : ∃ b, s.coarseMet.ranges = s.ranges ∧ s.coarseMet.time = s.time ∧
    s.coarseMet.marks = { s.marks with visited := b } ∧ s.coarseMet.contain.dwell = s.contain.dwell := by
  obtain ⟨k, b, hfine⟩ := finePart_steady h
  exact ⟨b, congrArg Steady.ranges hfine, congrArg Steady.time hfine, congrArg Steady.marks hfine,
    congrArg (fun x : Steady => x.contain.dwell) hfine⟩

/-! ## The answer timers (R110 to R112) -/

section
variable {c : Context} {x : AnswerTimer} (hl : s.contextLaws) (hc : c ∈ s.contexts)
include hl hc

/-- A record whose timer does not count the tick stands (R110). -/
theorem ctx?_fineTick_uncounted (hk : s.countsTick c = false) : s.fineTick.ctx? c.number = some c := by
  obtain ⟨v, hcontexts, hcounts, hend⟩ := finePart_answers h
  obtain ⟨-, hn, -⟩ := hl
  rw [← hcontexts] at hn hc
  exact (ctx?_congr ((fineTick_contexts s).trans hend)).trans (ctx?_answerTicks_uncounted hn hc ((hcounts c).trans hk))

/-- Any other is as its own timer's tick leaves it (R110). -/
theorem ctx?_fineTick_counted (hk : s.countsTick c = true) :
    ∃ v : State, v.ctx? c.number = some c ∧ s.fineTick.ctx? c.number = (v.tickAnswer c.number).ctx? c.number := by
  obtain ⟨v, hcontexts, hcounts, hend⟩ := finePart_answers h
  obtain ⟨-, hn, -⟩ := hl
  rw [← hcontexts] at hn hc
  obtain ⟨w, hw, htick⟩ := ctx?_answerTicks_counted hn hc ((hcounts c).trans hk)
  exact ⟨w, hw, (ctx?_congr ((fineTick_contexts s).trans hend)).trans htick⟩

/-- A record without a running timer stands (R110). -/
theorem ctx?_fineTick_stopped (ht : c.timer = none) : s.fineTick.ctx? c.number = some c := by
  cases hk : s.countsTick c with
  | false => exact ctx?_fineTick_uncounted h hl hc hk
  | true =>
    obtain ⟨v, hv, hend⟩ := ctx?_fineTick_counted h hl hc hk
    rw [hend, tickAnswer_stopped hv ht, hv]

end

/-! ## The coarse timers (R146, R148, R149, R152, R155, R164) -/

/-- A fine tick that is no coarse tick leaves them (R146). -/
theorem fineTick_not_coarse (hp : 2 ≤ s.time.coarsePhase) :
    s.fineTick.contain.dwell = s.contain.dwell ∧ s.fineTick.time.presence = s.time.presence ∧
      s.fineTick.time.idleLocked = s.time.idleLocked ∧ s.fineTick.ranges = s.ranges := by
  obtain ⟨b, hranges, htime, -, hdwell⟩ := coarseMet_undisturbed h
  have hcoarse := coarsePart_not_due s.coarseMet (htime ▸ hp)
  rw [fineTick_eq, hcoarse]
  dsimp only
  rw [htime]
  exact ⟨hdwell, rfl, rfl, hranges⟩

/-- A coarse tick leaves them as their own ticks do (R146). -/
theorem fineTick_coarse (hp : s.time.coarsePhase ≤ 1) :
    s.fineTick.contain.dwell = s.dwellLeft ∧ s.fineTick.time.presence = s.coarseMet.lockTicks.time.presence ∧
      s.fineTick.time.idleLocked = s.coarseMet.lockTicks.time.idleLocked ∧
      s.fineTick.ranges = s.coarseMet.lockTicks.ranges := by
  obtain ⟨b, -, htime, hmarks, hdwell⟩ := coarseMet_undisturbed h
  obtain ⟨e, j, hcoarse⟩ := coarsePart_due s.coarseMet (htime ▸ hp)
  have hleft : s.coarseMet.dwellLeft = s.dwellLeft := by
    unfold State.dwellLeft
    rw [hmarks, hdwell]
  rw [fineTick_eq, hcoarse]
  exact ⟨hleft, rfl, rfl, rfl⟩

/-- The idle timers count the tick as before the fine part (R148). -/
theorem coarseMet_idleCounts (i : RangeNo) : s.coarseMet.idleCounts i = s.idleCounts i := by
  obtain ⟨b, hranges, -, hmarks, -⟩ := coarseMet_undisturbed h
  unfold State.idleCounts
  rw [hranges, hmarks]

/-- And a lapse spares the same ranges (R45). -/
theorem coarseMet_spared {i : RangeNo} (hs : s.spared i) : s.coarseMet.spared i := by
  obtain ⟨b, hranges, htime, hmarks, -⟩ := coarseMet_undisturbed h
  unfold State.spared
  rw [hranges, htime, hmarks]
  exact hs

end

/-- An idle timer that does not run, or that a row has given the tick, does not count it (R148). -/
theorem idleCounts_eq_false {s : State} {i : RangeNo} (h : s.ranges[i].isOpen = false ∨ s.ranges[i].idleInterval = 0 ∨
    s.ranges[i].idleRemaining = none ∨ s.marks.tickedIdle.getLsbD i.val = true) : s.idleCounts i = false := by
  rw [← Bool.not_eq_true, idleCounts_iff]
  rintro ⟨hopen, hinterval, hrun, hticked⟩
  rcases h with h | h | h | h
  · rw [h] at hopen; cases hopen
  · exact hinterval h
  · rw [h] at hrun; cases hrun
  · rw [h] at hticked; cases hticked

/-- Settles O2: what every fine tick leaves, the answer timers, and the coarse timers at a coarse tick and at any other. -/
theorem idleStepIsFineTick : Obligations.idle_step_is_fine_tick := by
  unfold Obligations.idle_step_is_fine_tick
  intro s hq
  have hstep : step s = .next s.fineTick := by
    unfold step
    rw [hq]
  have hstanding := fineTick_standing s
  refine ⟨s.fineTick, hstep, (congrArg Standing.pending hstanding).trans hq,
    (congrArg (fun x : Standing => x.cursor.val) hstanding).trans (visitDue_cursor s),
    congrArg Standing.coarsePhase hstanding, congrArg Standing.link hstanding,
    congrArg Standing.abort hstanding, congrArg Standing.limit hstanding, congrArg Standing.frozen hstanding,
    congrArg Standing.rawIgnored hstanding, rfl, rfl, rfl, rfl, rfl, fun h hl c hc => ⟨fun hk => ?_, fun x ht hk => ?_⟩,
    fun h hp => fineTick_not_coarse h hp, fun h hp => ?_⟩
  · rcases hk with ht | hk
    · exact ctx?_fineTick_stopped h hl hc ht
    · exact ctx?_fineTick_uncounted h hl hc hk
  · obtain ⟨v, hv, hend⟩ := ctx?_fineTick_counted h hl hc hk
    rw [hend]
    refine ⟨fun hr => ctx?_tickAnswer_counts hv ht hr, fun hr hph => ctx?_tickAnswer_strands hv ht hr hph,
      fun hr hph hlive hcancel => ?_⟩
    obtain ⟨b, hd⟩ := ctx?_tickAnswer_expires hv ht hr hph hlive hcancel
    exact ⟨_, hd, rfl, if_pos ⟨hcancel, rfl⟩, timer_stopped ht hph, rfl⟩
  · obtain ⟨b, hranges, htime, hmarks, -⟩ := coarseMet_undisturbed h
    obtain ⟨hdwell, hpresence, hlocked, hrecords⟩ := fineTick_coarse h hp
    refine ⟨hdwell, fun hs => ?_, fun n m ha hm => ?_, fun i hs => ⟨fun hk => ?_, fun n ho hz hr hm => ?_⟩⟩
    · rw [hpresence, lockTicks_presence_stands (by rw [hmarks, htime]; exact hs), htime]
    · rw [hpresence, lockTicks_presence_ticks (by rw [htime]; exact ha) (by rw [hmarks]; exact hm)]
    · have hcounts := (coarseMet_idleCounts h i).trans (idleCounts_eq_false hk)
      rw [hrecords, lockTicks_range_stands (coarseMet_spared h hs) hcounts, hranges]
    · have hcounts := (coarseMet_idleCounts h i).trans (idleCounts_iff.2 ⟨ho, hz, by rw [hr]; rfl, hm⟩)
      have hleft : s.coarseMet.ranges[i].idleRemaining = some n := by rw [hranges]; exact hr
      refine ⟨fun hn => ?_, fun hn => ?_⟩
      · rw [hrecords, lockTicks_range_counts (coarseMet_spared h hs) hcounts hleft hn, hranges]
      · obtain ⟨hrecord, hbit⟩ := lockTicks_range_last (coarseMet_spared h hs) hcounts hleft hn
        rw [hranges] at hrecord
        exact ⟨(congrArg (·[i]) hrecords).trans hrecord, by rw [hlocked]; exact hbit⟩

end Sys2Proof.Machine
end

