-- ==== Sys2Proof/Proofs/Expansions.lean ====
section
/-! SUPPORT. The expander's steps: the start, the fill or the discard at the completion, and the take that follows (R124, R125,
R127). -/

namespace Sys2Proof.Machine

/-! ## EXPANSION_START (R124, R125) -/

section
variable {s : State} {r : Request}

/-- Behind requests of fully pinned sets, a request whose set has a victim way is the oldest eligible one (R124). -/
theorem oldestEligible_behind_pinned {pre post : List Request} {w : Way} (hq : s.expander.queue = pre ++ r :: post)
    (hpre : ∀ q ∈ pre, s.fullyPinned (setOf q.slot q.generation)) (hw : s.victimWay (setOf r.slot r.generation) w) :
    s.oldestEligible = some r := by
  have hnone : pre.find? (fun q => s.eligible q) = none :=
    List.find?_eq_none.2 fun q hm he => eligible_iff.1 he (hpre q hm)
  have hr : s.eligible r = true := eligible_iff.2 (not_fullyPinned_of_victimWay hw)
  rw [State.oldestEligible, hq, List.find?_append, hnone, Option.none_or]
  exact List.find?_cons_of_pos hr

/-- The idle expander's take starts the expansion of the oldest eligible request (R124). -/
theorem takeEligible_starts (hx : s.expander.current = none) (hr : s.oldestEligible = some r) :
    s.takeEligible = s.startExpansion r := by
  unfold State.takeEligible
  rw [hx, hr]

/-- The row is the take, where the expander is idle and the slot of the oldest eligible request is LOADED. -/
theorem execExpansionStart_takes (hx : s.expander.current = none) (hr : s.oldestEligible = some r)
    (hl : s.slots[r.slot].isLoaded = true) : execExpansionStart s = .next s.start.takeEligible := by
  unfold execExpansionStart
  rw [hx, hr, takeEligible_starts (s := s.start) hx hr]
  exact if_pos hl

theorem execExpansionStart_busy (hx : s.expander.current ≠ none) : execExpansionStart s = .next s.untaken := by
  obtain ⟨x, hx⟩ := Option.ne_none_iff_exists'.1 hx
  unfold execExpansionStart
  rw [hx]

end

/-! ## EXPANSION_COMPLETION (R127) -/

section
variable {s : State} {x : Expansion}

/-- With a result to keep, the row is the fill and then the take (R124, R127). -/
theorem execExpansionCompletion_fills (hx : s.expander.current = some x) (hf : s.fillsFor x) :
    execExpansionCompletion s = .next (s.start.expanderIdle.fill x).takeEligible := by
  unfold execExpansionCompletion
  rw [hx]
  exact if_pos hf

/-- With a result to discard, the row makes the expander idle and takes (R124, R127). -/
theorem execExpansionCompletion_discards (hx : s.expander.current = some x) (hf : ¬ s.fillsFor x) :
    execExpansionCompletion s = .next s.start.expanderIdle.takeEligible := by
  unfold execExpansionCompletion
  rw [hx]
  exact if_neg hf

theorem not_fillsFor_iff : ¬ s.fillsFor x ↔
    x.void = true ∨ s.slots[x.slot].isLoaded = false ∨ s.slots[x.slot].generation ≠ x.generation := by
  simp only [State.fillsFor, not_and_or, Bool.not_eq_false, Bool.not_eq_true, ne_eq]

/-- The set that a fill writes. -/
theorem cache_fill (i : Fin 4) : (s.fill x).cache[i] =
    if x.set = i then { s.cache[x.set].put x.way (some x.entry) with recent := x.way } else s.cache[i] :=
  getElem_set_fin _ x.set i _

/-- Besides the cache, a fill lets the attached contexts into STREAM, and an attached store's beats in (R81, R100, R127). -/
theorem fill_frame : s.fill x = { s with
    cache := (s.fill x).cache
    contexts := s.contexts.map fun c =>
      if c.number ∈ x.attached ∧ c.state = .waitKey then { c with state := .stream } else c
    intake := match s.intake with
      | .waiting n => if n ∈ x.attached then .beats n 0 else .waiting n
      | k => k } := rfl

end

/-- Settles O37: the start is the take itself, and a completion is the fill or the discard and then the take. -/
theorem expansionRunsItsCourse : Obligations.expansion_runs_its_course := by
  unfold Obligations.expansion_runs_its_course
  refine ⟨fun pre post r keys w s hx hpre hw hb => ?_, fun s hx => execExpansionStart_busy hx,
    fun x s hx hv hl hg => ?_, fun x s hx hd => ?_⟩
  · have hidle : s.expander.current = none := by rw [hx]
    have hr : s.oldestEligible = some r := oldestEligible_behind_pinned (by rw [hx]) hpre hw
    obtain ⟨c, y, hframe⟩ := takeEligible_frame s.start
    exact ⟨_, execExpansionStart_takes hidle hr (isLoaded_iff.2 ⟨keys, hb⟩),
      ((takeEligible_took s.start).2 pre post r w hx hpre hw).1 keys hb, by rw [hframe]; rfl⟩
  · have hf : s.fillsFor x := ⟨hv, hl, hg⟩
    have hways := (fills_of_fillsFor (s := s.start) hx hf).ways
    obtain ⟨c, y, hframe⟩ := takeEligible_frame (s.start.expanderIdle.fill x)
    refine ⟨_, s.start.expanderIdle.fill x, execExpansionCompletion_fills hx hf, ?_, fun v hne => ?_, ?_, fun j hj => ?_,
      fill_frame, takeEligible_took _, by rw [hframe]⟩
    · exact (hways x.set x.way).trans (if_pos ⟨rfl, rfl⟩)
    · exact (hways x.set v).trans (if_neg fun h => hne h.2)
    · rw [cache_fill, if_pos rfl]
    · exact (cache_fill j).trans (if_neg (Ne.symm hj))
  · obtain ⟨c, y, hframe⟩ := takeEligible_frame s.start.expanderIdle
    exact ⟨_, s.start.expanderIdle, execExpansionCompletion_discards hx (not_fillsFor_iff.2 hd), rfl, takeEligible_took _,
      by rw [hframe]⟩

end Sys2Proof.Machine
end

