-- ==== Sys2Proof/Proofs/PartialBeats.lean ====
section
/-! SUPPORT. A partial CIPHER beat: the end of the open piece, and the hold it begins (R107, R134, R136). -/

namespace Sys2Proof.Machine

section
variable {b : Beat} {k : Nat} {c : Context} {s : State}

/-! ## The end of an open piece (R107) -/

/-- The path is released and the end mark driven where the context's piece is open; nothing else changes (R107). -/
theorem endPiece_frame (n : CtxNo) (s : State) :
    s.endPiece n = { s with
      media := { s.media with path := if s.media.path.owner = some n then .free else s.media.path }
      out := { s.out with
        media := s.out.media ++ if s.media.path.owner = some n then [MediaDrive.driven (.endMark n)] else [] } } := by
  unfold State.endPiece
  by_cases hp : s.media.path.owner = some n
  · simp only [if_pos hp, State.drive]
  · simp only [if_neg hp, List.append_nil]

/-! ## The hold begins (R134, R136) -/

/-- A good CIPHER beat with 1 to 15 lanes enabled begins a hold (R134). -/
theorem takeBeat_partial (hb : beatParityBad b = false) (hp : c.passage = .cipher) (h0 : b.enables ≠ 0)
    (hall : b.enables ≠ 0xFFFF) : s.start.takeBeat c k b = (s.beatCounted c k).beginHold c k b := by
  have hpart : beatPartial b = true := by simpa [beatPartial, allLanes] using And.intro h0 hall
  simp [State.takeBeat, State.beatCounted, hb, hp, hpart]

/-- The record enters HOLD, with the HOLD-FETCH's ACCEPT timed (R136). -/
theorem ctx?_beginHold (hc : s.ctx? c.number = some c) :
    (s.beginHold c k b).ctx? c.number = some { c with state := .hold, timer := timerStart .accept } :=
  ctx?_modCtx (f := fun c : Context => { c with state := .hold, timer := timerStart .accept }) rfl
    ((ctx?_congr (endPiece_contexts c.number s)).trans hc)

theorem othersKept_beginHold (c : Context) (k : Nat) (b : Beat) (s : State) :
    s.othersKept c.number (s.beginHold c k b) :=
  othersKept_trans (othersKept_of_eq (endPiece_contexts c.number s))
    (othersKept_modCtx (f := fun c : Context => { c with state := .hold, timer := timerStart .accept }) fun _ => rfl)

/-- The end mark of the open piece goes before the HOLD-FETCH (R107, R136). -/
theorem out_beginHold (c : Context) (k : Nat) (b : Beat) (s : State) :
    (s.beginHold c k b).out = { s.out with
      media := s.out.media ++
        ((if s.media.path.owner = some c.number then [MediaDrive.driven (.endMark c.number)] else []) ++
          [MediaDrive.driven (.holdFetch c.number (c.addr + BitVec.ofNat 28 k))]) } := by
  unfold State.beginHold
  rw [endPiece_frame, ← List.append_assoc]
  rfl

/-- What the beginning of a hold changes: the contexts, the hold, the path, the holders' marks and the drives (R136). -/
theorem beginHold_frame (c : Context) (k : Nat) (b : Beat) (s : State) :
    s.beginHold c k b = { s with
      contexts := (s.beginHold c k b).contexts
      hold := some
        { ctx := c.number, index := k, addr := c.addr + BitVec.ofNat 28 k, bytes := b.data, enables := b.enables,
          phase := .fetch, fetchAnswered := false, merged := none }
      media := { s.media with path := if s.media.path.owner = some c.number then .free else s.media.path }
      marks := (s.beginHold c k b).marks
      out := (s.beginHold c k b).out } := by
  unfold State.beginHold
  rw [endPiece_frame]
  rfl

end

/-- Settles O17: the beat is taken as a partial one, and the hold's beginning gives each clause. -/
theorem partialBeatBeginsHold : Obligations.partial_beat_begins_hold := by
  unfold Obligations.partial_beat_begins_hold
  intro b n k c s hi hc hst hcode hp hh hslot ho ht hb h0 hall hset
  obtain rfl := ctx?_number hc
  have hexec : exec (.storeBeat b) s = _ := execStoreBeat_taken hi hc hst hcode (canTakeBeat_cipher hh hslot hp ho ht)
  have hctx := ctx?_beginHold (s := s.beatCounted c k) (k := k) (b := b) hc
  have hothers : s.othersKept c.number _ := othersKept_beginHold c k b (s.beatCounted c k)
  have hout := out_beginHold c k b (s.beatCounted c k)
  have hframe := beginHold_frame c k b (s.beatCounted c k)
  rw [hexec, takeBeat_partial hb hp h0 hall]
  generalize (s.beatCounted c k).beginHold c k b = t at *
  have hset' : t.settled := by rw [hframe]; exact hset
  refine ⟨t, congrArg _ (takeEligible_of_settled hset'), hctx, hothers, ?_, ?_, hout, ?_⟩
  · rw [hframe]
  · rw [hframe]; rfl
  · rw [hframe]; rfl

end Sys2Proof.Machine
end

