-- ==== Sys2Proof/Proofs/EventCommands.lean ====
section
/-! SUPPORT. SET-ALERT, CLEAR-EVENTS, CLEAR-FAULT and CLEAR-TALLIES (R151, R171, R181, R182, R183). -/

namespace Sys2Proof.Machine

theorem setAlert_frame_length (e : BitVec 16) : (LinkCommand.setAlert e).frame.length = 6 := by
  rw [frame_length]
  simp [LinkCommand.payload]

theorem clearEvents_frame_length (e : BitVec 16) : (LinkCommand.clearEvents e).frame.length = 6 := by
  rw [frame_length]
  simp [LinkCommand.payload]

theorem clearFault_frame_length : LinkCommand.clearFault.frame.length = 4 := frame_length _
theorem clearTallies_frame_length : LinkCommand.clearTallies.frame.length = 4 := frame_length _

section
variable {e : BitVec 16} {s : State}

/-! ## A set of events in two bytes (R180) -/

/-- The ten low bits of the two bytes name the ten events (R180). -/
theorem getLsbD_eventSet (e : BitVec 16) {j : Nat} (hj : j < 10) : (e.setWidth 10).getLsbD j = e.getLsbD j := by
  rw [BitVec.getLsbD_setWidth, decide_eq_true hj, Bool.true_and]

/-- A flag stays pending exactly if it is not named (R182). -/
theorem getLsbD_flagsCleared (pending : BitVec 10) (e : BitVec 16) {j : Nat} (hj : j < 10) :
    (pending &&& ~~~(e.setWidth 10)).getLsbD j = (pending.getLsbD j && !e.getLsbD j) := by
  rw [BitVec.getLsbD_and, BitVec.getLsbD_not, getLsbD_eventSet e hj, decide_eq_true hj, Bool.true_and]

/-- A state whose event unit follows its flags keeps the law of the alert line (R181). -/
theorem alertLaw_of_follow {pending enables : BitVec 10} (h : s.events = .follow pending enables) : s.alertLaw := by
  unfold State.alertLaw
  rw [h]
  exact follow_alertLow pending enables

/-! ## The owners of the four commands -/

theorem ownSetAlert_refused (hd : s.contain.device ≠ .selfTest) (he : 1024 ≤ e.toNat) :
    s.ownSetAlert e = (s, .refused .badValue) := by
  unfold State.ownSetAlert
  rw [if_neg hd, if_pos he]

theorem ownSetAlert_sets (hd : s.contain.device ≠ .selfTest) (he : e.toNat < 1024) :
    s.ownSetAlert e = (s.setEnables (e.setWidth 10), .done []) := by
  unfold State.ownSetAlert
  rw [if_neg hd, if_neg (Nat.not_le.2 he)]

/-- The state with the flags named cleared, and the idle-locked set emptied if RANGE-LOCKED is named (R151, R182). -/
def State.eventsCleared (e : BitVec 16) (s : State) : State :=
  { s.clearFlags (e.setWidth 10) with
    time := { s.time with idleLocked := if e.getLsbD 1 = true then 0 else s.time.idleLocked } }

theorem ownClearEvents_refused (hd : s.contain.device ≠ .selfTest) (he : 1024 ≤ e.toNat) :
    s.ownClearEvents e = (s, .refused .badValue) := by
  unfold State.ownClearEvents
  rw [if_neg hd, if_pos he]

theorem ownClearEvents_clears (hd : s.contain.device ≠ .selfTest) (he : e.toNat < 1024) :
    s.ownClearEvents e = (s.eventsCleared e, .done []) := by
  unfold State.ownClearEvents State.eventsCleared
  rw [if_neg hd, if_neg (Nat.not_le.2 he)]
  by_cases hl : e.getLsbD 1 = true
  · rw [if_pos hl]
    exact congrArg (·, Answer.done []) (if_pos hl)
  · rw [if_neg hl]
    exact congrArg (·, Answer.done []) (if_neg hl)

theorem ownClearFault_clears (hd : s.contain.device ≠ .selfTest) :
    s.ownClearFault = ({ s with faults := { count := 0, first := none } }, .done []) := if_neg hd

theorem ownClearTallies_clears (hd : s.contain.device ≠ .selfTest) :
    s.ownClearTallies = ({ s with tallies := { parity := 0, timeout := 0, rawIgnored := 0 } }, .done []) := if_neg hd

end

/-- Settles O52: the two commands with a set of events by whether a bit above 9 is set, and the two that clear a record. -/
theorem eventAndLogCommands : Obligations.event_and_log_commands := by
  unfold Obligations.event_and_log_commands
  refine ⟨fun e s hl hd => ⟨fun he => ⟨?_, ?_⟩, fun he => ⟨⟨s.setEnables (e.setWidth 10), ?_, ?_, rfl, ?_, rfl⟩,
    ⟨s.eventsCleared e, ?_, ?_, rfl, ?_, rfl, rfl⟩⟩⟩, fun s hl hd => ⟨?_, ?_⟩⟩
  · exact linkRow_answers hl (.inl hd) (setAlert_frame_length e) (ownSetAlert_refused (s := s.heard 6) hd he)
  · exact linkRow_answers hl (.inl hd) (clearEvents_frame_length e) (ownClearEvents_refused (s := s.heard 6) hd he)
  · exact linkRow_answers hl (.inl hd) (setAlert_frame_length e) (ownSetAlert_sets (s := s.heard 6) hd he)
  · exact fun j hj => getLsbD_eventSet e hj
  · exact alertLaw_of_follow (State.setEnables_events _ s)
  · exact linkRow_answers hl (.inl hd) (clearEvents_frame_length e) (ownClearEvents_clears (s := s.heard 6) hd he)
  · exact fun j hj => getLsbD_flagsCleared s.events.pending e hj
  · exact alertLaw_of_follow (State.clearFlags_events _ s)
  · exact linkRow_answers (t := { s with faults := { count := 0, first := none } }) hl (.inl hd) clearFault_frame_length
      (ownClearFault_clears (s := s.heard 4) hd)
  · exact linkRow_answers (t := { s with tallies := { parity := 0, timeout := 0, rawIgnored := 0 } }) hl (.inl hd)
      clearTallies_frame_length (ownClearTallies_clears (s := s.heard 4) hd)

end Sys2Proof.Machine
end

