-- ==== Sys2Proof/Proofs/SelfTestEnd.lean ====
section
/-! SUPPORT. The end of a self-test, and containment of a device with no CIPHER context and no expansion (R131, R160, R162, R170). -/

namespace Sys2Proof.Machine

/-! ## Containment that finds nothing to withdraw (R131, R162) -/

/-- A revocation whose condition no context meets. -/
theorem revoke_none {p : Context → Bool} {code : Reply} {s : State} (h : ∀ c ∈ s.contexts, ¬ p c = true) :
    s.revoke p code = s := by
  unfold State.revoke
  rw [List.filter_eq_nil_iff.2 h, List.foldl_nil]

/-- An expander without an expansion in progress has nothing to mark void. -/
theorem afterContainment_idle {x : Expander} (h : x.current = none) :
    x.afterContainment = { queue := [], current := none } := by
  simp only [Expander.afterContainment, Expander.voidWhere, h, Option.map_none]

theorem containRevoked_noCipher {s : State} (h : ∀ c ∈ s.contexts, c.passage = .cipher → c.live = false) :
    s.containRevoked = s.containBegun :=
  revoke_none fun c hc hp => by
    obtain ⟨hlive, hpass⟩ := Bool.and_eq_true_iff.1 hp
    exact Bool.false_ne_true ((h c hc (eq_of_beq hpass)).symm.trans hlive)

/-- With no live CIPHER context and no expansion, containment starts the dwell, empties the queue and raises CONTAINED. -/
theorem enterContained_noCipher {s : State} (h : ∀ c ∈ s.contexts, c.passage = .cipher → c.live = false)
    (hx : s.expander.current = none) :
    s.enterContained = State.raise .contained { s.containBegun with expander := { queue := [], current := none } } := by
  have hidle : s.containBegun.expander.afterContainment = _ := afterContainment_idle hx
  rw [enterContained_eq, containRevoked_noCipher h, hidle]

/-! ## The end of the test (R160) -/

section
variable {s : State}

theorem execSelfTestEnd_passes (hd : s.contain.device = .selfTest) (hx : s.expander.current = none) :
    execSelfTestEnd none s = .next s.start.passSelfTest := if_pos ⟨hd, .inl hx⟩

theorem execSelfTestEnd_fails (test : KnownAnswerTest) (hd : s.contain.device = .selfTest) (hx : s.expander.current = none) :
    execSelfTestEnd (some test) s = .next (s.start.failSelfTest test) := if_pos ⟨hd, .inl hx⟩

theorem failSelfTest_noCipher (test : KnownAnswerTest) (h : ∀ c ∈ s.contexts, c.passage = .cipher → c.live = false)
    (hx : s.expander.current = none) :
    s.failSelfTest test = State.raise .contained
      { (s.logFault .selfTestFail none none (some test)).containBegun with expander := { queue := [], current := none } } :=
  enterContained_noCipher (s := s.logFault .selfTestFail none none (some test)) h hx

end

/-- Settles O10: a pass changes the device state and raises its event; a failure logs its record and contains a device in which
there is nothing to withdraw. -/
theorem selfTestEnds : Obligations.self_test_ends := by
  unfold Obligations.self_test_ends
  intro s hd hx
  refine ⟨execSelfTestEnd_passes hd hx, fun test hdead => ?_⟩
  have hexec : exec (.selfTestEnd (some test)) s = _ := execSelfTestEnd_fails test hd hx
  rw [hexec, failSelfTest_noCipher (s := s.start) test hdead hx, State.logFault, State.start_contain, hd]
  rfl

end Sys2Proof.Machine
end

