-- ==== Sys2Proof/Proofs/LinkFrames.lean ====
section
/-! SUPPORT. The frame of a key-link command and how it is judged (R172, R176, R177). -/

namespace Sys2Proof.Machine

/-! ## Fields of a payload (R172) -/

/-- The least significant byte stands first (R172). -/
theorem leBytes_succ (n v : Nat) : leBytes (n + 1) v = BitVec.ofNat 8 v :: leBytes n (v / 256) := by
  simp [leBytes, List.range_succ_eq_map, Function.comp_def, Nat.mul_succ, Nat.add_comm, Nat.shiftRight_eq_div_pow,
    Nat.pow_add, Nat.div_div_eq_div_mul]

/-- A value that fits its bytes is read back (R172). -/
theorem ofLeBytes_leBytes {n v : Nat} (h : v < 256 ^ n) : ofLeBytes (leBytes n v) = v := by
  induction n generalizing v with
  | zero =>
    obtain rfl : v = 0 := Nat.lt_one_iff.1 h
    rfl
  | succ n ih =>
    have hrest : v / 256 < 256 ^ n := Nat.div_lt_of_lt_mul (by rwa [Nat.pow_succ'] at h)
    rw [leBytes_succ, ofLeBytes, ih hrest, BitVec.toNat_ofNat]
    omega

/-- A field begins no earlier than what stands before it ends. -/
theorem field_append {a p : List Byte} {off len : Nat} (h : a.length ≤ off) :
    field (a ++ p) off len = field p (off - a.length) len := by
  unfold field
  rw [List.drop_append, List.drop_eq_nil_of_le h, List.nil_append]

/-- A field behind a byte. -/
theorem field_cons_succ (b : Byte) (p : List Byte) (off len : Nat) : field (b :: p) (off + 1) len = field p off len := rfl

/-- A byte of a payload is read back. -/
theorem ofNat_field_head (b : Byte) (p : List Byte) : BitVec.ofNat 8 (field (b :: p) 0 1) = b :=
  ofNat_ofLeBytes_singleton b

/-- A value written in the bytes of its width is read back, whatever follows it. -/
theorem ofNat_field_leBytes {w n : Nat} (x : BitVec w) (p : List Byte) (hw : w ≤ 8 * n) :
    BitVec.ofNat w (field (leBytes n x.toNat ++ p) 0 n) = x := by
  have hx : x.toNat < 256 ^ n :=
    x.isLt.trans_le ((Nat.pow_le_pow_right (by decide) hw).trans_eq (Nat.pow_mul 2 8 n))
  unfold field
  rw [List.drop_zero, List.take_left' (leBytes_length n _), ofLeBytes_leBytes hx, BitVec.ofNat_toNat, BitVec.setWidth_eq]

/-- The same of the last field of a payload. -/
theorem ofNat_field_leBytes_last {w n : Nat} (x : BitVec w) (hw : w ≤ 8 * n) :
    BitVec.ofNat w (field (leBytes n x.toNat) 0 n) = x := by
  simpa using ofNat_field_leBytes x [] hw

/-- A command's payload reads back as the command, field by field (R177). -/
theorem readPayload_payload (c : LinkCommand) : readPayload c.code c.payload = some c := by
  cases c with
  | status | readFault | readAbort | flushSchedules | freeze | go | recover | renew | clearFault | clearTallies => rfl
  | loadKey | scrubKey | setRange | openRange | lockRange | setWindow | setLimit | armPresence | setAlert | clearEvents =>
    simp [readPayload, LinkCommand.code, LinkCommand.payload, field_append, field_cons_succ, ofNat_field_head,
      ofNat_field_leBytes, ofNat_field_leBytes_last]

/-- The table gives each code the length of its command's payload (R177). -/
theorem lengthOfCode_code (c : LinkCommand) : lengthOfCode c.code = some c.payload.length := by
  cases c <;> simp [lengthOfCode, LinkCommand.code, LinkCommand.payload]

/-! ## Judging a frame (R172, R176) -/

/-- A frame without its check: code, payload length, payload (R172). -/
def unchecked (code : Byte) (p : List Byte) : List Byte := code :: BitVec.ofNat 8 p.length :: p

/-- The check of a run of bytes is the two bytes behind it, most significant first (R172). -/
theorem withCheck_iff {bytes : List Byte} {hi lo : Byte} : withCheck bytes = bytes ++ [hi, lo] ↔ hi ++ lo = crc16 bytes := by
  rw [withCheck, List.append_cancel_left_eq, List.cons.injEq, List.cons.injEq, eq_self_iff_true, and_true]
  constructor
  · rintro ⟨rfl, rfl⟩
    exact BitVec.extractLsb'_append_extractLsb'
  · rintro h
    rw [← h]
    exact ⟨BitVec.extractLsb'_append_eq_left, BitVec.extractLsb'_append_eq_right⟩

section
variable {code hi lo : Byte} {p : List Byte}

/-- The count of a payload fits its byte (R172). -/
theorem toNat_count (hp : p.length < 256) : (BitVec.ofNat 8 p.length).toNat = p.length := by
  rw [BitVec.toNat_ofNat, Nat.mod_eq_of_lt hp]

/-- Its check adds two bytes to the code, the count and the payload. -/
theorem unchecked_length : (unchecked code p ++ [hi, lo]).length = p.length + 4 := by simp [unchecked]

/-- A frame whose second byte counts its payload, with no part-byte behind it, passes step 1 of R176. -/
theorem unchecked_form (hp : p.length < 256) :
    ¬ ((unchecked code p ++ [hi, lo]).length < 4 ∨
      (unchecked code p ++ [hi, lo]).length ≠ ((unchecked code p ++ [hi, lo]).getD 1 0).toNat + 4 ∨ 0 ≠ 0) := by
  have hsecond : (unchecked code p ++ [hi, lo]).getD 1 0 = BitVec.ofNat 8 p.length := rfl
  rw [hsecond, unchecked_length, toNat_count hp]
  omega

/-- All but the last two bytes of a frame are what its check covers. -/
theorem take_unchecked :
    (unchecked code p ++ [hi, lo]).take ((unchecked code p ++ [hi, lo]).length - 2) = unchecked code p :=
  List.take_left' (by simp)

/-- A frame of good form whose check does not match (R176). -/
theorem judgeFrame_badCheck (hp : p.length < 256) (hc : hi ++ lo ≠ crc16 (unchecked code p)) :
    judgeFrame (unchecked code p ++ [hi, lo]) 0 = .refuse .check := by
  rw [judgeFrame, if_neg (unchecked_form hp), take_unchecked, if_pos (mt withCheck_iff.1 hc)]

/-- A code outside the table (R176, R177). -/
theorem judgeFrame_uncoded (hp : p.length < 256) (hc : hi ++ lo = crc16 (unchecked code p)) (hn : lengthOfCode code = none) :
    judgeFrame (unchecked code p ++ [hi, lo]) 0 = .refuse .unknown := by
  have hcode : lengthOfCode ((unchecked code p ++ [hi, lo]).getD 0 0) = none := hn
  rw [judgeFrame, if_neg (unchecked_form hp), take_unchecked, if_neg (not_not.2 (withCheck_iff.2 hc)), hcode]

/-- A payload of another length than the code's (R176, R177). -/
theorem judgeFrame_badLength {n : Nat} (hp : p.length < 256) (hc : hi ++ lo = crc16 (unchecked code p))
    (hn : lengthOfCode code = some n) (hl : p.length ≠ n) : judgeFrame (unchecked code p ++ [hi, lo]) 0 = .refuse .length := by
  have hcode : lengthOfCode ((unchecked code p ++ [hi, lo]).getD 0 0) = some n := hn
  have hcount : ((unchecked code p ++ [hi, lo]).getD 1 0).toNat = p.length := toNat_count hp
  rw [judgeFrame, if_neg (unchecked_form hp), take_unchecked, if_neg (not_not.2 (withCheck_iff.2 hc)), hcode]
  dsimp only
  rw [hcount, if_pos hl]

/-- A payload of the code's length that reads as a command (R177). -/
theorem judgeFrame_reads {c : LinkCommand} (hp : p.length < 256) (hc : hi ++ lo = crc16 (unchecked code p))
    (hn : lengthOfCode code = some p.length) (hr : readPayload code p = some c) :
    judgeFrame (unchecked code p ++ [hi, lo]) 0 = .command c := by
  have hcode : lengthOfCode ((unchecked code p ++ [hi, lo]).getD 0 0) = some p.length := hn
  have hcount : ((unchecked code p ++ [hi, lo]).getD 1 0).toNat = p.length := toNat_count hp
  have hread : readPayload ((unchecked code p ++ [hi, lo]).getD 0 0)
      (((unchecked code p ++ [hi, lo]).drop 2).take p.length) = some c :=
    (congrArg (readPayload code) (List.take_left' rfl)).trans hr
  rw [judgeFrame, if_neg (unchecked_form hp), take_unchecked, if_neg (not_not.2 (withCheck_iff.2 hc)), hcode]
  dsimp only
  rw [hcount, if_neg (not_not.2 rfl), hread]

end

/-- Every payload is short enough to be counted in a byte (R172, R177). -/
theorem payload_length_lt (c : LinkCommand) : c.payload.length < 256 := by
  cases c <;> simp [LinkCommand.payload]

/-- Settles O43: the frame passes each step of R176, and its payload reads back field by field. -/
theorem linkFrameRoundTrip : Obligations.link_frame_round_trip := by
  unfold Obligations.link_frame_round_trip
  intro c
  exact judgeFrame_reads (payload_length_lt c) (withCheck_iff.1 rfl) (lengthOfCode_code c) (readPayload_payload c)

end Sys2Proof.Machine
end

