-- ==== Sys2Proof/Proofs/LinkPeriods.lean ====
section
/-! SUPPORT. Command periods and read periods of the key link, bit by bit (R173 to R177). -/

namespace Sys2Proof.Machine

/-! ## Bits and bytes (R173) -/

theorem toBits_cons (b : Byte) (bs : List Byte) : toBits (b :: bs) = byteBits b ++ toBits bs := rfl

/-- Bit i of byte j on the link, counted from the most significant (R173). -/
theorem getElem?_toBits {bytes : List Byte} {j i : Nat} (hj : j < bytes.length) (hi : i < 8) :
    (toBits bytes)[8 * j + i]? = some ((bytes.getD j 0).getLsbD (7 - i)) := by
  induction bytes generalizing j with
  | nil => cases hj
  | cons b bs ih =>
    rw [toBits_cons]
    cases j with
    | zero =>
      rw [Nat.mul_zero, Nat.zero_add, List.getElem?_append_left (by rw [byteBits_length]; exact hi)]
      simp [byteBits, hi]
    | succ j =>
      have hlater : (byteBits b).length ≤ 8 * (j + 1) + i := by rw [byteBits_length]; omega
      rw [List.getElem?_append_right hlater, byteBits_length, show 8 * (j + 1) + i - 8 = 8 * j + i by omega,
        ih (Nat.lt_of_succ_lt_succ hj), List.getD_cons_succ]

/-! ## Command periods (R173, R174, R176) -/

section
variable {s : State}

/-- A command period is read from its bits in a row (R173). -/
theorem exec_commandPeriod (first rest : List Bool) (s : State) :
    exec (.commandPeriod first rest) s = execCommandPeriod [] (first ++ rest) s := rfl

theorem exec_periodOf (kdi : List Bool) (s : State) : exec (periodOf kdi) s = execCommandPeriod [] kdi s := by
  rw [periodOf, exec_commandPeriod, List.take_append_drop]

/-- A period of fewer than eight clocks is ignored (R173). -/
theorem exec_periodOf_short {kdi : List Bool} (h : kdi.length < 8) : exec (periodOf kdi) s = .next s.untaken :=
  (exec_periodOf kdi s).trans (if_pos h)

/-- A period whose first byte is 0xFF is a read period (R173). -/
theorem exec_periodOf_read (rest : List Bool) :
    exec (periodOf (List.replicate 8 true ++ rest)) s = .next (s.start.readEnds (8 + rest.length)) := by
  have hlength : (List.replicate 8 true ++ rest).length = 8 + rest.length := by rw [List.length_append, List.length_replicate]
  have hfirst : bitsByte ((List.replicate 8 true ++ rest).take 8) = 0xFF := by
    rw [List.take_left' List.length_replicate]
    decide
  rw [exec_periodOf, execCommandPeriod, List.nil_append, hlength, hfirst, if_neg (by omega), if_pos rfl]

/-- Any other is a command period, and the whole bytes shifted in are the frame (R173). -/
theorem exec_periodOf_command {b : Byte} {bs : List Byte} {part : List Bool} (hb : b ≠ 0xFF) (hp : part.length < 8) :
    exec (periodOf (toBits (b :: bs) ++ part)) s =
      .next (s.commandEnds (8 * bs.length + 8 + part.length) (State.judgeBytes (b :: bs) part.length)) := by
  have hlength : (toBits (b :: bs) ++ part).length = 8 * bs.length + 8 + part.length := by
    rw [List.length_append, toBits_length, List.length_cons, Nat.mul_succ]
  have hfirst : bitsByte ((toBits (b :: bs) ++ part).take 8) = b := by
    rw [toBits_cons, List.append_assoc, List.take_left' (byteBits_length b), bitsByte_byteBits]
  have hwhole : (8 * bs.length + 8 + part.length) / 8 = (b :: bs).length := by rw [List.length_cons]; omega
  have hpart : (8 * bs.length + 8 + part.length) % 8 = part.length := by omega
  rw [exec_periodOf, execCommandPeriod, List.nil_append, hlength, hfirst, if_neg (by omega), if_neg hb, hwhole, hpart,
    wholeBytes_toBits]

/-- A period of whole bytes. -/
theorem exec_periodOf_bytes {b : Byte} {bs : List Byte} (hb : b ≠ 0xFF) :
    exec (periodOf (toBits (b :: bs))) s = .next (s.commandEnds (8 * (b :: bs).length) (State.judgeBytes (b :: bs) 0)) := by
  have h := exec_periodOf_command (s := s) (bs := bs) (part := []) hb (by decide)
  rwa [List.append_nil] at h

/-- A PENDING buffer has its response replaced by BUSY, whatever the clocks of the period (R174). -/
theorem commandEnds_busy_pending {clocks : Nat} {judge : State → State} {f : List Byte} (h : s.link = .pending f) :
    s.commandEnds clocks judge = s.replied clocks (.refused .busy) := by
  rw [State.commandEnds, State.driveKdo_link, State.start_link, h]
  rfl

/-- A READY buffer has its response replaced by BUSY and stays READY (R174). -/
theorem commandEnds_busy_ready {clocks : Nat} {judge : State → State} {f : List Byte} (h : s.link = .ready f) :
    s.commandEnds clocks judge =
      { s.replied clocks (.refused .busy) with link := .ready (Answer.refused .busy).frame } := by
  rw [State.commandEnds, State.driveKdo_link, State.start_link, h]
  rfl

/-- Into an EMPTY buffer a frame refused by steps 1 to 4 leaves its refusal and nothing else (R176). -/
theorem commandEnds_refused {clocks n : Nat} {bytes : List Byte} {r : Reason} (h : s.link = .empty)
    (hr : judgeFrame bytes n = .refuse r) :
    s.commandEnds clocks (State.judgeBytes bytes n) = s.replied clocks (.refused r) := by
  rw [State.commandEnds, State.driveKdo_link, State.start_link, h]
  dsimp only
  rw [State.judgeBytes, hr]
  rfl

/-- The period of such a frame, of whole bytes. -/
theorem exec_frame_refused {b : Byte} {bs : List Byte} {r : Reason} (hb : b ≠ 0xFF) (h : s.link = .empty)
    (hr : judgeFrame (b :: bs) 0 = .refuse r) :
    exec (periodOf (toBits (b :: bs))) s = .next (s.answered (b :: bs).length (.refused r)) := by
  rw [exec_periodOf_bytes hb, commandEnds_refused h hr]
  rfl

/-- The same of a frame of good form. -/
theorem exec_unchecked_refused {b hi lo : Byte} {p : List Byte} {r : Reason} (hb : b ≠ 0xFF) (h : s.link = .empty)
    (hr : judgeFrame (unchecked b p ++ [hi, lo]) 0 = .refuse r) :
    exec (periodOf (toBits (unchecked b p ++ [hi, lo]))) s = .next (s.answered (p.length + 4) (.refused r)) := by
  rw [← unchecked_length (code := b) (hi := hi) (lo := lo)]
  exact exec_frame_refused hb h hr

/-- Step 1 of R176. -/
theorem judgeFrame_badForm {b : Byte} {bs : List Byte} {n : Nat}
    (h : bs.length < 3 ∨ bs.length ≠ (bs.getD 0 0).toNat + 3 ∨ n ≠ 0) : judgeFrame (b :: bs) n = .refuse .check := by
  have hsecond : (b :: bs).getD 1 0 = bs.getD 0 0 := List.getD_cons_succ
  rw [judgeFrame, hsecond, List.length_cons, if_pos (by omega)]

/-- Steps 3 and 4 of R176. -/
theorem judgeFrame_badCode {code hi lo : Byte} {p : List Byte} (hp : p.length < 256) (hc : hi ++ lo = crc16 (unchecked code p))
    (hn : lengthOfCode code ≠ some p.length) :
    judgeFrame (unchecked code p ++ [hi, lo]) 0 =
      .refuse (if lengthOfCode code = none then .unknown else .length) := by
  cases hcode : lengthOfCode code with
  | none => exact judgeFrame_uncoded hp hc hcode
  | some n => exact judgeFrame_badLength hp hc hcode fun hl => hn (hcode.trans (congrArg some hl.symm))

end

/-! ## A command's frame (R173, R174, R176, R177) -/

/-- The frame of a command comes to its owner (R176). -/
theorem judgeBytes_frame (c : LinkCommand) : State.judgeBytes c.frame 0 = State.judged (c == .status) c.owner := by
  funext s
  rw [State.judgeBytes, linkFrameRoundTrip c]

/-- No command has the code of a read period (R173, R177). -/
theorem code_ne_read (c : LinkCommand) : c.code ≠ 0xFF := by
  intro h
  have hcode := lengthOfCode_code c
  rw [h] at hcode
  cases hcode

/-- The period of a command's frame is the command's row (log entry 9). -/
theorem exec_periodOf_frame (c : LinkCommand) (s : State) : exec (periodOf (toBits c.frame)) s = exec c.row s := by
  rw [exec_row, linkRow, ← judgeBytes_frame]
  exact exec_periodOf_bytes (code_ne_read c)

/-- No owner drives an output (R177). -/
theorem owner_out (c : LinkCommand) (s : State) : (c.owner s).1.out = s.out := by
  cases c with
  | scrubKey slot =>
    have hscrub (k : SlotNo) (keys : KeyPair) : (s.scrub k keys .command).takeEligible.out = s.out := by
      obtain ⟨-, -, -, -, -, -, -, -, hout, -⟩ := scrub_frame k keys .command s
      exact (State.takeEligible_out _).trans hout
    rw [LinkCommand.owner, State.ownScrubKey]
    split
    · rfl
    · split
      · rfl
      · split
        · exact hscrub _ _
        · exact hscrub _ _
        all_goals rfl
  | status => rfl
  | recover =>
    simp only [LinkCommand.owner, State.ownRecover, State.recoverAll]
    repeat' split
    all_goals rfl
  | readFault | readAbort | loadKey | flushSchedules | setRange | openRange | lockRange | setWindow | setLimit | freeze | go
  | armPresence | renew | setAlert | clearEvents | clearFault | clearTallies =>
    simp only [LinkCommand.owner, State.ownReadFault, State.ownReadAbort, State.ownLoadKey, State.ownFlush, State.ownSetRange,
      State.ownOpenRange, State.ownLockRange, State.ownSetWindow, State.ownSetLimit, State.ownFreeze, State.ownGo,
      State.ownArmPresence, State.ownRenew, State.ownSetAlert, State.ownClearEvents, State.ownClearFault, State.ownClearTallies]
    repeat' split
    all_goals rfl

/-- A command judged is answered, and drives no output (R174, R176). -/
theorem judged_responds (b : Bool) (c : LinkCommand) (s : State) :
    ∃ (t : State) (a : Answer), s.judged b c.owner = t.respond a ∧ t.out = s.out := by
  unfold State.judged
  split
  · exact ⟨s, _, rfl, rfl⟩
  · exact ⟨_, _, rfl, owner_out c s⟩

/-- KDO carries ones throughout a command row (R173). -/
theorem commandEnds_kdo (clocks : Nat) (b : Bool) (c : LinkCommand) (s : State) :
    (s.commandEnds clocks (State.judged b c.owner)).out.kdo = List.replicate clocks (some true) := by
  unfold State.commandEnds
  dsimp only
  split
  · obtain ⟨t, a, hjudged, hout⟩ := judged_responds b c (s.start.driveKdo (List.replicate clocks (some true)))
    rw [hjudged, State.respond_out, hout]
    rfl
  · rfl
  · rfl

/-- Settles O45: the frame is judged to be its command (O43), and the command is handed to its owner as the row hands it. -/
theorem commandPeriodRunsItsRow : Obligations.command_period_runs_its_row := by
  unfold Obligations.command_period_runs_its_row
  intro c s
  have hrow : exec c.row s = .next (s.commandEnds (8 * c.frame.length) (State.judged (c == .status) c.owner)) := exec_row c s
  refine ⟨_, (exec_periodOf_frame c s).trans hrow, hrow, commandEnds_kdo _ _ c s, fun h => ?_⟩
  obtain ⟨t, a, hjudged, -⟩ := judged_responds (c == .status) c (s.heard c.frame.length)
  exact ⟨a, by rw [commandEnds_empty h, hjudged]; rfl⟩

/-! ## Read periods (R173, R175) -/

/-- Behind the first byte come the bits held, then ones (R175). -/
theorem readBits_eq (n : Nat) (bytes : List Byte) :
    readBits (8 + n) bytes = List.replicate 8 none ++ ((toBits bytes ++ List.replicate n true).take n).map some := by
  have hones : (List.replicate (8 + n) true).take (n - (toBits bytes).length) =
      (List.replicate n true).take (n - (toBits bytes).length) := by
    rw [List.take_replicate, List.take_replicate, Nat.min_eq_left (by omega), Nat.min_eq_left (by omega)]
  rw [readBits, Nat.add_sub_cancel_left, List.take_append, List.take_append, hones]

/-- A period too short to reach the end of the response (R175). -/
theorem readBits_part {n : Nat} {bytes : List Byte} (h : n ≤ 8 * bytes.length) :
    readBits (8 + n) bytes = List.replicate 8 none ++ ((toBits bytes).take n).map some := by
  rw [readBits_eq, List.take_append_of_le_length (by rwa [toBits_length])]

/-- A period that reaches it carries ones from there on (R175). -/
theorem readBits_whole {n : Nat} {bytes : List Byte} (h : 8 * bytes.length ≤ n) :
    readBits (8 + n) bytes =
      List.replicate 8 none ++ (toBits bytes ++ List.replicate (n - 8 * bytes.length) true).map some := by
  rw [readBits_eq, List.take_append, List.take_of_length_le (by rwa [toBits_length]), List.take_replicate, toBits_length,
    Nat.min_eq_left (Nat.sub_le _ _)]

section
variable {s : State}

theorem exec_readPeriod_short {n : Nat} (h : n < 8) : exec (.readPeriod n) s = .next s.untaken := if_pos h

theorem exec_readPeriod (n : Nat) : exec (.readPeriod (8 + n)) s = .next (s.start.readEnds (8 + n)) := if_neg (by omega)

theorem readEnds_empty (clocks : Nat) (h : s.link = .empty) : s.readEnds clocks = s.driveKdo (readBits clocks [0x5B]) := by
  rw [State.readEnds, h]

theorem readEnds_pending {f : List Byte} (clocks : Nat) (h : s.link = .pending f) :
    s.readEnds clocks = s.driveKdo (readBits clocks [0x5A]) := by
  rw [State.readEnds, h]

theorem readEnds_ready {f : List Byte} (clocks : Nat) (h : s.link = .ready f) :
    s.readEnds clocks =
      if 8 * f.length ≤ clocks - 8 then { s.driveKdo (readBits clocks f) with link := .empty }
      else s.driveKdo (readBits clocks f) := by
  rw [State.readEnds, h]

end

/-- The end of the preparation (R174). -/
theorem exec_preparationEnd {s : State} {f : List Byte} (h : s.link = .pending f) :
    exec .preparationEnd s = .next { s with link := .ready f, out := Outputs.quiet } := by
  have hexec : exec .preparationEnd s = execPreparationEnd s := rfl
  rw [hexec, execPreparationEnd, h]
  rfl

/-- Settles O46: a command period by its first byte, the verdict on its frame and the buffer, a read period by the buffer. -/
theorem linkBufferRunsItsCourse : Obligations.link_buffer_runs_its_course := by
  unfold Obligations.link_buffer_runs_its_course
  refine ⟨fun _ _ _ => getElem?_toBits, fun first rest s => ?_,
    fun _ _ _ hk hn => ⟨exec_periodOf_short hk, exec_readPeriod_short hn⟩,
    fun b bs part s hb hp => ⟨fun f h => ?_, fun f h => ?_, fun h hform => ?_⟩,
    fun b p hi lo s h hb hp => ⟨fun hc => ?_, fun hc hn => ?_⟩, fun c s h hd hc => ?_, fun f s h => ?_,
    fun n s => ⟨fun h => ?_, fun f h => ?_, fun f h hn => ?_, fun f h hn => ?_⟩, fun rest s => ?_⟩
  · rw [exec_commandPeriod, exec_periodOf]
  · rw [exec_periodOf_command hb hp, commandEnds_busy_pending h]
  · rw [exec_periodOf_command hb hp, commandEnds_busy_ready h]
  · rw [exec_periodOf_command hb hp, commandEnds_refused h (judgeFrame_badForm _)]
    exact hform.imp_right (.imp_right (mt List.eq_nil_of_length_eq_zero))
  · exact exec_unchecked_refused hb h (judgeFrame_badCheck hp hc)
  · exact exec_unchecked_refused hb h (judgeFrame_badCode hp hc hn)
  · rw [exec_row, linkRow_selfTest h hd (beq_false_of_ne hc)]
  · exact exec_preparationEnd h
  · rw [exec_readPeriod, readEnds_empty (s := s.start) _ h, readBits_eq]
    rfl
  · rw [exec_readPeriod, readEnds_pending (s := s.start) _ h, readBits_eq]
    rfl
  · rw [exec_readPeriod, readEnds_ready (s := s.start) _ h, if_neg (by omega), readBits_part hn.le]
    rfl
  · rw [exec_readPeriod, readEnds_ready (s := s.start) _ h, if_pos (by omega), readBits_whole hn]
    rfl
  · rw [exec_periodOf_read, exec_readPeriod]

end Sys2Proof.Machine
end

