-- ==== Sys2Proof/Proofs/LinkReads.lean ====
section
/-! SUPPORT. STATUS, READ-FAULT and READ-ABORT byte by byte (R178, R179). -/

namespace Sys2Proof.Machine

/-! ## Runs of records of one length -/

/-- Records of n bytes each, in a row. -/
theorem length_flatMap_const {α β : Type} {f : α → List β} {n : Nat} {l : List α} (h : ∀ x ∈ l, (f x).length = n) :
    (l.flatMap f).length = n * l.length := by
  rw [List.length_flatMap, List.map_congr_left h, List.map_const', List.sum_replicate_nat, Nat.mul_comm]

/-- Record j of a run of records of n bytes each. -/
theorem take_drop_flatMap {α β : Type} {f : α → List β} {n j : Nat} {l : List α} {x : α} (h : ∀ y ∈ l, (f y).length = n)
    (hx : l[j]? = some x) : ((l.flatMap f).drop (n * j)).take n = f x := by
  induction l generalizing j with
  | nil => cases hx
  | cons y l ih =>
    have hy : (f y).length = n := h y List.mem_cons_self
    rw [List.flatMap_cons]
    cases j with
    | zero =>
      obtain rfl : y = x := Option.some.inj hx
      rw [Nat.mul_zero, List.drop_zero, List.take_left' hy]
    | succ j =>
      rw [Nat.mul_succ, Nat.add_comm, ← List.drop_drop, List.drop_left' hy]
      exact ih (fun z hz => h z (List.mem_cons_of_mem y hz)) hx

/-! ## STATUS (R178) -/

/-- The first 16 bytes of STATUS: device, presence, events, tallies and counts (R178). -/
def State.statusHead (s : State) : List Byte :=
  [s.contain.device.code, s.time.presence.code, flagByte s.decoder.frozen] ++
  leBytes 2 s.events.pending.toNat ++ leBytes 2 s.events.enables.toNat ++ leBytes 2 s.time.idleLocked.toNat ++
  [countByte s.tallies.parity, countByte s.tallies.timeout, countByte s.tallies.rawIgnored, countByte s.faults.count,
    countByte s.contexts.length, countByte (s.contexts.countP fun c => c.state == .stranded),
    flagByte s.contain.dwell.isSome]

/-- The two bytes of a slot: its state and its generation (R178). -/
def State.statusSlot (s : State) (k : SlotNo) : List Byte := [slotCode k s.slots[k].body, s.slots[k].generation]

theorem statusPayload_eq (s : State) : s.statusPayload = s.statusHead ++ ((List.finRange 32).flatMap s.statusSlot ++
    ((List.finRange 16).map (fun (i : RangeNo) => countByte s.ranges[i].state.code) ++
      (List.finRange 8).map fun (w : WindowNo) => countByte s.decoder.windows[w].treatment.code)) := by
  simp only [State.statusPayload, State.statusHead, List.append_assoc, List.cons_append, List.nil_append]
  rfl

theorem statusHead_length (s : State) : s.statusHead.length = 16 := rfl

theorem statusSlots_length (s : State) : ((List.finRange 32).flatMap s.statusSlot).length = 64 :=
  length_flatMap_const (n := 2) fun _ _ => rfl

theorem statusPayload_length (s : State) : s.statusPayload.length = 104 := by
  rw [statusPayload_eq, List.length_append, List.length_append, List.length_append, statusHead_length, statusSlots_length,
    List.length_map, List.length_map, List.length_finRange, List.length_finRange]

theorem dwellFlag_eq (o : Option Nat) : flagByte o.isSome = if o = none then 0 else 1 := by cases o <;> rfl

/-- A state that R177 knows has its code. -/
theorem slotCode_eq {k : SlotNo} {b : SlotBody} (h : ∀ keys, b ≠ .undefined keys) :
    slotCode k b = BitVec.ofNat 8 b.shadow.1 := by
  cases b with
  | undefined keys => exact absurd rfl (h keys)
  | _ => rfl

/-- The slots' bytes stand behind the head, two to the slot (R178). -/
theorem statusPayload_slot (s : State) (k : SlotNo) (i : Nat) (hi : i < 2) :
    s.statusPayload[16 + 2 * k.val + i]? = (s.statusSlot k)[i]? := by
  have hrun : (((List.finRange 32).flatMap s.statusSlot).drop (2 * k.val)).take 2 = s.statusSlot k :=
    take_drop_flatMap (fun _ _ => rfl) (by simp)
  rw [statusPayload_eq, Nat.add_assoc, List.getElem?_append_right (by rw [statusHead_length]; omega), statusHead_length,
    List.getElem?_append_left (by rw [statusSlots_length]; omega), Nat.add_sub_cancel_left, ← hrun,
    List.getElem?_take_of_lt hi, List.getElem?_drop]

/-- Then come the ranges, a byte each. -/
theorem statusPayload_range (s : State) (i : RangeNo) :
    s.statusPayload[80 + i.val]? = some (countByte s.ranges[i].state.code) := by
  rw [statusPayload_eq, List.getElem?_append_right (by rw [statusHead_length]; omega), statusHead_length,
    List.getElem?_append_right (by rw [statusSlots_length]; omega), statusSlots_length,
    List.getElem?_append_left (by simp; omega), show 80 + i.val - 16 - 64 = i.val by omega]
  simp

/-- Then the windows. -/
theorem statusPayload_window (s : State) (w : WindowNo) :
    s.statusPayload[96 + w.val]? = some (countByte s.decoder.windows[w].treatment.code) := by
  rw [statusPayload_eq, List.getElem?_append_right (by rw [statusHead_length]; omega), statusHead_length,
    List.getElem?_append_right (by rw [statusSlots_length]; omega), statusSlots_length,
    List.getElem?_append_right (by simp; omega), List.length_map, List.length_finRange,
    show 96 + w.val - 16 - 64 - 16 = w.val by omega]
  simp

/-! ## The three rows (R178, R179) -/

section
variable {s : State}

theorem exec_status (h : s.link = .empty) : exec .status s = .next (s.answered 4 (.done s.statusPayload)) :=
  linkRow_answers h (.inr rfl) (frame_length .status) rfl

theorem exec_readFault (h : s.link = .empty) (hd : s.contain.device ≠ .selfTest) :
    exec .readFault s = .next (s.answered 4 (.done s.faultPayload)) :=
  linkRow_answers h (.inl hd) (frame_length .readFault) (if_neg hd)

theorem exec_readAbort (h : s.link = .empty) (hd : s.contain.device ≠ .selfTest) :
    exec .readAbort s = .next (s.answered 4 (.done s.abortPayload)) :=
  linkRow_answers h (.inl hd) (frame_length .readAbort) (if_neg hd)

end

/-! ## READ-FAULT and READ-ABORT (R179) -/

/-- The byte that tells which fields of a fault record are present, as a sum (R179). -/
theorem presentBits (a b c d : Bool) :
    ((if a then 1 else 0) ||| (if b then 2 else 0) ||| (if c then 4 else 0) ||| (if d then 8 else 0) : Byte) =
      BitVec.ofNat 8 ((if a then 1 else 0) + (if b then 2 else 0) + (if c then 4 else 0) + (if d then 8 else 0)) := by
  revert a b c d
  decide

theorem ite_isSome {α : Type} (o : Option α) (n : Nat) : (if o.isSome then n else 0) = if o = none then 0 else n := by
  cases o <;> rfl

/-- An entry of the abort record has 21 bytes (R179). -/
theorem AbortEntry.payload_length (e : AbortEntry) : e.payload.length = 21 := by
  unfold AbortEntry.payload
  cases e.capture <;> rfl

theorem abortPayload_length (s : State) : s.abortPayload.length = 1 + 21 * s.abort.length := by
  rw [State.abortPayload, List.length_cons, length_flatMap_const fun e _ => e.payload_length, Nat.add_comm]

/-- Entry j of the abort record stands behind the count and the entries before it (R179). -/
theorem abortPayload_entry {s : State} {j : Nat} {e : AbortEntry} (h : s.abort[j]? = some e) :
    (s.abortPayload.drop (1 + 21 * j)).take 21 = e.payload := by
  rw [State.abortPayload, Nat.add_comm, List.drop_succ_cons, take_drop_flatMap (fun e _ => e.payload_length) h]

/-- Settles O47: the payloads part by part; a multi-byte value written least significant byte first is its slices. -/
theorem readsReportTheState : Obligations.reads_report_the_state := by
  unfold Obligations.reads_report_the_state
  refine ⟨fun s hl hdef => ⟨_, exec_status hl, statusPayload_length s, ?_, fun k => ⟨?_, ?_⟩, statusPayload_range s,
    statusPayload_window s⟩, fun s hl hd => ⟨fun hr => ?_, fun r hr => ?_,
    _, exec_readAbort hl hd, abortPayload_length s, rfl, fun j e he => ?_⟩⟩
  · have hstranded : (s.contexts.countP fun c => c.state == .stranded) = (s.contexts.filter fun c => c.state = .stranded).length :=
      List.countP_eq_length_filter
    rw [statusPayload_eq, List.take_left' (statusHead_length s), State.statusHead, hstranded, dwellFlag_eq]
    rfl
  · rw [← slotCode_eq (hdef k)]
    exact statusPayload_slot s k 0 (by decide)
  · rw [show 17 + 2 * k.val = 16 + 2 * k.val + 1 by omega]
    exact statusPayload_slot s k 1 (by decide)
  · rw [exec_readFault hl hd, State.faultPayload, hr]
    rfl
  -- each present or absent field of the record is told as the table tells it
  · rw [exec_readFault hl hd, State.faultPayload, hr]
    simp only [faultBytes, presentBits, ite_isSome]
    cases r.ctx <;> cases r.entry <;> cases r.test <;> rfl
  · rw [abortPayload_entry he, AbortEntry.payload, leBytes_two, leBytes_two]
    cases e.capture <;> rfl

end Sys2Proof.Machine
end

