-- ==== Sys2Proof/Proofs/WaitingCommands.lean ====
section
/-! SUPPORT. No shared operation reads or writes the queue of waiting commands, which is the outside's (log entries 3, 28). -/

namespace Sys2Proof.Machine

/-! ## The frames already known -/

/-- What changes work alone leaves the waiting commands. -/
theorem State.sameButWork.pending {s t : State} (h : s.sameButWork t) : t.pending = s.pending := congrArg Steady.pending h.steady

/-- The waiting commands are part of what is steady. -/
theorem pending_of_steady {s t : State} (h : t.steady = s.steady) : t.pending = s.pending := congrArg Steady.pending h

/-- The waiting commands are part of what stands. -/
theorem pending_of_standing {s t : State} (h : t.standing = s.standing) : t.pending = s.pending := congrArg Standing.pending h

namespace State

variable (n : CtxNo) (c : Context) (s : State)

/-! ## Completions, entry to CANCEL and to CLOSE (R82 to R93, R111, R112) -/

@[simp] theorem handCompletion_pending : (s.handCompletion n).pending = s.pending := (handCompletion_sameButWork n s).pending
@[simp] theorem freeIfDone_pending : (s.freeIfDone n).pending = s.pending := (freeIfDone_sameButWork n s).pending
@[simp] theorem complete_pending : (s.complete n).pending = s.pending :=
  (free_sameButWork n _).pending.trans (handCompletion_pending n s)
@[simp] theorem enterCancel_pending (code : Reply) (answered timed : Bool) :
    (s.enterCancel n code answered timed).pending = s.pending := (enterCancel_sameButWork n code answered timed s).pending
@[simp] theorem enterClose_pending : (s.enterClose n).pending = s.pending := (enterClose_sameButWork n s).pending
@[simp] theorem expireAnswer_pending : (s.expireAnswer c).pending = s.pending := pending_of_steady (expireAnswer_steady c s)
@[simp] theorem strand_pending : (s.strand c).pending = s.pending := pending_of_steady (strand_steady c s)
@[simp] theorem answerCancel_pending : (s.answerCancel n).pending = s.pending := freeIfDone_pending n _

/-! ## Containment, scrubs, the monitor and the expander (R60, R63, R125, R127, R162, R167) -/

@[simp] theorem enterContained_pending : s.enterContained.pending = s.pending := pending_of_standing (enterContained_standing s)
@[simp] theorem scrub_pending (k : SlotNo) (keys : KeyPair) (cause : ScrubCause) :
    (s.scrub k keys cause).pending = s.pending := pending_of_standing (scrub_standing k keys cause s)
@[simp] theorem monitorTick_pending : s.monitorTick.pending = s.pending := congrArg Standing.pending (monitorTick_standing s)
@[simp] theorem eraseSlot_pending (k : SlotNo) (cause : ScrubCause) : (s.eraseSlot k cause).pending = s.pending := by
  rw [eraseSlot_frame]
@[simp] theorem startExpansion_pending (r : Request) : (s.startExpansion r).pending = s.pending := by
  obtain ⟨x, y, h⟩ := startExpansion_frame r s
  rw [h]
@[simp] theorem fill_pending (x : Expansion) : (s.fill x).pending = s.pending := rfl

/-! ## The controller port (R27, R75, R77, R79, R83, R113, R136) -/

@[simp] theorem noteDegrade_pending (d : Bool) : (s.noteDegrade d).pending = s.pending := by
  unfold State.noteDegrade
  split <;> rfl

@[simp] theorem refuseRequest_pending (f : HeaderFields) (code : Reply) : (s.refuseRequest f code).pending = s.pending := by
  unfold State.refuseRequest
  dsimp only
  repeat' split
  all_goals rfl

@[simp] theorem admitRequest_pending (f : HeaderFields) (p : Passage) (w : WindowNo) (cap : Option Capture) :
    (s.admitRequest f p w cap).pending = s.pending := by
  cases hn : s.lowestFree with
  | none => simp only [State.admitRequest, hn]
  | some n =>
    obtain ⟨r, c, k, x, i, h⟩ := admitRequest_frame hn f p w cap
    rw [h]
    rfl

@[simp] theorem advanceIntake_pending (taken : Nat) : (s.advanceIntake c taken).pending = s.pending := rfl

@[simp] theorem upstreamParity_pending (taken : Nat) : (s.upstreamParity c taken).pending = s.pending := by
  unfold State.upstreamParity
  dsimp only
  split <;> simp

@[simp] theorem endPiece_pending : (s.endPiece n).pending = s.pending := by
  unfold State.endPiece
  split <;> rfl

@[simp] theorem beginHold_pending (i : Nat) (b : Beat) : (s.beginHold c i b).pending = s.pending := endPiece_pending c.number s

@[simp] theorem driveUnit_pending (u : SlotUnit) : (s.driveUnit u).pending = s.pending := by
  unfold State.driveUnit
  dsimp only
  repeat' split
  all_goals simp

@[simp] theorem enterSlot_pending (u : SlotUnit) : (s.enterSlot u).pending = s.pending := by
  unfold State.enterSlot
  split
  · exact driveUnit_pending s u
  · rfl

@[simp] theorem takeBeat_pending (taken : Nat) (b : Beat) : (s.takeBeat c taken b).pending = s.pending := by
  unfold State.takeBeat
  dsimp only
  split
  · exact upstreamParity_pending c _ taken
  · split
    · split
      · exact beginHold_pending c _ taken b
      · rfl
    · exact enterSlot_pending _ _

@[simp] theorem dropBeat_pending (left : Nat) (owner : Option CtxNo) : (s.dropBeat left owner).pending = s.pending := by
  unfold State.dropBeat
  dsimp only
  repeat' split
  all_goals simp

@[simp] theorem drainBeat_pending (taken : Nat) : (s.drainBeat c taken).pending = s.pending := by
  unfold State.drainBeat
  dsimp only
  split <;> simp

/-! ## The engines and the media port (R4, R7, R8, R82, R106 to R108, R114, R139, R140) -/

@[simp] theorem keepTweak_pending (t : Block) : (s.keepTweak n t).pending = s.pending := rfl
@[simp] theorem advanceTweak_pending (t : Block) : (s.advanceTweak n t).pending = s.pending := rfl
@[simp] theorem presentMerged_pending (h : Hold) (x : Block) : (s.presentMerged h x).pending = s.pending := rfl
@[simp] theorem loadInbound_pending (j : InboundJob) : (s.loadInbound j).pending = s.pending := rfl
@[simp] theorem startTimer_pending (p : TimerPhase) : (s.startTimer n p).pending = s.pending := rfl
@[simp] theorem stopTimer_pending : (s.stopTimer n).pending = s.pending := rfl
@[simp] theorem issueFetch_pending : (s.issueFetch c).pending = s.pending := rfl
@[simp] theorem issuePiece_pending (u : SlotUnit) : (s.issuePiece c u).pending = s.pending := rfl
@[simp] theorem issueCancel_pending : (s.issueCancel c).pending = s.pending := rfl

@[simp] theorem tryRelease_pending : s.tryRelease.pending = s.pending := by
  unfold State.tryRelease
  dsimp only
  repeat' split
  all_goals rfl

@[simp] theorem mergedPassed_pending (x : Block) : (s.mergedPassed x).pending = s.pending := tryRelease_pending _

@[simp] theorem deliverUnit_pending (x : Block) : (s.deliverUnit c x).pending = s.pending := by
  unfold State.deliverUnit
  dsimp only
  split
  · exact complete_pending c.number _
  · rfl

@[simp] theorem acceptPiece_pending : (s.acceptPiece n).pending = s.pending := by
  unfold State.acceptPiece
  dsimp only
  split
  · exact driveUnit_pending _ _
  · rfl

@[simp] theorem acceptRelease_pending : (s.acceptRelease n).pending = s.pending := by
  unfold State.acceptRelease
  split <;> rfl

@[simp] theorem downstreamParity_pending : (s.downstreamParity c).pending = s.pending :=
  enterCancel_pending c.number _ .parity false false

@[simp] theorem takeFetchUnit_pending (u : ReturnedUnit) : (s.takeFetchUnit c u).pending = s.pending := by
  unfold State.takeFetchUnit
  dsimp only
  split
  · rfl
  · exact deliverUnit_pending c _ u.data

@[simp] theorem endHold_pending (h : Hold) : (s.endHold h c).pending = s.pending := by
  unfold State.endHold
  dsimp only
  split
  · exact enterClose_pending h.ctx _
  · rfl

@[simp] theorem errorInStream_pending : (s.errorInStream c).pending = s.pending := by
  unfold State.errorInStream
  dsimp only
  split
  · exact enterCancel_pending c.number _ .media false false
  · rfl

/-! ## The key link (R174 to R177) -/

@[simp] theorem readEnds_pending (k : Nat) : (s.readEnds k).pending = s.pending := by
  unfold State.readEnds
  dsimp only
  repeat' split
  all_goals rfl

/-- No owner touches the waiting commands; only a scrub and a recovery do more than write a field (R59, R165). -/
@[simp] theorem owner_pending (c : LinkCommand) : (c.owner s).1.pending = s.pending := by
  cases c with
  | status => rfl
  | scrubKey slot =>
    simp only [LinkCommand.owner, State.ownScrubKey]
    repeat' split
    all_goals simp
  | recover =>
    simp only [LinkCommand.owner, State.ownRecover, State.recoverAll]
    repeat' split
    all_goals rfl
  | readFault | readAbort | loadKey | flushSchedules | setRange | openRange | lockRange | setWindow | setLimit | freeze | go
  | armPresence | renew | setAlert | clearEvents | clearFault | clearTallies =>
    simp only [LinkCommand.owner, State.ownReadFault, State.ownReadAbort, State.ownLoadKey, State.ownFlush, State.ownSetRange,
      State.ownOpenRange, State.ownLockRange, State.ownSetWindow, State.ownSetLimit, State.ownFreeze, State.ownGo,
      State.ownArmPresence, State.ownRenew, State.ownSetAlert, State.ownClearEvents, State.ownClearFault, State.ownClearTallies]
    repeat' split
    all_goals rfl

@[simp] theorem judged_pending (b : Bool) (c : LinkCommand) : (s.judged b c.owner).pending = s.pending := by
  unfold State.judged
  split
  · rfl
  · exact owner_pending s c

@[simp] theorem judgeBytes_pending (bytes : List Byte) (k : Nat) : (s.judgeBytes bytes k).pending = s.pending := by
  unfold State.judgeBytes
  split
  · rfl
  · exact judged_pending s _ _

/-- A command period leaves the waiting commands if the judging of its frame does. -/
theorem commandEnds_pending {k : Nat} {judge : State → State} (hj : ∀ u : State, (judge u).pending = u.pending) :
    (s.commandEnds k judge).pending = s.pending := by
  unfold State.commandEnds
  dsimp only
  split
  · exact hj _
  · rfl
  · rfl

end State

end Sys2Proof.Machine
end

