-- ==== Sys2Proof/Proofs/Completion.lean ====
section
/-! SUPPORT. A step hands the front command to its meaning, and every command ends in a next state that keeps the rest of the
queue (log entries 3, 28). -/

namespace Sys2Proof.Machine

/-- Settles O1: on a queue that is not empty the step is the front command's meaning. -/
theorem stepRunsFront : Obligations.step_runs_front := by
  unfold Obligations.step_runs_front
  intro c rest s h
  rw [step, h]

/-! ## Outcomes -/

/-- An outcome that is a next state with the waiting commands of the state before. -/
def State.Completes (s : State) (o : Host.Outcome State Fault Refusal) : Prop := ∃ t, o = .next t ∧ t.pending = s.pending

@[simp] theorem completes_next {s t : State} : s.Completes (.next t) ↔ t.pending = s.pending := by simp [State.Completes]

/-- An arrival that waits or is dropped completes; one that is taken completes if its taking does. -/
theorem completes_onArrival {n : CtxNo} {s : State} {f : Context → Host.Outcome State Fault Refusal}
    (h : ∀ c, s.Completes (f c)) : s.Completes (s.onArrival n f) := by
  unfold State.onArrival
  split
  · simp
  · simp
  · next c _ => exact h c

theorem completes_cancelArrival (n : CtxNo) (s : State) : s.Completes (s.cancelArrival n) := by
  unfold State.cancelArrival
  repeat' split
  all_goals simp

section
variable (s : State)

/-! ## Answers by kind, and the periods of the key link (R104, R108, R172 to R177) -/

/-- An ACCEPT is an arrival, whichever request it names. -/
theorem completes_accept (n : CtxNo) (kind : MediaRequest) : s.Completes (execAccept n kind s) := by
  refine completes_onArrival fun c => ?_
  cases kind <;> dsimp only
  all_goals repeat' split
  all_goals simp

/-- An ERROR is an arrival, whichever request it names. -/
theorem completes_mediaError (n : CtxNo) (kind : MediaRequest) : s.Completes (execMediaError n kind s) := by
  cases kind with
  | cancel => exact completes_cancelArrival n s
  | fetch | store | holdFetch | releaseStore =>
    simp only [execMediaError]
    refine completes_onArrival fun c => ?_
    repeat' split
    all_goals simp

/-- A command row completes, whatever the buffer holds and whatever the owner answers. -/
theorem completes_row (c : LinkCommand) : s.Completes (exec c.row s) := by
  rw [exec_row]
  exact completes_next.2 (s.commandEnds_pending fun u => u.judged_pending _ c)

theorem completes_commandPeriod (first rest : List Bool) : s.Completes (execCommandPeriod first rest s) := by
  unfold execCommandPeriod
  dsimp only
  split
  · simp
  · split
    · simp
    · exact completes_next.2 (s.commandEnds_pending fun u => u.judgeBytes_pending _ _)

/-! ## Every command -/

/-- Every command completes: each branch of its meaning is a next state made by operations that leave the waiting commands. -/
theorem completes_exec (c : Instr) : s.Completes (exec c s) := by
  cases c with
  -- reset, self-test and the controller clear
  | powerOnReset => exact completes_next.2 rfl
  | selfTestEnd | segmentClear | segmentClearDeasserted =>
    simp only [exec, execSelfTestEnd, execSegmentClear, execSegmentClearDeasserted]
    repeat' split
    all_goals simp [State.passSelfTest, State.failSelfTest, State.abandonAll]
  -- the controller port and the return path
  | requestHeader | storeBeat | beatDropped | returnPathDelivery =>
    simp only [exec, execRequestHeader, execStoreBeat, execBeatDropped, execReturnPathDelivery]
    repeat' split
    all_goals simp
  -- the engines and the expander
  | sectorTweak | catchUp | outboundVerify | inboundDecipher | expansionStart | expansionCompletion | erasureCompletion =>
    simp only [exec, execSectorTweak, execCatchUp, execOutboundVerify, execInboundDecipher, execExpansionStart,
      execExpansionCompletion, execErasureCompletion]
    repeat' split
    all_goals simp
  -- the requests the arbiter grants
  | fetchIssue | pieceIssue | cancelIssue =>
    simp only [exec, execFetchIssue, execPieceIssue, execCancelIssue]
    split <;> simp
  -- what arrives from the media
  | accept n kind => exact completes_accept s n kind
  | fetchUnit | holdFetchUnit | fetchDone | pieceDone | holdFetchDone | releaseStoreDone =>
    simp only [exec, execFetchUnit, execHoldFetchUnit, execFetchDone, execPieceDone, execHoldFetchDone, execReleaseStoreDone]
    refine completes_onArrival fun c => ?_
    repeat' split
    all_goals simp
  | mediaError n kind => exact completes_mediaError s n kind
  | cancelAnswer n => exact completes_cancelArrival n s
  | unroutableArrival =>
    simp only [exec, execUnroutableArrival]
    repeat' split
    all_goals simp
  -- the rows of timers and monitor
  | answerTimerExpiry | cancelTimeout | tableMonitorVisit | idleExpiry | presenceLapse | dwellEnd =>
    simp only [exec, execAnswerTimerExpiry, execCancelTimeout, execTableMonitorVisit, execIdleExpiry, execPresenceLapse,
      execDwellEnd]
    repeat' split
    all_goals simp [State.expireIdle, State.lapsePresence]
  -- the key link
  | commandPeriod first rest => exact completes_commandPeriod s first rest
  | preparationEnd | readPeriod =>
    simp only [exec, execPreparationEnd, execReadPeriod]
    split <;> simp
  | status => exact completes_row s .status
  | readFault => exact completes_row s .readFault
  | readAbort => exact completes_row s .readAbort
  | loadKey slot d t => exact completes_row s (.loadKey slot d t)
  | scrubKey slot => exact completes_row s (.scrubKey slot)
  | flushSchedules => exact completes_row s .flushSchedules
  | setRange i f c b l t => exact completes_row s (.setRange i f c b l t)
  | openRange i m => exact completes_row s (.openRange i m)
  | lockRange i => exact completes_row s (.lockRange i)
  | setWindow i t f l d m r => exact completes_row s (.setWindow i t f l d m r)
  | setLimit n => exact completes_row s (.setLimit n)
  | freeze => exact completes_row s .freeze
  | go => exact completes_row s .go
  | recover => exact completes_row s .recover
  | armPresence n => exact completes_row s (.armPresence n)
  | renew => exact completes_row s .renew
  | setAlert e => exact completes_row s (.setAlert e)
  | clearEvents e => exact completes_row s (.clearEvents e)
  | clearFault => exact completes_row s .clearFault
  | clearTallies => exact completes_row s .clearTallies

end

/-- Settles O3, by cases over the commands. -/
theorem everyCommandCompletes : Obligations.every_command_completes := by
  unfold Obligations.every_command_completes
  exact fun c s => completes_exec s c

end Sys2Proof.Machine
end
